-- ==== Sys2Proof/Word.lean ====
section
/-! DEFINITION. The widths the block computes with (spec/46_arithmetic_and_control.md R207): every quantity
is unsigned. Counts, ring indices and time differences are plain naturals; what a register or a command field
holds as bits is a bit vector. -/

namespace Sys2Proof

/-- A byte, the only datum the block moves (R8, R50). -/
abbrev Byte := BitVec 8

/-- A 32-bit word: `CMD`, `RESP`, and every millisecond quantity (R36, R207). -/
abbrev Word := BitVec 32

/-- A value of the millisecond counter or an interval in milliseconds (R35, R207). -/
abbrev Millis := BitVec 32

/-- A logical device index, 8 bits (R16, R64, R207). -/
abbrev DevId := BitVec 8

/-- A physical bus index, 8 bits (R207). -/
abbrev BusId := BitVec 8

end Sys2Proof
end

