-- ==== Sys2Proof/Syntax.lean ====
section
/-! DEFINITION. The command set of spec/30_encoding.md R69, one constructor per row of spec/opcode_table.json,
and the statuses a command answers (spec/10_state.md R28). An operand's type is the 8-bit field that carries it
(R63, R64), so every term of `Instr` is a command the host can issue. -/

namespace Sys2Proof

/-- The nine commands (R65, R69). -/
inductive Instr where
  | acquire (dev : DevId)
  | release (dev : DevId)
  | read (dev : DevId) (rlen : Byte)
  | write (dev : DevId) (wlen : Byte)
  | transfer (dev : DevId) (wlen rlen : Byte)
  | isOwner (dev : DevId)
  | setInputHandler (dev : DevId) (cb : Byte)
  | readLine (dev : DevId) (maxlen : Byte)
  | readAll (dev : DevId) (maxlen : Byte)
  deriving DecidableEq, Repr

/-- The eight results of a command (R28, R157 to R164). -/
inductive BusStatus where
  | ok
  | locked
  | notOwned
  | addressNack
  | dataNack
  | timeout
  | invalidArgument
  | unknownError
  deriving DecidableEq, Repr

/-- The source's taxonomy of the statuses (R165); advice to the host, acted on by no rule. -/
inductive StatusClass where
  | success
  | contention
  | callerMisuse
  | transportFailure
  deriving DecidableEq, Repr

/-- The logical device a command names: field `DEV` of the word (R63). -/
def Instr.dev : Instr → DevId
  | .acquire d => d
  | .release d => d
  | .read d _ => d
  | .write d _ => d
  | .transfer d _ _ => d
  | .isOwner d => d
  | .setInputHandler d _ => d
  | .readLine d _ => d
  | .readAll d _ => d

/-- The nine mnemonics of the opcode table (R69). -/
inductive Mnemonic where
  | acquire
  | release
  | read
  | write
  | transfer
  | isOwner
  | setInputHandler
  | readLine
  | readAll
  deriving DecidableEq, Repr

/-- The row of a command. -/
def Instr.mnemonic : Instr → Mnemonic
  | .acquire _ => .acquire
  | .release _ => .release
  | .read _ _ => .read
  | .write _ _ => .write
  | .transfer _ _ _ => .transfer
  | .isOwner _ => .isOwner
  | .setInputHandler _ _ => .setInputHandler
  | .readLine _ _ => .readLine
  | .readAll _ _ => .readAll

/-- The device, `wlen` and `rlen` of an I/O command (R105 to R107); `none` for any other command. -/
def Instr.io? : Instr → Option (DevId × Byte × Byte)
  | .read d rlen => some (d, 0, rlen)
  | .write d wlen => some (d, wlen, 0)
  | .transfer d wlen rlen => some (d, wlen, rlen)
  | .acquire _ => none
  | .release _ => none
  | .isOwner _ => none
  | .setInputHandler _ _ => none
  | .readLine _ _ => none
  | .readAll _ _ => none

end Sys2Proof
end

