-- ==== Sys2Proof/Config.lean ====
section
/-! DEFINITION. The configuration of the block (spec/00_scope.md R6, spec/10_state.md R14, R15, R22 to R25), the
answers its environment gives (R10, R81), and the free values: opaque constants that stand for a value the spec
leaves open and that no proof can see. -/

namespace Sys2Proof

/-- `BUSCFG[b].transport_kind` (R15). -/
inductive TransportKind where
  | i2c
  | spi
  | uart
  deriving DecidableEq, Repr

/-- `BUSCFG[b].uart_mode`, the UART wire modes (R15, R132). -/
inductive UartMode where
  | txOnly
  | txRx
  | txRxFlow
  deriving DecidableEq, Repr

/-- The immutable part of a bus (R15), with its default lock timeout (R6). `uartMode` is read for a UART bus
only. `wiring` is the rest of the source's wiring, opaque and read by no rule. -/
structure BusCfg where
  kind : TransportKind
  uartMode : UartMode
  defaultTimeout : Millis
  wiring : List Byte
  deriving DecidableEq, Repr

/-- `DEVCFG[d].chip_select` of a device that has one (R25). `autoAssert` is read by no rule (D11). -/
structure ChipSelect where
  port : Byte
  pin : Byte
  activeHigh : Bool
  autoAssert : Bool
  deriving DecidableEq, Repr

/-- The immutable record of a logical device (R22 to R25). `chipSelect = none` is `present` = 0. -/
structure DevCfg where
  bus : BusId
  speed : BitVec 32
  address : BitVec 8
  inactivityTimeout : Millis
  powerUpDelay : Millis
  chipSelect : Option ChipSelect
  deriving DecidableEq, Repr

/-- The whole configuration, the space `CFG` (R6, R47): `NBUS` and `NDEV` are the lengths of the two lists. -/
structure Board where
  buses : List BusCfg
  devs : List DevCfg
  ringCap : Nat
  i2cSpeedA : BitVec 32
  i2cSpeedB : BitVec 32
  pollGranularity : Nat
  deriving DecidableEq, Repr

/-- `LINE_TERMINATOR` = 0x0A (R6, D29). -/
def Config.lineTerminator : Byte := 0x0A

/-- `MAXLEN` (R6, D6). -/
def Config.maxLen : Nat := 255

/-- The size of `WBUF` and of `RBUF` (R44, R45). -/
def Config.bufferSize : Nat := 256

/-- CFG-T of spec/95_test_vectors.md section 0, the spec's own test configuration. DESIGN CHOICE (log 1):
the board `State.reset` is built on, since R42 says "the board's static data" and gives none. -/
def Config.cfgT : Board where
  buses :=
    [ { kind := .i2c, uartMode := .txOnly, defaultTimeout := 1000, wiring := [] },
      { kind := .spi, uartMode := .txOnly, defaultTimeout := 1000, wiring := [] },
      { kind := .uart, uartMode := .txRx, defaultTimeout := 1000, wiring := [] } ]
  devs :=
    [ { bus := 0, speed := 100000, address := 0x44, inactivityTimeout := 100, powerUpDelay := 0,
        chipSelect := none },
      { bus := 0, speed := 400000, address := 0x50, inactivityTimeout := 0, powerUpDelay := 0,
        chipSelect := none },
      { bus := 1, speed := 1000000, address := 0, inactivityTimeout := 50, powerUpDelay := 5,
        chipSelect := some { port := 0, pin := 3, activeHigh := false, autoAssert := true } },
      { bus := 1, speed := 4000000, address := 0, inactivityTimeout := 20, powerUpDelay := 0,
        chipSelect := some { port := 0, pin := 4, activeHigh := true, autoAssert := false } },
      { bus := 2, speed := 115200, address := 0, inactivityTimeout := 0, powerUpDelay := 0,
        chipSelect := none },
      { bus := 0, speed := 250000, address := 0x10, inactivityTimeout := 100, powerUpDelay := 0,
        chipSelect := none } ]
  ringCap := 16
  i2cSpeedA := 100000
  i2cSpeedB := 400000
  pollGranularity := 1

/-! ## The environment's answers (R10 (4), R14, R81) -/

/-- What happens at one `yield` or `wait` point (R10, R55): the UART bytes received there, in arrival order,
the environment's choice of time (`ms`: the advance of `NOW` at a `yield`, its advance but at least n at a
`wait(n)`, and the lateness of the last poll, at most one granularity, where the engine polls, R116), and which
way the last poll falls when it races the deadline (R116 case C). -/
structure Yield where
  rx : List (BusId × Byte)
  ms : Nat
  race : Bool
  deriving DecidableEq, Repr, Inhabited

/-- The draws of `unlock` (R89): teardown succeeded, or failed and left `UP` at the value drawn. -/
inductive Teardown where
  | succeeded
  | failed (up : Bool)
  deriving DecidableEq, Repr, Inhabited

/-- The kinds of an I2C slave's answer (R115). -/
inductive I2cKind where
  | done (bytes : List Byte)
  | addrNack
  | dataNack (k : Nat)
  | error
  deriving DecidableEq, Repr, Inhabited

/-- An I2C slave's answer (R115); `tDone = none` is ∞ (`Never`). -/
structure I2cAnswer where
  kind : I2cKind
  tDone : Option Nat
  deriving DecidableEq, Repr, Inhabited

/-- The environment's answer to a UART write (R134): `t_push` (`none` is ∞) and the number of bytes pushed
when the write times out. -/
structure TxAnswer where
  tPush : Option Nat
  pushed : Nat
  deriving DecidableEq, Repr, Inhabited

/-- The peer's answer to a polled UART read (R137); `tRx = none` is ∞. -/
structure RxAnswer where
  bytes : List Byte
  tRx : Option Nat
  deriving DecidableEq, Repr, Inhabited

/-! ## Free values

One constant per kind of draw, applied to the number of the draw (`State.draws`). They answer wherever the
environment's queues in the state hold no answer; a statement is true whatever they are (log 2). -/

/-- What happens at a yield point. -/
opaque Config.freeYield : Nat → Yield

/-- By how much `NOW` advances between two statements outside a critical section (R55). -/
opaque Config.freeDrift : Nat → Nat

/-- How a teardown ends (R89, D15). -/
opaque Config.freeTeardown : Nat → Teardown

/-- How an I2C slave answers (R115). -/
opaque Config.freeI2c : Nat → I2cAnswer

/-- What an SPI slave shifts out (R126). -/
opaque Config.freeSpi : Nat → Byte

/-- How the UART transmit buffer drains (R134). -/
opaque Config.freeTx : Nat → TxAnswer

/-- How a UART peer answers a polled read (R137). -/
opaque Config.freeRx : Nat → RxAnswer

/-- The unspecified bytes of `RBUF` (R45, U3, U4): draw number, then offset. -/
opaque Config.freeByte : Nat → Nat → Byte

/-- `NOW` after a reset event (R42: unspecified). -/
opaque Config.freeNow : Nat → Millis

end Sys2Proof
end

