-- ==== Sys2Proof/WellFormed.lean ====
section
/-! DEFINITION. Which configurations the block runs on (spec/00_scope.md R6, R7; a model refuses any other, U13).
Each check has its own name. R7 (e), valid kinds and modes, holds by typing. A command needs no check: each
operand's type is its 8-bit field (R63). -/

namespace Sys2Proof

/-- 1 ≤ NBUS ≤ 256 and 1 ≤ NDEV ≤ 256 (R6). -/
def Board.countsOk (c : Board) : Bool :=
  decide (1 ≤ c.buses.length ∧ c.buses.length ≤ 256 ∧ 1 ≤ c.devs.length ∧ c.devs.length ≤ 256)

/-- 1 ≤ DEFAULT_TIMEOUT_MS[b] < 2^31 (R6, D9). -/
def Board.defaultsOk (c : Board) : Bool :=
  c.buses.all fun b => decide (1 ≤ b.defaultTimeout.toNat ∧ b.defaultTimeout.toNat < 2 ^ 31)

/-- 2 ≤ RING_CAP ≤ 256 (R6, D32). -/
def Board.ringCapOk (c : Board) : Bool := decide (2 ≤ c.ringCap ∧ c.ringCap ≤ 256)

/-- The two canonical I2C speeds are distinct and nonzero (R6, D19). -/
def Board.canonicalSpeedsOk (c : Board) : Bool :=
  decide (c.i2cSpeedA ≠ c.i2cSpeedB ∧ c.i2cSpeedA ≠ 0 ∧ c.i2cSpeedB ≠ 0)

/-- Every device names a bus that exists (R7 (a)). -/
def Board.busIndicesOk (c : Board) : Bool :=
  c.devs.all fun d => decide (d.bus.toNat < c.buses.length)

/-- A device on an I2C bus has no chip-select and a 7-bit address (R7 (b)). -/
def Board.i2cDevicesOk (c : Board) : Bool :=
  c.devs.all fun d =>
    match c.buses[d.bus.toNat]? with
    | some b => decide (b.kind = .i2c → d.chipSelect = none ∧ d.address.toNat < 128)
    | none => true

/-- The chip-select pins of the devices that have one, as (port, pin). -/
def Board.pins (c : Board) : List (Byte × Byte) :=
  c.devs.filterMap fun d => d.chipSelect.map fun cs => (cs.port, cs.pin)

/-- No two devices share a chip-select pin (R7 (c), R202). -/
def Board.pinsOk (c : Board) : Bool := decide c.pins.Nodup

/-- Timeouts and delays are below 2^31 (R7 (d)). -/
def Board.intervalsOk (c : Board) : Bool :=
  c.devs.all fun d =>
    decide (d.inactivityTimeout.toNat < 2 ^ 31 ∧ d.powerUpDelay.toNat < 2 ^ 31)

/-- Speeds are nonzero (R7 (f)). -/
def Board.speedsOk (c : Board) : Bool := c.devs.all fun d => decide (d.speed ≠ 0)

/-- A well-formed configuration (R6, R7). -/
def Board.wellFormed (c : Board) : Bool :=
  c.countsOk && c.defaultsOk && c.ringCapOk && c.canonicalSpeedsOk && c.busIndicesOk && c.i2cDevicesOk
    && c.pinsOk && c.intervalsOk && c.speedsOk

end Sys2Proof
end

