-- ==== Sys2Proof/Decode.lean ====
section
/-! DEFINITION. The command word, the response word and the codes of spec/30_encoding.md R63 to R76, and the
stimulus words of R80. Decoding is total (R72); a word that selects no row is rejected by name. -/

namespace Sys2Proof

/-! ## Fields of the command word (R63) -/

/-- `OP` = CMD[31:24]. -/
def fieldOp (w : Word) : Byte := w.extractLsb' 24 8

/-- `DEV` = CMD[23:16]. -/
def fieldDev (w : Word) : DevId := w.extractLsb' 16 8

/-- `A` = CMD[15:8]. -/
def fieldA (w : Word) : Byte := w.extractLsb' 8 8

/-- `B` = CMD[7:0]. -/
def fieldB (w : Word) : Byte := w.extractLsb' 0 8

/-- A word of format C from its four fields (R63). -/
def formatC (op dev a b : Byte) : Word := op ++ dev ++ a ++ b

/-! ## Decoding and encoding -/

/-- Why a word is reserved: its `OP` selects no operation (R73), or its `OP` is defined and a must-be-zero field
is not zero (R74). -/
inductive DecodeError where
  | reservedOp (op : Byte)
  | mustBeZero (op : Byte)
  deriving DecidableEq, Repr

/-- The command a word selects (R69, R72 to R74). -/
def decode (w : Word) : Except DecodeError Instr :=
  let op := fieldOp w
  let d := fieldDev w
  let a := fieldA w
  let b := fieldB w
  if op = 0x01 then
    if a = 0 ∧ b = 0 then .ok (.acquire d) else .error (.mustBeZero op)
  else if op = 0x02 then
    if a = 0 ∧ b = 0 then .ok (.release d) else .error (.mustBeZero op)
  else if op = 0x03 then
    if a = 0 then .ok (.read d b) else .error (.mustBeZero op)
  else if op = 0x04 then
    if b = 0 then .ok (.write d a) else .error (.mustBeZero op)
  else if op = 0x05 then .ok (.transfer d a b)
  else if op = 0x06 then
    if a = 0 ∧ b = 0 then .ok (.isOwner d) else .error (.mustBeZero op)
  else if op = 0x07 then
    if a = 0 then .ok (.setInputHandler d b) else .error (.mustBeZero op)
  else if op = 0x08 then
    if a = 0 then .ok (.readLine d b) else .error (.mustBeZero op)
  else if op = 0x09 then
    if a = 0 then .ok (.readAll d b) else .error (.mustBeZero op)
  else .error (.reservedOp op)

/-- The word of a command (R65, R69). -/
def encode : Instr → Word
  | .acquire d => formatC 0x01 d 0 0
  | .release d => formatC 0x02 d 0 0
  | .read d rlen => formatC 0x03 d 0 rlen
  | .write d wlen => formatC 0x04 d wlen 0
  | .transfer d wlen rlen => formatC 0x05 d wlen rlen
  | .isOwner d => formatC 0x06 d 0 0
  | .setInputHandler d cb => formatC 0x07 d 0 cb
  | .readLine d maxlen => formatC 0x08 d 0 maxlen
  | .readAll d maxlen => formatC 0x09 d 0 maxlen

/-- The mask of a row of the opcode table (R69). -/
def Mnemonic.mask : Mnemonic → Word
  | .acquire => 0xFF00FFFF
  | .release => 0xFF00FFFF
  | .read => 0xFF00FF00
  | .write => 0xFF0000FF
  | .transfer => 0xFF000000
  | .isOwner => 0xFF00FFFF
  | .setInputHandler => 0xFF00FF00
  | .readLine => 0xFF00FF00
  | .readAll => 0xFF00FF00

/-- The match of a row of the opcode table (R69). -/
def Mnemonic.pattern : Mnemonic → Word
  | .acquire => 0x01000000
  | .release => 0x02000000
  | .read => 0x03000000
  | .write => 0x04000000
  | .transfer => 0x05000000
  | .isOwner => 0x06000000
  | .setInputHandler => 0x07000000
  | .readLine => 0x08000000
  | .readAll => 0x09000000

/-- The word `CMD` holds for an instruction of the opcode table: bit 0 of `w` is bit 0 of the command word (a
number presented whole, with no byte order, R50), and bits from `nbits` up are 0. -/
def tableWord (nbits w : Nat) : Word := BitVec.ofNat 32 (w % 2 ^ nbits)

/-- The command the decoder reads from an opcode-table word. -/
def decodeTableWord (nbits w : Nat) : Option Instr :=
  match decode (tableWord nbits w) with
  | .ok i => some i
  | .error _ => none

/-! ## Codes (R70, R71) and the response word (R67, R68) -/

/-- The code of a status (R70). -/
def BusStatus.code : BusStatus → Byte
  | .ok => 0x00
  | .locked => 0x01
  | .notOwned => 0x02
  | .addressNack => 0x03
  | .dataNack => 0x04
  | .timeout => 0x05
  | .invalidArgument => 0x06
  | .unknownError => 0x07

/-- The class of a status (R165). -/
def BusStatus.cls : BusStatus → StatusClass
  | .ok => .success
  | .locked => .contention
  | .notOwned => .callerMisuse
  | .invalidArgument => .callerMisuse
  | .addressNack => .transportFailure
  | .dataNack => .transportFailure
  | .timeout => .transportFailure
  | .unknownError => .transportFailure

/-- The code of a transport kind, for a configuration written as numbers (R71). -/
def TransportKind.code : TransportKind → Nat
  | .i2c => 0
  | .spi => 1
  | .uart => 2

/-- The code of a UART wire mode (R71). -/
def UartMode.code : UartMode → Nat
  | .txOnly => 0
  | .txRx => 1
  | .txRxFlow => 2

/-- The response word: `COUNT`[31:16], zero[15:9], `OVF`[8], `STATUS`[7:0] (R67). -/
def respWord (st : BusStatus) (ovf : Bool) (count : Nat) : Word :=
  (BitVec.ofNat 16 count ++ 0#7) ++ (BitVec.ofBool ovf ++ st.code)

/-- `STATUS` = RESP[7:0]. -/
def respStatus (r : Word) : Byte := r.extractLsb' 0 8

/-- `OVF` = RESP[8]. -/
def respOvf (r : Word) : Bool := r.getLsbD 8

/-- `COUNT` = RESP[31:16]. -/
def respCount (r : Word) : Nat := (r.extractLsb' 16 16).toNat

/-! ## Stimulus words of a script (R80): interpreted by a test harness, never decoded by the block -/

/-- What a word of a script stands for. -/
inductive Stimulus where
  | rxByte (bus : BusId) (x : Byte)
  | advanceTime (ms : Nat)
  | command (w : Word)
  deriving DecidableEq, Repr

/-- A word of a script: `RX_BYTE`, `ADVANCE_TIME`, or a word written to `CMD` (R80). -/
def stimulus (w : Word) : Stimulus :=
  if fieldOp w = 0x80 ∧ fieldA w = 0 then .rxByte (fieldDev w) (fieldB w)
  else if fieldOp w = 0x81 ∧ fieldDev w = 0 then .advanceTime (w.extractLsb' 0 16).toNat
  else .command w

/-! ## Textual syntax (R76) -/

/-- A command's mnemonic and operands, comma separated, device first, in decimal (R76). -/
def Instr.text : Instr → String
  | .acquire d => "ACQUIRE " ++ toString d.toNat
  | .release d => "RELEASE " ++ toString d.toNat
  | .read d n => "READ " ++ toString d.toNat ++ ", " ++ toString n.toNat
  | .write d n => "WRITE " ++ toString d.toNat ++ ", " ++ toString n.toNat
  | .transfer d n m =>
      "TRANSFER " ++ toString d.toNat ++ ", " ++ toString n.toNat ++ ", " ++ toString m.toNat
  | .isOwner d => "IS_OWNER " ++ toString d.toNat
  | .setInputHandler d cb => "SET_INPUT_HANDLER " ++ toString d.toNat ++ ", " ++ toString cb.toNat
  | .readLine d n => "READ_LINE " ++ toString d.toNat ++ ", " ++ toString n.toNat
  | .readAll d n => "READ_ALL " ++ toString d.toNat ++ ", " ++ toString n.toNat

/-- The name of a status (R28). -/
def BusStatus.text : BusStatus → String
  | .ok => "Ok"
  | .locked => "Locked"
  | .notOwned => "NotOwned"
  | .addressNack => "AddressNack"
  | .dataNack => "DataNack"
  | .timeout => "Timeout"
  | .invalidArgument => "InvalidArgument"
  | .unknownError => "UnknownError"

/-- A response as text: the status, then COUNT and OVF where they are not 0 (R76). -/
def responseText (st : BusStatus) (ovf : Bool) (count : Nat) : String :=
  "-> " ++ st.text ++ (if count = 0 ∧ ovf = false then "" else ", COUNT=" ++ toString count)
    ++ (if ovf then ", OVF=1" else "")

end Sys2Proof
end

