-- ==== Sys2Proof/Machine/State.lean ====
section
/-! DEFINITION. Everything the spec gives the block as state (spec/10_state.md R15 to R42), the stimuli and the
environment's answers that reach it from outside (R13, R55, R81), the ways a step can stop, and reset (R185).

Records indexed by a bus or a device are tables: lists of (index, record) with indices rising and no record
equal to the one an unlisted index has, which is the record's reset value (`tableGet`, Machine/Ops.lean). Byte
spaces are such tables of `Host.Cell`; an unlisted offset reads as 0x00 (DESIGN CHOICE, log 3). -/

namespace Sys2Proof.Machine

/-- The registers of one bus (R16 to R19). -/
structure Bus where
  ownerId : DevId
  locked : Bool
  expStart : Millis
  expInterval : Millis
  up : Bool
  deriving DecidableEq, Repr

/-- The reset value of a bus (R42); `EXP_START` and `EXP_INTERVAL`, which R42 leaves unspecified, are 0
(DESIGN CHOICE, log 4). -/
def Bus.free : Bus where
  ownerId := 0
  locked := false
  expStart := 0
  expInterval := 0
  up := false

/-- The registers of one `UartRxRing` (R29, R30, R32). -/
structure Ring where
  buf : List Host.Cell
  head : Nat
  tail : Nat
  mark : Option Nat
  ovf : Bool
  deriving DecidableEq, Repr

/-- The reset value of a ring (R42); its bytes are unspecified and read as 0x00 (DESIGN CHOICE, log 3). -/
def Ring.empty : Ring where
  buf := []
  head := 0
  tail := 0
  mark := none
  ovf := false

/-- The content `Some (d, cb)` of `HANDLER[b]` (R33). -/
structure Handler where
  dev : DevId
  cb : Byte
  deriving DecidableEq, Repr

/-- An entry of `I2CLOG[b]` (R41). -/
structure I2cEntry where
  address : BitVec 7
  written : List Byte
  rlen : Nat
  outcome : BusStatus
  deriving DecidableEq, Repr

/-- An entry of `SPILOG[b]` (R41). -/
structure SpiEntry where
  dev : DevId
  tx : Byte
  rx : Byte
  deriving DecidableEq, Repr

/-- An entry of `NOTIFY`, one callback invocation (R41, R141). -/
structure NotifyEntry where
  dev : DevId
  cb : Byte
  byte : Byte
  deriving DecidableEq, Repr

/-- What reaches the block from outside: between two commands the host writes `CMD` (R66), the host writes one byte of
`WBUF` (R44), a UART byte arrives, the clock ticks (R55); and at any time, a command in execution or not, the whole
device is reset (R185). -/
inductive Input where
  | command (w : Word)
  | hostWrite (off : Nat) (x : Byte)
  | rxByte (bus : BusId) (x : Byte)
  | ticks (n : Nat)
  | reset
  deriving DecidableEq, Repr

/-- The environment's answers still to be drawn, one queue for each kind of draw, first answer first (R10 (4),
R81). Where a queue is empty the answer is the free value of that kind. -/
structure Env where
  yields : List Yield
  drifts : List Nat
  teardowns : List Teardown
  i2c : List I2cAnswer
  spi : List Byte
  tx : List TxAnswer
  rx : List RxAnswer
  deriving DecidableEq, Repr

/-- No answer supplied: every draw is a free value. -/
def Env.unknown : Env where
  yields := []
  drifts := []
  teardowns := []
  i2c := []
  spi := []
  tx := []
  rx := []

/-- The state of the block.

Of the spec: `cfg` (R6, R14, R47; never written); `busy`, the sequencing state (R39); the command port `cmd`,
`resp`, `wbuf`, `rbuf` (R36, R44, R45); `now` (R35); `buses` (R16 to R19); `cs` (R27); `rings` (R29 to R32);
`handlers` (R33); the observation logs `txlog`, `i2clog`, `spilog`, `notify` (R41).

Of the model: `inputs`, the stimuli still to come; `env`, the answers still to be drawn; `draws`, the number of
free values drawn; `rbufValid` and `rbufFree`, which say that the bytes of `RBUF` from offset `rbufValid` are the
free bytes of draw `rbufFree` (R45, U3, U4; log 5). -/
structure State where
  cfg : Board
  busy : Bool
  cmd : Word
  resp : Word
  wbuf : List Host.Cell
  rbuf : List Host.Cell
  rbufValid : Nat
  rbufFree : Nat
  now : Millis
  buses : List (Nat × Bus)
  cs : List (Nat × Bool)
  rings : List (Nat × Ring)
  handlers : List (Nat × Option Handler)
  txlog : List (Nat × List Byte)
  i2clog : List (Nat × List I2cEntry)
  spilog : List (Nat × List SpiEntry)
  notify : List NotifyEntry
  inputs : List Input
  env : Env
  draws : Nat
  deriving DecidableEq, Repr

/-- Why the machine stops. Every command of the block ends with a response (R72), so no command faults. -/
inductive Fault where
  /-- The host writes `WBUF` at an offset of 256 or more, which does not exist (R44, R51): raised by the step that
  takes an `Input.hostWrite`. Safe: the machine stops. -/
  | noSuchOffset (off : Nat)
  deriving DecidableEq, Repr

/-- Why the model declines to run. -/
inductive Refusal where
  /-- An instruction that has no meaning yet: raised by an arm of `exec`, and by none of this model. Safe. -/
  | notModelled (mnemonic : String)
  /-- The configuration is not well formed: "a model refuses any other" (R7, U13). Raised by `step`. Safe. -/
  | illFormedConfig
  deriving DecidableEq, Repr

/-- The state after reset on a board, with the millisecond counter at `now` (R42, R185, R186). Registers that R42
leaves unspecified hold 0 (log 4) and the bytes of `RBUF` are free (log 5). -/
def State.boot (cfg : Board) (now : Millis) : State where
  cfg := cfg
  busy := false
  cmd := 0
  resp := 0
  wbuf := []
  rbuf := []
  rbufValid := 0
  rbufFree := 0
  now := now
  buses := []
  cs := []
  rings := []
  handlers := []
  txlog := []
  i2clog := []
  spilog := []
  notify := []
  inputs := []
  env := Env.unknown
  draws := 1

/-- The machine right after reset: the board is CFG-T (DESIGN CHOICE, log 1) and `NOW`, which R42 leaves
unspecified, is 0 (DESIGN CHOICE, log 4). -/
def State.reset : State := State.boot Config.cfgT 0

end Sys2Proof.Machine
end

