-- ==== Sys2Proof/Machine/Ops.lean ====
section
/-! DEFINITION. The named operations the meanings are built from: tables and byte spaces, registers, time, the
environment's draws, the receive interrupt (spec/44_uart.md R141 to R144), how a command ends (spec/60_exceptions.md
R169, the block's counterpart of taking an exception; it has no return instruction, R171), and the polling rule
(spec/42_i2c.md R116). -/

namespace Sys2Proof.Machine

/-! ## Tables: sparse data by index, in one canonical form -/

section Tables

variable {α : Type}

/-- The record at an index; an unlisted index has the default record. -/
def tableGet (dflt : α) : List (Nat × α) → Nat → α
  | [], _ => dflt
  | (j, v) :: t, k => if j = k then v else tableGet dflt t k

/-- The table without an index. -/
def tableErase (k : Nat) : List (Nat × α) → List (Nat × α)
  | [] => []
  | (j, v) :: t => if j = k then tableErase k t else (j, v) :: tableErase k t

/-- The table with a record put before the first larger index. -/
def tableInsert (k : Nat) (v : α) : List (Nat × α) → List (Nat × α)
  | [] => [(k, v)]
  | (j, w) :: t => if k < j then (k, v) :: (j, w) :: t else (j, w) :: tableInsert k v t

/-- The table with one record replaced; the default record is not listed. -/
def tableSet [DecidableEq α] (dflt : α) (t : List (Nat × α)) (k : Nat) (v : α) : List (Nat × α) :=
  if v = dflt then tableErase k t else tableInsert k v (tableErase k t)

/-- The canonical form: indices strictly rising, no record equal to the default. -/
def tableWf [DecidableEq α] (dflt : α) (t : List (Nat × α)) : Bool :=
  decide ((t.map Prod.fst).Pairwise (· < ·)) && t.all fun p => decide (p.2 ≠ dflt)

end Tables

/-! ## Byte spaces (R9 (2), R43) -/

/-- What an offset nothing has written reads as. DESIGN CHOICE (log 3): R42 leaves it unspecified. -/
def unwritten : Byte := 0x00

/-- One byte of a space. -/
def memRead (m : List Host.Cell) (a : Nat) : Byte := tableGet unwritten m a

/-- A space with one byte stored. -/
def memWrite (m : List Host.Cell) (a : Nat) (x : Byte) : List Host.Cell := tableSet unwritten m a x

/-- The canonical form of a space. -/
def Memory.wf (m : List Host.Cell) : Bool := tableWf unwritten m

/-- `MemRead(space, a, n)` (R9). -/
def readBytes (m : List Host.Cell) (a : Nat) : Nat → List Byte
  | 0 => []
  | n + 1 => memRead m a :: readBytes m (a + 1) n

/-- `MemWrite(space, a, len v, v)` (R9). -/
def writeBytes (m : List Host.Cell) (a : Nat) : List Byte → List Host.Cell
  | [] => m
  | x :: xs => writeBytes (memWrite m a x) (a + 1) xs

/-! ## Registers -/

/-- The registers of bus b. -/
def State.bus (s : State) (b : BusId) : Bus := tableGet Bus.free s.buses b.toNat

/-- Writes the registers of bus b. -/
def State.setBus (s : State) (b : BusId) (v : Bus) : State :=
  { s with buses := tableSet Bus.free s.buses b.toNat v }

/-- `CS[d]`. -/
def State.csOf (s : State) (d : DevId) : Bool := tableGet false s.cs d.toNat

/-- Writes `CS[d]`. -/
def State.setCs (s : State) (d : DevId) (v : Bool) : State :=
  { s with cs := tableSet false s.cs d.toNat v }

/-- `RING[d]`. -/
def State.ring (s : State) (d : DevId) : Ring := tableGet Ring.empty s.rings d.toNat

/-- Writes `RING[d]`. -/
def State.setRing (s : State) (d : DevId) (r : Ring) : State :=
  { s with rings := tableSet Ring.empty s.rings d.toNat r }

/-- `HANDLER[b]`, which is also the context of the receive line of bus b in the interrupt routing table (R34). -/
def State.handler (s : State) (b : BusId) : Option Handler := tableGet none s.handlers b.toNat

/-- Writes `HANDLER[b]`. -/
def State.setHandler (s : State) (b : BusId) (h : Option Handler) : State :=
  { s with handlers := tableSet none s.handlers b.toNat h }

/-- One byte of `RBUF`: from offset `rbufValid` on it is a free value (R45). -/
def State.rbufByte (s : State) (i : Nat) : Byte :=
  if i < s.rbufValid then memRead s.rbuf i else Config.freeByte s.rbufFree i

/-- `MemWrite(RBUF, 0, len v, v)` by a command that answers COUNT = len v: the bytes at offsets ≥ COUNT become
free values (R45, U4). -/
def State.storeRbuf (s : State) (v : List Byte) : State :=
  { s with
    rbuf := writeBytes [] 0 v
    rbufValid := v.length
    rbufFree := s.draws
    draws := s.draws + 1 }

/-- Every byte of `RBUF` becomes a free value, and no other register changes: what a status other than `Ok` leaves of
`RBUF` (R45, R203, U3, D21; log 5). -/
def State.spoilRbuf (s : State) : State := s.storeRbuf []

/-! ## Observation logs (R41): entries are appended -/

/-- `TXLOG[b]`. -/
def State.txlogOf (s : State) (b : BusId) : List Byte := tableGet [] s.txlog b.toNat

/-- `TXLOG[b] ++= v`. -/
def State.emitTx (s : State) (b : BusId) (v : List Byte) : State :=
  { s with txlog := tableSet [] s.txlog b.toNat (s.txlogOf b ++ v) }

/-- `I2CLOG[b]`. -/
def State.i2clogOf (s : State) (b : BusId) : List I2cEntry := tableGet [] s.i2clog b.toNat

/-- `I2CLOG[b] ++= e`. -/
def State.emitI2c (s : State) (b : BusId) (e : I2cEntry) : State :=
  { s with i2clog := tableSet [] s.i2clog b.toNat (s.i2clogOf b ++ [e]) }

/-- `SPILOG[b]`. -/
def State.spilogOf (s : State) (b : BusId) : List SpiEntry := tableGet [] s.spilog b.toNat

/-- `SPILOG[b] ++= e`. -/
def State.emitSpi (s : State) (b : BusId) (e : SpiEntry) : State :=
  { s with spilog := tableSet [] s.spilog b.toNat (s.spilogOf b ++ [e]) }

/-- `NOTIFY ++= e`. -/
def State.emitNotify (s : State) (e : NotifyEntry) : State := { s with notify := s.notify ++ [e] }

/-! ## Time (R35, R55) -/

/-- n clock ticks: `NOW <- (NOW + n) mod 2^32`. -/
def State.advance (s : State) (n : Nat) : State := { s with now := s.now + BitVec.ofNat 32 n }

/-! ## How a command ends (R66, R67, R169) -/

/-- The block writes `RESP` and becomes idle. -/
def State.respond (s : State) (st : BusStatus) (ovf : Bool) (count : Nat) : State :=
  { s with resp := respWord st ovf count, busy := false }

/-- `raise S` (R9 (4), R169): the response is S with `OVF` = 0 and `COUNT` = 0; what was written before stays
written, nothing is saved and control goes nowhere. After it every byte of `RBUF` is unspecified (R45, D21). -/
def State.raise (s : State) (st : BusStatus) : State := s.spoilRbuf.respond st false 0

/-! ## Draws (R10 (4)): the next answer of a queue, or the free value of its kind -/

/-- The next answer for a yield point. -/
def State.drawYield (s : State) : Yield × State :=
  match s.env.yields with
  | y :: ys => (y, { s with env := { s.env with yields := ys } })
  | [] => (Config.freeYield s.draws, { s with draws := s.draws + 1 })

/-- The next advance of `NOW` between two statements. -/
def State.drawDrift (s : State) : Nat × State :=
  match s.env.drifts with
  | n :: ns => (n, { s with env := { s.env with drifts := ns } })
  | [] => (Config.freeDrift s.draws, { s with draws := s.draws + 1 })

/-- The next teardown outcome (R89). -/
def State.drawTeardown (s : State) : Teardown × State :=
  match s.env.teardowns with
  | t :: ts => (t, { s with env := { s.env with teardowns := ts } })
  | [] => (Config.freeTeardown s.draws, { s with draws := s.draws + 1 })

/-- The next I2C answer (R115). -/
def State.drawI2c (s : State) : I2cAnswer × State :=
  match s.env.i2c with
  | a :: rest => (a, { s with env := { s.env with i2c := rest } })
  | [] => (Config.freeI2c s.draws, { s with draws := s.draws + 1 })

/-- The next byte an SPI slave shifts out (R126). -/
def State.drawSpi (s : State) : Byte × State :=
  match s.env.spi with
  | x :: xs => (x, { s with env := { s.env with spi := xs } })
  | [] => (Config.freeSpi s.draws, { s with draws := s.draws + 1 })

/-- The next answer to a UART write (R134). -/
def State.drawTx (s : State) : TxAnswer × State :=
  match s.env.tx with
  | a :: rest => (a, { s with env := { s.env with tx := rest } })
  | [] => (Config.freeTx s.draws, { s with draws := s.draws + 1 })

/-- The next answer to a polled UART read (R137). -/
def State.drawRx (s : State) : RxAnswer × State :=
  match s.env.rx with
  | a :: rest => (a, { s with env := { s.env with rx := rest } })
  | [] => (Config.freeRx s.draws, { s with draws := s.draws + 1 })

/-- `NOW` advances between two statements outside a critical section (R55). -/
def State.drift (s : State) : State :=
  let (n, s1) := s.drawDrift
  s1.advance n

/-- How a command ends that has read `NOW` outside a poll: time may pass between that reading and the response (R55,
R98), and then the response is `Ok` with COUNT 0, or the status is raised. -/
def State.conclude (s : State) (st : BusStatus) : State :=
  if st = .ok then s.drift.respond .ok false 0 else s.drift.raise st

/-- A drawn byte sequence as one of the length the rule demands (R115, R137): a sequence of that length is itself,
any other stands for one of that length. -/
def fitBytes : Nat → List Byte → List Byte
  | 0, _ => []
  | n + 1, [] => 0 :: fitBytes n []
  | n + 1, x :: xs => x :: fitBytes n xs

/-! ## The receive interrupt (R142 to R144) -/

/-- `(i + k) mod RING_CAP` (R209). -/
def ringAdvance (cap i k : Nat) : Nat := (i + k) % cap

/-- `(i − j) mod RING_CAP`, the non-negative remainder (R209). -/
def ringDist (cap i j : Nat) : Nat := (i + (cap - j % cap)) % cap

/-- The receive event of bus b is enabled (R142). -/
def State.rxEnabled (s : State) (b : BusId) : Bool :=
  match s.cfg.buses[b.toNat]? with
  | none => false
  | some c => c.kind == .uart && c.uartMode != .txOnly && (s.bus b).up && (s.handler b).isSome

/-- The ring is full: "advancing head would equal tail" (R31). -/
def Ring.full (cap : Nat) (r : Ring) : Bool := ringAdvance cap r.head 1 == r.tail

/-- The receive step on the ring of the handler device (R143); a full ring drops the byte and raises `OVF`
(R144). -/
def Ring.receive (cap : Nat) (r : Ring) (x : Byte) : Ring :=
  if r.full cap then { r with ovf := true }
  else
    { r with
      buf := memWrite r.buf r.head x
      head := ringAdvance cap r.head 1
      mark := if x = Config.lineTerminator then some (ringAdvance cap r.head 1) else r.mark }

/-- `RxByte(b, x)` (R143): where it is not enabled the byte is lost (R142). The callback is invoked once for each
byte stored (R141). -/
def State.rxByte (s : State) (b : BusId) (x : Byte) : State :=
  if s.rxEnabled b then
    match s.handler b with
    | none => s
    | some h =>
      let r := s.ring h.dev
      let s1 := s.setRing h.dev (r.receive s.cfg.ringCap x)
      if r.full s.cfg.ringCap then s1 else s1.emitNotify { dev := h.dev, cb := h.cb, byte := x }
  else s

/-- Receive events in arrival order (R58). -/
def State.rxBytes (s : State) : List (BusId × Byte) → State
  | [] => s
  | e :: es => (s.rxByte e.1 e.2).rxBytes es

/-- A yield point: receive events occur and `NOW` advances by `ms` (R10 (3), R55). The receive step reads no time
and the clock writes no ring, so their order is of no account. -/
def State.pass (s : State) (rx : List (BusId × Byte)) (ms : Nat) : State := (s.rxBytes rx).advance ms

/-- `yield` (R10 (3)). -/
def State.yieldPoint (s : State) : State :=
  let (y, s1) := s.drawYield
  s1.pass y.rx y.ms

/-- `wait(n)` (R10 (2), R208): `NOW` advances by an amount ≥ n that the environment chooses. -/
def State.wait (s : State) (n : Nat) : State :=
  let (y, s1) := s.drawYield
  s1.pass y.rx (max n y.ms)

/-! ## The polling rule (R116) -/

/-- Where a poll ends: whether the transaction's own outcome was seen, and after how many milliseconds. -/
structure PollEnd where
  finished : Bool
  ms : Nat
  deriving DecidableEq, Repr

/-- R116, in milliseconds from the start t_s: `rem` = D* − t_s, `gran` = G, `done` = t_f − t_s (`none` is ∞),
`late` the lateness of the last poll, `race` the way case C falls. -/
def poll (rem gran : Nat) (done : Option Nat) (race : Bool) (late : Nat) : PollEnd :=
  match done with
  | none => { finished := false, ms := rem + min late gran }
  | some t =>
    if t < rem then { finished := true, ms := t + min late gran }
    else if rem + gran < t then { finished := false, ms := rem + min late gran }
    else if race then { finished := true, ms := t + min late gran }
    else { finished := false, ms := rem + min late gran }

end Sys2Proof.Machine
end

