-- ==== Sys2Proof/Machine/Operands.lean ====
section
/-! DEFINITION. The operand forms of the commands (spec/46_arithmetic_and_control.md R212, spec/30_encoding.md
R64, R65): the device operand and the configuration records it selects, the buffer form (offset i of `WBUF` or
`RBUF`, base 0) and the ring form (offset (TAIL + i) mod RING_CAP). -/

namespace Sys2Proof.Machine

/-! ## The device operand and its records (R64, R83) -/

/-- `DEVCFG[d]`, or `none` when d ≥ NDEV: the device operand is invalid (R83). -/
def State.dev? (s : State) (d : DevId) : Option DevCfg := s.cfg.devs[d.toNat]?

/-- `BUSCFG[b]`, or `none` when b ≥ NBUS, which a well-formed configuration's devices never name (R7 (a)). -/
def State.busCfg? (s : State) (b : BusId) : Option BusCfg := s.cfg.buses[b.toNat]?

/-- Bus b is of the given kind (R15). -/
def State.busIs (s : State) (b : BusId) (k : TransportKind) : Bool :=
  match s.busCfg? b with
  | none => false
  | some c => c.kind == k

/-- Bus b is in the UART mode `TX_ONLY` (R132). -/
def State.busTxOnly (s : State) (b : BusId) : Bool :=
  match s.busCfg? b with
  | none => false
  | some c => c.uartMode == .txOnly

/-- `DEFAULT_TIMEOUT_MS[b]` (R6). -/
def State.defaultTimeout (s : State) (b : BusId) : Millis :=
  match s.busCfg? b with
  | none => 0
  | some c => c.defaultTimeout

/-- Device d has a chip-select (R25). -/
def State.hasCs (s : State) (d : DevId) : Bool :=
  match s.dev? d with
  | none => false
  | some c => c.chipSelect.isSome

/-- The level of the chip-select pin of d, high as `true` (R27): `active_high` when asserted, 1 − `active_high`
when deasserted; `none` for a device without one. -/
def State.pinLevel (s : State) (d : DevId) : Option Bool :=
  match s.dev? d with
  | none => none
  | some c => c.chipSelect.map fun p => if s.csOf d then p.activeHigh else !p.activeHigh

/-- The I2C slave address `DEVCFG[d].address[6:0]` (R113). -/
def slaveAddress (c : DevCfg) : BitVec 7 := c.address.setWidth 7

/-! ## The buffer form -/

/-- `MemRead(WBUF, 0, n)` (R44, R105). -/
def State.wbufBytes (s : State) (n : Nat) : List Byte := readBytes s.wbuf 0 n

/-- The first n bytes of `RBUF` (R45). -/
def State.rbufBytes (s : State) (n : Nat) : List Byte := (List.range n).map s.rbufByte

/-! ## The ring form (R31, R148, R212) -/

/-- `count`: the number of unread bytes (R148). -/
def Ring.count (cap : Nat) (r : Ring) : Nat := ringDist cap r.head r.tail

/-- `u(i)`: the i-th unread byte, oldest first (R148). -/
def Ring.byteAt (cap : Nat) (r : Ring) (i : Nat) : Byte := memRead r.buf (ringAdvance cap r.tail i)

/-- The n bytes from `TAIL` on, offsets modulo RING_CAP (R149, R152). -/
def Ring.bytes (cap : Nat) (r : Ring) (n : Nat) : List Byte := (List.range n).map (r.byteAt cap)

/-- The unread bytes, oldest first (R31). -/
def Ring.unread (cap : Nat) (r : Ring) : List Byte := r.bytes cap (r.count cap)

/-- The length of the first line of a byte sequence, its terminator included; the whole length where there is no
terminator. -/
def lineLength : List Byte → Nat
  | [] => 0
  | x :: xs => if x = Config.lineTerminator then 1 else lineLength xs + 1

/-- `n1`: the length of the first complete line (R148). It is used only when `MARK` ≠ `none`, and then an unread
terminator exists by the marker invariant (R31); in a state that breaks that invariant it is `count` (log 9). -/
def Ring.firstLine (cap : Nat) (r : Ring) : Nat := lineLength (r.unread cap)

/-- `mo` for the marker m: the number of unread bytes up to and including the last terminator (R148). -/
def Ring.markOffset (cap : Nat) (r : Ring) (m : Nat) : Nat := ringDist cap m r.tail

/-- The consumer's index update after taking n bytes (R149, R152): the marker is cleared when the last unread
terminator has been consumed, `TAIL` advances, `OVF` is cleared (R154). -/
def Ring.consume (cap : Nat) (r : Ring) (n : Nat) : Ring :=
  { r with
    mark := match r.mark with
      | none => none
      | some m => if r.markOffset cap m ≤ n then none else some m
    tail := ringAdvance cap r.tail n
    ovf := false }

end Sys2Proof.Machine
end

