-- ==== Sys2Proof/Machine/Flags.lean ====
section
/-! DEFINITION. The tests the commands make. The block has no condition codes (spec/10_state.md R40); its one-bit
state is `LOCKED`, `UP`, `CS`, `OVF` and the presence of `MARK` and `HANDLER`, and what a command decides it
decides by the predicates below. -/

namespace Sys2Proof.Machine

/-- `BUS[b].LOCKED = 1 and BUS[b].OWNER_ID = d`: the ownership test of every command (R92, R103). The expiry timer
is no part of it (D10). -/
def State.owns (s : State) (b : BusId) (d : DevId) : Bool := (s.bus b).locked && (s.bus b).ownerId == d

/-- The owner of bus b, or none (R16, R17). -/
def State.owner? (s : State) (b : BusId) : Option DevId :=
  if (s.bus b).locked then some (s.bus b).ownerId else none

/-- `(NOW − EXP_START) mod 2^32` (R208). -/
def State.age (s : State) (b : BusId) : Nat := (s.now - (s.bus b).expStart).toNat

/-- `elapsed(b)` (R85). -/
def State.elapsed (s : State) (b : BusId) : Bool := decide ((s.bus b).expInterval.toNat ≤ s.age b)

/-- D* − NOW, the time left to the deadline of bus b, 0 when it has passed (R116, log 8). -/
def State.remaining (s : State) (b : BusId) : Nat := (s.bus b).expInterval.toNat - s.age b

/-- The derived state of a logical-device handle (R99). -/
inductive HandleState where
  | idle
  | live
  | stale
  deriving DecidableEq, Repr

/-- The handle state of device d, whose bus is b (R99). -/
def State.handleState (s : State) (b : BusId) (d : DevId) : HandleState :=
  if s.owns b d then (if s.elapsed b then .stale else .live) else .idle

/-- d is the handler device of bus b: `HANDLER[b] = Some (d, _)` (R140, R147). -/
def State.isHandler (s : State) (b : BusId) (d : DevId) : Bool :=
  match s.handler b with
  | none => false
  | some h => h.dev == d

/-- A transfer that reads is refused on bus b: a UART that is `TX_ONLY` or has a handler (R102 (b)). -/
def State.readRefused (s : State) (b : BusId) : Bool :=
  s.busIs b .uart && (s.busTxOnly b || (s.handler b).isSome)

/-- The ring of d may be read by `READ_LINE` and `READ_ALL` (R147). -/
def State.ringReadable (s : State) (b : BusId) (d : DevId) : Bool := s.busIs b .uart && s.isHandler b d

end Sys2Proof.Machine
end

