-- ==== Sys2Proof/Machine/Transport.lean ====
section
/-! DEFINITION. The three transport engines behind one capability (spec/30_encoding.md R78, R79): bring-up
`init`, the back-end transfer `xfer`, and the admissible answers of the environment (spec/42_i2c.md,
spec/43_spi.md, spec/44_uart.md). Teardown has no effect on a register but `UP`, which the unlock path writes
(R122, R129, R139). -/

namespace Sys2Proof.Machine

/-! ## Bring-up -/

/-- `i2c_init` (R112): the speed is validated against the two canonical speeds. -/
def i2cInit (c : Board) (dc : DevCfg) : BusStatus :=
  if dc.speed ≠ c.i2cSpeedA ∧ dc.speed ≠ c.i2cSpeedB then .invalidArgument else .ok

/-- `spi_init` (R124): always `Ok`. -/
def spiInit (_c : Board) (_dc : DevCfg) : BusStatus := .ok

/-- `uart_init` (R131): always `Ok`; no handler and no ring is touched. -/
def uartInit (_c : Board) (_dc : DevCfg) : BusStatus := .ok

/-- The status of `init(b, d)`, dispatched on the transport kind (R79, R87). A bus that does not exist has no
transport; a well-formed configuration's device never names one (R7 (a)). -/
def State.initStatus (s : State) (dc : DevCfg) : BusStatus :=
  match s.busCfg? dc.bus with
  | none => .invalidArgument
  | some bc =>
    match bc.kind with
    | .i2c => i2cInit s.cfg dc
    | .spi => spiInit s.cfg dc
    | .uart => uartInit s.cfg dc

/-- `init(b, d)` (R87): a successful bring-up sets `UP`. -/
def State.bringUp (s : State) (dc : DevCfg) : BusStatus × State :=
  let st := s.initStatus dc
  (st, if st = .ok then s.setBus dc.bus { s.bus dc.bus with up := true } else s)

/-! ## The result of a transfer -/

/-- What `xfer` returns (R104): the status, the received bytes (of length rlen when the status is `Ok`), and the
state it leaves. -/
structure XferResult where
  status : BusStatus
  data : List Byte
  state : State
  deriving DecidableEq, Repr

/-! ## The I2C transaction engine -/

/-- A drawn kind as an admissible one for a transaction that writes `wlen` bytes and reads `rlen` (R115): an
admissible kind is itself; `Done` carries rlen bytes, and `DataNack(k)` has k < wlen, so with nothing written it
stands for `AddrNack` (log 7). -/
def i2cAdmissible (wlen rlen : Nat) : I2cKind → I2cKind
  | .done r => .done (fitBytes rlen r)
  | .addrNack => .addrNack
  | .dataNack k => if wlen = 0 then .addrNack else .dataNack (min k (wlen - 1))
  | .error => .error

/-- `status(kind)` (R116). -/
def i2cStatus : I2cKind → BusStatus
  | .done _ => .ok
  | .addrNack => .addressNack
  | .dataNack _ => .dataNack
  | .error => .unknownError

/-- The bytes read, none unless the transaction completed (R117). -/
def i2cBytes : I2cKind → List Byte
  | .done r => r
  | .addrNack => []
  | .dataNack _ => []
  | .error => []

/-- `i2c_xfer(b, d, W, rlen)` (R117), with the outcome and the end instant of R116. -/
def State.i2cXfer (s : State) (dc : DevCfg) (w : List Byte) (rlen : Nat) : XferResult :=
  let (a, s1) := s.drawI2c
  let k := i2cAdmissible w.length rlen a.kind
  let (y, s2) := s1.drawYield
  let p := poll (s.remaining dc.bus) s.cfg.pollGranularity a.tDone y.race y.ms
  let st := if p.finished then i2cStatus k else .timeout
  { status := st
    data := if p.finished then i2cBytes k else []
    state := (s2.pass y.rx p.ms).emitI2c dc.bus
      { address := slaveAddress dc, written := w, rlen := rlen, outcome := st } }

/-! ## The SPI byte-shift engine -/

/-- The byte transmitted in an exchange: real data while input remains, then zero padding (R127). -/
def spiTx : List Byte → Byte
  | [] => 0x00
  | x :: _ => x

/-- n exchanges from here on, `w` being the data not yet sent and `want` the number of bytes still to capture:
the captured bytes and the state (R127). -/
def State.spiShift (s : State) (b : BusId) (d : DevId) : Nat → List Byte → Nat → List Byte × State
  | 0, _, _ => ([], s)
  | n + 1, w, want =>
    let (rx, s1) := s.drawSpi
    let s2 := (s1.emitSpi b { dev := d, tx := spiTx w, rx := rx }).yieldPoint
    let (r, s3) := s2.spiShift b d n w.tail (want - 1)
    (if want = 0 then r else rx :: r, s3)

/-- `spi_xfer(b, d, W, rlen)` (R127): max(wlen, rlen) exchanges, always `Ok` (R128). -/
def State.spiXfer (s : State) (d : DevId) (dc : DevCfg) (w : List Byte) (rlen : Nat) : XferResult :=
  let (r, s1) := s.spiShift dc.bus d (max w.length rlen) w rlen
  { status := .ok, data := r, state := s1 }

/-! ## The UART engine -/

/-- The write phase (R134, R138): all of W is pushed, or a proper prefix and the result is `Timeout`. Its first
component says whether it succeeded. -/
def State.uartWrite (s : State) (dc : DevCfg) (w : List Byte) : Bool × State :=
  let (a, s1) := s.drawTx
  let (y, s2) := s1.drawYield
  let p := poll (s.remaining dc.bus) s.cfg.pollGranularity a.tPush y.race y.ms
  let s3 := s2.pass y.rx p.ms
  if p.finished then (true, s3.emitTx dc.bus w)
  else (false, s3.emitTx dc.bus (w.take (min a.pushed (w.length - 1))))

/-- The polled read phase (R137, R138), against the same deadline. -/
def State.uartRead (s : State) (dc : DevCfg) (rlen : Nat) : XferResult :=
  let (a, s1) := s.drawRx
  let (y, s2) := s1.drawYield
  let p := poll (s.remaining dc.bus) s.cfg.pollGranularity a.tRx y.race y.ms
  let s3 := s2.pass y.rx p.ms
  if p.finished then { status := .ok, data := fitBytes rlen a.bytes, state := s3 }
  else { status := .timeout, data := [], state := s3 }

/-- `uart_xfer(b, d, W, rlen)` (R138): the write phase, if any, then the read phase, if any; `NOW` may advance
between the two (R55). -/
def State.uartXfer (s : State) (dc : DevCfg) (w : List Byte) (rlen : Nat) : XferResult :=
  if w = [] then
    if rlen = 0 then { status := .ok, data := [], state := s } else s.uartRead dc rlen
  else
    let (sent, s1) := s.uartWrite dc w
    if sent then
      if rlen = 0 then { status := .ok, data := [], state := s1 } else s1.drift.uartRead dc rlen
    else { status := .timeout, data := [], state := s1 }

/-! ## The back-end transfer -/

/-- `xfer(b, d, W, rlen)` (R104). A bus that does not exist has no transport; a well-formed configuration's device
never names one (R7 (a)). -/
def State.xfer (s : State) (d : DevId) (dc : DevCfg) (w : List Byte) (rlen : Nat) : XferResult :=
  match s.busCfg? dc.bus with
  | none => { status := .invalidArgument, data := [], state := s }
  | some bc =>
    match bc.kind with
    | .i2c => s.i2cXfer dc w rlen
    | .spi => s.spiXfer d dc w rlen
    | .uart => s.uartXfer dc w rlen

end Sys2Proof.Machine
end

