-- ==== Sys2Proof/Machine/Arbiter.lean ====
section
/-! DEFINITION. The arbiter commands of spec/40_arbiter.md: the helpers `arm`, `select`, `unlock` (R84, R86, R89),
`ACQUIRE` (R88), `RELEASE` (R90) and `IS_OWNER` (R92). -/

namespace Sys2Proof.Machine

/-- The interval an acquire or renewal by a device arms: its inactivity timeout, or the bus's default when it
specifies none (R24, R84). -/
def State.lockInterval (s : State) (dc : DevCfg) : Millis :=
  if dc.inactivityTimeout = 0 then s.defaultTimeout dc.bus else dc.inactivityTimeout

/-- `arm(b, d)` (R84). -/
def State.arm (s : State) (dc : DevCfg) : State :=
  s.setBus dc.bus { s.bus dc.bus with expStart := s.now, expInterval := s.lockInterval dc }

/-- `select(d)` (R86): a chip-select that is not already asserted is asserted, and then a nonzero power-up delay is
waited. -/
def State.select (s : State) (d : DevId) (dc : DevCfg) : State :=
  if dc.chipSelect.isSome && !s.csOf d then
    let s1 := s.setCs d true
    if dc.powerUpDelay = 0 then s1 else s1.wait dc.powerUpDelay.toNat
  else s

/-- `unlock(b)` (R89): the lock is cleared whether or not teardown succeeded; `UP` and the owner's chip-select
depend on it. The first component is `td_ok`. -/
def State.unlock (s : State) (b : BusId) : Bool × State :=
  let o := (s.bus b).ownerId
  let (td, s1) := s.drawTeardown
  match td with
  | .succeeded =>
    let s2 := s1.setBus b { s1.bus b with up := false, ownerId := 0, locked := false }
    (true, if s.hasCs o then s2.setCs o false else s2)
  | .failed u => (false, s1.setBus b { s1.bus b with up := u, ownerId := 0, locked := false })

/-- `ACQUIRE` step 5 (R88): d owns its bus and the timer is armed, in one critical section. -/
def State.take (s : State) (d : DevId) (dc : DevCfg) : State :=
  (s.setBus dc.bus { s.bus dc.bus with ownerId := d, locked := true }).arm dc

/-- `ACQUIRE` steps 3 to 5 (R88), on a bus that is free: select, bring up, take. `NOW` may advance between the
bring-up and the arming (R55, R98). A bring-up that fails ends the command, and nothing is undone (R97). -/
def State.acquireFree (s : State) (d : DevId) (dc : DevCfg) : State :=
  let (st, s1) := (s.select d dc).bringUp dc
  (if st = .ok then s1.drift.take d dc else s1).conclude st

/-- `ACQUIRE d` (R88): renewal, contention, eviction of a stale owner (R91), a free bus. Each of them reads `NOW` no
later than the response is written (R98). -/
def execAcquire (d : DevId) (s : State) : Host.Outcome State Fault Refusal :=
  match s.dev? d with
  | none => .next (s.raise .invalidArgument)
  | some dc =>
    if s.owns dc.bus d then .next ((s.arm dc).conclude .ok)
    else if (s.bus dc.bus).locked then
      if s.elapsed dc.bus then .next ((s.unlock dc.bus).2.acquireFree d dc)
      else .next (s.conclude .locked)
    else .next (s.acquireFree d dc)

/-- `RELEASE d` (R90): `NotOwned` unless d owns its bus; otherwise the unlock path, and `UnknownError` when teardown
failed. -/
def execRelease (d : DevId) (s : State) : Host.Outcome State Fault Refusal :=
  match s.dev? d with
  | none => .next (s.raise .invalidArgument)
  | some dc =>
    if s.owns dc.bus d then
      let (ok, s1) := s.unlock dc.bus
      .next (if ok then s1.respond .ok false 0 else s1.raise .unknownError)
    else .next (s.raise .notOwned)

/-- `IS_OWNER d` (R92): COUNT is 1 for the owner and 0 for any other device; nothing else is written. -/
def execIsOwner (d : DevId) (s : State) : Host.Outcome State Fault Refusal :=
  match s.dev? d with
  | none => .next (s.raise .invalidArgument)
  | some dc => .next (s.respond .ok false (if s.owns dc.bus d then 1 else 0))

end Sys2Proof.Machine
end

