-- ==== Sys2Proof/Machine/Transfer.lean ====
section
/-! DEFINITION. The I/O commands of spec/41_transfer.md: `TRANSFER` (R105), and `READ` (R106) and `WRITE` (R107),
which are `TRANSFER` with one length 0 (R77, D16). -/

namespace Sys2Proof.Machine

/-- How an I/O command ends once its transfer has returned (R105): on `Ok` the bytes read go to `RBUF` and COUNT is
rlen; a command that reads nothing does not write `RBUF` (R107); any other status is raised. -/
def XferResult.finish (r : XferResult) (rlen : Nat) : State :=
  if r.status = .ok then
    (if rlen = 0 then r.state else r.state.storeRbuf r.data).respond .ok false rlen
  else r.state.raise r.status

/-- `TRANSFER d, wlen, rlen` (R105): device validity (R83), ownership (R103), the argument checks (R102), then the
back-end transfer. -/
def State.ioCommand (s : State) (d : DevId) (wlen rlen : Byte) : State :=
  match s.dev? d with
  | none => s.raise .invalidArgument
  | some dc =>
    if s.owns dc.bus d then
      if wlen = 0 ∧ rlen = 0 then s.raise .invalidArgument
      else if rlen ≠ 0 ∧ s.readRefused dc.bus then s.raise .invalidArgument
      else (s.xfer d dc (s.wbufBytes wlen.toNat) rlen.toNat).finish rlen.toNat
    else s.raise .notOwned

/-- `TRANSFER d, wlen, rlen` (R105). -/
def execTransfer (d : DevId) (wlen rlen : Byte) (s : State) : Host.Outcome State Fault Refusal :=
  .next (s.ioCommand d wlen rlen)

/-- `READ d, rlen` (R106): the pure read. -/
def execRead (d : DevId) (rlen : Byte) (s : State) : Host.Outcome State Fault Refusal :=
  .next (s.ioCommand d 0 rlen)

/-- `WRITE d, wlen` (R107): the pure write. -/
def execWrite (d : DevId) (wlen : Byte) (s : State) : Host.Outcome State Fault Refusal :=
  .next (s.ioCommand d wlen 0)

end Sys2Proof.Machine
end

