-- ==== Sys2Proof/Machine/UartRing.lean ====
section
/-! DEFINITION. The UART commands that move no byte on the wires: `SET_INPUT_HANDLER` (spec/44_uart.md R140), and the
ring consumers `READ_LINE` (spec/45_uart_ring.md R149) and `READ_ALL` (R152). -/

namespace Sys2Proof.Machine

/-- The ring reset of a device that newly becomes the handler device (R140); its bytes stay, unread. -/
def Ring.restart (r : Ring) : Ring := { r with head := 0, tail := 0, mark := none, ovf := false }

/-- The critical section of `SET_INPUT_HANDLER` (R140): cb = 0 unregisters d, if it is the handler device; any other
cb registers it, in place of any other device's registration. -/
def State.register (s : State) (b : BusId) (d : DevId) (cb : Byte) : State :=
  if cb = 0 then
    if s.isHandler b d then s.setHandler b none else s
  else
    (if s.isHandler b d then s else s.setRing d (s.ring d).restart).setHandler b (some { dev := d, cb := cb })

/-- `SET_INPUT_HANDLER d, cb` (R140). Ownership is not required. -/
def execSetInputHandler (d : DevId) (cb : Byte) (s : State) : Host.Outcome State Fault Refusal :=
  match s.dev? d with
  | none => .next (s.raise .invalidArgument)
  | some dc =>
    if s.busIs dc.bus .uart = false then .next (s.raise .invalidArgument)
    else if cb ≠ 0 ∧ s.busTxOnly dc.bus then .next (s.raise .invalidArgument)
    else .next ((s.register dc.bus d cb).respond .ok false 0)

/-- `READ_LINE` on a readable ring (R149), one indivisible step (R62). -/
def State.readLine (s : State) (d : DevId) (maxlen : Nat) : State :=
  let r := s.ring d
  let cap := s.cfg.ringCap
  match r.mark with
  | none => ((s.setRing d { r with ovf := false }).storeRbuf []).respond .ok r.ovf 0
  | some _ =>
    let n := min (r.firstLine cap) maxlen
    ((s.setRing d (r.consume cap n)).storeRbuf (r.bytes cap n)).respond .ok r.ovf n

/-- `READ_LINE d, maxlen` (R149). -/
def execReadLine (d : DevId) (maxlen : Byte) (s : State) : Host.Outcome State Fault Refusal :=
  match s.dev? d with
  | none => .next (s.raise .invalidArgument)
  | some dc =>
    if s.ringReadable dc.bus d then .next (s.readLine d maxlen.toNat) else .next (s.raise .invalidArgument)

/-- `READ_ALL` on a readable ring (R152): `HEAD` is sampled and the bytes copied, receive events may occur, and then
the indices are updated on the ring as it then is. -/
def State.readAll (s : State) (d : DevId) (maxlen : Nat) : State :=
  let r := s.ring d
  let cap := s.cfg.ringCap
  let n := min (r.count cap) maxlen
  let s1 := (s.storeRbuf (r.bytes cap n)).yieldPoint
  let r1 := s1.ring d
  (s1.setRing d (r1.consume cap n)).respond .ok r1.ovf n

/-- `READ_ALL d, maxlen` (R152). -/
def execReadAll (d : DevId) (maxlen : Byte) (s : State) : Host.Outcome State Fault Refusal :=
  match s.dev? d with
  | none => .next (s.raise .invalidArgument)
  | some dc =>
    if s.ringReadable dc.bus d then .next (s.readAll d maxlen.toNat) else .next (s.raise .invalidArgument)

end Sys2Proof.Machine
end

