-- ==== Sys2Proof/Machine/Dispatch.lean ====
section
/-! DEFINITION. One arm per command (spec/30_encoding.md R69, R72): each calls its meaning. -/

namespace Sys2Proof.Machine

def exec (i : Instr) (s : State) : Host.Outcome State Fault Refusal :=
  match i with
  | .acquire d => Sys2Proof.Machine.execAcquire d s
  | .release d => Sys2Proof.Machine.execRelease d s
  | .read d rlen => Sys2Proof.Machine.execRead d rlen s
  | .write d wlen => Sys2Proof.Machine.execWrite d wlen s
  | .transfer d wlen rlen => Sys2Proof.Machine.execTransfer d wlen rlen s
  | .isOwner d => Sys2Proof.Machine.execIsOwner d s
  | .setInputHandler d cb => Sys2Proof.Machine.execSetInputHandler d cb s
  | .readLine d maxlen => Sys2Proof.Machine.execReadLine d maxlen s
  | .readAll d maxlen => Sys2Proof.Machine.execReadAll d maxlen s

end Sys2Proof.Machine
end

