-- ==== Sys2Proof/Machine/Port.lean ====
section
/-! DEFINITION. What reaches the block from outside: between two commands (spec/20_memory.md R55, spec/30_encoding.md
R66) the host's writes, receive events and clock ticks; at any time reset (spec/70_reset_and_hazards.md R185). -/

namespace Sys2Proof.Machine

/-- The host writes `CMD`, and the block is busy from then on (R66). `NOW` may advance before the command makes its
first test (R55, R98). -/
def State.issue (s : State) (w : Word) : State := { s with cmd := w, busy := true }.drift

/-- The host writes one byte of `WBUF` (R44). -/
def State.hostStore (s : State) (off : Nat) (x : Byte) : State := { s with wbuf := memWrite s.wbuf off x }

/-- The next stimulus is a reset. Reset alone reaches a busy block (R185). -/
def State.resetStrikes (s : State) : Bool := s.inputs.head? == some .reset

/-- The stimuli as they stand when a command is placed in `CMD` that no reset abandons: a reset that comes first comes
after that command, which another stimulus before it says (log 6). -/
def State.inputsAfterCommand (s : State) : List Input :=
  if s.resetStrikes then .ticks 0 :: s.inputs else s.inputs

/-- The reset event (R185): every register of the block takes its reset value, a command in execution is abandoned and
produces no response, and the block is idle. The configuration, what is still to come from outside, and the numbering of the free values are no
registers; `NOW` is left unspecified (R42). -/
def State.resetEvent (s : State) : State :=
  { State.boot s.cfg (Config.freeNow s.draws) with
    inputs := s.inputs
    env := s.env
    rbufFree := s.draws
    draws := s.draws + 1 }

/-- The effect of one stimulus: on an idle block, or, of a reset, on a busy one. -/
def State.accept (s : State) : Input → Host.Outcome State Fault Refusal
  | .command w => .next (s.issue w)
  | .hostWrite off x =>
    if off < Config.bufferSize then .next (s.hostStore off x) else .fault (.noSuchOffset off)
  | .rxByte b x => .next (s.rxByte b x)
  | .ticks n => .next (s.advance n)
  | .reset => .next s.resetEvent

/-- What a word of a test script does (R80): a stimulus word stands for its event, any other is written to `CMD`. -/
def scriptInput (w : Word) : Input :=
  match stimulus w with
  | .rxByte b x => .rxByte b x
  | .advanceTime n => .ticks n
  | .command w => .command w

end Sys2Proof.Machine
end

