-- ==== Sys2Proof/Machine/Step.lean ====
section
/-! DEFINITION. One step of the block (spec/10_state.md R39): the command in `CMD` while it is busy, unless a reset
abandons it (spec/70_reset_and_hazards.md R185), else the next stimulus from outside; an idle block with no stimulus
stays as it is. The block fetches nothing: a program is the host's, and reaches it as stimuli (R49, R213; log 6). -/

namespace Sys2Proof.Machine

/-- Runs the command in `CMD`; a reserved word changes no state and answers `InvalidArgument` (R72 to R74). -/
def State.runCommand (s : State) : Host.Outcome State Fault Refusal :=
  match decode s.cmd with
  | .ok i => exec i s
  | .error _ => .next (s.raise .invalidArgument)

/-- Takes the next stimulus. -/
def State.takeInput (s : State) : Host.Outcome State Fault Refusal :=
  match s.inputs with
  | [] => .next s
  | i :: rest => { s with inputs := rest }.accept i

/-- One step; a configuration that is not well formed is refused (R7, U13). -/
def step (s : State) : Host.Outcome State Fault Refusal :=
  if s.cfg.wellFormed then (if s.busy && !s.resetStrikes then s.runCommand else s.takeInput)
  else .refused .illFormedConfig

/-- The host has written an opcode-table word to `CMD`, and no reset abandons it: the next step runs it. -/
def State.withFetchWord (s : State) (nbits w : Nat) : State :=
  { s with cmd := tableWord nbits w, busy := true, inputs := s.inputsAfterCommand }

end Sys2Proof.Machine
end

