-- ==== Sys2Proof/Safety.lean ====
section
/-! DEFINITION. What counts as a sound state of the block, in the terms statements use: the invariants the spec
gives, each under its own name. Every one is a property of one state, so a statement can say that each step keeps it. -/

namespace Sys2Proof.Machine

/-! ## Rings (R31) -/

/-- The marker invariant: with no marker no unread byte is a terminator; the marker m stands just past the last unread
terminator (R31). -/
def Ring.markOk (cap : Nat) (r : Ring) : Prop :=
  match r.mark with
  | none => ∀ i, i < r.count cap → r.byteAt cap i ≠ Config.lineTerminator
  | some m =>
    m < cap ∧ 1 ≤ r.markOffset cap m ∧ r.markOffset cap m ≤ r.count cap ∧
      r.byteAt cap (r.markOffset cap m - 1) = Config.lineTerminator ∧
      ∀ i, r.markOffset cap m ≤ i → i < r.count cap → r.byteAt cap i ≠ Config.lineTerminator

/-- The ring invariants: indices below the capacity (R29) and the marker invariant (R31). -/
def Ring.ok (cap : Nat) (r : Ring) : Prop := r.head < cap ∧ r.tail < cap ∧ r.markOk cap

/-- Every ring is sound. -/
def State.ringsOk (s : State) : Prop := ∀ d : DevId, (s.ring d).ok s.cfg.ringCap

/-! ## The arbiter (R16, R17, R100) -/

/-- The arbiter's invariants on bus b. A free bus has `OWNER_ID` 0 (R16). The owner of a bus is a device of that bus,
the transport is up, an owner with a chip-select has it asserted (R100), and the armed interval is nonzero and below
2^31 (R18, R208). -/
def State.busOk (s : State) (b : BusId) : Prop :=
  if (s.bus b).locked then
    ∃ dc, s.dev? (s.bus b).ownerId = some dc ∧ dc.bus = b ∧ (s.bus b).up = true ∧
      (dc.chipSelect.isSome = true → s.csOf (s.bus b).ownerId = true) ∧
      1 ≤ (s.bus b).expInterval.toNat ∧ (s.bus b).expInterval.toNat < 2 ^ 31
  else (s.bus b).ownerId = 0

/-- Every bus is sound. -/
def State.arbiterOk (s : State) : Prop := ∀ b : BusId, s.busOk b

/-! ## Handlers (R33, R140) -/

/-- A registered handler has a nonzero callback and is a device of its bus, a UART that receives (R33, R140). -/
def State.handlersOk (s : State) : Prop :=
  ∀ (b : BusId) (h : Handler), s.handler b = some h →
    h.cb ≠ 0 ∧ s.busIs b .uart = true ∧ s.busTxOnly b = false ∧ ∃ dc, s.dev? h.dev = some dc ∧ dc.bus = b

/-! ## The command port (R67, R68, R210) -/

/-- `RESP` holds a response word: a status, `OVF` and `COUNT` 0 unless the status is `Ok`, and COUNT at most 255. -/
def State.portOk (s : State) : Prop :=
  ∃ (st : BusStatus) (ovf : Bool) (n : Nat), s.resp = respWord st ovf n ∧ n ≤ 255 ∧
    (st ≠ .ok → ovf = false ∧ n = 0)

/-! ## The canonical form of tables and byte spaces -/

/-- Every table and every byte space is in canonical form, so that states that read alike are equal data. -/
def State.canonical (s : State) : Prop :=
  Memory.wf s.wbuf = true ∧ Memory.wf s.rbuf = true ∧ (∀ d : DevId, Memory.wf (s.ring d).buf = true) ∧
    tableWf Bus.free s.buses = true ∧ tableWf false s.cs = true ∧ tableWf Ring.empty s.rings = true ∧
    tableWf none s.handlers = true ∧ tableWf [] s.txlog = true ∧ tableWf [] s.i2clog = true ∧
    tableWf [] s.spilog = true

/-! ## Safe states -/

/-- A sound state: a well-formed configuration (R7) and every invariant above. -/
def State.Safe (s : State) : Prop :=
  s.cfg.wellFormed = true ∧ s.ringsOk ∧ s.arbiterOk ∧ s.handlersOk ∧ s.portOk ∧ s.canonical

/-- What no receive event and no command but `SET_INPUT_HANDLER` can change in the ring of a device that is no handler
device: d is registered on no bus. -/
def State.unregistered (s : State) (d : DevId) : Prop := ∀ (b : BusId) (h : Handler), s.handler b = some h → h.dev ≠ d

end Sys2Proof.Machine
end

