-- ==== Sys2Proof/Certificates/Slice0/Obligations.lean ====
section
/-! DEFINITION. The statements for the provers. Each names the rule of spec/ it formalises or, where it is this model's
choice, the entry of the assumption log. After a status other than `Ok` every byte of `RBUF` is unspecified (R45, D21, U3):
`State.spoilRbuf` makes them free values and changes nothing else. That a command which reads nothing and answers `Ok`
leaves `RBUF` unchanged is the model's reading wherever a statement says so (log 5). Where a statement puts fields of t
back to those of s and says the result is s, it says that every other field is unchanged: that is its frame. -/

open Sys2Proof Sys2Proof.Machine

/-! ## Encoding -/

/-- Every command, with every operand at every value, decodes from its own word (R65, R69, R72). -/
def Obligations.DecodeOfEncode : Prop := ∀ i : Instr, decode (encode i) = .ok i

/-- Each command has one word: what decodes to it is its encoding (R63, R65, R74). -/
def Obligations.EncodeOfDecode : Prop := ∀ (w : Word) (i : Instr), decode w = .ok i → encode i = w

/-- R69: a word selects the row whose mask and match it meets, and no other. -/
def Obligations.WordSelectsRowByMask : Prop :=
  ∀ (w : Word) (m : Mnemonic), w &&& m.mask = m.pattern ↔ ∃ i, decode w = .ok i ∧ i.mnemonic = m

/-- R82: the worked encodings of commands, stimulus words and responses. -/
def Obligations.WorkedEncodings : Prop :=
  (∀ p ∈ ([(0x01000000, .acquire 0), (0x01040000, .acquire 4), (0x02020000, .release 2), (0x03000006, .read 0 6),
      (0x04000200, .write 0 2), (0x05000203, .transfer 0 2 3), (0x06010000, .isOwner 1),
      (0x07040001, .setInputHandler 4 1), (0x080400FF, .readLine 4 255), (0x09040010, .readAll 4 16)] :
      List (Word × Instr)), decode p.1 = .ok p.2 ∧ encode p.2 = p.1) ∧
  stimulus 0x8002000A = .rxByte 2 0x0A ∧ stimulus 0x81000065 = .advanceTime 101 ∧
  respWord .ok false 0 = 0x00000000 ∧ respWord .locked false 0 = 0x00000001 ∧
  respWord .notOwned false 0 = 0x00000002 ∧ respWord .ok false 3 = 0x00030000 ∧
  respWord .ok true 3 = 0x00030100 ∧ respWord .ok false 1 = 0x00010000

/-- R67, R70: the eight status codes, and the fields of a response word. -/
def Obligations.ResponseWordFields : Prop :=
  (BusStatus.ok.code = 0x00 ∧ BusStatus.locked.code = 0x01 ∧ BusStatus.notOwned.code = 0x02 ∧
    BusStatus.addressNack.code = 0x03 ∧ BusStatus.dataNack.code = 0x04 ∧ BusStatus.timeout.code = 0x05 ∧
    BusStatus.invalidArgument.code = 0x06 ∧ BusStatus.unknownError.code = 0x07) ∧
  ∀ (st : BusStatus) (ovf : Bool) (n : Nat), n < 65536 →
    (respWord st ovf n).extractLsb' 0 8 = st.code ∧ (respWord st ovf n).getLsbD 8 = ovf ∧
    (respWord st ovf n).extractLsb' 9 7 = 0 ∧ ((respWord st ovf n).extractLsb' 16 16).toNat = n

/-- R73, R74: a word with a reserved `OP`, or a defined `OP` and a nonzero must-be-zero field, answers `InvalidArgument`
and changes no state, but that `RBUF` is unspecified after it (R45, log 5). That `NOW` does not advance is the model's
placement of time (log 10). -/
def Obligations.ReservedWordAnswersInvalidArgument : Prop :=
  ∀ s : State, s.cfg.wellFormed = true → s.busy = true → s.inputs.head? ≠ some .reset →
    (fieldOp s.cmd = 0x00 ∨ 0x0A ≤ (fieldOp s.cmd).toNat ∨
      (fieldOp s.cmd ∈ ([0x01, 0x02, 0x06] : List Byte) ∧ (fieldA s.cmd ≠ 0 ∨ fieldB s.cmd ≠ 0)) ∨
      (fieldOp s.cmd ∈ ([0x03, 0x07, 0x08, 0x09] : List Byte) ∧ fieldA s.cmd ≠ 0) ∨
      (fieldOp s.cmd = 0x04 ∧ fieldB s.cmd ≠ 0)) →
    step s = .next { s.spoilRbuf with resp := 0x00000006, busy := false }

/-! ## The step -/

/-- A step of a busy block that no reset strikes runs the command that `CMD` decodes to; the step adds nothing around it
(R39, R72). -/
def Obligations.StepRunsDecodedCommand : Prop :=
  ∀ (s : State) (i : Instr), s.cfg.wellFormed = true → s.busy = true → s.inputs.head? ≠ some .reset →
    decode s.cmd = .ok i → step s = exec i s

/-- What a step of an idle block does with each stimulus (R44, R55, R66, R185), each taken from the queue: nothing
arrives; the host writes `CMD`; the host writes one byte of `WBUF`; a receive event; clock ticks; a reset. That an idle
block takes its stimuli from a queue in the state is the model's form (log 6), and that a host write at an offset `WBUF`
does not have is a fault is the model's choice (log 17). That the time before the first test of a command is one draw,
taken at the write of `CMD`, is the model's placement of time (log 10). -/
def Obligations.IdleBlockTakesStimulus : Prop :=
  ∀ s : State, s.cfg.wellFormed = true → s.busy = false →
    (s.inputs = [] → step s = .next s) ∧
    (∀ w rest, s.inputs = .command w :: rest → ∃ t, step s = .next t ∧ t.cmd = w ∧ t.busy = true ∧ t.inputs = rest ∧
      (∀ n ns, s.env.drifts = n :: ns → t.now = s.now + BitVec.ofNat 32 n) ∧
      { t.env with drifts := s.env.drifts } = s.env ∧
      { t with cmd := s.cmd, busy := false, inputs := s.inputs, now := s.now, env := s.env, draws := s.draws } = s) ∧
    (∀ off x rest, s.inputs = .hostWrite off x :: rest → off < 256 → ∃ t, step s = .next t ∧ t.inputs = rest ∧
      (∀ a, memRead t.wbuf a = if a = off then x else memRead s.wbuf a) ∧
      { t with wbuf := s.wbuf, inputs := s.inputs } = s) ∧
    (∀ off x rest, s.inputs = .hostWrite off x :: rest → 256 ≤ off → step s = .fault (.noSuchOffset off)) ∧
    (∀ b x rest, s.inputs = .rxByte b x :: rest → step s = .next ({ s with inputs := rest }.rxByte b x)) ∧
    (∀ n rest, s.inputs = .ticks n :: rest →
      step s = .next { s with inputs := rest, now := s.now + BitVec.ofNat 32 n }) ∧
    (∀ rest, s.inputs = .reset :: rest → step s = .next { s with inputs := rest }.resetEvent)

/-- R7: a configuration that breaks one of the conditions (a) to (f), or a range of R6, is refused. -/
def Obligations.IllFormedConfigurationRefused : Prop :=
  ∀ s : State,
    ¬ ((1 ≤ s.cfg.buses.length ∧ s.cfg.buses.length ≤ 256 ∧ 1 ≤ s.cfg.devs.length ∧ s.cfg.devs.length ≤ 256) ∧
      (∀ b ∈ s.cfg.buses, 1 ≤ b.defaultTimeout.toNat ∧ b.defaultTimeout.toNat < 2 ^ 31) ∧
      (2 ≤ s.cfg.ringCap ∧ s.cfg.ringCap ≤ 256) ∧
      (s.cfg.i2cSpeedA ≠ s.cfg.i2cSpeedB ∧ s.cfg.i2cSpeedA ≠ 0 ∧ s.cfg.i2cSpeedB ≠ 0) ∧
      (∀ d ∈ s.cfg.devs, ∃ b, s.cfg.buses[d.bus.toNat]? = some b ∧
        (b.kind = .i2c → d.chipSelect = none ∧ d.address.toNat < 128)) ∧
      (∀ (i j : Nat) (p q : ChipSelect), i ≠ j → s.cfg.devs[i]?.bind (fun d => d.chipSelect) = some p →
        s.cfg.devs[j]?.bind (fun d => d.chipSelect) = some q → (p.port, p.pin) ≠ (q.port, q.pin)) ∧
      (∀ d ∈ s.cfg.devs, d.inactivityTimeout.toNat < 2 ^ 31 ∧ d.powerUpDelay.toNat < 2 ^ 31 ∧ d.speed ≠ 0)) →
    step s = .refused .illFormedConfig

/-- Every step answers a next state, whatever the command word (R72, R206); the one exception is a host write outside
`WBUF`. -/
def Obligations.StepAlwaysAnswers : Prop :=
  ∀ s : State, s.cfg.wellFormed = true →
    (∀ off x rest, s.busy = false → s.inputs = .hostWrite off x :: rest → off < 256) → ∃ t, step s = .next t

/-- R47: no step changes the configuration. -/
def Obligations.ConfigurationIsImmutable : Prop := ∀ s t : State, step s = .next t → t.cfg = s.cfg

/-- R83: every command with a device index d ≥ NDEV ends with `InvalidArgument` and no state change, but that `RBUF` is
unspecified after it (R45, log 5). That `NOW` does not advance is the model's placement of time (log 10). -/
def Obligations.InvalidDeviceIndexAnswersInvalidArgument : Prop :=
  ∀ (i : Instr) (s : State), s.cfg.devs.length ≤ i.dev.toNat →
    exec i s = .next { s.spoilRbuf with resp := respWord .invalidArgument false 0, busy := false }

/-! ## ACQUIRE -/

/-- R84, R88, R93: a renewal answers `Ok`, moves the deadline to the `NOW` of the renewal plus the interval (the
device's, or the default of R84), and does nothing else: no chip-select action, no wait, no bring-up, no wire activity.
Time may pass between the arming and the response (R98): that it is one draw is the model's placement (log 10). That
`RBUF` is unchanged is the model's reading (log 5). -/
def Obligations.AcquireByOwnerRenews : Prop :=
  ∀ (s : State) (d : DevId) (dc : DevCfg), s.dev? d = some dc →
    (s.bus dc.bus).locked = true → (s.bus dc.bus).ownerId = d →
    ∃ t, exec (.acquire d) s = .next t ∧ t.resp = respWord .ok false 0 ∧ t.busy = false ∧
      t.bus dc.bus = { s.bus dc.bus with
        expStart := s.now
        expInterval := if dc.inactivityTimeout = 0 then s.defaultTimeout dc.bus else dc.inactivityTimeout } ∧
      (∀ c, c ≠ dc.bus → t.bus c = s.bus c) ∧
      (∀ n ns, s.env.drifts = n :: ns → t.now = s.now + BitVec.ofNat 32 n) ∧
      { t.env with drifts := s.env.drifts } = s.env ∧
      { t with resp := s.resp, busy := s.busy, now := s.now, buses := s.buses, env := s.env, draws := s.draws } = s

/-- R96, R158: while another device's lock is live, `ACQUIRE` answers `Locked`; and whenever `ACQUIRE` answers `Locked`,
no register has changed but `NOW`, the clock's, so no chip-select is asserted, no wait is taken, no bring-up runs and the
owner's timer is untouched. `RBUF` is unspecified after it (R45, log 5). Time may pass between the test and the response
(R98): that it is one draw is the model's placement (log 10). -/
def Obligations.LockedHasNoSideEffect : Prop :=
  (∀ (s : State) (d : DevId) (dc : DevCfg), s.dev? d = some dc →
    (s.bus dc.bus).locked = true → (s.bus dc.bus).ownerId ≠ d →
    (s.now - (s.bus dc.bus).expStart).toNat < (s.bus dc.bus).expInterval.toNat →
    ∃ t, exec (.acquire d) s = .next t ∧ t.resp = respWord .locked false 0) ∧
  ∀ (s t : State) (d : DevId), exec (.acquire d) s = .next t → respStatus t.resp = BusStatus.locked.code →
    t.resp = respWord .locked false 0 ∧ t.busy = false ∧
    (∀ n ns, s.env.drifts = n :: ns → t.now = s.now + BitVec.ofNat 32 n) ∧
    { t.env with drifts := s.env.drifts } = s.env ∧
    { t with
      resp := s.resp, busy := s.busy, now := s.now, rbuf := s.rbuf, rbufValid := s.rbufValid,
      rbufFree := s.rbufFree, env := s.env, draws := s.draws } = s

/-- R94: on a bus that another device owns, the answer is `Locked` exactly while that lock is live. -/
def Obligations.LockedAnsweredIffLockIsLive : Prop :=
  ∀ (s t : State) (d : DevId) (dc : DevCfg), s.dev? d = some dc →
    (s.bus dc.bus).locked = true → (s.bus dc.bus).ownerId ≠ d → exec (.acquire d) s = .next t →
    (respStatus t.resp = BusStatus.locked.code ↔
      (s.now - (s.bus dc.bus).expStart).toNat < (s.bus dc.bus).expInterval.toNat)

/-- R88, R95: `ACQUIRE` of a free bus, or of a bus whose owner's timer has elapsed, with a bring-up that succeeds,
answers `Ok` and leaves the device the owner, the transport up, the timer armed, and the device's chip-select asserted
at its active level (R27); no other bus changes. `NOW` at the arming is stated by PowerUpDelayOnlyWhenNewlyAsserted; the
response is written when the drawn time `m` has passed since (R98). That these times are two draws, one before the arming
and one before the response, is the model's placement (log 10). -/
def Obligations.AcquireTakesFreeOrStaleBus : Prop :=
  ∀ (s : State) (d : DevId) (dc : DevCfg) (bc : BusCfg), s.dev? d = some dc → s.busCfg? dc.bus = some bc →
    (bc.kind = .i2c → dc.speed = s.cfg.i2cSpeedA ∨ dc.speed = s.cfg.i2cSpeedB) →
    ((s.bus dc.bus).locked = true → (s.bus dc.bus).ownerId ≠ d ∧ s.elapsed dc.bus = true) →
    ∃ t, exec (.acquire d) s = .next t ∧ t.resp = respWord .ok false 0 ∧ t.busy = false ∧
      t.bus dc.bus =
        { ownerId := d, locked := true, expStart := (t.bus dc.bus).expStart,
          expInterval := if dc.inactivityTimeout = 0 then bc.defaultTimeout else dc.inactivityTimeout, up := true } ∧
      (∀ n m ns, s.env.drifts = n :: m :: ns → t.now = (t.bus dc.bus).expStart + BitVec.ofNat 32 m) ∧
      (∀ c, c ≠ dc.bus → t.bus c = s.bus c) ∧
      (∀ p, dc.chipSelect = some p → t.csOf d = true ∧ t.pinLevel d = some p.activeHigh)

/-- R91: when an `ACQUIRE` evicts a stale owner, that owner no longer owns the bus, and its chip-select is deasserted
if teardown succeeded and kept if it failed, whatever the acquiring device's own bring-up answers. -/
def Obligations.EvictionReleasesStaleOwner : Prop :=
  ∀ (s t : State) (d o : DevId) (dc : DevCfg), s.dev? d = some dc → (s.bus dc.bus).locked = true →
    (s.bus dc.bus).ownerId = o → o ≠ d → s.elapsed dc.bus = true → s.hasCs o = true →
    exec (.acquire d) s = .next t →
    t.owns dc.bus o = false ∧
    (s.drawTeardown.1 = .succeeded → t.csOf o = false) ∧
    (∀ u, s.drawTeardown.1 = .failed u → t.csOf o = s.csOf o)

/-- R97, R112: an I2C device whose speed is neither canonical speed gets `InvalidArgument`; the bus ends free, a stale
owner stays evicted, and a chip-select asserted on the way stays asserted. (On a well-formed board an I2C device has no
chip-select, R7; the statement holds on any board.) -/
def Obligations.AcquireBringUpFailureLeavesBusFree : Prop :=
  ∀ (s : State) (d : DevId) (dc : DevCfg), s.dev? d = some dc → s.busIs dc.bus .i2c = true →
    dc.speed ≠ s.cfg.i2cSpeedA → dc.speed ≠ s.cfg.i2cSpeedB →
    ((s.bus dc.bus).locked = true → (s.bus dc.bus).ownerId ≠ d ∧ s.elapsed dc.bus = true) →
    ∃ t, exec (.acquire d) s = .next t ∧ t.resp = respWord .invalidArgument false 0 ∧ t.busy = false ∧
      (t.bus dc.bus).locked = false ∧ (dc.chipSelect.isSome = true → t.csOf d = true) ∧
      ((s.bus dc.bus).locked = false → t.bus dc.bus = s.bus dc.bus) ∧ (∀ c, c ≠ dc.bus → t.bus c = s.bus c)

/-- R86, R98: the power-up delay is waited, and a yield point is met, exactly when this `ACQUIRE` newly asserted the
chip-select and the delay is nonzero; a device without a chip-select never waits. On any transport, on a free bus or on
one whose stale owner is evicted, with a bring-up that succeeds: the timer is armed at the instant given, and the response
is written no earlier. `y`, `n` and `m` are the environment's choices of time (R10, R55); that `n` passes between the
bring-up and the arming and `m` between the arming and the response is the model's placement (log 10). -/
def Obligations.PowerUpDelayOnlyWhenNewlyAsserted : Prop :=
  ∀ (s : State) (d : DevId) (dc : DevCfg) (bc : BusCfg) (y : Yield) (ys : List Yield) (n m : Nat) (ns : List Nat),
    s.dev? d = some dc → s.busCfg? dc.bus = some bc →
    (bc.kind = .i2c → dc.speed = s.cfg.i2cSpeedA ∨ dc.speed = s.cfg.i2cSpeedB) →
    ((s.bus dc.bus).locked = true → (s.bus dc.bus).ownerId ≠ d ∧ s.elapsed dc.bus = true) →
    s.env.yields = y :: ys → s.env.drifts = n :: m :: ns →
    ∃ t, exec (.acquire d) s = .next t ∧ t.now = (t.bus dc.bus).expStart + BitVec.ofNat 32 m ∧ t.env.drifts = ns ∧
      (dc.chipSelect.isSome = true → s.csOf d = false → dc.powerUpDelay ≠ 0 →
        (t.bus dc.bus).expStart = s.now + BitVec.ofNat 32 (max dc.powerUpDelay.toNat y.ms) + BitVec.ofNat 32 n ∧
        t.env.yields = ys) ∧
      ((dc.chipSelect = none ∨ s.csOf d = true ∨ dc.powerUpDelay = 0) →
        (t.bus dc.bus).expStart = s.now + BitVec.ofNat 32 n ∧ t.env.yields = s.env.yields)

/-- R55, R146: the receive events `y` of the power-up wait of an `ACQUIRE` take place there, and write exactly what they
would write on the state the wait begins in: on a free bus that of the command's start; after an eviction whose teardown
succeeded the bytes of that bus are lost, since its transport is down; after one whose teardown failed `UP` is the value
drawn. An `ACQUIRE` that does not wait takes no receive event. -/
def Obligations.AcquireReceiveEvents : Prop :=
  ∀ (s : State) (d : DevId) (dc : DevCfg), s.dev? d = some dc →
    (∀ (y : Yield) (ys : List Yield), s.env.yields = y :: ys →
      dc.chipSelect.isSome = true → s.csOf d = false → dc.powerUpDelay ≠ 0 →
      ((s.bus dc.bus).locked = false → ∃ t, exec (.acquire d) s = .next t ∧
        t.rings = (s.rxBytes y.rx).rings ∧ t.notify = (s.rxBytes y.rx).notify) ∧
      ((s.bus dc.bus).locked = true → (s.bus dc.bus).ownerId ≠ d → s.elapsed dc.bus = true →
        ∃ t, exec (.acquire d) s = .next t ∧
          (s.drawTeardown.1 = .succeeded →
            let others := s.rxBytes (y.rx.filter fun e => e.1 ≠ dc.bus)
            t.rings = others.rings ∧ t.notify = others.notify) ∧
          (∀ u, s.drawTeardown.1 = .failed u →
            let r := (s.setBus dc.bus { s.bus dc.bus with up := u }).rxBytes y.rx
            t.rings = r.rings ∧ t.notify = r.notify))) ∧
    ((dc.chipSelect = none ∨ s.csOf d = true ∨ dc.powerUpDelay = 0) →
      ∃ t, exec (.acquire d) s = .next t ∧ t.rings = s.rings ∧ t.notify = s.notify)

/-- The frame of `ACQUIRE` (R88): buses other than the device's, chip-selects other than the device's and its
predecessor's, handlers, `WBUF`, logs and the ring of every device that is no handler device are unchanged; no ring's
`TAIL` moves. What the receive events of its power-up wait write in rings and `NOTIFY`, AcquireReceiveEvents states.
`RBUF` is unchanged when the answer is `Ok`, the model's reading (log 5), and unspecified otherwise (R45). -/
def Obligations.AcquireFrame : Prop :=
  ∀ (s t : State) (d : DevId) (dc : DevCfg), s.dev? d = some dc → exec (.acquire d) s = .next t →
    (∀ c, c ≠ dc.bus → t.bus c = s.bus c) ∧
    (∀ e, e ≠ d → ((s.bus dc.bus).locked = true → e ≠ (s.bus dc.bus).ownerId) → t.csOf e = s.csOf e) ∧
    (∀ e, s.unregistered e → t.ring e = s.ring e) ∧ (∀ e, (t.ring e).tail = (s.ring e).tail) ∧
    (∀ a, memRead t.wbuf a = memRead s.wbuf a) ∧
    (respStatus t.resp = BusStatus.ok.code → ∀ a, t.rbufByte a = s.rbufByte a) ∧
    { t with
      resp := s.resp, busy := s.busy, now := s.now, buses := s.buses, cs := s.cs, rings := s.rings,
      notify := s.notify, rbuf := s.rbuf, rbufValid := s.rbufValid, rbufFree := s.rbufFree, env := s.env,
      draws := s.draws } = s

/-! ## RELEASE and IS_OWNER -/

/-- R89, R90: `RELEASE` by the owner clears the lock whether or not teardown succeeded; `UP` becomes 0, or the value
drawn after a failed teardown; the chip-select is deasserted only if teardown succeeded; the response is `Ok` or
`UnknownError`; nothing else changes, but that after `UnknownError` `RBUF` is unspecified (R45, U3). That `RBUF` is
unchanged after `Ok` is the model's reading (log 5), and that `NOW` does not advance the model's placement of time
(log 10). -/
def Obligations.ReleaseByOwnerUnlocks : Prop :=
  ∀ (s : State) (d : DevId) (dc : DevCfg), s.dev? d = some dc →
    (s.bus dc.bus).locked = true → (s.bus dc.bus).ownerId = d →
    ∃ t, exec (.release d) s = .next t ∧ t.busy = false ∧
      (t.bus dc.bus).locked = false ∧ (t.bus dc.bus).ownerId = 0 ∧
      (t.bus dc.bus).expStart = (s.bus dc.bus).expStart ∧
      (t.bus dc.bus).expInterval = (s.bus dc.bus).expInterval ∧
      (s.drawTeardown.1 = .succeeded →
        t.resp = respWord .ok false 0 ∧ (t.bus dc.bus).up = false ∧ (∀ a, t.rbufByte a = s.rbufByte a) ∧
        ∀ p, dc.chipSelect = some p → t.csOf d = false ∧ t.pinLevel d = some (!p.activeHigh)) ∧
      (∀ u, s.drawTeardown.1 = .failed u →
        t.resp = respWord .unknownError false 0 ∧ (t.bus dc.bus).up = u ∧ t.csOf d = s.csOf d) ∧
      (∀ c, c ≠ dc.bus → t.bus c = s.bus c) ∧ (∀ e, e ≠ d → t.csOf e = s.csOf e) ∧
      { t with
        resp := s.resp, busy := s.busy, buses := s.buses, cs := s.cs, rbuf := s.rbuf, rbufValid := s.rbufValid,
        rbufFree := s.rbufFree, env := s.env, draws := s.draws } = s

/-- R90, R159: `RELEASE` by a device that is not the owner, a free bus included, answers `NotOwned` and alters nothing,
but that `RBUF` is unspecified after it (R45, log 5). That `NOW` does not advance is the model's placement of time
(log 10). -/
def Obligations.ReleaseByNonOwnerChangesNothing : Prop :=
  ∀ (s : State) (d : DevId) (dc : DevCfg), s.dev? d = some dc →
    ¬ ((s.bus dc.bus).locked = true ∧ (s.bus dc.bus).ownerId = d) →
    exec (.release d) s = .next { s.spoilRbuf with resp := respWord .notOwned false 0, busy := false }

/-- R92: `IS_OWNER` answers whether the device owns its bus, without asking the expiry timer, and writes nothing, `RBUF`
included (log 5). That `NOW` does not advance is the model's placement of time (log 10). -/
def Obligations.IsOwnerAnswersOwnership : Prop :=
  ∀ (s : State) (d : DevId) (dc : DevCfg), s.dev? d = some dc →
    exec (.isOwner d) s = .next { s with
      resp := respWord .ok false
        (if (s.bus dc.bus).locked = true ∧ (s.bus dc.bus).ownerId = d then 1 else 0)
      busy := false }

/-! ## READ, WRITE and TRANSFER: the checks -/

/-- R103: an I/O command by a device that does not own its bus answers `NotOwned`, whatever its lengths; no wire is
driven and no state changes, but that `RBUF` is unspecified after it (R45, log 5). That `NOW` does not advance is the
model's placement of time (log 10). -/
def Obligations.IoWithoutOwnershipAnswersNotOwned : Prop :=
  ∀ (s : State) (i : Instr) (d : DevId) (wlen rlen : Byte) (dc : DevCfg), i.io? = some (d, wlen, rlen) →
    s.dev? d = some dc → ¬ ((s.bus dc.bus).locked = true ∧ (s.bus dc.bus).ownerId = d) →
    exec i s = .next { s.spoilRbuf with resp := respWord .notOwned false 0, busy := false }

/-- R102: an owner's I/O command with both lengths 0, or that reads from a UART that is `TX_ONLY` or has a handler,
answers `InvalidArgument`; nothing is driven and no state changes, but that `RBUF` is unspecified after it (R45, log 5).
That `NOW` does not advance is the model's placement of time (log 10). -/
def Obligations.IoArgumentChecks : Prop :=
  ∀ (s : State) (i : Instr) (d : DevId) (wlen rlen : Byte) (dc : DevCfg), i.io? = some (d, wlen, rlen) →
    s.dev? d = some dc → (s.bus dc.bus).locked = true → (s.bus dc.bus).ownerId = d →
    ((wlen = 0 ∧ rlen = 0) ∨
      (s.busIs dc.bus .uart = true ∧ rlen ≠ 0 ∧ (s.busTxOnly dc.bus = true ∨ s.handler dc.bus ≠ none))) →
    exec i s = .next { s.spoilRbuf with resp := respWord .invalidArgument false 0, busy := false }

/-- R77, R106, R107: `READ d, n` is `TRANSFER d, 0, n` and `WRITE d, n` is `TRANSFER d, n, 0`. -/
def Obligations.ReadAndWriteAreTransfers : Prop :=
  ∀ (s : State) (d : DevId) (n : Byte),
    exec (.read d n) s = exec (.transfer d 0 n) s ∧ exec (.write d n) s = exec (.transfer d n 0) s

/-! ## READ, WRITE and TRANSFER: the engines -/

/-- R105, R116, R117: an owner's I2C transaction under an admissible answer `a` of the slave (R115). The outcome and
the end instant are those of the three cases of R116, with `rem` the time left to the deadline and G the polling
granularity; the transaction is logged; on `Ok` the bytes read are in `RBUF`. The receive events of its yield point
write rings and `NOTIFY`, and nothing else does (R146). -/
def Obligations.I2cTransactionOutcome : Prop :=
  ∀ (s : State) (i : Instr) (d : DevId) (wlen rlen : Byte) (dc : DevCfg) (a : I2cAnswer),
    i.io? = some (d, wlen, rlen) → s.dev? d = some dc →
    (s.bus dc.bus).locked = true → (s.bus dc.bus).ownerId = d → s.busIs dc.bus .i2c = true →
    ¬ (wlen = 0 ∧ rlen = 0) → s.drawI2c.1 = a →
    (∀ r, a.kind = .done r → r.length = rlen.toNat) → (∀ k, a.kind = .dataNack k → k < wlen.toNat) →
    ∃ t st e, exec i s = .next t ∧ t.busy = false ∧
      t.resp = respWord st false (if st = .ok then rlen.toNat else 0) ∧
      t.now = s.now + BitVec.ofNat 32 e ∧
      t.i2clogOf dc.bus = s.i2clogOf dc.bus ++
        [{ address := dc.address.setWidth 7, written := readBytes s.wbuf 0 wlen.toNat, rlen := rlen.toNat,
           outcome := st }] ∧
      (∀ r, st = .ok → rlen ≠ 0 → a.kind = .done r → t.rbufBytes rlen.toNat = r) ∧
      (let y := s.drawI2c.2.drawYield.1
       t.rings = (s.rxBytes y.rx).rings ∧ t.notify = (s.rxBytes y.rx).notify) ∧
      (∀ tf, a.tDone = some tf → tf < s.remaining dc.bus →
        st = i2cStatus a.kind ∧ tf ≤ e ∧ e ≤ tf + s.cfg.pollGranularity) ∧
      ((a.tDone = none ∨ ∃ tf, a.tDone = some tf ∧ s.remaining dc.bus + s.cfg.pollGranularity < tf) →
        st = .timeout ∧ s.remaining dc.bus ≤ e ∧ e ≤ s.remaining dc.bus + s.cfg.pollGranularity) ∧
      (∀ tf, a.tDone = some tf → s.remaining dc.bus ≤ tf → tf ≤ s.remaining dc.bus + s.cfg.pollGranularity →
        (st = i2cStatus a.kind ∧ tf ≤ e ∧ e ≤ tf + s.cfg.pollGranularity) ∨
        (st = .timeout ∧ s.remaining dc.bus ≤ e ∧ e ≤ s.remaining dc.bus + s.cfg.pollGranularity))

/-- R119: every I2C command returns, a `Timeout` no later than D* + G and anything else no later than D* + 2G, whatever
the slave and the environment do. -/
def Obligations.I2cCommandTimeBound : Prop :=
  ∀ (s : State) (i : Instr) (d : DevId) (wlen rlen : Byte) (dc : DevCfg), i.io? = some (d, wlen, rlen) →
    s.dev? d = some dc → (s.bus dc.bus).locked = true → (s.bus dc.bus).ownerId = d →
    s.busIs dc.bus .i2c = true → ¬ (wlen = 0 ∧ rlen = 0) →
    ∃ t e, exec i s = .next t ∧ t.now = s.now + BitVec.ofNat 32 e ∧
      e ≤ s.remaining dc.bus + 2 * s.cfg.pollGranularity ∧
      (respStatus t.resp = BusStatus.timeout.code → e ≤ s.remaining dc.bus + s.cfg.pollGranularity)

/-- R127: an owner's SPI transfer makes max(wlen, rlen) full-duplex exchanges in index order, sends the write data and
then zeros, and captures the first rlen of the bytes `rx` the slave shifts out. The receive events of the yield points
`ys`, one after each exchange, write rings and `NOTIFY`, and nothing else does (R146). -/
def Obligations.SpiTransferExchangesBytes : Prop :=
  ∀ (s : State) (i : Instr) (d : DevId) (wlen rlen : Byte) (dc : DevCfg) (rx rest : List Byte),
    i.io? = some (d, wlen, rlen) → s.dev? d = some dc → (s.bus dc.bus).locked = true →
    (s.bus dc.bus).ownerId = d → s.busIs dc.bus .spi = true → ¬ (wlen = 0 ∧ rlen = 0) →
    s.env.spi = rx ++ rest → rx.length = max wlen.toNat rlen.toNat →
    ∃ t, exec i s = .next t ∧ t.resp = respWord .ok false rlen.toNat ∧ t.busy = false ∧
      t.spilogOf dc.bus = s.spilogOf dc.bus ++ (List.range (max wlen.toNat rlen.toNat)).map (fun k =>
        { dev := d, tx := if k < wlen.toNat then memRead s.wbuf k else 0x00, rx := rx.getD k 0 }) ∧
      (rlen ≠ 0 → t.rbufBytes rlen.toNat = rx.take rlen.toNat) ∧ t.env.spi = rest ∧
      ∀ ys zs, s.env.yields = ys ++ zs → ys.length = max wlen.toNat rlen.toNat →
        t.rings = (s.rxBytes (ys.flatMap fun y => y.rx)).rings ∧
        t.notify = (s.rxBytes (ys.flatMap fun y => y.rx)).notify

/-- R128: an owner's SPI transfer always answers `Ok`, whatever the slave and the environment do. -/
def Obligations.SpiTransferAlwaysOk : Prop :=
  ∀ (s : State) (i : Instr) (d : DevId) (wlen rlen : Byte) (dc : DevCfg), i.io? = some (d, wlen, rlen) →
    s.dev? d = some dc → (s.bus dc.bus).locked = true → (s.bus dc.bus).ownerId = d →
    s.busIs dc.bus .spi = true → ¬ (wlen = 0 ∧ rlen = 0) →
    ∃ t, exec i s = .next t ∧ t.resp = respWord .ok false rlen.toNat ∧ t.busy = false ∧
      (t.spilogOf dc.bus).length = (s.spilogOf dc.bus).length + max wlen.toNat rlen.toNat

/-- R134: an owner's UART write that reads nothing, under the answer `a` of the transmit buffer. In case A of R116 all
of W is pushed and the answer is `Ok`; in case B a proper prefix is pushed and the answer is `Timeout`; in case C
either. The receive events of its yield point write rings and `NOTIFY`, and nothing else does (R146). -/
def Obligations.UartWriteOutcome : Prop :=
  ∀ (s : State) (i : Instr) (d : DevId) (wlen : Byte) (dc : DevCfg) (a : TxAnswer), i.io? = some (d, wlen, 0) →
    s.dev? d = some dc → (s.bus dc.bus).locked = true → (s.bus dc.bus).ownerId = d →
    s.busIs dc.bus .uart = true → wlen ≠ 0 → s.drawTx.1 = a →
    ∃ t e, exec i s = .next t ∧ t.busy = false ∧ t.now = s.now + BitVec.ofNat 32 e ∧
      (let y := s.drawTx.2.drawYield.1
       t.rings = (s.rxBytes y.rx).rings ∧ t.notify = (s.rxBytes y.rx).notify) ∧
      (let sent := t.resp = respWord .ok false 0 ∧
        t.txlogOf dc.bus = s.txlogOf dc.bus ++ readBytes s.wbuf 0 wlen.toNat
       let cut := t.resp = respWord .timeout false 0 ∧
        (∃ k, k < wlen.toNat ∧ t.txlogOf dc.bus = s.txlogOf dc.bus ++ (readBytes s.wbuf 0 wlen.toNat).take k) ∧
        s.remaining dc.bus ≤ e ∧ e ≤ s.remaining dc.bus + s.cfg.pollGranularity
       (∀ tf, a.tPush = some tf → tf < s.remaining dc.bus →
          sent ∧ tf ≤ e ∧ e ≤ tf + s.cfg.pollGranularity) ∧
       ((a.tPush = none ∨ ∃ tf, a.tPush = some tf ∧ s.remaining dc.bus + s.cfg.pollGranularity < tf) → cut) ∧
       (∀ tf, a.tPush = some tf → s.remaining dc.bus ≤ tf → tf ≤ s.remaining dc.bus + s.cfg.pollGranularity →
          (sent ∧ tf ≤ e ∧ e ≤ tf + s.cfg.pollGranularity) ∨ cut))

/-- R137: an owner's polled UART read, on a bus that receives and has no handler, under the peer's answer `a`. In case A
of R116 the bytes are in `RBUF` and the answer is `Ok`; in case B the answer is `Timeout`; in case C either. The receive
events of its yield point write rings and `NOTIFY`, and nothing else does (R146). -/
def Obligations.UartPolledReadOutcome : Prop :=
  ∀ (s : State) (i : Instr) (d : DevId) (rlen : Byte) (dc : DevCfg) (a : RxAnswer), i.io? = some (d, 0, rlen) →
    s.dev? d = some dc → (s.bus dc.bus).locked = true → (s.bus dc.bus).ownerId = d →
    s.busIs dc.bus .uart = true → s.busTxOnly dc.bus = false → s.handler dc.bus = none → rlen ≠ 0 →
    s.drawRx.1 = a → a.bytes.length = rlen.toNat →
    ∃ t e, exec i s = .next t ∧ t.busy = false ∧ t.now = s.now + BitVec.ofNat 32 e ∧ t.txlog = s.txlog ∧
      (let y := s.drawRx.2.drawYield.1
       t.rings = (s.rxBytes y.rx).rings ∧ t.notify = (s.rxBytes y.rx).notify) ∧
      (let got := t.resp = respWord .ok false rlen.toNat ∧ t.rbufBytes rlen.toNat = a.bytes
       let cut := t.resp = respWord .timeout false 0 ∧
        s.remaining dc.bus ≤ e ∧ e ≤ s.remaining dc.bus + s.cfg.pollGranularity
       (∀ tf, a.tRx = some tf → tf < s.remaining dc.bus → got ∧ tf ≤ e ∧ e ≤ tf + s.cfg.pollGranularity) ∧
       ((a.tRx = none ∨ ∃ tf, a.tRx = some tf ∧ s.remaining dc.bus + s.cfg.pollGranularity < tf) → cut) ∧
       (∀ tf, a.tRx = some tf → s.remaining dc.bus ≤ tf → tf ≤ s.remaining dc.bus + s.cfg.pollGranularity →
          (got ∧ tf ≤ e ∧ e ≤ tf + s.cfg.pollGranularity) ∨ cut))

/-- R134, R137, R138: a UART transfer that writes and reads does the write first and then the read, both against the one
deadline of the lock (`s.remaining` from the start of the write; log 8), the environment adding no time to the write of
its own. When the write finishes before the deadline all of W is logged, and the read falls in the case of R116 that the
sum p + q of both times falls in; when the write does not finish, a proper prefix is logged, the answer is `Timeout` and no
read is drawn. The receive events of the yield points write rings and `NOTIFY`, and nothing else does (R146). -/
def Obligations.UartWriteThenRead : Prop :=
  ∀ (s : State) (d : DevId) (wlen rlen : Byte) (dc : DevCfg) (a : TxAnswer) (txs : List TxAnswer) (r : RxAnswer)
    (rxs : List RxAnswer) (y1 y2 : Yield) (ys : List Yield) (ns : List Nat),
    s.dev? d = some dc → (s.bus dc.bus).locked = true → (s.bus dc.bus).ownerId = d →
    s.busIs dc.bus .uart = true → s.busTxOnly dc.bus = false → s.handler dc.bus = none → wlen ≠ 0 → rlen ≠ 0 →
    s.env.tx = a :: txs → s.env.rx = r :: rxs → r.bytes.length = rlen.toNat → s.env.yields = y1 :: y2 :: ys →
    y1.ms = 0 → s.env.drifts = 0 :: ns →
    ∃ t e, exec (.transfer d wlen rlen) s = .next t ∧ t.busy = false ∧ t.now = s.now + BitVec.ofNat 32 e ∧
      (let left := s.remaining dc.bus
       let gran := s.cfg.pollGranularity
       let w := readBytes s.wbuf 0 wlen.toNat
       let cut := t.resp = respWord .timeout false 0 ∧ left ≤ e ∧ e ≤ left + gran
       (∀ p, a.tPush = some p → p < left →
          t.txlogOf dc.bus = s.txlogOf dc.bus ++ w ∧
          t.rings = (s.rxBytes (y1.rx ++ y2.rx)).rings ∧ t.notify = (s.rxBytes (y1.rx ++ y2.rx)).notify ∧
          (let got := fun q => t.resp = respWord .ok false rlen.toNat ∧ t.rbufBytes rlen.toNat = r.bytes ∧
             p + q ≤ e ∧ e ≤ p + q + gran
           (∀ q, r.tRx = some q → p + q < left → got q) ∧
           ((r.tRx = none ∨ ∃ q, r.tRx = some q ∧ left + gran < p + q) → cut) ∧
           (∀ q, r.tRx = some q → left ≤ p + q → p + q ≤ left + gran → got q ∨ cut))) ∧
       ((a.tPush = none ∨ ∃ p, a.tPush = some p ∧ left + gran < p) →
          cut ∧ t.env.rx = s.env.rx ∧
          (∃ k, k < wlen.toNat ∧ t.txlogOf dc.bus = s.txlogOf dc.bus ++ w.take k) ∧
          t.rings = (s.rxBytes y1.rx).rings ∧ t.notify = (s.rxBytes y1.rx).notify))

/-- The frame of `READ`, `WRITE` and `TRANSFER` (R105, R109): no register of the arbiter, no chip-select, no handler and
no byte of `WBUF` changes; only the log of the device's own bus grows, and only the log of its transport; `RBUF` is
not written by a command that reads nothing and answers `Ok` (log 5); the ring of a device that is no handler device is
unchanged and no `TAIL` moves. What the receive events of its yield points write in rings and `NOTIFY`, the statements on
the engines say. -/
def Obligations.IoFrame : Prop :=
  ∀ (s t : State) (i : Instr) (d : DevId) (wlen rlen : Byte) (dc : DevCfg), i.io? = some (d, wlen, rlen) →
    s.dev? d = some dc → exec i s = .next t →
    (∀ e, s.unregistered e → t.ring e = s.ring e) ∧ (∀ e, (t.ring e).tail = (s.ring e).tail) ∧
    (∀ c, c ≠ dc.bus →
      t.txlogOf c = s.txlogOf c ∧ t.i2clogOf c = s.i2clogOf c ∧ t.spilogOf c = s.spilogOf c) ∧
    (s.busIs dc.bus .i2c = false → t.i2clog = s.i2clog) ∧ (s.busIs dc.bus .spi = false → t.spilog = s.spilog) ∧
    (s.busIs dc.bus .uart = false → t.txlog = s.txlog) ∧
    (rlen = 0 → respStatus t.resp = BusStatus.ok.code → ∀ a, t.rbufByte a = s.rbufByte a) ∧
    { t with
      resp := s.resp, busy := s.busy, now := s.now, rbuf := s.rbuf, rbufValid := s.rbufValid,
      rbufFree := s.rbufFree, rings := s.rings, notify := s.notify, txlog := s.txlog, i2clog := s.i2clog,
      spilog := s.spilog, env := s.env, draws := s.draws } = s

/-! ## SET_INPUT_HANDLER -/

/-- R140: a registration on a receiving UART bus, owned or not, makes the device the handler device, empties its ring
unless it was the handler device already, and changes nothing else, `RBUF` included (log 5). That `NOW` does not advance
is the model's placement of time (log 10). -/
def Obligations.RegisterInputHandler : Prop :=
  ∀ (s : State) (d : DevId) (cb : Byte) (dc : DevCfg), s.dev? d = some dc → s.busIs dc.bus .uart = true →
    s.busTxOnly dc.bus = false → cb ≠ 0 →
    ∃ t, exec (.setInputHandler d cb) s = .next t ∧ t.resp = respWord .ok false 0 ∧ t.busy = false ∧
      t.handler dc.bus = some { dev := d, cb := cb } ∧ (∀ c, c ≠ dc.bus → t.handler c = s.handler c) ∧
      (s.isHandler dc.bus d = true → t.ring d = s.ring d) ∧
      (s.isHandler dc.bus d = false →
        t.ring d = { s.ring d with head := 0, tail := 0, mark := none, ovf := false }) ∧
      (∀ e, e ≠ d → t.ring e = s.ring e) ∧
      { t with resp := s.resp, busy := s.busy, handlers := s.handlers, rings := s.rings } = s

/-- R140: cb = 0 on a UART device, `TX_ONLY` included, unregisters the device if it is the handler device, leaves any
other registration, and touches no ring; `RBUF` is unchanged (log 5). That `NOW` does not advance is the model's
placement of time (log 10). -/
def Obligations.UnregisterInputHandler : Prop :=
  ∀ (s : State) (d : DevId) (dc : DevCfg), s.dev? d = some dc → s.busIs dc.bus .uart = true →
    ∃ t, exec (.setInputHandler d 0) s = .next t ∧ t.resp = respWord .ok false 0 ∧ t.busy = false ∧
      (s.isHandler dc.bus d = true → t.handler dc.bus = none) ∧
      (s.isHandler dc.bus d = false → t.handler dc.bus = s.handler dc.bus) ∧
      (∀ c, c ≠ dc.bus → t.handler c = s.handler c) ∧
      { t with resp := s.resp, busy := s.busy, handlers := s.handlers } = s

/-- R140, R147: `SET_INPUT_HANDLER` on a device that is not on a UART bus, or registering on a `TX_ONLY` bus, and a ring
command on a device that is not the handler device of a UART bus, answer `InvalidArgument` and change no state, but that
`RBUF` is unspecified after it (R45, log 5). That `NOW` does not advance is the model's placement of time (log 10). -/
def Obligations.UartCommandsRefused : Prop :=
  ∀ (s : State) (d : DevId) (x : Byte) (dc : DevCfg), s.dev? d = some dc →
    (s.busIs dc.bus .uart = false ∨ (x ≠ 0 ∧ s.busTxOnly dc.bus = true) →
      exec (.setInputHandler d x) s = .next { s.spoilRbuf with resp := respWord .invalidArgument false 0, busy := false }) ∧
    (s.busIs dc.bus .uart = false ∨ s.isHandler dc.bus d = false →
      exec (.readLine d x) s = .next { s.spoilRbuf with resp := respWord .invalidArgument false 0, busy := false } ∧
      exec (.readAll d x) s = .next { s.spoilRbuf with resp := respWord .invalidArgument false 0, busy := false })

/-! ## READ_LINE and READ_ALL -/

/-- R149: with a line buffered, `READ_LINE` returns the first min(n1, maxlen) unread bytes, n1 being the length of the
first complete line, advances `TAIL` past them, clears the marker exactly when the last unread terminator is among them,
and reports and clears `OVF`; what stays unread is what was not returned. Ownership is not required. That `NOW` does not
advance is the model's placement of time (log 10). -/
def Obligations.ReadLineReturnsFirstLine : Prop :=
  ∀ (s : State) (d : DevId) (maxlen : Byte) (dc : DevCfg) (m : Nat), s.dev? d = some dc →
    s.busIs dc.bus .uart = true → s.isHandler dc.bus d = true → (s.ring d).ok s.cfg.ringCap →
    (s.ring d).mark = some m →
    ∃ t n1, exec (.readLine d maxlen) s = .next t ∧ t.busy = false ∧
      1 ≤ n1 ∧ n1 ≤ (s.ring d).count s.cfg.ringCap ∧
      (s.ring d).byteAt s.cfg.ringCap (n1 - 1) = 0x0A ∧
      (∀ k, k + 1 < n1 → (s.ring d).byteAt s.cfg.ringCap k ≠ 0x0A) ∧
      (let n := min n1 maxlen.toNat
       t.resp = respWord .ok (s.ring d).ovf n ∧
       t.rbufBytes n = ((s.ring d).unread s.cfg.ringCap).take n ∧
       (t.ring d).unread s.cfg.ringCap = ((s.ring d).unread s.cfg.ringCap).drop n ∧
       t.ring d = { s.ring d with
         tail := ((s.ring d).tail + n) % s.cfg.ringCap
         mark := if (s.ring d).markOffset s.cfg.ringCap m ≤ n then none else some m
         ovf := false }) ∧
      (∀ e, e ≠ d → t.ring e = s.ring e) ∧
      { t with
        resp := s.resp, busy := s.busy, rings := s.rings, rbuf := s.rbuf, rbufValid := s.rbufValid,
        rbufFree := s.rbufFree, draws := s.draws } = s

/-- R149, R150: with no line buffered, `READ_LINE` returns no byte and consumes none; it reports and clears `OVF`. That
`NOW` does not advance is the model's placement of time (log 10). -/
def Obligations.ReadLineWithoutLine : Prop :=
  ∀ (s : State) (d : DevId) (maxlen : Byte) (dc : DevCfg), s.dev? d = some dc →
    s.busIs dc.bus .uart = true → s.isHandler dc.bus d = true → (s.ring d).mark = none →
    ∃ t, exec (.readLine d maxlen) s = .next t ∧ t.busy = false ∧ t.resp = respWord .ok (s.ring d).ovf 0 ∧
      t.ring d = { s.ring d with ovf := false } ∧ (∀ e, e ≠ d → t.ring e = s.ring e) ∧
      { t with
        resp := s.resp, busy := s.busy, rings := s.rings, rbuf := s.rbuf, rbufValid := s.rbufValid,
        rbufFree := s.rbufFree, draws := s.draws } = s

/-- R152, R153: `READ_ALL` returns the oldest min(count, maxlen) bytes that were unread when it began, whatever arrives
meanwhile, advances `TAIL` past them and clears `OVF`. -/
def Obligations.ReadAllReturnsUnreadBytes : Prop :=
  ∀ (s : State) (d : DevId) (maxlen : Byte) (dc : DevCfg), s.dev? d = some dc →
    s.busIs dc.bus .uart = true → s.isHandler dc.bus d = true →
    ∃ t ovf, exec (.readAll d maxlen) s = .next t ∧ t.busy = false ∧
      (let n := min ((s.ring d).count s.cfg.ringCap) maxlen.toNat
       t.resp = respWord .ok ovf n ∧ t.rbufBytes n = ((s.ring d).unread s.cfg.ringCap).take n ∧
       (t.ring d).tail = ((s.ring d).tail + n) % s.cfg.ringCap) ∧ (t.ring d).ovf = false

/-- R152, R153 (c), (e): the index update of `READ_ALL` is made on the ring as the receive events `y` of its yield point
left it: their bytes stay unread, their overflow is reported by this very response, and the marker is cleared
exactly when the drained bytes reach it. -/
def Obligations.ReadAllUpdatesAfterYield : Prop :=
  ∀ (s : State) (d : DevId) (maxlen : Byte) (dc : DevCfg) (y : Yield) (ys : List Yield), s.dev? d = some dc →
    s.busIs dc.bus .uart = true → s.isHandler dc.bus d = true → s.env.yields = y :: ys →
    ∃ t, exec (.readAll d maxlen) s = .next t ∧
      (let cap := s.cfg.ringCap
       let n := min ((s.ring d).count cap) maxlen.toNat
       let r := (s.rxBytes y.rx).ring d
       t.resp = respWord .ok r.ovf n ∧
       t.ring d = { r with
         tail := ((s.ring d).tail + n) % cap
         ovf := false
         mark := r.mark.bind fun m => if (m + (cap - (s.ring d).tail % cap)) % cap ≤ n then none else some m }) ∧
      (∀ e, e ≠ d → t.ring e = (s.rxBytes y.rx).ring e) ∧ t.notify = (s.rxBytes y.rx).notify

/-- The frame of `READ_LINE` and `READ_ALL` (R149, R152, R155): they write `RBUF` and the `TAIL`, `MARK` and `OVF` of
their own ring, and no other state but what the receive events at the yield point of `READ_ALL` write. -/
def Obligations.RingCommandFrame : Prop :=
  ∀ (s t : State) (i : Instr) (d : DevId) (maxlen : Byte), i = .readLine d maxlen ∨ i = .readAll d maxlen →
    exec i s = .next t →
    (∀ e, e ≠ d → s.unregistered e → t.ring e = s.ring e) ∧
    (∀ e, e ≠ d → (t.ring e).tail = (s.ring e).tail) ∧
    (∀ a, memRead t.wbuf a = memRead s.wbuf a) ∧
    { t with
      resp := s.resp, busy := s.busy, now := s.now, rings := s.rings, notify := s.notify, rbuf := s.rbuf,
      rbufValid := s.rbufValid, rbufFree := s.rbufFree, env := s.env, draws := s.draws } = s

/-! ## The receive interrupt -/

/-- R142: when the receive event is enabled, and that a byte that arrives when it is not changes no state. -/
def Obligations.ReceiveEnabledExactlyWhen : Prop :=
  ∀ (s : State) (b : BusId) (x : Byte),
    (s.rxEnabled b = true ↔
      (∃ bc, s.busCfg? b = some bc ∧ bc.kind = .uart ∧ bc.uartMode ≠ .txOnly) ∧ (s.bus b).up = true ∧
        ∃ h, s.handler b = some h) ∧
    (s.rxEnabled b = false → s.rxByte b x = s)

/-- R143, R141: a received byte is appended to the unread bytes of the handler device's ring, the marker moves to just
past a terminator, and the callback is invoked once. -/
def Obligations.ReceiveStoresByte : Prop :=
  ∀ (s : State) (b : BusId) (x : Byte) (h : Handler), s.rxEnabled b = true → s.handler b = some h →
    (s.ring h.dev).ok s.cfg.ringCap → ((s.ring h.dev).head + 1) % s.cfg.ringCap ≠ (s.ring h.dev).tail →
    let t := s.rxByte b x
    (t.ring h.dev).unread s.cfg.ringCap = (s.ring h.dev).unread s.cfg.ringCap ++ [x] ∧
    (t.ring h.dev).head = ((s.ring h.dev).head + 1) % s.cfg.ringCap ∧
    (t.ring h.dev).tail = (s.ring h.dev).tail ∧ (t.ring h.dev).ovf = (s.ring h.dev).ovf ∧
    (t.ring h.dev).mark =
      (if x = 0x0A then some (((s.ring h.dev).head + 1) % s.cfg.ringCap) else (s.ring h.dev).mark) ∧
    (∀ a, memRead (t.ring h.dev).buf a =
      if a = (s.ring h.dev).head then x else memRead (s.ring h.dev).buf a) ∧
    t.notify = s.notify ++ [{ dev := h.dev, cb := h.cb, byte := x }] ∧
    (∀ e, e ≠ h.dev → t.ring e = s.ring e)

/-- R144: a byte that arrives when the ring is full is dropped: only `OVF` changes, and no callback is invoked. -/
def Obligations.ReceiveOverflowDropsNewest : Prop :=
  ∀ (s : State) (b : BusId) (x : Byte) (h : Handler), s.rxEnabled b = true → s.handler b = some h →
    ((s.ring h.dev).head + 1) % s.cfg.ringCap = (s.ring h.dev).tail →
    let t := s.rxByte b x
    t.ring h.dev = { s.ring h.dev with ovf := true } ∧ (∀ e, e ≠ h.dev → t.ring e = s.ring e) ∧
    { t with rings := s.rings } = s

/-- R178: receive events write the rings of handler devices and `NOTIFY` and nothing else, and never a `TAIL`. (The other
step of interrupt context, the transmit-room step, writes `TXLOG`; it has no step of its own, log 12.) -/
def Obligations.ReceiveStepRights : Prop :=
  ∀ (s : State) (es : List (BusId × Byte)),
    (∀ d, ((s.rxBytes es).ring d).tail = (s.ring d).tail) ∧
    (∀ d, s.unregistered d → (s.rxBytes es).ring d = s.ring d) ∧ s.notify <+: (s.rxBytes es).notify ∧
    { s.rxBytes es with rings := s.rings, notify := s.notify } = s

/-! ## Time -/

/-- R85, R208: the elapsed test is right across a wrap of `NOW`: k ms after arming, k < 2^32, it holds exactly when k is
at least the interval. -/
def Obligations.ElapsedAcrossWrap : Prop :=
  ∀ (s : State) (b : BusId) (k : Nat), k < 2 ^ 32 → s.now = (s.bus b).expStart + BitVec.ofNat 32 k →
    (s.elapsed b = true ↔ (s.bus b).expInterval.toNat ≤ k)

/-! ## Rules over all commands -/

/-- R166: which command can end with which status, and on which transport; a command not listed for a status never
returns it. -/
def Obligations.StatusesByCommand : Prop :=
  ∀ (i : Instr) (s t : State), exec i s = .next t →
    ∃ (st : BusStatus) (ovf : Bool) (n : Nat), t.resp = respWord st ovf n ∧
      (st = .locked → i.mnemonic = .acquire) ∧
      (st = .notOwned → i.mnemonic = .release ∨ i.io?.isSome = true) ∧
      (st = .addressNack ∨ st = .dataNack → i.io?.isSome = true ∧
        ∃ dc, s.dev? i.dev = some dc ∧ s.busIs dc.bus .i2c = true) ∧
      (st = .dataNack → ∃ d wlen rlen, i.io? = some (d, wlen, rlen) ∧ wlen ≠ 0) ∧
      (st = .timeout → i.io?.isSome = true ∧
        ∃ dc, s.dev? i.dev = some dc ∧ (s.busIs dc.bus .i2c = true ∨ s.busIs dc.bus .uart = true)) ∧
      (st = .unknownError → i.mnemonic = .release ∨
        (i.io?.isSome = true ∧ ∃ dc, s.dev? i.dev = some dc ∧ s.busIs dc.bus .i2c = true)) ∧
      (ovf = true → i.mnemonic = .readLine ∨ i.mnemonic = .readAll)

/-- R18, R109: only `ACQUIRE` writes a timer register, and only `ACQUIRE` and `RELEASE` write any register of a bus or a
chip-select. -/
def Obligations.OnlyArbiterCommandsWriteBuses : Prop :=
  ∀ (i : Instr) (s t : State), exec i s = .next t → i.mnemonic ≠ .acquire →
    (∀ b, (t.bus b).expStart = (s.bus b).expStart ∧ (t.bus b).expInterval = (s.bus b).expInterval) ∧
    (i.mnemonic ≠ .release → t.buses = s.buses ∧ t.cs = s.cs)

/-- R29, R155: no command but `READ_LINE`, `READ_ALL` and a registration writes a `TAIL`. -/
def Obligations.TailWrittenByConsumerOnly : Prop :=
  ∀ (i : Instr) (s t : State), exec i s = .next t → i.mnemonic ≠ .readLine → i.mnemonic ≠ .readAll →
    i.mnemonic ≠ .setInputHandler → ∀ d, (t.ring d).tail = (s.ring d).tail

/-- R41: no command takes an entry out of an observation log; logs only grow. -/
def Obligations.LogsOnlyGrow : Prop :=
  ∀ (i : Instr) (s t : State), exec i s = .next t →
    s.notify <+: t.notify ∧
    ∀ b, s.txlogOf b <+: t.txlogOf b ∧ s.i2clogOf b <+: t.i2clogOf b ∧ s.spilogOf b <+: t.spilogOf b

/-! ## Reset -/

/-- R186: after reset, on any board and at any time, the block is idle, every bus is free and down, no chip-select is
asserted (R42), no handler is registered, so no receive interrupt is enabled, and every ring is empty. -/
def Obligations.ResetLeavesBlockIdle : Prop :=
  ∀ (c : Board) (now : Millis), (State.boot c now).busy = false ∧
    (∀ b, ((State.boot c now).bus b).locked = false ∧ ((State.boot c now).bus b).up = false ∧
      ((State.boot c now).bus b).ownerId = 0 ∧ (State.boot c now).handler b = none ∧
      (State.boot c now).rxEnabled b = false) ∧
    (∀ d, (State.boot c now).csOf d = false ∧ ((State.boot c now).ring d).head = 0 ∧
      ((State.boot c now).ring d).tail = 0 ∧ ((State.boot c now).ring d).mark = none ∧
      ((State.boot c now).ring d).ovf = false)

/-- R185: the reset event, taken between two commands or by a busy block, whose command it abandons without a response,
gives every register but `NOW` the value `State.boot` gives it and keeps the configuration. The values of the registers
R42 leaves unspecified are the model's (log 4, log 14), and that a reset strikes the command before which it stands in the
queue is the model's form (log 6). -/
def Obligations.ResetEventRestoresRegisters : Prop :=
  ∀ (s : State) (rest : List Input), s.cfg.wellFormed = true → s.inputs = .reset :: rest →
    ∃ t, step s = .next t ∧ t.busy = false ∧ t.inputs = rest ∧
      { t with inputs := [], env := Env.unknown, rbufFree := 0, draws := 1 } = State.boot s.cfg t.now

/-- The reset state of any well-formed board is sound, `State.reset` among them. That `RESP` is a response word then rests
on the 0 the model gives it, which R42 leaves unspecified (log 4), and the board of `State.reset` is the model's choice
(log 1). -/
def Obligations.ResetIsSafe : Prop :=
  (∀ (c : Board) (now : Millis), c.wellFormed = true → (State.boot c now).Safe) ∧ State.reset.Safe

/-! ## Invariants that every step keeps -/

/-- R29, R31: every step keeps the ring invariants: indices below the capacity, and the marker just past the last unread
terminator. -/
def Obligations.StepKeepsRingInvariant : Prop := ∀ s t : State, s.ringsOk → step s = .next t → t.ringsOk

/-- R16, R18, R100: every step keeps the arbiter's invariants: the owner of a bus is a device of that bus, its transport is
up, its chip-select is asserted and its interval is nonzero and below 2^31; a free bus has `OWNER_ID` 0. -/
def Obligations.StepKeepsArbiterInvariant : Prop := ∀ s t : State, s.arbiterOk → step s = .next t → t.arbiterOk

/-- Every step keeps every table and every byte space in canonical form. -/
def Obligations.StepKeepsCanonicalForm : Prop := ∀ s t : State, s.canonical → step s = .next t → t.canonical

/-- R33, R140: every step keeps each handler a device of its own receiving UART bus, with a nonzero callback. -/
def Obligations.StepKeepsHandlerInvariant : Prop := ∀ s t : State, s.handlersOk → step s = .next t → t.handlersOk

/-- R67, R68, R210: every step keeps `RESP` a response word, with COUNT at most 255 and 0 on any status but `Ok`. That a
reset event does rests on the 0 the model gives `RESP`, which R42 leaves unspecified (log 4, log 14). -/
def Obligations.StepKeepsResponseForm : Prop := ∀ s t : State, s.portOk → step s = .next t → t.portOk
end

