-- ==== Sys2Proof/Laws/Encoding.lean ====
section
/-! SUPPORT. The command word as its four fields (R63): each field read from a word of format C is the field it was
made of, a word is its fields, and a mask acts on each field. -/

namespace Sys2Proof

/-- A bit of a word of format C is a bit of the field it lies in. -/
theorem getLsbD_formatC (op d a b : Byte) (i : Nat) :
    (formatC op d a b).getLsbD i =
      if i < 8 then b.getLsbD i else if i < 16 then a.getLsbD (i - 8) else if i < 24 then d.getLsbD (i - 16)
      else op.getLsbD (i - 24) := by
  refine (BitVec.getLsbD_append (x := op ++ d ++ a) (y := b)).trans ?_
  by_cases h1 : i < 8
  · simp [h1]
  · rw [if_neg h1, if_neg h1]
    refine (BitVec.getLsbD_append (x := op ++ d) (y := a)).trans ?_
    by_cases h2 : i < 16
    · rw [if_pos h2, if_pos (by omega)]
    · rw [if_neg h2, if_neg (by omega)]
      refine (BitVec.getLsbD_append (x := op) (y := d)).trans ?_
      by_cases h3 : i < 24
      · rw [if_pos h3, if_pos (by omega)]; congr 1
      · rw [if_neg h3, if_neg (by omega)]; congr 1

theorem fieldOp_formatC (op d a b : Byte) : fieldOp (formatC op d a b) = op := by
  apply BitVec.eq_of_getLsbD_eq
  intro i hi
  have h1 : ¬ 24 + i < 8 := by omega
  have h2 : ¬ 24 + i < 16 := by omega
  simp [fieldOp, getLsbD_formatC, hi, h1, h2]

theorem fieldDev_formatC (op d a b : Byte) : fieldDev (formatC op d a b) = d := by
  apply BitVec.eq_of_getLsbD_eq
  intro i hi
  have h1 : ¬ 16 + i < 8 := by omega
  have h3 : 16 + i < 24 := by omega
  simp [fieldDev, getLsbD_formatC, hi, h1, h3]

theorem fieldA_formatC (op d a b : Byte) : fieldA (formatC op d a b) = a := by
  apply BitVec.eq_of_getLsbD_eq
  intro i hi
  have h2 : 8 + i < 16 := by omega
  simp [fieldA, getLsbD_formatC, hi, h2]

theorem fieldB_formatC (op d a b : Byte) : fieldB (formatC op d a b) = b := by
  apply BitVec.eq_of_getLsbD_eq
  intro i hi
  simp [fieldB, getLsbD_formatC, hi]

/-- A word is its four fields. -/
theorem formatC_fields (w : Word) : formatC (fieldOp w) (fieldDev w) (fieldA w) (fieldB w) = w := by
  apply BitVec.eq_of_getLsbD_eq
  intro i hi
  rw [getLsbD_formatC]
  simp only [fieldOp, fieldDev, fieldA, fieldB, BitVec.getLsbD_extractLsb']
  split
  · next h => simp [h]
  · split
    · next h1 h2 => rw [show 8 + (i - 8) = i by omega]; simp; omega
    · split
      · next h1 h2 h3 => rw [show 16 + (i - 16) = i by omega]; simp; omega
      · next h1 h2 h3 => rw [show 24 + (i - 24) = i by omega]; simp; omega

/-- A mask of format C acts on each field. -/
theorem formatC_and (op d a b m1 m2 m3 m4 : Byte) :
    formatC op d a b &&& formatC m1 m2 m3 m4 = formatC (op &&& m1) (d &&& m2) (a &&& m3) (b &&& m4) := by
  apply BitVec.eq_of_getLsbD_eq
  intro i _
  simp only [BitVec.getLsbD_and, getLsbD_formatC]
  repeat' split
  all_goals rfl

end Sys2Proof
end

