-- ==== Sys2Proof/Laws/Tables.lean ====
section
/-! SUPPORT. The laws of tables and byte spaces: read after write, the canonical form, and its uniqueness. -/

namespace Sys2Proof.Machine

section Tables

variable {α : Type}

@[simp] theorem tableGet_nil (dflt : α) (k : Nat) : tableGet dflt [] k = dflt := rfl

theorem tableGet_erase (dflt : α) (k j : Nat) (t : List (Nat × α)) :
    tableGet dflt (tableErase k t) j = if j = k then dflt else tableGet dflt t j := by
  induction t with
  | nil => simp [tableErase]
  | cons p t ih =>
    obtain ⟨i, v⟩ := p
    by_cases hik : i = k
    · rw [tableErase, if_pos hik, ih]
      by_cases hj : j = k
      · rw [if_pos hj, if_pos hj]
      · have hij : i ≠ j := fun h => hj (h ▸ hik)
        rw [if_neg hj, if_neg hj, tableGet, if_neg hij]
    · rw [tableErase, if_neg hik, tableGet, tableGet]
      by_cases hij : i = j
      · rw [if_pos hij, if_pos hij, if_neg (fun h => hik (hij.trans h))]
      · rw [if_neg hij, if_neg hij, ih]

theorem tableGet_insert_self (dflt : α) (k : Nat) (v : α) (t : List (Nat × α))
    (h : ∀ p ∈ t, p.1 ≠ k) : tableGet dflt (tableInsert k v t) k = v := by
  induction t with
  | nil => simp [tableInsert, tableGet]
  | cons p t ih =>
    obtain ⟨j, w⟩ := p
    have hj : j ≠ k := h (j, w) (by simp)
    have ht : ∀ p ∈ t, p.1 ≠ k := fun p hp => h p (by simp [hp])
    by_cases hlt : k < j
    · simp [tableInsert, hlt, tableGet]
    · simp [tableInsert, hlt, tableGet, hj, ih ht]

theorem tableGet_insert_other (dflt : α) (k j : Nat) (v : α) (t : List (Nat × α)) (h : j ≠ k) :
    tableGet dflt (tableInsert k v t) j = tableGet dflt t j := by
  induction t with
  | nil => simp [tableInsert, tableGet, Ne.symm h]
  | cons p t ih =>
    obtain ⟨i, w⟩ := p
    by_cases hlt : k < i
    · simp [tableInsert, hlt, tableGet, Ne.symm h]
    · rw [tableInsert, if_neg hlt, tableGet, tableGet, ih]

theorem mem_tableErase (k : Nat) (t : List (Nat × α)) (p : Nat × α) :
    p ∈ tableErase k t ↔ p ∈ t ∧ p.1 ≠ k := by
  induction t with
  | nil => simp [tableErase]
  | cons q t ih =>
    obtain ⟨j, w⟩ := q
    by_cases hj : j = k
    · simp only [tableErase, hj, if_true, ih, List.mem_cons]
      constructor
      · rintro ⟨h1, h2⟩; exact ⟨.inr h1, h2⟩
      · rintro ⟨rfl | h1, h2⟩
        · exact absurd rfl h2
        · exact ⟨h1, h2⟩
    · simp only [tableErase, hj, if_false, ih, List.mem_cons]
      constructor
      · rintro (rfl | ⟨h1, h2⟩)
        · exact ⟨.inl rfl, hj⟩
        · exact ⟨.inr h1, h2⟩
      · rintro ⟨h1 | h1, h2⟩
        · exact .inl h1
        · exact .inr ⟨h1, h2⟩

theorem mem_tableInsert (k : Nat) (v : α) (t : List (Nat × α)) (p : Nat × α) :
    p ∈ tableInsert k v t ↔ p = (k, v) ∨ p ∈ t := by
  induction t with
  | nil => simp [tableInsert]
  | cons q t ih =>
    obtain ⟨j, w⟩ := q
    by_cases hlt : k < j
    · simp [tableInsert, hlt]
    · simp only [tableInsert, hlt, if_false, List.mem_cons, ih]; tauto

theorem pairwise_tableErase (k : Nat) (t : List (Nat × α)) (h : (t.map Prod.fst).Pairwise (· < ·)) :
    ((tableErase k t).map Prod.fst).Pairwise (· < ·) := by
  induction t with
  | nil => simp [tableErase]
  | cons q t ih =>
    obtain ⟨j, w⟩ := q
    simp only [List.map_cons, List.pairwise_cons] at h
    by_cases hj : j = k
    · simpa [tableErase, hj] using ih h.2
    · simp only [tableErase, hj, if_false, List.map_cons, List.pairwise_cons]
      refine ⟨fun i hi => ?_, ih h.2⟩
      obtain ⟨p, hp, rfl⟩ := List.mem_map.1 hi
      exact h.1 _ (List.mem_map_of_mem ((mem_tableErase k t p).1 hp).1)

theorem pairwise_tableInsert (k : Nat) (v : α) (t : List (Nat × α)) (hk : ∀ p ∈ t, p.1 ≠ k)
    (h : (t.map Prod.fst).Pairwise (· < ·)) : ((tableInsert k v t).map Prod.fst).Pairwise (· < ·) := by
  induction t with
  | nil => simp [tableInsert]
  | cons q t ih =>
    obtain ⟨j, w⟩ := q
    have hjk : j ≠ k := hk (j, w) (by simp)
    simp only [List.map_cons, List.pairwise_cons] at h
    by_cases hlt : k < j
    · simp only [tableInsert, hlt, if_true, List.map_cons, List.pairwise_cons]
      refine ⟨fun i hi => ?_, h⟩
      rcases List.mem_cons.1 hi with rfl | hi
      · exact hlt
      · exact hlt.trans (h.1 i hi)
    · simp only [tableInsert, hlt, if_false, List.map_cons, List.pairwise_cons]
      refine ⟨fun i hi => ?_, ih (fun p hp => hk p (by simp [hp])) h.2⟩
      obtain ⟨p, hp, rfl⟩ := List.mem_map.1 hi
      rcases (mem_tableInsert k v t p).1 hp with rfl | hp
      · exact lt_of_le_of_ne (Nat.le_of_not_lt hlt) hjk
      · exact h.1 _ (List.mem_map_of_mem hp)

variable [DecidableEq α]

/-- Read after write: the written index reads as the record written, every other index as before. -/
@[simp] theorem tableGet_set (dflt : α) (t : List (Nat × α)) (k j : Nat) (v : α) :
    tableGet dflt (tableSet dflt t k v) j = if j = k then v else tableGet dflt t j := by
  have hfree : ∀ p ∈ tableErase k t, p.1 ≠ k := fun p hp => ((mem_tableErase k t p).1 hp).2
  unfold tableSet
  by_cases hv : v = dflt
  · simp [hv, tableGet_erase]
  · by_cases hj : j = k
    · subst hj; simp [hv, tableGet_insert_self _ _ _ _ hfree]
    · simp [hv, hj, tableGet_insert_other _ _ _ _ _ hj, tableGet_erase]

/-- The canonical form, as a statement about the entries. -/
theorem tableWf_iff (dflt : α) (t : List (Nat × α)) :
    tableWf dflt t = true ↔ (t.map Prod.fst).Pairwise (· < ·) ∧ ∀ p ∈ t, p.2 ≠ dflt := by
  simp [tableWf]

/-- A write keeps the canonical form. -/
theorem tableWf_set (dflt : α) (t : List (Nat × α)) (k : Nat) (v : α) (h : tableWf dflt t = true) :
    tableWf dflt (tableSet dflt t k v) = true := by
  rw [tableWf_iff] at h ⊢
  have he := pairwise_tableErase (α := α) k t h.1
  have hd : ∀ p ∈ tableErase k t, p.2 ≠ dflt := fun p hp => h.2 p ((mem_tableErase k t p).1 hp).1
  have hfree : ∀ p ∈ tableErase k t, p.1 ≠ k := fun p hp => ((mem_tableErase k t p).1 hp).2
  unfold tableSet
  by_cases hv : v = dflt
  · simpa [hv] using ⟨he, fun a b hp => hd (a, b) hp⟩
  · rw [if_neg hv]
    refine ⟨pairwise_tableInsert k v _ hfree he, fun p hp => ?_⟩
    rcases (mem_tableInsert k v _ p).1 hp with rfl | hp
    · exact hv
    · exact hd p hp

@[simp] theorem tableWf_nil (dflt : α) : tableWf dflt ([] : List (Nat × α)) = true := rfl

end Tables

/-! ## Byte spaces -/

@[simp] theorem memRead_nil (a : Nat) : memRead [] a = 0 := rfl

/-- Read after write, for one byte. -/
@[simp] theorem memRead_write (m : List Host.Cell) (a i : Nat) (x : Byte) :
    memRead (memWrite m a x) i = if i = a then x else memRead m i := tableGet_set _ _ _ _ _

/-- A byte write keeps the canonical form. -/
theorem wf_memWrite (m : List Host.Cell) (a : Nat) (x : Byte) (h : Memory.wf m = true) :
    Memory.wf (memWrite m a x) = true := tableWf_set _ _ _ _ h

/-- A sequence write keeps the canonical form. -/
theorem wf_writeBytes (v : List Byte) : ∀ (m : List Host.Cell) (a : Nat), Memory.wf m = true →
    Memory.wf (writeBytes m a v) = true := by
  induction v with
  | nil => intro m a h; exact h
  | cons x v ih => intro m a h; exact ih _ _ (wf_memWrite m a x h)

@[simp] theorem wf_empty : Memory.wf [] = true := rfl

/-- The byte spaces of the reset state are in canonical form. -/
theorem reset_memory_wf :
    Memory.wf State.reset.wbuf = true ∧ Memory.wf State.reset.rbuf = true ∧
      ∀ d, Memory.wf (State.reset.ring d).buf = true := ⟨rfl, rfl, fun _ => rfl⟩

/-- Read after a sequence write: the offsets written hold the sequence, every other offset is as before. -/
theorem memRead_writeBytes (v : List Byte) : ∀ (m : List Host.Cell) (a i : Nat),
    memRead (writeBytes m a v) i = if h : a ≤ i ∧ i < a + v.length then v[i - a]'(by omega) else memRead m i := by
  induction v with
  | nil =>
    intro m a i
    have h : ¬ (a ≤ i ∧ i < a + ([] : List Byte).length) := by simp
    rw [dif_neg h]; rfl
  | cons x v ih =>
    intro m a i
    simp only [writeBytes, ih, memRead_write, List.length_cons]
    by_cases h1 : i = a
    · subst h1
      simp
    · by_cases h2 : a + 1 ≤ i ∧ i < a + 1 + v.length
      · have h3 : a ≤ i ∧ i < a + (v.length + 1) := by omega
        have h4 : i - a = (i - (a + 1)) + 1 := by omega
        simp [h2, h3, h4]
      · have h3 : ¬ (a ≤ i ∧ i < a + (v.length + 1)) := by omega
        rw [dif_neg h2, dif_neg h3, if_neg h1]

@[simp] theorem length_readBytes (m : List Host.Cell) : ∀ n a, (readBytes m a n).length = n := by
  intro n
  induction n with
  | zero => intro a; rfl
  | succ n ih => intro a; simp [readBytes, ih]

/-- The i-th byte of a sequence read. -/
theorem getElem_readBytes (m : List Host.Cell) : ∀ n a i (h : i < (readBytes m a n).length),
    (readBytes m a n)[i] = memRead m (a + i) := by
  intro n
  induction n with
  | zero => intro a i h; simp at h
  | succ n ih =>
    intro a i h
    cases i with
    | zero => simp [readBytes]
    | succ i =>
      have := ih (a + 1) i (by simpa using h)
      simp only [readBytes, List.getElem_cons_succ, this]
      congr 1; omega

@[simp] theorem length_fitBytes : ∀ n (v : List Byte), (fitBytes n v).length = n
  | 0, _ => rfl
  | n + 1, [] => by simp [fitBytes, length_fitBytes n]
  | n + 1, _ :: v => by simp [fitBytes, length_fitBytes n v]

/-- A drawn sequence of the length demanded is itself (R115, R137). -/
theorem fitBytes_eq : ∀ (v : List Byte), fitBytes v.length v = v
  | [] => rfl
  | x :: v => by simp [fitBytes, fitBytes_eq v]

end Sys2Proof.Machine
end

