-- ==== Sys2Proof/Laws/State.lean ====
section
/-! SUPPORT. What each state update does to each field and to each reading of the state, so that no later proof
unfolds a record update. -/

namespace Sys2Proof.Machine

/-! ## `setBus` -/

@[simp] theorem State.setBus_cfg (s : State) (b : BusId) (v : Bus) : (s.setBus b v).cfg = s.cfg := rfl
@[simp] theorem State.setBus_busy (s : State) (b : BusId) (v : Bus) : (s.setBus b v).busy = s.busy := rfl
@[simp] theorem State.setBus_cmd (s : State) (b : BusId) (v : Bus) : (s.setBus b v).cmd = s.cmd := rfl
@[simp] theorem State.setBus_resp (s : State) (b : BusId) (v : Bus) : (s.setBus b v).resp = s.resp := rfl
@[simp] theorem State.setBus_wbuf (s : State) (b : BusId) (v : Bus) : (s.setBus b v).wbuf = s.wbuf := rfl
@[simp] theorem State.setBus_rbuf (s : State) (b : BusId) (v : Bus) : (s.setBus b v).rbuf = s.rbuf := rfl
@[simp] theorem State.setBus_rbufValid (s : State) (b : BusId) (v : Bus) : (s.setBus b v).rbufValid = s.rbufValid := rfl
@[simp] theorem State.setBus_rbufFree (s : State) (b : BusId) (v : Bus) : (s.setBus b v).rbufFree = s.rbufFree := rfl
@[simp] theorem State.setBus_now (s : State) (b : BusId) (v : Bus) : (s.setBus b v).now = s.now := rfl
@[simp] theorem State.setBus_buses (s : State) (b : BusId) (v : Bus) : (s.setBus b v).buses = tableSet Bus.free s.buses b.toNat v := rfl
@[simp] theorem State.setBus_cs (s : State) (b : BusId) (v : Bus) : (s.setBus b v).cs = s.cs := rfl
@[simp] theorem State.setBus_rings (s : State) (b : BusId) (v : Bus) : (s.setBus b v).rings = s.rings := rfl
@[simp] theorem State.setBus_handlers (s : State) (b : BusId) (v : Bus) : (s.setBus b v).handlers = s.handlers := rfl
@[simp] theorem State.setBus_txlog (s : State) (b : BusId) (v : Bus) : (s.setBus b v).txlog = s.txlog := rfl
@[simp] theorem State.setBus_i2clog (s : State) (b : BusId) (v : Bus) : (s.setBus b v).i2clog = s.i2clog := rfl
@[simp] theorem State.setBus_spilog (s : State) (b : BusId) (v : Bus) : (s.setBus b v).spilog = s.spilog := rfl
@[simp] theorem State.setBus_notify (s : State) (b : BusId) (v : Bus) : (s.setBus b v).notify = s.notify := rfl
@[simp] theorem State.setBus_inputs (s : State) (b : BusId) (v : Bus) : (s.setBus b v).inputs = s.inputs := rfl
@[simp] theorem State.setBus_env (s : State) (b : BusId) (v : Bus) : (s.setBus b v).env = s.env := rfl
@[simp] theorem State.setBus_draws (s : State) (b : BusId) (v : Bus) : (s.setBus b v).draws = s.draws := rfl
@[simp] theorem State.setBus_csOf (s : State) (b : BusId) (v : Bus) (e : DevId) :
    (s.setBus b v).csOf e = s.csOf e := rfl
@[simp] theorem State.setBus_ring (s : State) (b : BusId) (v : Bus) (e : DevId) :
    (s.setBus b v).ring e = s.ring e := rfl
@[simp] theorem State.setBus_handler (s : State) (b : BusId) (v : Bus) (c : BusId) :
    (s.setBus b v).handler c = s.handler c := rfl
@[simp] theorem State.setBus_txlogOf (s : State) (b : BusId) (v : Bus) (c : BusId) :
    (s.setBus b v).txlogOf c = s.txlogOf c := rfl
@[simp] theorem State.setBus_i2clogOf (s : State) (b : BusId) (v : Bus) (c : BusId) :
    (s.setBus b v).i2clogOf c = s.i2clogOf c := rfl
@[simp] theorem State.setBus_spilogOf (s : State) (b : BusId) (v : Bus) (c : BusId) :
    (s.setBus b v).spilogOf c = s.spilogOf c := rfl
@[simp] theorem State.setBus_rbufByte (s : State) (b : BusId) (v : Bus) (i : Nat) :
    (s.setBus b v).rbufByte i = s.rbufByte i := rfl
@[simp] theorem State.setBus_devOpt (s : State) (b : BusId) (v : Bus) (e : DevId) :
    (s.setBus b v).dev? e = s.dev? e := rfl
@[simp] theorem State.setBus_busCfgOpt (s : State) (b : BusId) (v : Bus) (c : BusId) :
    (s.setBus b v).busCfg? c = s.busCfg? c := rfl
@[simp] theorem State.setBus_busIs (s : State) (b : BusId) (v : Bus) (c : BusId) (k : TransportKind) :
    (s.setBus b v).busIs c k = s.busIs c k := rfl
@[simp] theorem State.setBus_busTxOnly (s : State) (b : BusId) (v : Bus) (c : BusId) :
    (s.setBus b v).busTxOnly c = s.busTxOnly c := rfl
@[simp] theorem State.setBus_defaultTimeout (s : State) (b : BusId) (v : Bus) (c : BusId) :
    (s.setBus b v).defaultTimeout c = s.defaultTimeout c := rfl
@[simp] theorem State.setBus_hasCs (s : State) (b : BusId) (v : Bus) (e : DevId) :
    (s.setBus b v).hasCs e = s.hasCs e := rfl
@[simp] theorem State.setBus_isHandler (s : State) (b : BusId) (v : Bus) (c : BusId) (e : DevId) :
    (s.setBus b v).isHandler c e = s.isHandler c e := rfl

/-! ## `setCs` -/

@[simp] theorem State.setCs_cfg (s : State) (d : DevId) (v : Bool) : (s.setCs d v).cfg = s.cfg := rfl
@[simp] theorem State.setCs_busy (s : State) (d : DevId) (v : Bool) : (s.setCs d v).busy = s.busy := rfl
@[simp] theorem State.setCs_cmd (s : State) (d : DevId) (v : Bool) : (s.setCs d v).cmd = s.cmd := rfl
@[simp] theorem State.setCs_resp (s : State) (d : DevId) (v : Bool) : (s.setCs d v).resp = s.resp := rfl
@[simp] theorem State.setCs_wbuf (s : State) (d : DevId) (v : Bool) : (s.setCs d v).wbuf = s.wbuf := rfl
@[simp] theorem State.setCs_rbuf (s : State) (d : DevId) (v : Bool) : (s.setCs d v).rbuf = s.rbuf := rfl
@[simp] theorem State.setCs_rbufValid (s : State) (d : DevId) (v : Bool) : (s.setCs d v).rbufValid = s.rbufValid := rfl
@[simp] theorem State.setCs_rbufFree (s : State) (d : DevId) (v : Bool) : (s.setCs d v).rbufFree = s.rbufFree := rfl
@[simp] theorem State.setCs_now (s : State) (d : DevId) (v : Bool) : (s.setCs d v).now = s.now := rfl
@[simp] theorem State.setCs_buses (s : State) (d : DevId) (v : Bool) : (s.setCs d v).buses = s.buses := rfl
@[simp] theorem State.setCs_cs (s : State) (d : DevId) (v : Bool) : (s.setCs d v).cs = tableSet false s.cs d.toNat v := rfl
@[simp] theorem State.setCs_rings (s : State) (d : DevId) (v : Bool) : (s.setCs d v).rings = s.rings := rfl
@[simp] theorem State.setCs_handlers (s : State) (d : DevId) (v : Bool) : (s.setCs d v).handlers = s.handlers := rfl
@[simp] theorem State.setCs_txlog (s : State) (d : DevId) (v : Bool) : (s.setCs d v).txlog = s.txlog := rfl
@[simp] theorem State.setCs_i2clog (s : State) (d : DevId) (v : Bool) : (s.setCs d v).i2clog = s.i2clog := rfl
@[simp] theorem State.setCs_spilog (s : State) (d : DevId) (v : Bool) : (s.setCs d v).spilog = s.spilog := rfl
@[simp] theorem State.setCs_notify (s : State) (d : DevId) (v : Bool) : (s.setCs d v).notify = s.notify := rfl
@[simp] theorem State.setCs_inputs (s : State) (d : DevId) (v : Bool) : (s.setCs d v).inputs = s.inputs := rfl
@[simp] theorem State.setCs_env (s : State) (d : DevId) (v : Bool) : (s.setCs d v).env = s.env := rfl
@[simp] theorem State.setCs_draws (s : State) (d : DevId) (v : Bool) : (s.setCs d v).draws = s.draws := rfl
@[simp] theorem State.setCs_bus (s : State) (d : DevId) (v : Bool) (c : BusId) :
    (s.setCs d v).bus c = s.bus c := rfl
@[simp] theorem State.setCs_ring (s : State) (d : DevId) (v : Bool) (e : DevId) :
    (s.setCs d v).ring e = s.ring e := rfl
@[simp] theorem State.setCs_handler (s : State) (d : DevId) (v : Bool) (c : BusId) :
    (s.setCs d v).handler c = s.handler c := rfl
@[simp] theorem State.setCs_txlogOf (s : State) (d : DevId) (v : Bool) (c : BusId) :
    (s.setCs d v).txlogOf c = s.txlogOf c := rfl
@[simp] theorem State.setCs_i2clogOf (s : State) (d : DevId) (v : Bool) (c : BusId) :
    (s.setCs d v).i2clogOf c = s.i2clogOf c := rfl
@[simp] theorem State.setCs_spilogOf (s : State) (d : DevId) (v : Bool) (c : BusId) :
    (s.setCs d v).spilogOf c = s.spilogOf c := rfl
@[simp] theorem State.setCs_rbufByte (s : State) (d : DevId) (v : Bool) (i : Nat) :
    (s.setCs d v).rbufByte i = s.rbufByte i := rfl
@[simp] theorem State.setCs_devOpt (s : State) (d : DevId) (v : Bool) (e : DevId) :
    (s.setCs d v).dev? e = s.dev? e := rfl
@[simp] theorem State.setCs_busCfgOpt (s : State) (d : DevId) (v : Bool) (c : BusId) :
    (s.setCs d v).busCfg? c = s.busCfg? c := rfl
@[simp] theorem State.setCs_busIs (s : State) (d : DevId) (v : Bool) (c : BusId) (k : TransportKind) :
    (s.setCs d v).busIs c k = s.busIs c k := rfl
@[simp] theorem State.setCs_busTxOnly (s : State) (d : DevId) (v : Bool) (c : BusId) :
    (s.setCs d v).busTxOnly c = s.busTxOnly c := rfl
@[simp] theorem State.setCs_defaultTimeout (s : State) (d : DevId) (v : Bool) (c : BusId) :
    (s.setCs d v).defaultTimeout c = s.defaultTimeout c := rfl
@[simp] theorem State.setCs_hasCs (s : State) (d : DevId) (v : Bool) (e : DevId) :
    (s.setCs d v).hasCs e = s.hasCs e := rfl
@[simp] theorem State.setCs_owns (s : State) (d : DevId) (v : Bool) (c : BusId) (e : DevId) :
    (s.setCs d v).owns c e = s.owns c e := rfl
@[simp] theorem State.setCs_age (s : State) (d : DevId) (v : Bool) (c : BusId) :
    (s.setCs d v).age c = s.age c := rfl
@[simp] theorem State.setCs_elapsed (s : State) (d : DevId) (v : Bool) (c : BusId) :
    (s.setCs d v).elapsed c = s.elapsed c := rfl
@[simp] theorem State.setCs_remaining (s : State) (d : DevId) (v : Bool) (c : BusId) :
    (s.setCs d v).remaining c = s.remaining c := rfl
@[simp] theorem State.setCs_isHandler (s : State) (d : DevId) (v : Bool) (c : BusId) (e : DevId) :
    (s.setCs d v).isHandler c e = s.isHandler c e := rfl
@[simp] theorem State.setCs_rxEnabled (s : State) (d : DevId) (v : Bool) (c : BusId) :
    (s.setCs d v).rxEnabled c = s.rxEnabled c := rfl

/-! ## `setRing` -/

@[simp] theorem State.setRing_cfg (s : State) (d : DevId) (r : Ring) : (s.setRing d r).cfg = s.cfg := rfl
@[simp] theorem State.setRing_busy (s : State) (d : DevId) (r : Ring) : (s.setRing d r).busy = s.busy := rfl
@[simp] theorem State.setRing_cmd (s : State) (d : DevId) (r : Ring) : (s.setRing d r).cmd = s.cmd := rfl
@[simp] theorem State.setRing_resp (s : State) (d : DevId) (r : Ring) : (s.setRing d r).resp = s.resp := rfl
@[simp] theorem State.setRing_wbuf (s : State) (d : DevId) (r : Ring) : (s.setRing d r).wbuf = s.wbuf := rfl
@[simp] theorem State.setRing_rbuf (s : State) (d : DevId) (r : Ring) : (s.setRing d r).rbuf = s.rbuf := rfl
@[simp] theorem State.setRing_rbufValid (s : State) (d : DevId) (r : Ring) : (s.setRing d r).rbufValid = s.rbufValid := rfl
@[simp] theorem State.setRing_rbufFree (s : State) (d : DevId) (r : Ring) : (s.setRing d r).rbufFree = s.rbufFree := rfl
@[simp] theorem State.setRing_now (s : State) (d : DevId) (r : Ring) : (s.setRing d r).now = s.now := rfl
@[simp] theorem State.setRing_buses (s : State) (d : DevId) (r : Ring) : (s.setRing d r).buses = s.buses := rfl
@[simp] theorem State.setRing_cs (s : State) (d : DevId) (r : Ring) : (s.setRing d r).cs = s.cs := rfl
@[simp] theorem State.setRing_rings (s : State) (d : DevId) (r : Ring) : (s.setRing d r).rings = tableSet Ring.empty s.rings d.toNat r := rfl
@[simp] theorem State.setRing_handlers (s : State) (d : DevId) (r : Ring) : (s.setRing d r).handlers = s.handlers := rfl
@[simp] theorem State.setRing_txlog (s : State) (d : DevId) (r : Ring) : (s.setRing d r).txlog = s.txlog := rfl
@[simp] theorem State.setRing_i2clog (s : State) (d : DevId) (r : Ring) : (s.setRing d r).i2clog = s.i2clog := rfl
@[simp] theorem State.setRing_spilog (s : State) (d : DevId) (r : Ring) : (s.setRing d r).spilog = s.spilog := rfl
@[simp] theorem State.setRing_notify (s : State) (d : DevId) (r : Ring) : (s.setRing d r).notify = s.notify := rfl
@[simp] theorem State.setRing_inputs (s : State) (d : DevId) (r : Ring) : (s.setRing d r).inputs = s.inputs := rfl
@[simp] theorem State.setRing_env (s : State) (d : DevId) (r : Ring) : (s.setRing d r).env = s.env := rfl
@[simp] theorem State.setRing_draws (s : State) (d : DevId) (r : Ring) : (s.setRing d r).draws = s.draws := rfl
@[simp] theorem State.setRing_bus (s : State) (d : DevId) (r : Ring) (c : BusId) :
    (s.setRing d r).bus c = s.bus c := rfl
@[simp] theorem State.setRing_csOf (s : State) (d : DevId) (r : Ring) (e : DevId) :
    (s.setRing d r).csOf e = s.csOf e := rfl
@[simp] theorem State.setRing_handler (s : State) (d : DevId) (r : Ring) (c : BusId) :
    (s.setRing d r).handler c = s.handler c := rfl
@[simp] theorem State.setRing_txlogOf (s : State) (d : DevId) (r : Ring) (c : BusId) :
    (s.setRing d r).txlogOf c = s.txlogOf c := rfl
@[simp] theorem State.setRing_i2clogOf (s : State) (d : DevId) (r : Ring) (c : BusId) :
    (s.setRing d r).i2clogOf c = s.i2clogOf c := rfl
@[simp] theorem State.setRing_spilogOf (s : State) (d : DevId) (r : Ring) (c : BusId) :
    (s.setRing d r).spilogOf c = s.spilogOf c := rfl
@[simp] theorem State.setRing_rbufByte (s : State) (d : DevId) (r : Ring) (i : Nat) :
    (s.setRing d r).rbufByte i = s.rbufByte i := rfl
@[simp] theorem State.setRing_devOpt (s : State) (d : DevId) (r : Ring) (e : DevId) :
    (s.setRing d r).dev? e = s.dev? e := rfl
@[simp] theorem State.setRing_busCfgOpt (s : State) (d : DevId) (r : Ring) (c : BusId) :
    (s.setRing d r).busCfg? c = s.busCfg? c := rfl
@[simp] theorem State.setRing_busIs (s : State) (d : DevId) (r : Ring) (c : BusId) (k : TransportKind) :
    (s.setRing d r).busIs c k = s.busIs c k := rfl
@[simp] theorem State.setRing_busTxOnly (s : State) (d : DevId) (r : Ring) (c : BusId) :
    (s.setRing d r).busTxOnly c = s.busTxOnly c := rfl
@[simp] theorem State.setRing_defaultTimeout (s : State) (d : DevId) (r : Ring) (c : BusId) :
    (s.setRing d r).defaultTimeout c = s.defaultTimeout c := rfl
@[simp] theorem State.setRing_hasCs (s : State) (d : DevId) (r : Ring) (e : DevId) :
    (s.setRing d r).hasCs e = s.hasCs e := rfl
@[simp] theorem State.setRing_owns (s : State) (d : DevId) (r : Ring) (c : BusId) (e : DevId) :
    (s.setRing d r).owns c e = s.owns c e := rfl
@[simp] theorem State.setRing_age (s : State) (d : DevId) (r : Ring) (c : BusId) :
    (s.setRing d r).age c = s.age c := rfl
@[simp] theorem State.setRing_elapsed (s : State) (d : DevId) (r : Ring) (c : BusId) :
    (s.setRing d r).elapsed c = s.elapsed c := rfl
@[simp] theorem State.setRing_remaining (s : State) (d : DevId) (r : Ring) (c : BusId) :
    (s.setRing d r).remaining c = s.remaining c := rfl
@[simp] theorem State.setRing_isHandler (s : State) (d : DevId) (r : Ring) (c : BusId) (e : DevId) :
    (s.setRing d r).isHandler c e = s.isHandler c e := rfl
@[simp] theorem State.setRing_rxEnabled (s : State) (d : DevId) (r : Ring) (c : BusId) :
    (s.setRing d r).rxEnabled c = s.rxEnabled c := rfl

/-! ## `setHandler` -/

@[simp] theorem State.setHandler_cfg (s : State) (b : BusId) (h : Option Handler) : (s.setHandler b h).cfg = s.cfg := rfl
@[simp] theorem State.setHandler_busy (s : State) (b : BusId) (h : Option Handler) : (s.setHandler b h).busy = s.busy := rfl
@[simp] theorem State.setHandler_cmd (s : State) (b : BusId) (h : Option Handler) : (s.setHandler b h).cmd = s.cmd := rfl
@[simp] theorem State.setHandler_resp (s : State) (b : BusId) (h : Option Handler) : (s.setHandler b h).resp = s.resp := rfl
@[simp] theorem State.setHandler_wbuf (s : State) (b : BusId) (h : Option Handler) : (s.setHandler b h).wbuf = s.wbuf := rfl
@[simp] theorem State.setHandler_rbuf (s : State) (b : BusId) (h : Option Handler) : (s.setHandler b h).rbuf = s.rbuf := rfl
@[simp] theorem State.setHandler_rbufValid (s : State) (b : BusId) (h : Option Handler) : (s.setHandler b h).rbufValid = s.rbufValid := rfl
@[simp] theorem State.setHandler_rbufFree (s : State) (b : BusId) (h : Option Handler) : (s.setHandler b h).rbufFree = s.rbufFree := rfl
@[simp] theorem State.setHandler_now (s : State) (b : BusId) (h : Option Handler) : (s.setHandler b h).now = s.now := rfl
@[simp] theorem State.setHandler_buses (s : State) (b : BusId) (h : Option Handler) : (s.setHandler b h).buses = s.buses := rfl
@[simp] theorem State.setHandler_cs (s : State) (b : BusId) (h : Option Handler) : (s.setHandler b h).cs = s.cs := rfl
@[simp] theorem State.setHandler_rings (s : State) (b : BusId) (h : Option Handler) : (s.setHandler b h).rings = s.rings := rfl
@[simp] theorem State.setHandler_handlers (s : State) (b : BusId) (h : Option Handler) : (s.setHandler b h).handlers = tableSet none s.handlers b.toNat h := rfl
@[simp] theorem State.setHandler_txlog (s : State) (b : BusId) (h : Option Handler) : (s.setHandler b h).txlog = s.txlog := rfl
@[simp] theorem State.setHandler_i2clog (s : State) (b : BusId) (h : Option Handler) : (s.setHandler b h).i2clog = s.i2clog := rfl
@[simp] theorem State.setHandler_spilog (s : State) (b : BusId) (h : Option Handler) : (s.setHandler b h).spilog = s.spilog := rfl
@[simp] theorem State.setHandler_notify (s : State) (b : BusId) (h : Option Handler) : (s.setHandler b h).notify = s.notify := rfl
@[simp] theorem State.setHandler_inputs (s : State) (b : BusId) (h : Option Handler) : (s.setHandler b h).inputs = s.inputs := rfl
@[simp] theorem State.setHandler_env (s : State) (b : BusId) (h : Option Handler) : (s.setHandler b h).env = s.env := rfl
@[simp] theorem State.setHandler_draws (s : State) (b : BusId) (h : Option Handler) : (s.setHandler b h).draws = s.draws := rfl
@[simp] theorem State.setHandler_bus (s : State) (b : BusId) (h : Option Handler) (c : BusId) :
    (s.setHandler b h).bus c = s.bus c := rfl
@[simp] theorem State.setHandler_csOf (s : State) (b : BusId) (h : Option Handler) (e : DevId) :
    (s.setHandler b h).csOf e = s.csOf e := rfl
@[simp] theorem State.setHandler_ring (s : State) (b : BusId) (h : Option Handler) (e : DevId) :
    (s.setHandler b h).ring e = s.ring e := rfl
@[simp] theorem State.setHandler_txlogOf (s : State) (b : BusId) (h : Option Handler) (c : BusId) :
    (s.setHandler b h).txlogOf c = s.txlogOf c := rfl
@[simp] theorem State.setHandler_i2clogOf (s : State) (b : BusId) (h : Option Handler) (c : BusId) :
    (s.setHandler b h).i2clogOf c = s.i2clogOf c := rfl
@[simp] theorem State.setHandler_spilogOf (s : State) (b : BusId) (h : Option Handler) (c : BusId) :
    (s.setHandler b h).spilogOf c = s.spilogOf c := rfl
@[simp] theorem State.setHandler_rbufByte (s : State) (b : BusId) (h : Option Handler) (i : Nat) :
    (s.setHandler b h).rbufByte i = s.rbufByte i := rfl
@[simp] theorem State.setHandler_devOpt (s : State) (b : BusId) (h : Option Handler) (e : DevId) :
    (s.setHandler b h).dev? e = s.dev? e := rfl
@[simp] theorem State.setHandler_busCfgOpt (s : State) (b : BusId) (h : Option Handler) (c : BusId) :
    (s.setHandler b h).busCfg? c = s.busCfg? c := rfl
@[simp] theorem State.setHandler_busIs (s : State) (b : BusId) (h : Option Handler) (c : BusId) (k : TransportKind) :
    (s.setHandler b h).busIs c k = s.busIs c k := rfl
@[simp] theorem State.setHandler_busTxOnly (s : State) (b : BusId) (h : Option Handler) (c : BusId) :
    (s.setHandler b h).busTxOnly c = s.busTxOnly c := rfl
@[simp] theorem State.setHandler_defaultTimeout (s : State) (b : BusId) (h : Option Handler) (c : BusId) :
    (s.setHandler b h).defaultTimeout c = s.defaultTimeout c := rfl
@[simp] theorem State.setHandler_hasCs (s : State) (b : BusId) (h : Option Handler) (e : DevId) :
    (s.setHandler b h).hasCs e = s.hasCs e := rfl
@[simp] theorem State.setHandler_owns (s : State) (b : BusId) (h : Option Handler) (c : BusId) (e : DevId) :
    (s.setHandler b h).owns c e = s.owns c e := rfl
@[simp] theorem State.setHandler_age (s : State) (b : BusId) (h : Option Handler) (c : BusId) :
    (s.setHandler b h).age c = s.age c := rfl
@[simp] theorem State.setHandler_elapsed (s : State) (b : BusId) (h : Option Handler) (c : BusId) :
    (s.setHandler b h).elapsed c = s.elapsed c := rfl
@[simp] theorem State.setHandler_remaining (s : State) (b : BusId) (h : Option Handler) (c : BusId) :
    (s.setHandler b h).remaining c = s.remaining c := rfl

/-! ## `storeRbuf` -/

@[simp] theorem State.storeRbuf_cfg (s : State) (v : List Byte) : (s.storeRbuf v).cfg = s.cfg := rfl
@[simp] theorem State.storeRbuf_busy (s : State) (v : List Byte) : (s.storeRbuf v).busy = s.busy := rfl
@[simp] theorem State.storeRbuf_cmd (s : State) (v : List Byte) : (s.storeRbuf v).cmd = s.cmd := rfl
@[simp] theorem State.storeRbuf_resp (s : State) (v : List Byte) : (s.storeRbuf v).resp = s.resp := rfl
@[simp] theorem State.storeRbuf_wbuf (s : State) (v : List Byte) : (s.storeRbuf v).wbuf = s.wbuf := rfl
@[simp] theorem State.storeRbuf_rbuf (s : State) (v : List Byte) : (s.storeRbuf v).rbuf = writeBytes [] 0 v := rfl
@[simp] theorem State.storeRbuf_rbufValid (s : State) (v : List Byte) : (s.storeRbuf v).rbufValid = v.length := rfl
@[simp] theorem State.storeRbuf_rbufFree (s : State) (v : List Byte) : (s.storeRbuf v).rbufFree = s.draws := rfl
@[simp] theorem State.storeRbuf_now (s : State) (v : List Byte) : (s.storeRbuf v).now = s.now := rfl
@[simp] theorem State.storeRbuf_buses (s : State) (v : List Byte) : (s.storeRbuf v).buses = s.buses := rfl
@[simp] theorem State.storeRbuf_cs (s : State) (v : List Byte) : (s.storeRbuf v).cs = s.cs := rfl
@[simp] theorem State.storeRbuf_rings (s : State) (v : List Byte) : (s.storeRbuf v).rings = s.rings := rfl
@[simp] theorem State.storeRbuf_handlers (s : State) (v : List Byte) : (s.storeRbuf v).handlers = s.handlers := rfl
@[simp] theorem State.storeRbuf_txlog (s : State) (v : List Byte) : (s.storeRbuf v).txlog = s.txlog := rfl
@[simp] theorem State.storeRbuf_i2clog (s : State) (v : List Byte) : (s.storeRbuf v).i2clog = s.i2clog := rfl
@[simp] theorem State.storeRbuf_spilog (s : State) (v : List Byte) : (s.storeRbuf v).spilog = s.spilog := rfl
@[simp] theorem State.storeRbuf_notify (s : State) (v : List Byte) : (s.storeRbuf v).notify = s.notify := rfl
@[simp] theorem State.storeRbuf_inputs (s : State) (v : List Byte) : (s.storeRbuf v).inputs = s.inputs := rfl
@[simp] theorem State.storeRbuf_env (s : State) (v : List Byte) : (s.storeRbuf v).env = s.env := rfl
@[simp] theorem State.storeRbuf_draws (s : State) (v : List Byte) : (s.storeRbuf v).draws = s.draws + 1 := rfl
@[simp] theorem State.storeRbuf_bus (s : State) (v : List Byte) (c : BusId) :
    (s.storeRbuf v).bus c = s.bus c := rfl
@[simp] theorem State.storeRbuf_csOf (s : State) (v : List Byte) (e : DevId) :
    (s.storeRbuf v).csOf e = s.csOf e := rfl
@[simp] theorem State.storeRbuf_ring (s : State) (v : List Byte) (e : DevId) :
    (s.storeRbuf v).ring e = s.ring e := rfl
@[simp] theorem State.storeRbuf_handler (s : State) (v : List Byte) (c : BusId) :
    (s.storeRbuf v).handler c = s.handler c := rfl
@[simp] theorem State.storeRbuf_txlogOf (s : State) (v : List Byte) (c : BusId) :
    (s.storeRbuf v).txlogOf c = s.txlogOf c := rfl
@[simp] theorem State.storeRbuf_i2clogOf (s : State) (v : List Byte) (c : BusId) :
    (s.storeRbuf v).i2clogOf c = s.i2clogOf c := rfl
@[simp] theorem State.storeRbuf_spilogOf (s : State) (v : List Byte) (c : BusId) :
    (s.storeRbuf v).spilogOf c = s.spilogOf c := rfl
@[simp] theorem State.storeRbuf_devOpt (s : State) (v : List Byte) (e : DevId) :
    (s.storeRbuf v).dev? e = s.dev? e := rfl
@[simp] theorem State.storeRbuf_busCfgOpt (s : State) (v : List Byte) (c : BusId) :
    (s.storeRbuf v).busCfg? c = s.busCfg? c := rfl
@[simp] theorem State.storeRbuf_busIs (s : State) (v : List Byte) (c : BusId) (k : TransportKind) :
    (s.storeRbuf v).busIs c k = s.busIs c k := rfl
@[simp] theorem State.storeRbuf_busTxOnly (s : State) (v : List Byte) (c : BusId) :
    (s.storeRbuf v).busTxOnly c = s.busTxOnly c := rfl
@[simp] theorem State.storeRbuf_defaultTimeout (s : State) (v : List Byte) (c : BusId) :
    (s.storeRbuf v).defaultTimeout c = s.defaultTimeout c := rfl
@[simp] theorem State.storeRbuf_hasCs (s : State) (v : List Byte) (e : DevId) :
    (s.storeRbuf v).hasCs e = s.hasCs e := rfl
@[simp] theorem State.storeRbuf_owns (s : State) (v : List Byte) (c : BusId) (e : DevId) :
    (s.storeRbuf v).owns c e = s.owns c e := rfl
@[simp] theorem State.storeRbuf_age (s : State) (v : List Byte) (c : BusId) :
    (s.storeRbuf v).age c = s.age c := rfl
@[simp] theorem State.storeRbuf_elapsed (s : State) (v : List Byte) (c : BusId) :
    (s.storeRbuf v).elapsed c = s.elapsed c := rfl
@[simp] theorem State.storeRbuf_remaining (s : State) (v : List Byte) (c : BusId) :
    (s.storeRbuf v).remaining c = s.remaining c := rfl
@[simp] theorem State.storeRbuf_isHandler (s : State) (v : List Byte) (c : BusId) (e : DevId) :
    (s.storeRbuf v).isHandler c e = s.isHandler c e := rfl
@[simp] theorem State.storeRbuf_rxEnabled (s : State) (v : List Byte) (c : BusId) :
    (s.storeRbuf v).rxEnabled c = s.rxEnabled c := rfl

/-! ## `spoilRbuf` -/

@[simp] theorem State.spoilRbuf_cfg (s : State) : s.spoilRbuf.cfg = s.cfg := rfl
@[simp] theorem State.spoilRbuf_busy (s : State) : s.spoilRbuf.busy = s.busy := rfl
@[simp] theorem State.spoilRbuf_cmd (s : State) : s.spoilRbuf.cmd = s.cmd := rfl
@[simp] theorem State.spoilRbuf_resp (s : State) : s.spoilRbuf.resp = s.resp := rfl
@[simp] theorem State.spoilRbuf_wbuf (s : State) : s.spoilRbuf.wbuf = s.wbuf := rfl
@[simp] theorem State.spoilRbuf_rbuf (s : State) : s.spoilRbuf.rbuf = [] := rfl
@[simp] theorem State.spoilRbuf_rbufValid (s : State) : s.spoilRbuf.rbufValid = 0 := rfl
@[simp] theorem State.spoilRbuf_rbufFree (s : State) : s.spoilRbuf.rbufFree = s.draws := rfl
@[simp] theorem State.spoilRbuf_now (s : State) : s.spoilRbuf.now = s.now := rfl
@[simp] theorem State.spoilRbuf_buses (s : State) : s.spoilRbuf.buses = s.buses := rfl
@[simp] theorem State.spoilRbuf_cs (s : State) : s.spoilRbuf.cs = s.cs := rfl
@[simp] theorem State.spoilRbuf_rings (s : State) : s.spoilRbuf.rings = s.rings := rfl
@[simp] theorem State.spoilRbuf_handlers (s : State) : s.spoilRbuf.handlers = s.handlers := rfl
@[simp] theorem State.spoilRbuf_txlog (s : State) : s.spoilRbuf.txlog = s.txlog := rfl
@[simp] theorem State.spoilRbuf_i2clog (s : State) : s.spoilRbuf.i2clog = s.i2clog := rfl
@[simp] theorem State.spoilRbuf_spilog (s : State) : s.spoilRbuf.spilog = s.spilog := rfl
@[simp] theorem State.spoilRbuf_notify (s : State) : s.spoilRbuf.notify = s.notify := rfl
@[simp] theorem State.spoilRbuf_inputs (s : State) : s.spoilRbuf.inputs = s.inputs := rfl
@[simp] theorem State.spoilRbuf_env (s : State) : s.spoilRbuf.env = s.env := rfl
@[simp] theorem State.spoilRbuf_draws (s : State) : s.spoilRbuf.draws = s.draws + 1 := rfl
@[simp] theorem State.spoilRbuf_bus (s : State) (c : BusId) :
    s.spoilRbuf.bus c = s.bus c := rfl
@[simp] theorem State.spoilRbuf_csOf (s : State) (e : DevId) :
    s.spoilRbuf.csOf e = s.csOf e := rfl
@[simp] theorem State.spoilRbuf_ring (s : State) (e : DevId) :
    s.spoilRbuf.ring e = s.ring e := rfl
@[simp] theorem State.spoilRbuf_handler (s : State) (c : BusId) :
    s.spoilRbuf.handler c = s.handler c := rfl
@[simp] theorem State.spoilRbuf_txlogOf (s : State) (c : BusId) :
    s.spoilRbuf.txlogOf c = s.txlogOf c := rfl
@[simp] theorem State.spoilRbuf_i2clogOf (s : State) (c : BusId) :
    s.spoilRbuf.i2clogOf c = s.i2clogOf c := rfl
@[simp] theorem State.spoilRbuf_spilogOf (s : State) (c : BusId) :
    s.spoilRbuf.spilogOf c = s.spilogOf c := rfl
@[simp] theorem State.spoilRbuf_devOpt (s : State) (e : DevId) :
    s.spoilRbuf.dev? e = s.dev? e := rfl
@[simp] theorem State.spoilRbuf_busCfgOpt (s : State) (c : BusId) :
    s.spoilRbuf.busCfg? c = s.busCfg? c := rfl
@[simp] theorem State.spoilRbuf_busIs (s : State) (c : BusId) (k : TransportKind) :
    s.spoilRbuf.busIs c k = s.busIs c k := rfl
@[simp] theorem State.spoilRbuf_busTxOnly (s : State) (c : BusId) :
    s.spoilRbuf.busTxOnly c = s.busTxOnly c := rfl
@[simp] theorem State.spoilRbuf_defaultTimeout (s : State) (c : BusId) :
    s.spoilRbuf.defaultTimeout c = s.defaultTimeout c := rfl
@[simp] theorem State.spoilRbuf_hasCs (s : State) (e : DevId) :
    s.spoilRbuf.hasCs e = s.hasCs e := rfl
@[simp] theorem State.spoilRbuf_owns (s : State) (c : BusId) (e : DevId) :
    s.spoilRbuf.owns c e = s.owns c e := rfl
@[simp] theorem State.spoilRbuf_age (s : State) (c : BusId) :
    s.spoilRbuf.age c = s.age c := rfl
@[simp] theorem State.spoilRbuf_elapsed (s : State) (c : BusId) :
    s.spoilRbuf.elapsed c = s.elapsed c := rfl
@[simp] theorem State.spoilRbuf_remaining (s : State) (c : BusId) :
    s.spoilRbuf.remaining c = s.remaining c := rfl
@[simp] theorem State.spoilRbuf_isHandler (s : State) (c : BusId) (e : DevId) :
    s.spoilRbuf.isHandler c e = s.isHandler c e := rfl
@[simp] theorem State.spoilRbuf_rxEnabled (s : State) (c : BusId) :
    s.spoilRbuf.rxEnabled c = s.rxEnabled c := rfl

/-! ## `emitTx` -/

@[simp] theorem State.emitTx_cfg (s : State) (b : BusId) (v : List Byte) : (s.emitTx b v).cfg = s.cfg := rfl
@[simp] theorem State.emitTx_busy (s : State) (b : BusId) (v : List Byte) : (s.emitTx b v).busy = s.busy := rfl
@[simp] theorem State.emitTx_cmd (s : State) (b : BusId) (v : List Byte) : (s.emitTx b v).cmd = s.cmd := rfl
@[simp] theorem State.emitTx_resp (s : State) (b : BusId) (v : List Byte) : (s.emitTx b v).resp = s.resp := rfl
@[simp] theorem State.emitTx_wbuf (s : State) (b : BusId) (v : List Byte) : (s.emitTx b v).wbuf = s.wbuf := rfl
@[simp] theorem State.emitTx_rbuf (s : State) (b : BusId) (v : List Byte) : (s.emitTx b v).rbuf = s.rbuf := rfl
@[simp] theorem State.emitTx_rbufValid (s : State) (b : BusId) (v : List Byte) : (s.emitTx b v).rbufValid = s.rbufValid := rfl
@[simp] theorem State.emitTx_rbufFree (s : State) (b : BusId) (v : List Byte) : (s.emitTx b v).rbufFree = s.rbufFree := rfl
@[simp] theorem State.emitTx_now (s : State) (b : BusId) (v : List Byte) : (s.emitTx b v).now = s.now := rfl
@[simp] theorem State.emitTx_buses (s : State) (b : BusId) (v : List Byte) : (s.emitTx b v).buses = s.buses := rfl
@[simp] theorem State.emitTx_cs (s : State) (b : BusId) (v : List Byte) : (s.emitTx b v).cs = s.cs := rfl
@[simp] theorem State.emitTx_rings (s : State) (b : BusId) (v : List Byte) : (s.emitTx b v).rings = s.rings := rfl
@[simp] theorem State.emitTx_handlers (s : State) (b : BusId) (v : List Byte) : (s.emitTx b v).handlers = s.handlers := rfl
@[simp] theorem State.emitTx_txlog (s : State) (b : BusId) (v : List Byte) : (s.emitTx b v).txlog = tableSet [] s.txlog b.toNat (s.txlogOf b ++ v) := rfl
@[simp] theorem State.emitTx_i2clog (s : State) (b : BusId) (v : List Byte) : (s.emitTx b v).i2clog = s.i2clog := rfl
@[simp] theorem State.emitTx_spilog (s : State) (b : BusId) (v : List Byte) : (s.emitTx b v).spilog = s.spilog := rfl
@[simp] theorem State.emitTx_notify (s : State) (b : BusId) (v : List Byte) : (s.emitTx b v).notify = s.notify := rfl
@[simp] theorem State.emitTx_inputs (s : State) (b : BusId) (v : List Byte) : (s.emitTx b v).inputs = s.inputs := rfl
@[simp] theorem State.emitTx_env (s : State) (b : BusId) (v : List Byte) : (s.emitTx b v).env = s.env := rfl
@[simp] theorem State.emitTx_draws (s : State) (b : BusId) (v : List Byte) : (s.emitTx b v).draws = s.draws := rfl
@[simp] theorem State.emitTx_bus (s : State) (b : BusId) (v : List Byte) (c : BusId) :
    (s.emitTx b v).bus c = s.bus c := rfl
@[simp] theorem State.emitTx_csOf (s : State) (b : BusId) (v : List Byte) (e : DevId) :
    (s.emitTx b v).csOf e = s.csOf e := rfl
@[simp] theorem State.emitTx_ring (s : State) (b : BusId) (v : List Byte) (e : DevId) :
    (s.emitTx b v).ring e = s.ring e := rfl
@[simp] theorem State.emitTx_handler (s : State) (b : BusId) (v : List Byte) (c : BusId) :
    (s.emitTx b v).handler c = s.handler c := rfl
@[simp] theorem State.emitTx_i2clogOf (s : State) (b : BusId) (v : List Byte) (c : BusId) :
    (s.emitTx b v).i2clogOf c = s.i2clogOf c := rfl
@[simp] theorem State.emitTx_spilogOf (s : State) (b : BusId) (v : List Byte) (c : BusId) :
    (s.emitTx b v).spilogOf c = s.spilogOf c := rfl
@[simp] theorem State.emitTx_rbufByte (s : State) (b : BusId) (v : List Byte) (i : Nat) :
    (s.emitTx b v).rbufByte i = s.rbufByte i := rfl
@[simp] theorem State.emitTx_devOpt (s : State) (b : BusId) (v : List Byte) (e : DevId) :
    (s.emitTx b v).dev? e = s.dev? e := rfl
@[simp] theorem State.emitTx_busCfgOpt (s : State) (b : BusId) (v : List Byte) (c : BusId) :
    (s.emitTx b v).busCfg? c = s.busCfg? c := rfl
@[simp] theorem State.emitTx_busIs (s : State) (b : BusId) (v : List Byte) (c : BusId) (k : TransportKind) :
    (s.emitTx b v).busIs c k = s.busIs c k := rfl
@[simp] theorem State.emitTx_busTxOnly (s : State) (b : BusId) (v : List Byte) (c : BusId) :
    (s.emitTx b v).busTxOnly c = s.busTxOnly c := rfl
@[simp] theorem State.emitTx_defaultTimeout (s : State) (b : BusId) (v : List Byte) (c : BusId) :
    (s.emitTx b v).defaultTimeout c = s.defaultTimeout c := rfl
@[simp] theorem State.emitTx_hasCs (s : State) (b : BusId) (v : List Byte) (e : DevId) :
    (s.emitTx b v).hasCs e = s.hasCs e := rfl
@[simp] theorem State.emitTx_owns (s : State) (b : BusId) (v : List Byte) (c : BusId) (e : DevId) :
    (s.emitTx b v).owns c e = s.owns c e := rfl
@[simp] theorem State.emitTx_age (s : State) (b : BusId) (v : List Byte) (c : BusId) :
    (s.emitTx b v).age c = s.age c := rfl
@[simp] theorem State.emitTx_elapsed (s : State) (b : BusId) (v : List Byte) (c : BusId) :
    (s.emitTx b v).elapsed c = s.elapsed c := rfl
@[simp] theorem State.emitTx_remaining (s : State) (b : BusId) (v : List Byte) (c : BusId) :
    (s.emitTx b v).remaining c = s.remaining c := rfl
@[simp] theorem State.emitTx_isHandler (s : State) (b : BusId) (v : List Byte) (c : BusId) (e : DevId) :
    (s.emitTx b v).isHandler c e = s.isHandler c e := rfl
@[simp] theorem State.emitTx_rxEnabled (s : State) (b : BusId) (v : List Byte) (c : BusId) :
    (s.emitTx b v).rxEnabled c = s.rxEnabled c := rfl

/-! ## `emitI2c` -/

@[simp] theorem State.emitI2c_cfg (s : State) (b : BusId) (v : I2cEntry) : (s.emitI2c b v).cfg = s.cfg := rfl
@[simp] theorem State.emitI2c_busy (s : State) (b : BusId) (v : I2cEntry) : (s.emitI2c b v).busy = s.busy := rfl
@[simp] theorem State.emitI2c_cmd (s : State) (b : BusId) (v : I2cEntry) : (s.emitI2c b v).cmd = s.cmd := rfl
@[simp] theorem State.emitI2c_resp (s : State) (b : BusId) (v : I2cEntry) : (s.emitI2c b v).resp = s.resp := rfl
@[simp] theorem State.emitI2c_wbuf (s : State) (b : BusId) (v : I2cEntry) : (s.emitI2c b v).wbuf = s.wbuf := rfl
@[simp] theorem State.emitI2c_rbuf (s : State) (b : BusId) (v : I2cEntry) : (s.emitI2c b v).rbuf = s.rbuf := rfl
@[simp] theorem State.emitI2c_rbufValid (s : State) (b : BusId) (v : I2cEntry) : (s.emitI2c b v).rbufValid = s.rbufValid := rfl
@[simp] theorem State.emitI2c_rbufFree (s : State) (b : BusId) (v : I2cEntry) : (s.emitI2c b v).rbufFree = s.rbufFree := rfl
@[simp] theorem State.emitI2c_now (s : State) (b : BusId) (v : I2cEntry) : (s.emitI2c b v).now = s.now := rfl
@[simp] theorem State.emitI2c_buses (s : State) (b : BusId) (v : I2cEntry) : (s.emitI2c b v).buses = s.buses := rfl
@[simp] theorem State.emitI2c_cs (s : State) (b : BusId) (v : I2cEntry) : (s.emitI2c b v).cs = s.cs := rfl
@[simp] theorem State.emitI2c_rings (s : State) (b : BusId) (v : I2cEntry) : (s.emitI2c b v).rings = s.rings := rfl
@[simp] theorem State.emitI2c_handlers (s : State) (b : BusId) (v : I2cEntry) : (s.emitI2c b v).handlers = s.handlers := rfl
@[simp] theorem State.emitI2c_txlog (s : State) (b : BusId) (v : I2cEntry) : (s.emitI2c b v).txlog = s.txlog := rfl
@[simp] theorem State.emitI2c_i2clog (s : State) (b : BusId) (v : I2cEntry) : (s.emitI2c b v).i2clog = tableSet [] s.i2clog b.toNat (s.i2clogOf b ++ [v]) := rfl
@[simp] theorem State.emitI2c_spilog (s : State) (b : BusId) (v : I2cEntry) : (s.emitI2c b v).spilog = s.spilog := rfl
@[simp] theorem State.emitI2c_notify (s : State) (b : BusId) (v : I2cEntry) : (s.emitI2c b v).notify = s.notify := rfl
@[simp] theorem State.emitI2c_inputs (s : State) (b : BusId) (v : I2cEntry) : (s.emitI2c b v).inputs = s.inputs := rfl
@[simp] theorem State.emitI2c_env (s : State) (b : BusId) (v : I2cEntry) : (s.emitI2c b v).env = s.env := rfl
@[simp] theorem State.emitI2c_draws (s : State) (b : BusId) (v : I2cEntry) : (s.emitI2c b v).draws = s.draws := rfl
@[simp] theorem State.emitI2c_bus (s : State) (b : BusId) (v : I2cEntry) (c : BusId) :
    (s.emitI2c b v).bus c = s.bus c := rfl
@[simp] theorem State.emitI2c_csOf (s : State) (b : BusId) (v : I2cEntry) (e : DevId) :
    (s.emitI2c b v).csOf e = s.csOf e := rfl
@[simp] theorem State.emitI2c_ring (s : State) (b : BusId) (v : I2cEntry) (e : DevId) :
    (s.emitI2c b v).ring e = s.ring e := rfl
@[simp] theorem State.emitI2c_handler (s : State) (b : BusId) (v : I2cEntry) (c : BusId) :
    (s.emitI2c b v).handler c = s.handler c := rfl
@[simp] theorem State.emitI2c_txlogOf (s : State) (b : BusId) (v : I2cEntry) (c : BusId) :
    (s.emitI2c b v).txlogOf c = s.txlogOf c := rfl
@[simp] theorem State.emitI2c_spilogOf (s : State) (b : BusId) (v : I2cEntry) (c : BusId) :
    (s.emitI2c b v).spilogOf c = s.spilogOf c := rfl
@[simp] theorem State.emitI2c_rbufByte (s : State) (b : BusId) (v : I2cEntry) (i : Nat) :
    (s.emitI2c b v).rbufByte i = s.rbufByte i := rfl
@[simp] theorem State.emitI2c_devOpt (s : State) (b : BusId) (v : I2cEntry) (e : DevId) :
    (s.emitI2c b v).dev? e = s.dev? e := rfl
@[simp] theorem State.emitI2c_busCfgOpt (s : State) (b : BusId) (v : I2cEntry) (c : BusId) :
    (s.emitI2c b v).busCfg? c = s.busCfg? c := rfl
@[simp] theorem State.emitI2c_busIs (s : State) (b : BusId) (v : I2cEntry) (c : BusId) (k : TransportKind) :
    (s.emitI2c b v).busIs c k = s.busIs c k := rfl
@[simp] theorem State.emitI2c_busTxOnly (s : State) (b : BusId) (v : I2cEntry) (c : BusId) :
    (s.emitI2c b v).busTxOnly c = s.busTxOnly c := rfl
@[simp] theorem State.emitI2c_defaultTimeout (s : State) (b : BusId) (v : I2cEntry) (c : BusId) :
    (s.emitI2c b v).defaultTimeout c = s.defaultTimeout c := rfl
@[simp] theorem State.emitI2c_hasCs (s : State) (b : BusId) (v : I2cEntry) (e : DevId) :
    (s.emitI2c b v).hasCs e = s.hasCs e := rfl
@[simp] theorem State.emitI2c_owns (s : State) (b : BusId) (v : I2cEntry) (c : BusId) (e : DevId) :
    (s.emitI2c b v).owns c e = s.owns c e := rfl
@[simp] theorem State.emitI2c_age (s : State) (b : BusId) (v : I2cEntry) (c : BusId) :
    (s.emitI2c b v).age c = s.age c := rfl
@[simp] theorem State.emitI2c_elapsed (s : State) (b : BusId) (v : I2cEntry) (c : BusId) :
    (s.emitI2c b v).elapsed c = s.elapsed c := rfl
@[simp] theorem State.emitI2c_remaining (s : State) (b : BusId) (v : I2cEntry) (c : BusId) :
    (s.emitI2c b v).remaining c = s.remaining c := rfl
@[simp] theorem State.emitI2c_isHandler (s : State) (b : BusId) (v : I2cEntry) (c : BusId) (e : DevId) :
    (s.emitI2c b v).isHandler c e = s.isHandler c e := rfl
@[simp] theorem State.emitI2c_rxEnabled (s : State) (b : BusId) (v : I2cEntry) (c : BusId) :
    (s.emitI2c b v).rxEnabled c = s.rxEnabled c := rfl

/-! ## `emitSpi` -/

@[simp] theorem State.emitSpi_cfg (s : State) (b : BusId) (v : SpiEntry) : (s.emitSpi b v).cfg = s.cfg := rfl
@[simp] theorem State.emitSpi_busy (s : State) (b : BusId) (v : SpiEntry) : (s.emitSpi b v).busy = s.busy := rfl
@[simp] theorem State.emitSpi_cmd (s : State) (b : BusId) (v : SpiEntry) : (s.emitSpi b v).cmd = s.cmd := rfl
@[simp] theorem State.emitSpi_resp (s : State) (b : BusId) (v : SpiEntry) : (s.emitSpi b v).resp = s.resp := rfl
@[simp] theorem State.emitSpi_wbuf (s : State) (b : BusId) (v : SpiEntry) : (s.emitSpi b v).wbuf = s.wbuf := rfl
@[simp] theorem State.emitSpi_rbuf (s : State) (b : BusId) (v : SpiEntry) : (s.emitSpi b v).rbuf = s.rbuf := rfl
@[simp] theorem State.emitSpi_rbufValid (s : State) (b : BusId) (v : SpiEntry) : (s.emitSpi b v).rbufValid = s.rbufValid := rfl
@[simp] theorem State.emitSpi_rbufFree (s : State) (b : BusId) (v : SpiEntry) : (s.emitSpi b v).rbufFree = s.rbufFree := rfl
@[simp] theorem State.emitSpi_now (s : State) (b : BusId) (v : SpiEntry) : (s.emitSpi b v).now = s.now := rfl
@[simp] theorem State.emitSpi_buses (s : State) (b : BusId) (v : SpiEntry) : (s.emitSpi b v).buses = s.buses := rfl
@[simp] theorem State.emitSpi_cs (s : State) (b : BusId) (v : SpiEntry) : (s.emitSpi b v).cs = s.cs := rfl
@[simp] theorem State.emitSpi_rings (s : State) (b : BusId) (v : SpiEntry) : (s.emitSpi b v).rings = s.rings := rfl
@[simp] theorem State.emitSpi_handlers (s : State) (b : BusId) (v : SpiEntry) : (s.emitSpi b v).handlers = s.handlers := rfl
@[simp] theorem State.emitSpi_txlog (s : State) (b : BusId) (v : SpiEntry) : (s.emitSpi b v).txlog = s.txlog := rfl
@[simp] theorem State.emitSpi_i2clog (s : State) (b : BusId) (v : SpiEntry) : (s.emitSpi b v).i2clog = s.i2clog := rfl
@[simp] theorem State.emitSpi_spilog (s : State) (b : BusId) (v : SpiEntry) : (s.emitSpi b v).spilog = tableSet [] s.spilog b.toNat (s.spilogOf b ++ [v]) := rfl
@[simp] theorem State.emitSpi_notify (s : State) (b : BusId) (v : SpiEntry) : (s.emitSpi b v).notify = s.notify := rfl
@[simp] theorem State.emitSpi_inputs (s : State) (b : BusId) (v : SpiEntry) : (s.emitSpi b v).inputs = s.inputs := rfl
@[simp] theorem State.emitSpi_env (s : State) (b : BusId) (v : SpiEntry) : (s.emitSpi b v).env = s.env := rfl
@[simp] theorem State.emitSpi_draws (s : State) (b : BusId) (v : SpiEntry) : (s.emitSpi b v).draws = s.draws := rfl
@[simp] theorem State.emitSpi_bus (s : State) (b : BusId) (v : SpiEntry) (c : BusId) :
    (s.emitSpi b v).bus c = s.bus c := rfl
@[simp] theorem State.emitSpi_csOf (s : State) (b : BusId) (v : SpiEntry) (e : DevId) :
    (s.emitSpi b v).csOf e = s.csOf e := rfl
@[simp] theorem State.emitSpi_ring (s : State) (b : BusId) (v : SpiEntry) (e : DevId) :
    (s.emitSpi b v).ring e = s.ring e := rfl
@[simp] theorem State.emitSpi_handler (s : State) (b : BusId) (v : SpiEntry) (c : BusId) :
    (s.emitSpi b v).handler c = s.handler c := rfl
@[simp] theorem State.emitSpi_txlogOf (s : State) (b : BusId) (v : SpiEntry) (c : BusId) :
    (s.emitSpi b v).txlogOf c = s.txlogOf c := rfl
@[simp] theorem State.emitSpi_i2clogOf (s : State) (b : BusId) (v : SpiEntry) (c : BusId) :
    (s.emitSpi b v).i2clogOf c = s.i2clogOf c := rfl
@[simp] theorem State.emitSpi_rbufByte (s : State) (b : BusId) (v : SpiEntry) (i : Nat) :
    (s.emitSpi b v).rbufByte i = s.rbufByte i := rfl
@[simp] theorem State.emitSpi_devOpt (s : State) (b : BusId) (v : SpiEntry) (e : DevId) :
    (s.emitSpi b v).dev? e = s.dev? e := rfl
@[simp] theorem State.emitSpi_busCfgOpt (s : State) (b : BusId) (v : SpiEntry) (c : BusId) :
    (s.emitSpi b v).busCfg? c = s.busCfg? c := rfl
@[simp] theorem State.emitSpi_busIs (s : State) (b : BusId) (v : SpiEntry) (c : BusId) (k : TransportKind) :
    (s.emitSpi b v).busIs c k = s.busIs c k := rfl
@[simp] theorem State.emitSpi_busTxOnly (s : State) (b : BusId) (v : SpiEntry) (c : BusId) :
    (s.emitSpi b v).busTxOnly c = s.busTxOnly c := rfl
@[simp] theorem State.emitSpi_defaultTimeout (s : State) (b : BusId) (v : SpiEntry) (c : BusId) :
    (s.emitSpi b v).defaultTimeout c = s.defaultTimeout c := rfl
@[simp] theorem State.emitSpi_hasCs (s : State) (b : BusId) (v : SpiEntry) (e : DevId) :
    (s.emitSpi b v).hasCs e = s.hasCs e := rfl
@[simp] theorem State.emitSpi_owns (s : State) (b : BusId) (v : SpiEntry) (c : BusId) (e : DevId) :
    (s.emitSpi b v).owns c e = s.owns c e := rfl
@[simp] theorem State.emitSpi_age (s : State) (b : BusId) (v : SpiEntry) (c : BusId) :
    (s.emitSpi b v).age c = s.age c := rfl
@[simp] theorem State.emitSpi_elapsed (s : State) (b : BusId) (v : SpiEntry) (c : BusId) :
    (s.emitSpi b v).elapsed c = s.elapsed c := rfl
@[simp] theorem State.emitSpi_remaining (s : State) (b : BusId) (v : SpiEntry) (c : BusId) :
    (s.emitSpi b v).remaining c = s.remaining c := rfl
@[simp] theorem State.emitSpi_isHandler (s : State) (b : BusId) (v : SpiEntry) (c : BusId) (e : DevId) :
    (s.emitSpi b v).isHandler c e = s.isHandler c e := rfl
@[simp] theorem State.emitSpi_rxEnabled (s : State) (b : BusId) (v : SpiEntry) (c : BusId) :
    (s.emitSpi b v).rxEnabled c = s.rxEnabled c := rfl

/-! ## `emitNotify` -/

@[simp] theorem State.emitNotify_cfg (s : State) (v : NotifyEntry) : (s.emitNotify v).cfg = s.cfg := rfl
@[simp] theorem State.emitNotify_busy (s : State) (v : NotifyEntry) : (s.emitNotify v).busy = s.busy := rfl
@[simp] theorem State.emitNotify_cmd (s : State) (v : NotifyEntry) : (s.emitNotify v).cmd = s.cmd := rfl
@[simp] theorem State.emitNotify_resp (s : State) (v : NotifyEntry) : (s.emitNotify v).resp = s.resp := rfl
@[simp] theorem State.emitNotify_wbuf (s : State) (v : NotifyEntry) : (s.emitNotify v).wbuf = s.wbuf := rfl
@[simp] theorem State.emitNotify_rbuf (s : State) (v : NotifyEntry) : (s.emitNotify v).rbuf = s.rbuf := rfl
@[simp] theorem State.emitNotify_rbufValid (s : State) (v : NotifyEntry) : (s.emitNotify v).rbufValid = s.rbufValid := rfl
@[simp] theorem State.emitNotify_rbufFree (s : State) (v : NotifyEntry) : (s.emitNotify v).rbufFree = s.rbufFree := rfl
@[simp] theorem State.emitNotify_now (s : State) (v : NotifyEntry) : (s.emitNotify v).now = s.now := rfl
@[simp] theorem State.emitNotify_buses (s : State) (v : NotifyEntry) : (s.emitNotify v).buses = s.buses := rfl
@[simp] theorem State.emitNotify_cs (s : State) (v : NotifyEntry) : (s.emitNotify v).cs = s.cs := rfl
@[simp] theorem State.emitNotify_rings (s : State) (v : NotifyEntry) : (s.emitNotify v).rings = s.rings := rfl
@[simp] theorem State.emitNotify_handlers (s : State) (v : NotifyEntry) : (s.emitNotify v).handlers = s.handlers := rfl
@[simp] theorem State.emitNotify_txlog (s : State) (v : NotifyEntry) : (s.emitNotify v).txlog = s.txlog := rfl
@[simp] theorem State.emitNotify_i2clog (s : State) (v : NotifyEntry) : (s.emitNotify v).i2clog = s.i2clog := rfl
@[simp] theorem State.emitNotify_spilog (s : State) (v : NotifyEntry) : (s.emitNotify v).spilog = s.spilog := rfl
@[simp] theorem State.emitNotify_notify (s : State) (v : NotifyEntry) : (s.emitNotify v).notify = s.notify ++ [v] := rfl
@[simp] theorem State.emitNotify_inputs (s : State) (v : NotifyEntry) : (s.emitNotify v).inputs = s.inputs := rfl
@[simp] theorem State.emitNotify_env (s : State) (v : NotifyEntry) : (s.emitNotify v).env = s.env := rfl
@[simp] theorem State.emitNotify_draws (s : State) (v : NotifyEntry) : (s.emitNotify v).draws = s.draws := rfl
@[simp] theorem State.emitNotify_bus (s : State) (v : NotifyEntry) (c : BusId) :
    (s.emitNotify v).bus c = s.bus c := rfl
@[simp] theorem State.emitNotify_csOf (s : State) (v : NotifyEntry) (e : DevId) :
    (s.emitNotify v).csOf e = s.csOf e := rfl
@[simp] theorem State.emitNotify_ring (s : State) (v : NotifyEntry) (e : DevId) :
    (s.emitNotify v).ring e = s.ring e := rfl
@[simp] theorem State.emitNotify_handler (s : State) (v : NotifyEntry) (c : BusId) :
    (s.emitNotify v).handler c = s.handler c := rfl
@[simp] theorem State.emitNotify_txlogOf (s : State) (v : NotifyEntry) (c : BusId) :
    (s.emitNotify v).txlogOf c = s.txlogOf c := rfl
@[simp] theorem State.emitNotify_i2clogOf (s : State) (v : NotifyEntry) (c : BusId) :
    (s.emitNotify v).i2clogOf c = s.i2clogOf c := rfl
@[simp] theorem State.emitNotify_spilogOf (s : State) (v : NotifyEntry) (c : BusId) :
    (s.emitNotify v).spilogOf c = s.spilogOf c := rfl
@[simp] theorem State.emitNotify_rbufByte (s : State) (v : NotifyEntry) (i : Nat) :
    (s.emitNotify v).rbufByte i = s.rbufByte i := rfl
@[simp] theorem State.emitNotify_devOpt (s : State) (v : NotifyEntry) (e : DevId) :
    (s.emitNotify v).dev? e = s.dev? e := rfl
@[simp] theorem State.emitNotify_busCfgOpt (s : State) (v : NotifyEntry) (c : BusId) :
    (s.emitNotify v).busCfg? c = s.busCfg? c := rfl
@[simp] theorem State.emitNotify_busIs (s : State) (v : NotifyEntry) (c : BusId) (k : TransportKind) :
    (s.emitNotify v).busIs c k = s.busIs c k := rfl
@[simp] theorem State.emitNotify_busTxOnly (s : State) (v : NotifyEntry) (c : BusId) :
    (s.emitNotify v).busTxOnly c = s.busTxOnly c := rfl
@[simp] theorem State.emitNotify_defaultTimeout (s : State) (v : NotifyEntry) (c : BusId) :
    (s.emitNotify v).defaultTimeout c = s.defaultTimeout c := rfl
@[simp] theorem State.emitNotify_hasCs (s : State) (v : NotifyEntry) (e : DevId) :
    (s.emitNotify v).hasCs e = s.hasCs e := rfl
@[simp] theorem State.emitNotify_owns (s : State) (v : NotifyEntry) (c : BusId) (e : DevId) :
    (s.emitNotify v).owns c e = s.owns c e := rfl
@[simp] theorem State.emitNotify_age (s : State) (v : NotifyEntry) (c : BusId) :
    (s.emitNotify v).age c = s.age c := rfl
@[simp] theorem State.emitNotify_elapsed (s : State) (v : NotifyEntry) (c : BusId) :
    (s.emitNotify v).elapsed c = s.elapsed c := rfl
@[simp] theorem State.emitNotify_remaining (s : State) (v : NotifyEntry) (c : BusId) :
    (s.emitNotify v).remaining c = s.remaining c := rfl
@[simp] theorem State.emitNotify_isHandler (s : State) (v : NotifyEntry) (c : BusId) (e : DevId) :
    (s.emitNotify v).isHandler c e = s.isHandler c e := rfl
@[simp] theorem State.emitNotify_rxEnabled (s : State) (v : NotifyEntry) (c : BusId) :
    (s.emitNotify v).rxEnabled c = s.rxEnabled c := rfl

/-! ## `advance` -/

@[simp] theorem State.advance_cfg (s : State) (n : Nat) : (s.advance n).cfg = s.cfg := rfl
@[simp] theorem State.advance_busy (s : State) (n : Nat) : (s.advance n).busy = s.busy := rfl
@[simp] theorem State.advance_cmd (s : State) (n : Nat) : (s.advance n).cmd = s.cmd := rfl
@[simp] theorem State.advance_resp (s : State) (n : Nat) : (s.advance n).resp = s.resp := rfl
@[simp] theorem State.advance_wbuf (s : State) (n : Nat) : (s.advance n).wbuf = s.wbuf := rfl
@[simp] theorem State.advance_rbuf (s : State) (n : Nat) : (s.advance n).rbuf = s.rbuf := rfl
@[simp] theorem State.advance_rbufValid (s : State) (n : Nat) : (s.advance n).rbufValid = s.rbufValid := rfl
@[simp] theorem State.advance_rbufFree (s : State) (n : Nat) : (s.advance n).rbufFree = s.rbufFree := rfl
@[simp] theorem State.advance_now (s : State) (n : Nat) : (s.advance n).now = s.now + BitVec.ofNat 32 n := rfl
@[simp] theorem State.advance_buses (s : State) (n : Nat) : (s.advance n).buses = s.buses := rfl
@[simp] theorem State.advance_cs (s : State) (n : Nat) : (s.advance n).cs = s.cs := rfl
@[simp] theorem State.advance_rings (s : State) (n : Nat) : (s.advance n).rings = s.rings := rfl
@[simp] theorem State.advance_handlers (s : State) (n : Nat) : (s.advance n).handlers = s.handlers := rfl
@[simp] theorem State.advance_txlog (s : State) (n : Nat) : (s.advance n).txlog = s.txlog := rfl
@[simp] theorem State.advance_i2clog (s : State) (n : Nat) : (s.advance n).i2clog = s.i2clog := rfl
@[simp] theorem State.advance_spilog (s : State) (n : Nat) : (s.advance n).spilog = s.spilog := rfl
@[simp] theorem State.advance_notify (s : State) (n : Nat) : (s.advance n).notify = s.notify := rfl
@[simp] theorem State.advance_inputs (s : State) (n : Nat) : (s.advance n).inputs = s.inputs := rfl
@[simp] theorem State.advance_env (s : State) (n : Nat) : (s.advance n).env = s.env := rfl
@[simp] theorem State.advance_draws (s : State) (n : Nat) : (s.advance n).draws = s.draws := rfl
@[simp] theorem State.advance_bus (s : State) (n : Nat) (c : BusId) :
    (s.advance n).bus c = s.bus c := rfl
@[simp] theorem State.advance_csOf (s : State) (n : Nat) (e : DevId) :
    (s.advance n).csOf e = s.csOf e := rfl
@[simp] theorem State.advance_ring (s : State) (n : Nat) (e : DevId) :
    (s.advance n).ring e = s.ring e := rfl
@[simp] theorem State.advance_handler (s : State) (n : Nat) (c : BusId) :
    (s.advance n).handler c = s.handler c := rfl
@[simp] theorem State.advance_txlogOf (s : State) (n : Nat) (c : BusId) :
    (s.advance n).txlogOf c = s.txlogOf c := rfl
@[simp] theorem State.advance_i2clogOf (s : State) (n : Nat) (c : BusId) :
    (s.advance n).i2clogOf c = s.i2clogOf c := rfl
@[simp] theorem State.advance_spilogOf (s : State) (n : Nat) (c : BusId) :
    (s.advance n).spilogOf c = s.spilogOf c := rfl
@[simp] theorem State.advance_rbufByte (s : State) (n : Nat) (i : Nat) :
    (s.advance n).rbufByte i = s.rbufByte i := rfl
@[simp] theorem State.advance_devOpt (s : State) (n : Nat) (e : DevId) :
    (s.advance n).dev? e = s.dev? e := rfl
@[simp] theorem State.advance_busCfgOpt (s : State) (n : Nat) (c : BusId) :
    (s.advance n).busCfg? c = s.busCfg? c := rfl
@[simp] theorem State.advance_busIs (s : State) (n : Nat) (c : BusId) (k : TransportKind) :
    (s.advance n).busIs c k = s.busIs c k := rfl
@[simp] theorem State.advance_busTxOnly (s : State) (n : Nat) (c : BusId) :
    (s.advance n).busTxOnly c = s.busTxOnly c := rfl
@[simp] theorem State.advance_defaultTimeout (s : State) (n : Nat) (c : BusId) :
    (s.advance n).defaultTimeout c = s.defaultTimeout c := rfl
@[simp] theorem State.advance_hasCs (s : State) (n : Nat) (e : DevId) :
    (s.advance n).hasCs e = s.hasCs e := rfl
@[simp] theorem State.advance_owns (s : State) (n : Nat) (c : BusId) (e : DevId) :
    (s.advance n).owns c e = s.owns c e := rfl
@[simp] theorem State.advance_isHandler (s : State) (n : Nat) (c : BusId) (e : DevId) :
    (s.advance n).isHandler c e = s.isHandler c e := rfl
@[simp] theorem State.advance_rxEnabled (s : State) (n : Nat) (c : BusId) :
    (s.advance n).rxEnabled c = s.rxEnabled c := rfl

/-! ## `respond` -/

@[simp] theorem State.respond_cfg (s : State) (st : BusStatus) (o : Bool) (n : Nat) : (s.respond st o n).cfg = s.cfg := rfl
@[simp] theorem State.respond_busy (s : State) (st : BusStatus) (o : Bool) (n : Nat) : (s.respond st o n).busy = false := rfl
@[simp] theorem State.respond_cmd (s : State) (st : BusStatus) (o : Bool) (n : Nat) : (s.respond st o n).cmd = s.cmd := rfl
@[simp] theorem State.respond_resp (s : State) (st : BusStatus) (o : Bool) (n : Nat) : (s.respond st o n).resp = respWord st o n := rfl
@[simp] theorem State.respond_wbuf (s : State) (st : BusStatus) (o : Bool) (n : Nat) : (s.respond st o n).wbuf = s.wbuf := rfl
@[simp] theorem State.respond_rbuf (s : State) (st : BusStatus) (o : Bool) (n : Nat) : (s.respond st o n).rbuf = s.rbuf := rfl
@[simp] theorem State.respond_rbufValid (s : State) (st : BusStatus) (o : Bool) (n : Nat) : (s.respond st o n).rbufValid = s.rbufValid := rfl
@[simp] theorem State.respond_rbufFree (s : State) (st : BusStatus) (o : Bool) (n : Nat) : (s.respond st o n).rbufFree = s.rbufFree := rfl
@[simp] theorem State.respond_now (s : State) (st : BusStatus) (o : Bool) (n : Nat) : (s.respond st o n).now = s.now := rfl
@[simp] theorem State.respond_buses (s : State) (st : BusStatus) (o : Bool) (n : Nat) : (s.respond st o n).buses = s.buses := rfl
@[simp] theorem State.respond_cs (s : State) (st : BusStatus) (o : Bool) (n : Nat) : (s.respond st o n).cs = s.cs := rfl
@[simp] theorem State.respond_rings (s : State) (st : BusStatus) (o : Bool) (n : Nat) : (s.respond st o n).rings = s.rings := rfl
@[simp] theorem State.respond_handlers (s : State) (st : BusStatus) (o : Bool) (n : Nat) : (s.respond st o n).handlers = s.handlers := rfl
@[simp] theorem State.respond_txlog (s : State) (st : BusStatus) (o : Bool) (n : Nat) : (s.respond st o n).txlog = s.txlog := rfl
@[simp] theorem State.respond_i2clog (s : State) (st : BusStatus) (o : Bool) (n : Nat) : (s.respond st o n).i2clog = s.i2clog := rfl
@[simp] theorem State.respond_spilog (s : State) (st : BusStatus) (o : Bool) (n : Nat) : (s.respond st o n).spilog = s.spilog := rfl
@[simp] theorem State.respond_notify (s : State) (st : BusStatus) (o : Bool) (n : Nat) : (s.respond st o n).notify = s.notify := rfl
@[simp] theorem State.respond_inputs (s : State) (st : BusStatus) (o : Bool) (n : Nat) : (s.respond st o n).inputs = s.inputs := rfl
@[simp] theorem State.respond_env (s : State) (st : BusStatus) (o : Bool) (n : Nat) : (s.respond st o n).env = s.env := rfl
@[simp] theorem State.respond_draws (s : State) (st : BusStatus) (o : Bool) (n : Nat) : (s.respond st o n).draws = s.draws := rfl
@[simp] theorem State.respond_bus (s : State) (st : BusStatus) (o : Bool) (n : Nat) (c : BusId) :
    (s.respond st o n).bus c = s.bus c := rfl
@[simp] theorem State.respond_csOf (s : State) (st : BusStatus) (o : Bool) (n : Nat) (e : DevId) :
    (s.respond st o n).csOf e = s.csOf e := rfl
@[simp] theorem State.respond_ring (s : State) (st : BusStatus) (o : Bool) (n : Nat) (e : DevId) :
    (s.respond st o n).ring e = s.ring e := rfl
@[simp] theorem State.respond_handler (s : State) (st : BusStatus) (o : Bool) (n : Nat) (c : BusId) :
    (s.respond st o n).handler c = s.handler c := rfl
@[simp] theorem State.respond_txlogOf (s : State) (st : BusStatus) (o : Bool) (n : Nat) (c : BusId) :
    (s.respond st o n).txlogOf c = s.txlogOf c := rfl
@[simp] theorem State.respond_i2clogOf (s : State) (st : BusStatus) (o : Bool) (n : Nat) (c : BusId) :
    (s.respond st o n).i2clogOf c = s.i2clogOf c := rfl
@[simp] theorem State.respond_spilogOf (s : State) (st : BusStatus) (o : Bool) (n : Nat) (c : BusId) :
    (s.respond st o n).spilogOf c = s.spilogOf c := rfl
@[simp] theorem State.respond_rbufByte (s : State) (st : BusStatus) (o : Bool) (n : Nat) (i : Nat) :
    (s.respond st o n).rbufByte i = s.rbufByte i := rfl
@[simp] theorem State.respond_devOpt (s : State) (st : BusStatus) (o : Bool) (n : Nat) (e : DevId) :
    (s.respond st o n).dev? e = s.dev? e := rfl
@[simp] theorem State.respond_busCfgOpt (s : State) (st : BusStatus) (o : Bool) (n : Nat) (c : BusId) :
    (s.respond st o n).busCfg? c = s.busCfg? c := rfl
@[simp] theorem State.respond_busIs (s : State) (st : BusStatus) (o : Bool) (n : Nat) (c : BusId) (k : TransportKind) :
    (s.respond st o n).busIs c k = s.busIs c k := rfl
@[simp] theorem State.respond_busTxOnly (s : State) (st : BusStatus) (o : Bool) (n : Nat) (c : BusId) :
    (s.respond st o n).busTxOnly c = s.busTxOnly c := rfl
@[simp] theorem State.respond_defaultTimeout (s : State) (st : BusStatus) (o : Bool) (n : Nat) (c : BusId) :
    (s.respond st o n).defaultTimeout c = s.defaultTimeout c := rfl
@[simp] theorem State.respond_hasCs (s : State) (st : BusStatus) (o : Bool) (n : Nat) (e : DevId) :
    (s.respond st o n).hasCs e = s.hasCs e := rfl
@[simp] theorem State.respond_owns (s : State) (st : BusStatus) (o : Bool) (n : Nat) (c : BusId) (e : DevId) :
    (s.respond st o n).owns c e = s.owns c e := rfl
@[simp] theorem State.respond_age (s : State) (st : BusStatus) (o : Bool) (n : Nat) (c : BusId) :
    (s.respond st o n).age c = s.age c := rfl
@[simp] theorem State.respond_elapsed (s : State) (st : BusStatus) (o : Bool) (n : Nat) (c : BusId) :
    (s.respond st o n).elapsed c = s.elapsed c := rfl
@[simp] theorem State.respond_remaining (s : State) (st : BusStatus) (o : Bool) (n : Nat) (c : BusId) :
    (s.respond st o n).remaining c = s.remaining c := rfl
@[simp] theorem State.respond_isHandler (s : State) (st : BusStatus) (o : Bool) (n : Nat) (c : BusId) (e : DevId) :
    (s.respond st o n).isHandler c e = s.isHandler c e := rfl
@[simp] theorem State.respond_rxEnabled (s : State) (st : BusStatus) (o : Bool) (n : Nat) (c : BusId) :
    (s.respond st o n).rxEnabled c = s.rxEnabled c := rfl

/-! ## `raise` -/

@[simp] theorem State.raise_cfg (s : State) (st : BusStatus) : (s.raise st).cfg = s.cfg := rfl
@[simp] theorem State.raise_busy (s : State) (st : BusStatus) : (s.raise st).busy = false := rfl
@[simp] theorem State.raise_cmd (s : State) (st : BusStatus) : (s.raise st).cmd = s.cmd := rfl
@[simp] theorem State.raise_resp (s : State) (st : BusStatus) : (s.raise st).resp = respWord st false 0 := rfl
@[simp] theorem State.raise_wbuf (s : State) (st : BusStatus) : (s.raise st).wbuf = s.wbuf := rfl
@[simp] theorem State.raise_rbuf (s : State) (st : BusStatus) : (s.raise st).rbuf = [] := rfl
@[simp] theorem State.raise_rbufValid (s : State) (st : BusStatus) : (s.raise st).rbufValid = 0 := rfl
@[simp] theorem State.raise_rbufFree (s : State) (st : BusStatus) : (s.raise st).rbufFree = s.draws := rfl
@[simp] theorem State.raise_now (s : State) (st : BusStatus) : (s.raise st).now = s.now := rfl
@[simp] theorem State.raise_buses (s : State) (st : BusStatus) : (s.raise st).buses = s.buses := rfl
@[simp] theorem State.raise_cs (s : State) (st : BusStatus) : (s.raise st).cs = s.cs := rfl
@[simp] theorem State.raise_rings (s : State) (st : BusStatus) : (s.raise st).rings = s.rings := rfl
@[simp] theorem State.raise_handlers (s : State) (st : BusStatus) : (s.raise st).handlers = s.handlers := rfl
@[simp] theorem State.raise_txlog (s : State) (st : BusStatus) : (s.raise st).txlog = s.txlog := rfl
@[simp] theorem State.raise_i2clog (s : State) (st : BusStatus) : (s.raise st).i2clog = s.i2clog := rfl
@[simp] theorem State.raise_spilog (s : State) (st : BusStatus) : (s.raise st).spilog = s.spilog := rfl
@[simp] theorem State.raise_notify (s : State) (st : BusStatus) : (s.raise st).notify = s.notify := rfl
@[simp] theorem State.raise_inputs (s : State) (st : BusStatus) : (s.raise st).inputs = s.inputs := rfl
@[simp] theorem State.raise_env (s : State) (st : BusStatus) : (s.raise st).env = s.env := rfl
@[simp] theorem State.raise_draws (s : State) (st : BusStatus) : (s.raise st).draws = s.draws + 1 := rfl
@[simp] theorem State.raise_bus (s : State) (st : BusStatus) (c : BusId) :
    (s.raise st).bus c = s.bus c := rfl
@[simp] theorem State.raise_csOf (s : State) (st : BusStatus) (e : DevId) :
    (s.raise st).csOf e = s.csOf e := rfl
@[simp] theorem State.raise_ring (s : State) (st : BusStatus) (e : DevId) :
    (s.raise st).ring e = s.ring e := rfl
@[simp] theorem State.raise_handler (s : State) (st : BusStatus) (c : BusId) :
    (s.raise st).handler c = s.handler c := rfl
@[simp] theorem State.raise_txlogOf (s : State) (st : BusStatus) (c : BusId) :
    (s.raise st).txlogOf c = s.txlogOf c := rfl
@[simp] theorem State.raise_i2clogOf (s : State) (st : BusStatus) (c : BusId) :
    (s.raise st).i2clogOf c = s.i2clogOf c := rfl
@[simp] theorem State.raise_spilogOf (s : State) (st : BusStatus) (c : BusId) :
    (s.raise st).spilogOf c = s.spilogOf c := rfl
@[simp] theorem State.raise_devOpt (s : State) (st : BusStatus) (e : DevId) :
    (s.raise st).dev? e = s.dev? e := rfl
@[simp] theorem State.raise_busCfgOpt (s : State) (st : BusStatus) (c : BusId) :
    (s.raise st).busCfg? c = s.busCfg? c := rfl
@[simp] theorem State.raise_busIs (s : State) (st : BusStatus) (c : BusId) (k : TransportKind) :
    (s.raise st).busIs c k = s.busIs c k := rfl
@[simp] theorem State.raise_busTxOnly (s : State) (st : BusStatus) (c : BusId) :
    (s.raise st).busTxOnly c = s.busTxOnly c := rfl
@[simp] theorem State.raise_defaultTimeout (s : State) (st : BusStatus) (c : BusId) :
    (s.raise st).defaultTimeout c = s.defaultTimeout c := rfl
@[simp] theorem State.raise_hasCs (s : State) (st : BusStatus) (e : DevId) :
    (s.raise st).hasCs e = s.hasCs e := rfl
@[simp] theorem State.raise_owns (s : State) (st : BusStatus) (c : BusId) (e : DevId) :
    (s.raise st).owns c e = s.owns c e := rfl
@[simp] theorem State.raise_age (s : State) (st : BusStatus) (c : BusId) :
    (s.raise st).age c = s.age c := rfl
@[simp] theorem State.raise_elapsed (s : State) (st : BusStatus) (c : BusId) :
    (s.raise st).elapsed c = s.elapsed c := rfl
@[simp] theorem State.raise_remaining (s : State) (st : BusStatus) (c : BusId) :
    (s.raise st).remaining c = s.remaining c := rfl
@[simp] theorem State.raise_isHandler (s : State) (st : BusStatus) (c : BusId) (e : DevId) :
    (s.raise st).isHandler c e = s.isHandler c e := rfl
@[simp] theorem State.raise_rxEnabled (s : State) (st : BusStatus) (c : BusId) :
    (s.raise st).rxEnabled c = s.rxEnabled c := rfl

/-! ## Readings of what an update writes -/

@[simp] theorem State.setBus_bus (s : State) (b c : BusId) (v : Bus) :
    (s.setBus b v).bus c = if c = b then v else s.bus c := by
  simp [State.bus, State.setBus, BitVec.toNat_inj]

@[simp] theorem State.setCs_csOf (s : State) (d e : DevId) (v : Bool) :
    (s.setCs d v).csOf e = if e = d then v else s.csOf e := by
  simp [State.csOf, State.setCs, BitVec.toNat_inj]

@[simp] theorem State.setRing_ring (s : State) (d e : DevId) (r : Ring) :
    (s.setRing d r).ring e = if e = d then r else s.ring e := by
  simp [State.ring, State.setRing, BitVec.toNat_inj]

@[simp] theorem State.setHandler_handler (s : State) (b c : BusId) (h : Option Handler) :
    (s.setHandler b h).handler c = if c = b then h else s.handler c := by
  simp [State.handler, State.setHandler, BitVec.toNat_inj]

@[simp] theorem State.emitTx_txlogOf (s : State) (b c : BusId) (v : List Byte) :
    (s.emitTx b v).txlogOf c = if c = b then s.txlogOf b ++ v else s.txlogOf c := by
  simp [State.txlogOf, State.emitTx, BitVec.toNat_inj]

@[simp] theorem State.emitI2c_i2clogOf (s : State) (b c : BusId) (v : I2cEntry) :
    (s.emitI2c b v).i2clogOf c = if c = b then s.i2clogOf b ++ [v] else s.i2clogOf c := by
  simp [State.i2clogOf, State.emitI2c, BitVec.toNat_inj]

@[simp] theorem State.emitSpi_spilogOf (s : State) (b c : BusId) (v : SpiEntry) :
    (s.emitSpi b v).spilogOf c = if c = b then s.spilogOf b ++ [v] else s.spilogOf c := by
  simp [State.spilogOf, State.emitSpi, BitVec.toNat_inj]

/-- The bytes stored to `RBUF` are read back; the rest are free values (R45). -/
theorem State.storeRbuf_rbufByte (s : State) (v : List Byte) (i : Nat) :
    (s.storeRbuf v).rbufByte i = if h : i < v.length then v[i] else Config.freeByte s.draws i := by
  unfold State.rbufByte State.storeRbuf
  by_cases h : i < v.length
  · simp [h, memRead_writeBytes]
  · simp [h]

/-- The bytes stored to `RBUF` are what a read of as many bytes gives. -/
theorem State.storeRbuf_bytes (s : State) (v : List Byte) : (s.storeRbuf v).rbufBytes v.length = v := by
  apply List.ext_getElem
  · simp [State.rbufBytes]
  · intro i h1 h2
    simp [State.rbufBytes, State.storeRbuf_rbufByte, h2]

@[simp] theorem State.respond_rbufBytes (s : State) (st : BusStatus) (o : Bool) (n m : Nat) :
    (s.respond st o n).rbufBytes m = s.rbufBytes m := rfl

end Sys2Proof.Machine
end

