-- ==== Sys2Proof/Laws/Environment.lean ====
section
/-! SUPPORT. What a draw from the environment, a receive event and the passing of time leave as it was, and the
one lemma each that says what they do. -/

namespace Sys2Proof.Machine

/-! ## `drawYield` -/

@[simp] theorem State.drawYield_cfg (s : State) : s.drawYield.2.cfg = s.cfg := by
  unfold State.drawYield; split <;> rfl
@[simp] theorem State.drawYield_busy (s : State) : s.drawYield.2.busy = s.busy := by
  unfold State.drawYield; split <;> rfl
@[simp] theorem State.drawYield_cmd (s : State) : s.drawYield.2.cmd = s.cmd := by
  unfold State.drawYield; split <;> rfl
@[simp] theorem State.drawYield_resp (s : State) : s.drawYield.2.resp = s.resp := by
  unfold State.drawYield; split <;> rfl
@[simp] theorem State.drawYield_wbuf (s : State) : s.drawYield.2.wbuf = s.wbuf := by
  unfold State.drawYield; split <;> rfl
@[simp] theorem State.drawYield_rbuf (s : State) : s.drawYield.2.rbuf = s.rbuf := by
  unfold State.drawYield; split <;> rfl
@[simp] theorem State.drawYield_rbufValid (s : State) : s.drawYield.2.rbufValid = s.rbufValid := by
  unfold State.drawYield; split <;> rfl
@[simp] theorem State.drawYield_rbufFree (s : State) : s.drawYield.2.rbufFree = s.rbufFree := by
  unfold State.drawYield; split <;> rfl
@[simp] theorem State.drawYield_now (s : State) : s.drawYield.2.now = s.now := by
  unfold State.drawYield; split <;> rfl
@[simp] theorem State.drawYield_buses (s : State) : s.drawYield.2.buses = s.buses := by
  unfold State.drawYield; split <;> rfl
@[simp] theorem State.drawYield_cs (s : State) : s.drawYield.2.cs = s.cs := by
  unfold State.drawYield; split <;> rfl
@[simp] theorem State.drawYield_rings (s : State) : s.drawYield.2.rings = s.rings := by
  unfold State.drawYield; split <;> rfl
@[simp] theorem State.drawYield_handlers (s : State) : s.drawYield.2.handlers = s.handlers := by
  unfold State.drawYield; split <;> rfl
@[simp] theorem State.drawYield_txlog (s : State) : s.drawYield.2.txlog = s.txlog := by
  unfold State.drawYield; split <;> rfl
@[simp] theorem State.drawYield_i2clog (s : State) : s.drawYield.2.i2clog = s.i2clog := by
  unfold State.drawYield; split <;> rfl
@[simp] theorem State.drawYield_spilog (s : State) : s.drawYield.2.spilog = s.spilog := by
  unfold State.drawYield; split <;> rfl
@[simp] theorem State.drawYield_notify (s : State) : s.drawYield.2.notify = s.notify := by
  unfold State.drawYield; split <;> rfl
@[simp] theorem State.drawYield_inputs (s : State) : s.drawYield.2.inputs = s.inputs := by
  unfold State.drawYield; split <;> rfl
@[simp] theorem State.drawYield_bus (s : State) (c : BusId) : s.drawYield.2.bus c = s.bus c := by
  unfold State.drawYield; split <;> rfl
@[simp] theorem State.drawYield_csOf (s : State) (e : DevId) : s.drawYield.2.csOf e = s.csOf e := by
  unfold State.drawYield; split <;> rfl
@[simp] theorem State.drawYield_ring (s : State) (e : DevId) : s.drawYield.2.ring e = s.ring e := by
  unfold State.drawYield; split <;> rfl
@[simp] theorem State.drawYield_handler (s : State) (c : BusId) : s.drawYield.2.handler c = s.handler c := by
  unfold State.drawYield; split <;> rfl
@[simp] theorem State.drawYield_txlogOf (s : State) (c : BusId) : s.drawYield.2.txlogOf c = s.txlogOf c := by
  unfold State.drawYield; split <;> rfl
@[simp] theorem State.drawYield_i2clogOf (s : State) (c : BusId) : s.drawYield.2.i2clogOf c = s.i2clogOf c := by
  unfold State.drawYield; split <;> rfl
@[simp] theorem State.drawYield_spilogOf (s : State) (c : BusId) : s.drawYield.2.spilogOf c = s.spilogOf c := by
  unfold State.drawYield; split <;> rfl
@[simp] theorem State.drawYield_rbufByte (s : State) (i : Nat) : s.drawYield.2.rbufByte i = s.rbufByte i := by
  unfold State.drawYield; split <;> rfl
@[simp] theorem State.drawYield_devOpt (s : State) (e : DevId) : s.drawYield.2.dev? e = s.dev? e := by
  unfold State.drawYield; split <;> rfl
@[simp] theorem State.drawYield_busCfgOpt (s : State) (c : BusId) : s.drawYield.2.busCfg? c = s.busCfg? c := by
  unfold State.drawYield; split <;> rfl
@[simp] theorem State.drawYield_busIs (s : State) (c : BusId) (k : TransportKind) : s.drawYield.2.busIs c k = s.busIs c k := by
  unfold State.drawYield; split <;> rfl
@[simp] theorem State.drawYield_busTxOnly (s : State) (c : BusId) : s.drawYield.2.busTxOnly c = s.busTxOnly c := by
  unfold State.drawYield; split <;> rfl
@[simp] theorem State.drawYield_defaultTimeout (s : State) (c : BusId) : s.drawYield.2.defaultTimeout c = s.defaultTimeout c := by
  unfold State.drawYield; split <;> rfl
@[simp] theorem State.drawYield_hasCs (s : State) (e : DevId) : s.drawYield.2.hasCs e = s.hasCs e := by
  unfold State.drawYield; split <;> rfl
@[simp] theorem State.drawYield_owns (s : State) (c : BusId) (e : DevId) : s.drawYield.2.owns c e = s.owns c e := by
  unfold State.drawYield; split <;> rfl
@[simp] theorem State.drawYield_age (s : State) (c : BusId) : s.drawYield.2.age c = s.age c := by
  unfold State.drawYield; split <;> rfl
@[simp] theorem State.drawYield_elapsed (s : State) (c : BusId) : s.drawYield.2.elapsed c = s.elapsed c := by
  unfold State.drawYield; split <;> rfl
@[simp] theorem State.drawYield_remaining (s : State) (c : BusId) : s.drawYield.2.remaining c = s.remaining c := by
  unfold State.drawYield; split <;> rfl
@[simp] theorem State.drawYield_isHandler (s : State) (c : BusId) (e : DevId) : s.drawYield.2.isHandler c e = s.isHandler c e := by
  unfold State.drawYield; split <;> rfl
@[simp] theorem State.drawYield_rxEnabled (s : State) (c : BusId) : s.drawYield.2.rxEnabled c = s.rxEnabled c := by
  unfold State.drawYield; split <;> rfl

/-! ## `drawDrift` -/

@[simp] theorem State.drawDrift_cfg (s : State) : s.drawDrift.2.cfg = s.cfg := by
  unfold State.drawDrift; split <;> rfl
@[simp] theorem State.drawDrift_busy (s : State) : s.drawDrift.2.busy = s.busy := by
  unfold State.drawDrift; split <;> rfl
@[simp] theorem State.drawDrift_cmd (s : State) : s.drawDrift.2.cmd = s.cmd := by
  unfold State.drawDrift; split <;> rfl
@[simp] theorem State.drawDrift_resp (s : State) : s.drawDrift.2.resp = s.resp := by
  unfold State.drawDrift; split <;> rfl
@[simp] theorem State.drawDrift_wbuf (s : State) : s.drawDrift.2.wbuf = s.wbuf := by
  unfold State.drawDrift; split <;> rfl
@[simp] theorem State.drawDrift_rbuf (s : State) : s.drawDrift.2.rbuf = s.rbuf := by
  unfold State.drawDrift; split <;> rfl
@[simp] theorem State.drawDrift_rbufValid (s : State) : s.drawDrift.2.rbufValid = s.rbufValid := by
  unfold State.drawDrift; split <;> rfl
@[simp] theorem State.drawDrift_rbufFree (s : State) : s.drawDrift.2.rbufFree = s.rbufFree := by
  unfold State.drawDrift; split <;> rfl
@[simp] theorem State.drawDrift_now (s : State) : s.drawDrift.2.now = s.now := by
  unfold State.drawDrift; split <;> rfl
@[simp] theorem State.drawDrift_buses (s : State) : s.drawDrift.2.buses = s.buses := by
  unfold State.drawDrift; split <;> rfl
@[simp] theorem State.drawDrift_cs (s : State) : s.drawDrift.2.cs = s.cs := by
  unfold State.drawDrift; split <;> rfl
@[simp] theorem State.drawDrift_rings (s : State) : s.drawDrift.2.rings = s.rings := by
  unfold State.drawDrift; split <;> rfl
@[simp] theorem State.drawDrift_handlers (s : State) : s.drawDrift.2.handlers = s.handlers := by
  unfold State.drawDrift; split <;> rfl
@[simp] theorem State.drawDrift_txlog (s : State) : s.drawDrift.2.txlog = s.txlog := by
  unfold State.drawDrift; split <;> rfl
@[simp] theorem State.drawDrift_i2clog (s : State) : s.drawDrift.2.i2clog = s.i2clog := by
  unfold State.drawDrift; split <;> rfl
@[simp] theorem State.drawDrift_spilog (s : State) : s.drawDrift.2.spilog = s.spilog := by
  unfold State.drawDrift; split <;> rfl
@[simp] theorem State.drawDrift_notify (s : State) : s.drawDrift.2.notify = s.notify := by
  unfold State.drawDrift; split <;> rfl
@[simp] theorem State.drawDrift_inputs (s : State) : s.drawDrift.2.inputs = s.inputs := by
  unfold State.drawDrift; split <;> rfl
@[simp] theorem State.drawDrift_bus (s : State) (c : BusId) : s.drawDrift.2.bus c = s.bus c := by
  unfold State.drawDrift; split <;> rfl
@[simp] theorem State.drawDrift_csOf (s : State) (e : DevId) : s.drawDrift.2.csOf e = s.csOf e := by
  unfold State.drawDrift; split <;> rfl
@[simp] theorem State.drawDrift_ring (s : State) (e : DevId) : s.drawDrift.2.ring e = s.ring e := by
  unfold State.drawDrift; split <;> rfl
@[simp] theorem State.drawDrift_handler (s : State) (c : BusId) : s.drawDrift.2.handler c = s.handler c := by
  unfold State.drawDrift; split <;> rfl
@[simp] theorem State.drawDrift_txlogOf (s : State) (c : BusId) : s.drawDrift.2.txlogOf c = s.txlogOf c := by
  unfold State.drawDrift; split <;> rfl
@[simp] theorem State.drawDrift_i2clogOf (s : State) (c : BusId) : s.drawDrift.2.i2clogOf c = s.i2clogOf c := by
  unfold State.drawDrift; split <;> rfl
@[simp] theorem State.drawDrift_spilogOf (s : State) (c : BusId) : s.drawDrift.2.spilogOf c = s.spilogOf c := by
  unfold State.drawDrift; split <;> rfl
@[simp] theorem State.drawDrift_rbufByte (s : State) (i : Nat) : s.drawDrift.2.rbufByte i = s.rbufByte i := by
  unfold State.drawDrift; split <;> rfl
@[simp] theorem State.drawDrift_devOpt (s : State) (e : DevId) : s.drawDrift.2.dev? e = s.dev? e := by
  unfold State.drawDrift; split <;> rfl
@[simp] theorem State.drawDrift_busCfgOpt (s : State) (c : BusId) : s.drawDrift.2.busCfg? c = s.busCfg? c := by
  unfold State.drawDrift; split <;> rfl
@[simp] theorem State.drawDrift_busIs (s : State) (c : BusId) (k : TransportKind) : s.drawDrift.2.busIs c k = s.busIs c k := by
  unfold State.drawDrift; split <;> rfl
@[simp] theorem State.drawDrift_busTxOnly (s : State) (c : BusId) : s.drawDrift.2.busTxOnly c = s.busTxOnly c := by
  unfold State.drawDrift; split <;> rfl
@[simp] theorem State.drawDrift_defaultTimeout (s : State) (c : BusId) : s.drawDrift.2.defaultTimeout c = s.defaultTimeout c := by
  unfold State.drawDrift; split <;> rfl
@[simp] theorem State.drawDrift_hasCs (s : State) (e : DevId) : s.drawDrift.2.hasCs e = s.hasCs e := by
  unfold State.drawDrift; split <;> rfl
@[simp] theorem State.drawDrift_owns (s : State) (c : BusId) (e : DevId) : s.drawDrift.2.owns c e = s.owns c e := by
  unfold State.drawDrift; split <;> rfl
@[simp] theorem State.drawDrift_age (s : State) (c : BusId) : s.drawDrift.2.age c = s.age c := by
  unfold State.drawDrift; split <;> rfl
@[simp] theorem State.drawDrift_elapsed (s : State) (c : BusId) : s.drawDrift.2.elapsed c = s.elapsed c := by
  unfold State.drawDrift; split <;> rfl
@[simp] theorem State.drawDrift_remaining (s : State) (c : BusId) : s.drawDrift.2.remaining c = s.remaining c := by
  unfold State.drawDrift; split <;> rfl
@[simp] theorem State.drawDrift_isHandler (s : State) (c : BusId) (e : DevId) : s.drawDrift.2.isHandler c e = s.isHandler c e := by
  unfold State.drawDrift; split <;> rfl
@[simp] theorem State.drawDrift_rxEnabled (s : State) (c : BusId) : s.drawDrift.2.rxEnabled c = s.rxEnabled c := by
  unfold State.drawDrift; split <;> rfl

/-! ## `drawTeardown` -/

@[simp] theorem State.drawTeardown_cfg (s : State) : s.drawTeardown.2.cfg = s.cfg := by
  unfold State.drawTeardown; split <;> rfl
@[simp] theorem State.drawTeardown_busy (s : State) : s.drawTeardown.2.busy = s.busy := by
  unfold State.drawTeardown; split <;> rfl
@[simp] theorem State.drawTeardown_cmd (s : State) : s.drawTeardown.2.cmd = s.cmd := by
  unfold State.drawTeardown; split <;> rfl
@[simp] theorem State.drawTeardown_resp (s : State) : s.drawTeardown.2.resp = s.resp := by
  unfold State.drawTeardown; split <;> rfl
@[simp] theorem State.drawTeardown_wbuf (s : State) : s.drawTeardown.2.wbuf = s.wbuf := by
  unfold State.drawTeardown; split <;> rfl
@[simp] theorem State.drawTeardown_rbuf (s : State) : s.drawTeardown.2.rbuf = s.rbuf := by
  unfold State.drawTeardown; split <;> rfl
@[simp] theorem State.drawTeardown_rbufValid (s : State) : s.drawTeardown.2.rbufValid = s.rbufValid := by
  unfold State.drawTeardown; split <;> rfl
@[simp] theorem State.drawTeardown_rbufFree (s : State) : s.drawTeardown.2.rbufFree = s.rbufFree := by
  unfold State.drawTeardown; split <;> rfl
@[simp] theorem State.drawTeardown_now (s : State) : s.drawTeardown.2.now = s.now := by
  unfold State.drawTeardown; split <;> rfl
@[simp] theorem State.drawTeardown_buses (s : State) : s.drawTeardown.2.buses = s.buses := by
  unfold State.drawTeardown; split <;> rfl
@[simp] theorem State.drawTeardown_cs (s : State) : s.drawTeardown.2.cs = s.cs := by
  unfold State.drawTeardown; split <;> rfl
@[simp] theorem State.drawTeardown_rings (s : State) : s.drawTeardown.2.rings = s.rings := by
  unfold State.drawTeardown; split <;> rfl
@[simp] theorem State.drawTeardown_handlers (s : State) : s.drawTeardown.2.handlers = s.handlers := by
  unfold State.drawTeardown; split <;> rfl
@[simp] theorem State.drawTeardown_txlog (s : State) : s.drawTeardown.2.txlog = s.txlog := by
  unfold State.drawTeardown; split <;> rfl
@[simp] theorem State.drawTeardown_i2clog (s : State) : s.drawTeardown.2.i2clog = s.i2clog := by
  unfold State.drawTeardown; split <;> rfl
@[simp] theorem State.drawTeardown_spilog (s : State) : s.drawTeardown.2.spilog = s.spilog := by
  unfold State.drawTeardown; split <;> rfl
@[simp] theorem State.drawTeardown_notify (s : State) : s.drawTeardown.2.notify = s.notify := by
  unfold State.drawTeardown; split <;> rfl
@[simp] theorem State.drawTeardown_inputs (s : State) : s.drawTeardown.2.inputs = s.inputs := by
  unfold State.drawTeardown; split <;> rfl
@[simp] theorem State.drawTeardown_bus (s : State) (c : BusId) : s.drawTeardown.2.bus c = s.bus c := by
  unfold State.drawTeardown; split <;> rfl
@[simp] theorem State.drawTeardown_csOf (s : State) (e : DevId) : s.drawTeardown.2.csOf e = s.csOf e := by
  unfold State.drawTeardown; split <;> rfl
@[simp] theorem State.drawTeardown_ring (s : State) (e : DevId) : s.drawTeardown.2.ring e = s.ring e := by
  unfold State.drawTeardown; split <;> rfl
@[simp] theorem State.drawTeardown_handler (s : State) (c : BusId) : s.drawTeardown.2.handler c = s.handler c := by
  unfold State.drawTeardown; split <;> rfl
@[simp] theorem State.drawTeardown_txlogOf (s : State) (c : BusId) : s.drawTeardown.2.txlogOf c = s.txlogOf c := by
  unfold State.drawTeardown; split <;> rfl
@[simp] theorem State.drawTeardown_i2clogOf (s : State) (c : BusId) : s.drawTeardown.2.i2clogOf c = s.i2clogOf c := by
  unfold State.drawTeardown; split <;> rfl
@[simp] theorem State.drawTeardown_spilogOf (s : State) (c : BusId) : s.drawTeardown.2.spilogOf c = s.spilogOf c := by
  unfold State.drawTeardown; split <;> rfl
@[simp] theorem State.drawTeardown_rbufByte (s : State) (i : Nat) : s.drawTeardown.2.rbufByte i = s.rbufByte i := by
  unfold State.drawTeardown; split <;> rfl
@[simp] theorem State.drawTeardown_devOpt (s : State) (e : DevId) : s.drawTeardown.2.dev? e = s.dev? e := by
  unfold State.drawTeardown; split <;> rfl
@[simp] theorem State.drawTeardown_busCfgOpt (s : State) (c : BusId) : s.drawTeardown.2.busCfg? c = s.busCfg? c := by
  unfold State.drawTeardown; split <;> rfl
@[simp] theorem State.drawTeardown_busIs (s : State) (c : BusId) (k : TransportKind) : s.drawTeardown.2.busIs c k = s.busIs c k := by
  unfold State.drawTeardown; split <;> rfl
@[simp] theorem State.drawTeardown_busTxOnly (s : State) (c : BusId) : s.drawTeardown.2.busTxOnly c = s.busTxOnly c := by
  unfold State.drawTeardown; split <;> rfl
@[simp] theorem State.drawTeardown_defaultTimeout (s : State) (c : BusId) : s.drawTeardown.2.defaultTimeout c = s.defaultTimeout c := by
  unfold State.drawTeardown; split <;> rfl
@[simp] theorem State.drawTeardown_hasCs (s : State) (e : DevId) : s.drawTeardown.2.hasCs e = s.hasCs e := by
  unfold State.drawTeardown; split <;> rfl
@[simp] theorem State.drawTeardown_owns (s : State) (c : BusId) (e : DevId) : s.drawTeardown.2.owns c e = s.owns c e := by
  unfold State.drawTeardown; split <;> rfl
@[simp] theorem State.drawTeardown_age (s : State) (c : BusId) : s.drawTeardown.2.age c = s.age c := by
  unfold State.drawTeardown; split <;> rfl
@[simp] theorem State.drawTeardown_elapsed (s : State) (c : BusId) : s.drawTeardown.2.elapsed c = s.elapsed c := by
  unfold State.drawTeardown; split <;> rfl
@[simp] theorem State.drawTeardown_remaining (s : State) (c : BusId) : s.drawTeardown.2.remaining c = s.remaining c := by
  unfold State.drawTeardown; split <;> rfl
@[simp] theorem State.drawTeardown_isHandler (s : State) (c : BusId) (e : DevId) : s.drawTeardown.2.isHandler c e = s.isHandler c e := by
  unfold State.drawTeardown; split <;> rfl
@[simp] theorem State.drawTeardown_rxEnabled (s : State) (c : BusId) : s.drawTeardown.2.rxEnabled c = s.rxEnabled c := by
  unfold State.drawTeardown; split <;> rfl

/-! ## `drawI2c` -/

@[simp] theorem State.drawI2c_cfg (s : State) : s.drawI2c.2.cfg = s.cfg := by
  unfold State.drawI2c; split <;> rfl
@[simp] theorem State.drawI2c_busy (s : State) : s.drawI2c.2.busy = s.busy := by
  unfold State.drawI2c; split <;> rfl
@[simp] theorem State.drawI2c_cmd (s : State) : s.drawI2c.2.cmd = s.cmd := by
  unfold State.drawI2c; split <;> rfl
@[simp] theorem State.drawI2c_resp (s : State) : s.drawI2c.2.resp = s.resp := by
  unfold State.drawI2c; split <;> rfl
@[simp] theorem State.drawI2c_wbuf (s : State) : s.drawI2c.2.wbuf = s.wbuf := by
  unfold State.drawI2c; split <;> rfl
@[simp] theorem State.drawI2c_rbuf (s : State) : s.drawI2c.2.rbuf = s.rbuf := by
  unfold State.drawI2c; split <;> rfl
@[simp] theorem State.drawI2c_rbufValid (s : State) : s.drawI2c.2.rbufValid = s.rbufValid := by
  unfold State.drawI2c; split <;> rfl
@[simp] theorem State.drawI2c_rbufFree (s : State) : s.drawI2c.2.rbufFree = s.rbufFree := by
  unfold State.drawI2c; split <;> rfl
@[simp] theorem State.drawI2c_now (s : State) : s.drawI2c.2.now = s.now := by
  unfold State.drawI2c; split <;> rfl
@[simp] theorem State.drawI2c_buses (s : State) : s.drawI2c.2.buses = s.buses := by
  unfold State.drawI2c; split <;> rfl
@[simp] theorem State.drawI2c_cs (s : State) : s.drawI2c.2.cs = s.cs := by
  unfold State.drawI2c; split <;> rfl
@[simp] theorem State.drawI2c_rings (s : State) : s.drawI2c.2.rings = s.rings := by
  unfold State.drawI2c; split <;> rfl
@[simp] theorem State.drawI2c_handlers (s : State) : s.drawI2c.2.handlers = s.handlers := by
  unfold State.drawI2c; split <;> rfl
@[simp] theorem State.drawI2c_txlog (s : State) : s.drawI2c.2.txlog = s.txlog := by
  unfold State.drawI2c; split <;> rfl
@[simp] theorem State.drawI2c_i2clog (s : State) : s.drawI2c.2.i2clog = s.i2clog := by
  unfold State.drawI2c; split <;> rfl
@[simp] theorem State.drawI2c_spilog (s : State) : s.drawI2c.2.spilog = s.spilog := by
  unfold State.drawI2c; split <;> rfl
@[simp] theorem State.drawI2c_notify (s : State) : s.drawI2c.2.notify = s.notify := by
  unfold State.drawI2c; split <;> rfl
@[simp] theorem State.drawI2c_inputs (s : State) : s.drawI2c.2.inputs = s.inputs := by
  unfold State.drawI2c; split <;> rfl
@[simp] theorem State.drawI2c_bus (s : State) (c : BusId) : s.drawI2c.2.bus c = s.bus c := by
  unfold State.drawI2c; split <;> rfl
@[simp] theorem State.drawI2c_csOf (s : State) (e : DevId) : s.drawI2c.2.csOf e = s.csOf e := by
  unfold State.drawI2c; split <;> rfl
@[simp] theorem State.drawI2c_ring (s : State) (e : DevId) : s.drawI2c.2.ring e = s.ring e := by
  unfold State.drawI2c; split <;> rfl
@[simp] theorem State.drawI2c_handler (s : State) (c : BusId) : s.drawI2c.2.handler c = s.handler c := by
  unfold State.drawI2c; split <;> rfl
@[simp] theorem State.drawI2c_txlogOf (s : State) (c : BusId) : s.drawI2c.2.txlogOf c = s.txlogOf c := by
  unfold State.drawI2c; split <;> rfl
@[simp] theorem State.drawI2c_i2clogOf (s : State) (c : BusId) : s.drawI2c.2.i2clogOf c = s.i2clogOf c := by
  unfold State.drawI2c; split <;> rfl
@[simp] theorem State.drawI2c_spilogOf (s : State) (c : BusId) : s.drawI2c.2.spilogOf c = s.spilogOf c := by
  unfold State.drawI2c; split <;> rfl
@[simp] theorem State.drawI2c_rbufByte (s : State) (i : Nat) : s.drawI2c.2.rbufByte i = s.rbufByte i := by
  unfold State.drawI2c; split <;> rfl
@[simp] theorem State.drawI2c_devOpt (s : State) (e : DevId) : s.drawI2c.2.dev? e = s.dev? e := by
  unfold State.drawI2c; split <;> rfl
@[simp] theorem State.drawI2c_busCfgOpt (s : State) (c : BusId) : s.drawI2c.2.busCfg? c = s.busCfg? c := by
  unfold State.drawI2c; split <;> rfl
@[simp] theorem State.drawI2c_busIs (s : State) (c : BusId) (k : TransportKind) : s.drawI2c.2.busIs c k = s.busIs c k := by
  unfold State.drawI2c; split <;> rfl
@[simp] theorem State.drawI2c_busTxOnly (s : State) (c : BusId) : s.drawI2c.2.busTxOnly c = s.busTxOnly c := by
  unfold State.drawI2c; split <;> rfl
@[simp] theorem State.drawI2c_defaultTimeout (s : State) (c : BusId) : s.drawI2c.2.defaultTimeout c = s.defaultTimeout c := by
  unfold State.drawI2c; split <;> rfl
@[simp] theorem State.drawI2c_hasCs (s : State) (e : DevId) : s.drawI2c.2.hasCs e = s.hasCs e := by
  unfold State.drawI2c; split <;> rfl
@[simp] theorem State.drawI2c_owns (s : State) (c : BusId) (e : DevId) : s.drawI2c.2.owns c e = s.owns c e := by
  unfold State.drawI2c; split <;> rfl
@[simp] theorem State.drawI2c_age (s : State) (c : BusId) : s.drawI2c.2.age c = s.age c := by
  unfold State.drawI2c; split <;> rfl
@[simp] theorem State.drawI2c_elapsed (s : State) (c : BusId) : s.drawI2c.2.elapsed c = s.elapsed c := by
  unfold State.drawI2c; split <;> rfl
@[simp] theorem State.drawI2c_remaining (s : State) (c : BusId) : s.drawI2c.2.remaining c = s.remaining c := by
  unfold State.drawI2c; split <;> rfl
@[simp] theorem State.drawI2c_isHandler (s : State) (c : BusId) (e : DevId) : s.drawI2c.2.isHandler c e = s.isHandler c e := by
  unfold State.drawI2c; split <;> rfl
@[simp] theorem State.drawI2c_rxEnabled (s : State) (c : BusId) : s.drawI2c.2.rxEnabled c = s.rxEnabled c := by
  unfold State.drawI2c; split <;> rfl

/-! ## `drawSpi` -/

@[simp] theorem State.drawSpi_cfg (s : State) : s.drawSpi.2.cfg = s.cfg := by
  unfold State.drawSpi; split <;> rfl
@[simp] theorem State.drawSpi_busy (s : State) : s.drawSpi.2.busy = s.busy := by
  unfold State.drawSpi; split <;> rfl
@[simp] theorem State.drawSpi_cmd (s : State) : s.drawSpi.2.cmd = s.cmd := by
  unfold State.drawSpi; split <;> rfl
@[simp] theorem State.drawSpi_resp (s : State) : s.drawSpi.2.resp = s.resp := by
  unfold State.drawSpi; split <;> rfl
@[simp] theorem State.drawSpi_wbuf (s : State) : s.drawSpi.2.wbuf = s.wbuf := by
  unfold State.drawSpi; split <;> rfl
@[simp] theorem State.drawSpi_rbuf (s : State) : s.drawSpi.2.rbuf = s.rbuf := by
  unfold State.drawSpi; split <;> rfl
@[simp] theorem State.drawSpi_rbufValid (s : State) : s.drawSpi.2.rbufValid = s.rbufValid := by
  unfold State.drawSpi; split <;> rfl
@[simp] theorem State.drawSpi_rbufFree (s : State) : s.drawSpi.2.rbufFree = s.rbufFree := by
  unfold State.drawSpi; split <;> rfl
@[simp] theorem State.drawSpi_now (s : State) : s.drawSpi.2.now = s.now := by
  unfold State.drawSpi; split <;> rfl
@[simp] theorem State.drawSpi_buses (s : State) : s.drawSpi.2.buses = s.buses := by
  unfold State.drawSpi; split <;> rfl
@[simp] theorem State.drawSpi_cs (s : State) : s.drawSpi.2.cs = s.cs := by
  unfold State.drawSpi; split <;> rfl
@[simp] theorem State.drawSpi_rings (s : State) : s.drawSpi.2.rings = s.rings := by
  unfold State.drawSpi; split <;> rfl
@[simp] theorem State.drawSpi_handlers (s : State) : s.drawSpi.2.handlers = s.handlers := by
  unfold State.drawSpi; split <;> rfl
@[simp] theorem State.drawSpi_txlog (s : State) : s.drawSpi.2.txlog = s.txlog := by
  unfold State.drawSpi; split <;> rfl
@[simp] theorem State.drawSpi_i2clog (s : State) : s.drawSpi.2.i2clog = s.i2clog := by
  unfold State.drawSpi; split <;> rfl
@[simp] theorem State.drawSpi_spilog (s : State) : s.drawSpi.2.spilog = s.spilog := by
  unfold State.drawSpi; split <;> rfl
@[simp] theorem State.drawSpi_notify (s : State) : s.drawSpi.2.notify = s.notify := by
  unfold State.drawSpi; split <;> rfl
@[simp] theorem State.drawSpi_inputs (s : State) : s.drawSpi.2.inputs = s.inputs := by
  unfold State.drawSpi; split <;> rfl
@[simp] theorem State.drawSpi_bus (s : State) (c : BusId) : s.drawSpi.2.bus c = s.bus c := by
  unfold State.drawSpi; split <;> rfl
@[simp] theorem State.drawSpi_csOf (s : State) (e : DevId) : s.drawSpi.2.csOf e = s.csOf e := by
  unfold State.drawSpi; split <;> rfl
@[simp] theorem State.drawSpi_ring (s : State) (e : DevId) : s.drawSpi.2.ring e = s.ring e := by
  unfold State.drawSpi; split <;> rfl
@[simp] theorem State.drawSpi_handler (s : State) (c : BusId) : s.drawSpi.2.handler c = s.handler c := by
  unfold State.drawSpi; split <;> rfl
@[simp] theorem State.drawSpi_txlogOf (s : State) (c : BusId) : s.drawSpi.2.txlogOf c = s.txlogOf c := by
  unfold State.drawSpi; split <;> rfl
@[simp] theorem State.drawSpi_i2clogOf (s : State) (c : BusId) : s.drawSpi.2.i2clogOf c = s.i2clogOf c := by
  unfold State.drawSpi; split <;> rfl
@[simp] theorem State.drawSpi_spilogOf (s : State) (c : BusId) : s.drawSpi.2.spilogOf c = s.spilogOf c := by
  unfold State.drawSpi; split <;> rfl
@[simp] theorem State.drawSpi_rbufByte (s : State) (i : Nat) : s.drawSpi.2.rbufByte i = s.rbufByte i := by
  unfold State.drawSpi; split <;> rfl
@[simp] theorem State.drawSpi_devOpt (s : State) (e : DevId) : s.drawSpi.2.dev? e = s.dev? e := by
  unfold State.drawSpi; split <;> rfl
@[simp] theorem State.drawSpi_busCfgOpt (s : State) (c : BusId) : s.drawSpi.2.busCfg? c = s.busCfg? c := by
  unfold State.drawSpi; split <;> rfl
@[simp] theorem State.drawSpi_busIs (s : State) (c : BusId) (k : TransportKind) : s.drawSpi.2.busIs c k = s.busIs c k := by
  unfold State.drawSpi; split <;> rfl
@[simp] theorem State.drawSpi_busTxOnly (s : State) (c : BusId) : s.drawSpi.2.busTxOnly c = s.busTxOnly c := by
  unfold State.drawSpi; split <;> rfl
@[simp] theorem State.drawSpi_defaultTimeout (s : State) (c : BusId) : s.drawSpi.2.defaultTimeout c = s.defaultTimeout c := by
  unfold State.drawSpi; split <;> rfl
@[simp] theorem State.drawSpi_hasCs (s : State) (e : DevId) : s.drawSpi.2.hasCs e = s.hasCs e := by
  unfold State.drawSpi; split <;> rfl
@[simp] theorem State.drawSpi_owns (s : State) (c : BusId) (e : DevId) : s.drawSpi.2.owns c e = s.owns c e := by
  unfold State.drawSpi; split <;> rfl
@[simp] theorem State.drawSpi_age (s : State) (c : BusId) : s.drawSpi.2.age c = s.age c := by
  unfold State.drawSpi; split <;> rfl
@[simp] theorem State.drawSpi_elapsed (s : State) (c : BusId) : s.drawSpi.2.elapsed c = s.elapsed c := by
  unfold State.drawSpi; split <;> rfl
@[simp] theorem State.drawSpi_remaining (s : State) (c : BusId) : s.drawSpi.2.remaining c = s.remaining c := by
  unfold State.drawSpi; split <;> rfl
@[simp] theorem State.drawSpi_isHandler (s : State) (c : BusId) (e : DevId) : s.drawSpi.2.isHandler c e = s.isHandler c e := by
  unfold State.drawSpi; split <;> rfl
@[simp] theorem State.drawSpi_rxEnabled (s : State) (c : BusId) : s.drawSpi.2.rxEnabled c = s.rxEnabled c := by
  unfold State.drawSpi; split <;> rfl

/-! ## `drawTx` -/

@[simp] theorem State.drawTx_cfg (s : State) : s.drawTx.2.cfg = s.cfg := by
  unfold State.drawTx; split <;> rfl
@[simp] theorem State.drawTx_busy (s : State) : s.drawTx.2.busy = s.busy := by
  unfold State.drawTx; split <;> rfl
@[simp] theorem State.drawTx_cmd (s : State) : s.drawTx.2.cmd = s.cmd := by
  unfold State.drawTx; split <;> rfl
@[simp] theorem State.drawTx_resp (s : State) : s.drawTx.2.resp = s.resp := by
  unfold State.drawTx; split <;> rfl
@[simp] theorem State.drawTx_wbuf (s : State) : s.drawTx.2.wbuf = s.wbuf := by
  unfold State.drawTx; split <;> rfl
@[simp] theorem State.drawTx_rbuf (s : State) : s.drawTx.2.rbuf = s.rbuf := by
  unfold State.drawTx; split <;> rfl
@[simp] theorem State.drawTx_rbufValid (s : State) : s.drawTx.2.rbufValid = s.rbufValid := by
  unfold State.drawTx; split <;> rfl
@[simp] theorem State.drawTx_rbufFree (s : State) : s.drawTx.2.rbufFree = s.rbufFree := by
  unfold State.drawTx; split <;> rfl
@[simp] theorem State.drawTx_now (s : State) : s.drawTx.2.now = s.now := by
  unfold State.drawTx; split <;> rfl
@[simp] theorem State.drawTx_buses (s : State) : s.drawTx.2.buses = s.buses := by
  unfold State.drawTx; split <;> rfl
@[simp] theorem State.drawTx_cs (s : State) : s.drawTx.2.cs = s.cs := by
  unfold State.drawTx; split <;> rfl
@[simp] theorem State.drawTx_rings (s : State) : s.drawTx.2.rings = s.rings := by
  unfold State.drawTx; split <;> rfl
@[simp] theorem State.drawTx_handlers (s : State) : s.drawTx.2.handlers = s.handlers := by
  unfold State.drawTx; split <;> rfl
@[simp] theorem State.drawTx_txlog (s : State) : s.drawTx.2.txlog = s.txlog := by
  unfold State.drawTx; split <;> rfl
@[simp] theorem State.drawTx_i2clog (s : State) : s.drawTx.2.i2clog = s.i2clog := by
  unfold State.drawTx; split <;> rfl
@[simp] theorem State.drawTx_spilog (s : State) : s.drawTx.2.spilog = s.spilog := by
  unfold State.drawTx; split <;> rfl
@[simp] theorem State.drawTx_notify (s : State) : s.drawTx.2.notify = s.notify := by
  unfold State.drawTx; split <;> rfl
@[simp] theorem State.drawTx_inputs (s : State) : s.drawTx.2.inputs = s.inputs := by
  unfold State.drawTx; split <;> rfl
@[simp] theorem State.drawTx_bus (s : State) (c : BusId) : s.drawTx.2.bus c = s.bus c := by
  unfold State.drawTx; split <;> rfl
@[simp] theorem State.drawTx_csOf (s : State) (e : DevId) : s.drawTx.2.csOf e = s.csOf e := by
  unfold State.drawTx; split <;> rfl
@[simp] theorem State.drawTx_ring (s : State) (e : DevId) : s.drawTx.2.ring e = s.ring e := by
  unfold State.drawTx; split <;> rfl
@[simp] theorem State.drawTx_handler (s : State) (c : BusId) : s.drawTx.2.handler c = s.handler c := by
  unfold State.drawTx; split <;> rfl
@[simp] theorem State.drawTx_txlogOf (s : State) (c : BusId) : s.drawTx.2.txlogOf c = s.txlogOf c := by
  unfold State.drawTx; split <;> rfl
@[simp] theorem State.drawTx_i2clogOf (s : State) (c : BusId) : s.drawTx.2.i2clogOf c = s.i2clogOf c := by
  unfold State.drawTx; split <;> rfl
@[simp] theorem State.drawTx_spilogOf (s : State) (c : BusId) : s.drawTx.2.spilogOf c = s.spilogOf c := by
  unfold State.drawTx; split <;> rfl
@[simp] theorem State.drawTx_rbufByte (s : State) (i : Nat) : s.drawTx.2.rbufByte i = s.rbufByte i := by
  unfold State.drawTx; split <;> rfl
@[simp] theorem State.drawTx_devOpt (s : State) (e : DevId) : s.drawTx.2.dev? e = s.dev? e := by
  unfold State.drawTx; split <;> rfl
@[simp] theorem State.drawTx_busCfgOpt (s : State) (c : BusId) : s.drawTx.2.busCfg? c = s.busCfg? c := by
  unfold State.drawTx; split <;> rfl
@[simp] theorem State.drawTx_busIs (s : State) (c : BusId) (k : TransportKind) : s.drawTx.2.busIs c k = s.busIs c k := by
  unfold State.drawTx; split <;> rfl
@[simp] theorem State.drawTx_busTxOnly (s : State) (c : BusId) : s.drawTx.2.busTxOnly c = s.busTxOnly c := by
  unfold State.drawTx; split <;> rfl
@[simp] theorem State.drawTx_defaultTimeout (s : State) (c : BusId) : s.drawTx.2.defaultTimeout c = s.defaultTimeout c := by
  unfold State.drawTx; split <;> rfl
@[simp] theorem State.drawTx_hasCs (s : State) (e : DevId) : s.drawTx.2.hasCs e = s.hasCs e := by
  unfold State.drawTx; split <;> rfl
@[simp] theorem State.drawTx_owns (s : State) (c : BusId) (e : DevId) : s.drawTx.2.owns c e = s.owns c e := by
  unfold State.drawTx; split <;> rfl
@[simp] theorem State.drawTx_age (s : State) (c : BusId) : s.drawTx.2.age c = s.age c := by
  unfold State.drawTx; split <;> rfl
@[simp] theorem State.drawTx_elapsed (s : State) (c : BusId) : s.drawTx.2.elapsed c = s.elapsed c := by
  unfold State.drawTx; split <;> rfl
@[simp] theorem State.drawTx_remaining (s : State) (c : BusId) : s.drawTx.2.remaining c = s.remaining c := by
  unfold State.drawTx; split <;> rfl
@[simp] theorem State.drawTx_isHandler (s : State) (c : BusId) (e : DevId) : s.drawTx.2.isHandler c e = s.isHandler c e := by
  unfold State.drawTx; split <;> rfl
@[simp] theorem State.drawTx_rxEnabled (s : State) (c : BusId) : s.drawTx.2.rxEnabled c = s.rxEnabled c := by
  unfold State.drawTx; split <;> rfl

/-! ## `drawRx` -/

@[simp] theorem State.drawRx_cfg (s : State) : s.drawRx.2.cfg = s.cfg := by
  unfold State.drawRx; split <;> rfl
@[simp] theorem State.drawRx_busy (s : State) : s.drawRx.2.busy = s.busy := by
  unfold State.drawRx; split <;> rfl
@[simp] theorem State.drawRx_cmd (s : State) : s.drawRx.2.cmd = s.cmd := by
  unfold State.drawRx; split <;> rfl
@[simp] theorem State.drawRx_resp (s : State) : s.drawRx.2.resp = s.resp := by
  unfold State.drawRx; split <;> rfl
@[simp] theorem State.drawRx_wbuf (s : State) : s.drawRx.2.wbuf = s.wbuf := by
  unfold State.drawRx; split <;> rfl
@[simp] theorem State.drawRx_rbuf (s : State) : s.drawRx.2.rbuf = s.rbuf := by
  unfold State.drawRx; split <;> rfl
@[simp] theorem State.drawRx_rbufValid (s : State) : s.drawRx.2.rbufValid = s.rbufValid := by
  unfold State.drawRx; split <;> rfl
@[simp] theorem State.drawRx_rbufFree (s : State) : s.drawRx.2.rbufFree = s.rbufFree := by
  unfold State.drawRx; split <;> rfl
@[simp] theorem State.drawRx_now (s : State) : s.drawRx.2.now = s.now := by
  unfold State.drawRx; split <;> rfl
@[simp] theorem State.drawRx_buses (s : State) : s.drawRx.2.buses = s.buses := by
  unfold State.drawRx; split <;> rfl
@[simp] theorem State.drawRx_cs (s : State) : s.drawRx.2.cs = s.cs := by
  unfold State.drawRx; split <;> rfl
@[simp] theorem State.drawRx_rings (s : State) : s.drawRx.2.rings = s.rings := by
  unfold State.drawRx; split <;> rfl
@[simp] theorem State.drawRx_handlers (s : State) : s.drawRx.2.handlers = s.handlers := by
  unfold State.drawRx; split <;> rfl
@[simp] theorem State.drawRx_txlog (s : State) : s.drawRx.2.txlog = s.txlog := by
  unfold State.drawRx; split <;> rfl
@[simp] theorem State.drawRx_i2clog (s : State) : s.drawRx.2.i2clog = s.i2clog := by
  unfold State.drawRx; split <;> rfl
@[simp] theorem State.drawRx_spilog (s : State) : s.drawRx.2.spilog = s.spilog := by
  unfold State.drawRx; split <;> rfl
@[simp] theorem State.drawRx_notify (s : State) : s.drawRx.2.notify = s.notify := by
  unfold State.drawRx; split <;> rfl
@[simp] theorem State.drawRx_inputs (s : State) : s.drawRx.2.inputs = s.inputs := by
  unfold State.drawRx; split <;> rfl
@[simp] theorem State.drawRx_bus (s : State) (c : BusId) : s.drawRx.2.bus c = s.bus c := by
  unfold State.drawRx; split <;> rfl
@[simp] theorem State.drawRx_csOf (s : State) (e : DevId) : s.drawRx.2.csOf e = s.csOf e := by
  unfold State.drawRx; split <;> rfl
@[simp] theorem State.drawRx_ring (s : State) (e : DevId) : s.drawRx.2.ring e = s.ring e := by
  unfold State.drawRx; split <;> rfl
@[simp] theorem State.drawRx_handler (s : State) (c : BusId) : s.drawRx.2.handler c = s.handler c := by
  unfold State.drawRx; split <;> rfl
@[simp] theorem State.drawRx_txlogOf (s : State) (c : BusId) : s.drawRx.2.txlogOf c = s.txlogOf c := by
  unfold State.drawRx; split <;> rfl
@[simp] theorem State.drawRx_i2clogOf (s : State) (c : BusId) : s.drawRx.2.i2clogOf c = s.i2clogOf c := by
  unfold State.drawRx; split <;> rfl
@[simp] theorem State.drawRx_spilogOf (s : State) (c : BusId) : s.drawRx.2.spilogOf c = s.spilogOf c := by
  unfold State.drawRx; split <;> rfl
@[simp] theorem State.drawRx_rbufByte (s : State) (i : Nat) : s.drawRx.2.rbufByte i = s.rbufByte i := by
  unfold State.drawRx; split <;> rfl
@[simp] theorem State.drawRx_devOpt (s : State) (e : DevId) : s.drawRx.2.dev? e = s.dev? e := by
  unfold State.drawRx; split <;> rfl
@[simp] theorem State.drawRx_busCfgOpt (s : State) (c : BusId) : s.drawRx.2.busCfg? c = s.busCfg? c := by
  unfold State.drawRx; split <;> rfl
@[simp] theorem State.drawRx_busIs (s : State) (c : BusId) (k : TransportKind) : s.drawRx.2.busIs c k = s.busIs c k := by
  unfold State.drawRx; split <;> rfl
@[simp] theorem State.drawRx_busTxOnly (s : State) (c : BusId) : s.drawRx.2.busTxOnly c = s.busTxOnly c := by
  unfold State.drawRx; split <;> rfl
@[simp] theorem State.drawRx_defaultTimeout (s : State) (c : BusId) : s.drawRx.2.defaultTimeout c = s.defaultTimeout c := by
  unfold State.drawRx; split <;> rfl
@[simp] theorem State.drawRx_hasCs (s : State) (e : DevId) : s.drawRx.2.hasCs e = s.hasCs e := by
  unfold State.drawRx; split <;> rfl
@[simp] theorem State.drawRx_owns (s : State) (c : BusId) (e : DevId) : s.drawRx.2.owns c e = s.owns c e := by
  unfold State.drawRx; split <;> rfl
@[simp] theorem State.drawRx_age (s : State) (c : BusId) : s.drawRx.2.age c = s.age c := by
  unfold State.drawRx; split <;> rfl
@[simp] theorem State.drawRx_elapsed (s : State) (c : BusId) : s.drawRx.2.elapsed c = s.elapsed c := by
  unfold State.drawRx; split <;> rfl
@[simp] theorem State.drawRx_remaining (s : State) (c : BusId) : s.drawRx.2.remaining c = s.remaining c := by
  unfold State.drawRx; split <;> rfl
@[simp] theorem State.drawRx_isHandler (s : State) (c : BusId) (e : DevId) : s.drawRx.2.isHandler c e = s.isHandler c e := by
  unfold State.drawRx; split <;> rfl
@[simp] theorem State.drawRx_rxEnabled (s : State) (c : BusId) : s.drawRx.2.rxEnabled c = s.rxEnabled c := by
  unfold State.drawRx; split <;> rfl

/-! ## `rxByte` -/

@[simp] theorem State.rxByte_cfg (s : State) (b : BusId) (x : Byte) : (s.rxByte b x).cfg = s.cfg := by
  unfold State.rxByte; split
  · split
    · rfl
    · simp only []; split <;> rfl
  · rfl
@[simp] theorem State.rxByte_busy (s : State) (b : BusId) (x : Byte) : (s.rxByte b x).busy = s.busy := by
  unfold State.rxByte; split
  · split
    · rfl
    · simp only []; split <;> rfl
  · rfl
@[simp] theorem State.rxByte_cmd (s : State) (b : BusId) (x : Byte) : (s.rxByte b x).cmd = s.cmd := by
  unfold State.rxByte; split
  · split
    · rfl
    · simp only []; split <;> rfl
  · rfl
@[simp] theorem State.rxByte_resp (s : State) (b : BusId) (x : Byte) : (s.rxByte b x).resp = s.resp := by
  unfold State.rxByte; split
  · split
    · rfl
    · simp only []; split <;> rfl
  · rfl
@[simp] theorem State.rxByte_wbuf (s : State) (b : BusId) (x : Byte) : (s.rxByte b x).wbuf = s.wbuf := by
  unfold State.rxByte; split
  · split
    · rfl
    · simp only []; split <;> rfl
  · rfl
@[simp] theorem State.rxByte_rbuf (s : State) (b : BusId) (x : Byte) : (s.rxByte b x).rbuf = s.rbuf := by
  unfold State.rxByte; split
  · split
    · rfl
    · simp only []; split <;> rfl
  · rfl
@[simp] theorem State.rxByte_rbufValid (s : State) (b : BusId) (x : Byte) : (s.rxByte b x).rbufValid = s.rbufValid := by
  unfold State.rxByte; split
  · split
    · rfl
    · simp only []; split <;> rfl
  · rfl
@[simp] theorem State.rxByte_rbufFree (s : State) (b : BusId) (x : Byte) : (s.rxByte b x).rbufFree = s.rbufFree := by
  unfold State.rxByte; split
  · split
    · rfl
    · simp only []; split <;> rfl
  · rfl
@[simp] theorem State.rxByte_now (s : State) (b : BusId) (x : Byte) : (s.rxByte b x).now = s.now := by
  unfold State.rxByte; split
  · split
    · rfl
    · simp only []; split <;> rfl
  · rfl
@[simp] theorem State.rxByte_buses (s : State) (b : BusId) (x : Byte) : (s.rxByte b x).buses = s.buses := by
  unfold State.rxByte; split
  · split
    · rfl
    · simp only []; split <;> rfl
  · rfl
@[simp] theorem State.rxByte_cs (s : State) (b : BusId) (x : Byte) : (s.rxByte b x).cs = s.cs := by
  unfold State.rxByte; split
  · split
    · rfl
    · simp only []; split <;> rfl
  · rfl
@[simp] theorem State.rxByte_handlers (s : State) (b : BusId) (x : Byte) : (s.rxByte b x).handlers = s.handlers := by
  unfold State.rxByte; split
  · split
    · rfl
    · simp only []; split <;> rfl
  · rfl
@[simp] theorem State.rxByte_txlog (s : State) (b : BusId) (x : Byte) : (s.rxByte b x).txlog = s.txlog := by
  unfold State.rxByte; split
  · split
    · rfl
    · simp only []; split <;> rfl
  · rfl
@[simp] theorem State.rxByte_i2clog (s : State) (b : BusId) (x : Byte) : (s.rxByte b x).i2clog = s.i2clog := by
  unfold State.rxByte; split
  · split
    · rfl
    · simp only []; split <;> rfl
  · rfl
@[simp] theorem State.rxByte_spilog (s : State) (b : BusId) (x : Byte) : (s.rxByte b x).spilog = s.spilog := by
  unfold State.rxByte; split
  · split
    · rfl
    · simp only []; split <;> rfl
  · rfl
@[simp] theorem State.rxByte_inputs (s : State) (b : BusId) (x : Byte) : (s.rxByte b x).inputs = s.inputs := by
  unfold State.rxByte; split
  · split
    · rfl
    · simp only []; split <;> rfl
  · rfl
@[simp] theorem State.rxByte_env (s : State) (b : BusId) (x : Byte) : (s.rxByte b x).env = s.env := by
  unfold State.rxByte; split
  · split
    · rfl
    · simp only []; split <;> rfl
  · rfl
@[simp] theorem State.rxByte_draws (s : State) (b : BusId) (x : Byte) : (s.rxByte b x).draws = s.draws := by
  unfold State.rxByte; split
  · split
    · rfl
    · simp only []; split <;> rfl
  · rfl
@[simp] theorem State.rxByte_bus (s : State) (b : BusId) (x : Byte) (c : BusId) :
    (s.rxByte b x).bus c = s.bus c := by
  unfold State.rxByte; split
  · split
    · rfl
    · simp only []; split <;> rfl
  · rfl
@[simp] theorem State.rxByte_csOf (s : State) (b : BusId) (x : Byte) (e : DevId) :
    (s.rxByte b x).csOf e = s.csOf e := by
  unfold State.rxByte; split
  · split
    · rfl
    · simp only []; split <;> rfl
  · rfl
@[simp] theorem State.rxByte_handler (s : State) (b : BusId) (x : Byte) (c : BusId) :
    (s.rxByte b x).handler c = s.handler c := by
  unfold State.rxByte; split
  · split
    · rfl
    · simp only []; split <;> rfl
  · rfl
@[simp] theorem State.rxByte_txlogOf (s : State) (b : BusId) (x : Byte) (c : BusId) :
    (s.rxByte b x).txlogOf c = s.txlogOf c := by
  unfold State.rxByte; split
  · split
    · rfl
    · simp only []; split <;> rfl
  · rfl
@[simp] theorem State.rxByte_i2clogOf (s : State) (b : BusId) (x : Byte) (c : BusId) :
    (s.rxByte b x).i2clogOf c = s.i2clogOf c := by
  unfold State.rxByte; split
  · split
    · rfl
    · simp only []; split <;> rfl
  · rfl
@[simp] theorem State.rxByte_spilogOf (s : State) (b : BusId) (x : Byte) (c : BusId) :
    (s.rxByte b x).spilogOf c = s.spilogOf c := by
  unfold State.rxByte; split
  · split
    · rfl
    · simp only []; split <;> rfl
  · rfl
@[simp] theorem State.rxByte_rbufByte (s : State) (b : BusId) (x : Byte) (i : Nat) :
    (s.rxByte b x).rbufByte i = s.rbufByte i := by
  unfold State.rxByte; split
  · split
    · rfl
    · simp only []; split <;> rfl
  · rfl
@[simp] theorem State.rxByte_devOpt (s : State) (b : BusId) (x : Byte) (e : DevId) :
    (s.rxByte b x).dev? e = s.dev? e := by
  unfold State.rxByte; split
  · split
    · rfl
    · simp only []; split <;> rfl
  · rfl
@[simp] theorem State.rxByte_busCfgOpt (s : State) (b : BusId) (x : Byte) (c : BusId) :
    (s.rxByte b x).busCfg? c = s.busCfg? c := by
  unfold State.rxByte; split
  · split
    · rfl
    · simp only []; split <;> rfl
  · rfl
@[simp] theorem State.rxByte_busIs (s : State) (b : BusId) (x : Byte) (c : BusId) (k : TransportKind) :
    (s.rxByte b x).busIs c k = s.busIs c k := by
  unfold State.rxByte; split
  · split
    · rfl
    · simp only []; split <;> rfl
  · rfl
@[simp] theorem State.rxByte_busTxOnly (s : State) (b : BusId) (x : Byte) (c : BusId) :
    (s.rxByte b x).busTxOnly c = s.busTxOnly c := by
  unfold State.rxByte; split
  · split
    · rfl
    · simp only []; split <;> rfl
  · rfl
@[simp] theorem State.rxByte_defaultTimeout (s : State) (b : BusId) (x : Byte) (c : BusId) :
    (s.rxByte b x).defaultTimeout c = s.defaultTimeout c := by
  unfold State.rxByte; split
  · split
    · rfl
    · simp only []; split <;> rfl
  · rfl
@[simp] theorem State.rxByte_hasCs (s : State) (b : BusId) (x : Byte) (e : DevId) :
    (s.rxByte b x).hasCs e = s.hasCs e := by
  unfold State.rxByte; split
  · split
    · rfl
    · simp only []; split <;> rfl
  · rfl
@[simp] theorem State.rxByte_owns (s : State) (b : BusId) (x : Byte) (c : BusId) (e : DevId) :
    (s.rxByte b x).owns c e = s.owns c e := by
  unfold State.rxByte; split
  · split
    · rfl
    · simp only []; split <;> rfl
  · rfl
@[simp] theorem State.rxByte_age (s : State) (b : BusId) (x : Byte) (c : BusId) :
    (s.rxByte b x).age c = s.age c := by
  unfold State.rxByte; split
  · split
    · rfl
    · simp only []; split <;> rfl
  · rfl
@[simp] theorem State.rxByte_elapsed (s : State) (b : BusId) (x : Byte) (c : BusId) :
    (s.rxByte b x).elapsed c = s.elapsed c := by
  unfold State.rxByte; split
  · split
    · rfl
    · simp only []; split <;> rfl
  · rfl
@[simp] theorem State.rxByte_remaining (s : State) (b : BusId) (x : Byte) (c : BusId) :
    (s.rxByte b x).remaining c = s.remaining c := by
  unfold State.rxByte; split
  · split
    · rfl
    · simp only []; split <;> rfl
  · rfl
@[simp] theorem State.rxByte_isHandler (s : State) (b : BusId) (x : Byte) (c : BusId) (e : DevId) :
    (s.rxByte b x).isHandler c e = s.isHandler c e := by
  unfold State.rxByte; split
  · split
    · rfl
    · simp only []; split <;> rfl
  · rfl
@[simp] theorem State.rxByte_rxEnabled (s : State) (b : BusId) (x : Byte) (c : BusId) :
    (s.rxByte b x).rxEnabled c = s.rxEnabled c := by
  unfold State.rxByte; split
  · split
    · rfl
    · simp only []; split <;> rfl
  · rfl

/-! ## `rxBytes` -/

@[simp] theorem State.rxBytes_cfg (es : List (BusId × Byte)) : ∀ s : State, (s.rxBytes es).cfg = s.cfg := by
  induction es with
  | nil => intro s; rfl
  | cons e es ih => intro s; simp [State.rxBytes, ih]
@[simp] theorem State.rxBytes_busy (es : List (BusId × Byte)) : ∀ s : State, (s.rxBytes es).busy = s.busy := by
  induction es with
  | nil => intro s; rfl
  | cons e es ih => intro s; simp [State.rxBytes, ih]
@[simp] theorem State.rxBytes_cmd (es : List (BusId × Byte)) : ∀ s : State, (s.rxBytes es).cmd = s.cmd := by
  induction es with
  | nil => intro s; rfl
  | cons e es ih => intro s; simp [State.rxBytes, ih]
@[simp] theorem State.rxBytes_resp (es : List (BusId × Byte)) : ∀ s : State, (s.rxBytes es).resp = s.resp := by
  induction es with
  | nil => intro s; rfl
  | cons e es ih => intro s; simp [State.rxBytes, ih]
@[simp] theorem State.rxBytes_wbuf (es : List (BusId × Byte)) : ∀ s : State, (s.rxBytes es).wbuf = s.wbuf := by
  induction es with
  | nil => intro s; rfl
  | cons e es ih => intro s; simp [State.rxBytes, ih]
@[simp] theorem State.rxBytes_rbuf (es : List (BusId × Byte)) : ∀ s : State, (s.rxBytes es).rbuf = s.rbuf := by
  induction es with
  | nil => intro s; rfl
  | cons e es ih => intro s; simp [State.rxBytes, ih]
@[simp] theorem State.rxBytes_rbufValid (es : List (BusId × Byte)) : ∀ s : State, (s.rxBytes es).rbufValid = s.rbufValid := by
  induction es with
  | nil => intro s; rfl
  | cons e es ih => intro s; simp [State.rxBytes, ih]
@[simp] theorem State.rxBytes_rbufFree (es : List (BusId × Byte)) : ∀ s : State, (s.rxBytes es).rbufFree = s.rbufFree := by
  induction es with
  | nil => intro s; rfl
  | cons e es ih => intro s; simp [State.rxBytes, ih]
@[simp] theorem State.rxBytes_now (es : List (BusId × Byte)) : ∀ s : State, (s.rxBytes es).now = s.now := by
  induction es with
  | nil => intro s; rfl
  | cons e es ih => intro s; simp [State.rxBytes, ih]
@[simp] theorem State.rxBytes_buses (es : List (BusId × Byte)) : ∀ s : State, (s.rxBytes es).buses = s.buses := by
  induction es with
  | nil => intro s; rfl
  | cons e es ih => intro s; simp [State.rxBytes, ih]
@[simp] theorem State.rxBytes_cs (es : List (BusId × Byte)) : ∀ s : State, (s.rxBytes es).cs = s.cs := by
  induction es with
  | nil => intro s; rfl
  | cons e es ih => intro s; simp [State.rxBytes, ih]
@[simp] theorem State.rxBytes_handlers (es : List (BusId × Byte)) : ∀ s : State, (s.rxBytes es).handlers = s.handlers := by
  induction es with
  | nil => intro s; rfl
  | cons e es ih => intro s; simp [State.rxBytes, ih]
@[simp] theorem State.rxBytes_txlog (es : List (BusId × Byte)) : ∀ s : State, (s.rxBytes es).txlog = s.txlog := by
  induction es with
  | nil => intro s; rfl
  | cons e es ih => intro s; simp [State.rxBytes, ih]
@[simp] theorem State.rxBytes_i2clog (es : List (BusId × Byte)) : ∀ s : State, (s.rxBytes es).i2clog = s.i2clog := by
  induction es with
  | nil => intro s; rfl
  | cons e es ih => intro s; simp [State.rxBytes, ih]
@[simp] theorem State.rxBytes_spilog (es : List (BusId × Byte)) : ∀ s : State, (s.rxBytes es).spilog = s.spilog := by
  induction es with
  | nil => intro s; rfl
  | cons e es ih => intro s; simp [State.rxBytes, ih]
@[simp] theorem State.rxBytes_inputs (es : List (BusId × Byte)) : ∀ s : State, (s.rxBytes es).inputs = s.inputs := by
  induction es with
  | nil => intro s; rfl
  | cons e es ih => intro s; simp [State.rxBytes, ih]
@[simp] theorem State.rxBytes_env (es : List (BusId × Byte)) : ∀ s : State, (s.rxBytes es).env = s.env := by
  induction es with
  | nil => intro s; rfl
  | cons e es ih => intro s; simp [State.rxBytes, ih]
@[simp] theorem State.rxBytes_draws (es : List (BusId × Byte)) : ∀ s : State, (s.rxBytes es).draws = s.draws := by
  induction es with
  | nil => intro s; rfl
  | cons e es ih => intro s; simp [State.rxBytes, ih]
@[simp] theorem State.rxBytes_bus (es : List (BusId × Byte)) (c : BusId) :
    ∀ s : State, (s.rxBytes es).bus c = s.bus c := by
  induction es with
  | nil => intro s; rfl
  | cons e es ih => intro s; simp [State.rxBytes, ih]
@[simp] theorem State.rxBytes_csOf (es : List (BusId × Byte)) (e : DevId) :
    ∀ s : State, (s.rxBytes es).csOf e = s.csOf e := by
  induction es with
  | nil => intro s; rfl
  | cons e es ih => intro s; simp [State.rxBytes, ih]
@[simp] theorem State.rxBytes_handler (es : List (BusId × Byte)) (c : BusId) :
    ∀ s : State, (s.rxBytes es).handler c = s.handler c := by
  induction es with
  | nil => intro s; rfl
  | cons e es ih => intro s; simp [State.rxBytes, ih]
@[simp] theorem State.rxBytes_txlogOf (es : List (BusId × Byte)) (c : BusId) :
    ∀ s : State, (s.rxBytes es).txlogOf c = s.txlogOf c := by
  induction es with
  | nil => intro s; rfl
  | cons e es ih => intro s; simp [State.rxBytes, ih]
@[simp] theorem State.rxBytes_i2clogOf (es : List (BusId × Byte)) (c : BusId) :
    ∀ s : State, (s.rxBytes es).i2clogOf c = s.i2clogOf c := by
  induction es with
  | nil => intro s; rfl
  | cons e es ih => intro s; simp [State.rxBytes, ih]
@[simp] theorem State.rxBytes_spilogOf (es : List (BusId × Byte)) (c : BusId) :
    ∀ s : State, (s.rxBytes es).spilogOf c = s.spilogOf c := by
  induction es with
  | nil => intro s; rfl
  | cons e es ih => intro s; simp [State.rxBytes, ih]
@[simp] theorem State.rxBytes_rbufByte (es : List (BusId × Byte)) (i : Nat) :
    ∀ s : State, (s.rxBytes es).rbufByte i = s.rbufByte i := by
  induction es with
  | nil => intro s; rfl
  | cons e es ih => intro s; simp [State.rxBytes, ih]
@[simp] theorem State.rxBytes_devOpt (es : List (BusId × Byte)) (e : DevId) :
    ∀ s : State, (s.rxBytes es).dev? e = s.dev? e := by
  induction es with
  | nil => intro s; rfl
  | cons e es ih => intro s; simp [State.rxBytes, ih]
@[simp] theorem State.rxBytes_busCfgOpt (es : List (BusId × Byte)) (c : BusId) :
    ∀ s : State, (s.rxBytes es).busCfg? c = s.busCfg? c := by
  induction es with
  | nil => intro s; rfl
  | cons e es ih => intro s; simp [State.rxBytes, ih]
@[simp] theorem State.rxBytes_busIs (es : List (BusId × Byte)) (c : BusId) (k : TransportKind) :
    ∀ s : State, (s.rxBytes es).busIs c k = s.busIs c k := by
  induction es with
  | nil => intro s; rfl
  | cons e es ih => intro s; simp [State.rxBytes, ih]
@[simp] theorem State.rxBytes_busTxOnly (es : List (BusId × Byte)) (c : BusId) :
    ∀ s : State, (s.rxBytes es).busTxOnly c = s.busTxOnly c := by
  induction es with
  | nil => intro s; rfl
  | cons e es ih => intro s; simp [State.rxBytes, ih]
@[simp] theorem State.rxBytes_defaultTimeout (es : List (BusId × Byte)) (c : BusId) :
    ∀ s : State, (s.rxBytes es).defaultTimeout c = s.defaultTimeout c := by
  induction es with
  | nil => intro s; rfl
  | cons e es ih => intro s; simp [State.rxBytes, ih]
@[simp] theorem State.rxBytes_hasCs (es : List (BusId × Byte)) (e : DevId) :
    ∀ s : State, (s.rxBytes es).hasCs e = s.hasCs e := by
  induction es with
  | nil => intro s; rfl
  | cons e es ih => intro s; simp [State.rxBytes, ih]
@[simp] theorem State.rxBytes_owns (es : List (BusId × Byte)) (c : BusId) (e : DevId) :
    ∀ s : State, (s.rxBytes es).owns c e = s.owns c e := by
  induction es with
  | nil => intro s; rfl
  | cons e es ih => intro s; simp [State.rxBytes, ih]
@[simp] theorem State.rxBytes_age (es : List (BusId × Byte)) (c : BusId) :
    ∀ s : State, (s.rxBytes es).age c = s.age c := by
  induction es with
  | nil => intro s; rfl
  | cons e es ih => intro s; simp [State.rxBytes, ih]
@[simp] theorem State.rxBytes_elapsed (es : List (BusId × Byte)) (c : BusId) :
    ∀ s : State, (s.rxBytes es).elapsed c = s.elapsed c := by
  induction es with
  | nil => intro s; rfl
  | cons e es ih => intro s; simp [State.rxBytes, ih]
@[simp] theorem State.rxBytes_remaining (es : List (BusId × Byte)) (c : BusId) :
    ∀ s : State, (s.rxBytes es).remaining c = s.remaining c := by
  induction es with
  | nil => intro s; rfl
  | cons e es ih => intro s; simp [State.rxBytes, ih]
@[simp] theorem State.rxBytes_isHandler (es : List (BusId × Byte)) (c : BusId) (e : DevId) :
    ∀ s : State, (s.rxBytes es).isHandler c e = s.isHandler c e := by
  induction es with
  | nil => intro s; rfl
  | cons e es ih => intro s; simp [State.rxBytes, ih]
@[simp] theorem State.rxBytes_rxEnabled (es : List (BusId × Byte)) (c : BusId) :
    ∀ s : State, (s.rxBytes es).rxEnabled c = s.rxEnabled c := by
  induction es with
  | nil => intro s; rfl
  | cons e es ih => intro s; simp [State.rxBytes, ih]

/-! ## `pass` -/

@[simp] theorem State.pass_cfg (s : State) (es : List (BusId × Byte)) (n : Nat) : (s.pass es n).cfg = s.cfg := by simp [State.pass]
@[simp] theorem State.pass_busy (s : State) (es : List (BusId × Byte)) (n : Nat) : (s.pass es n).busy = s.busy := by simp [State.pass]
@[simp] theorem State.pass_cmd (s : State) (es : List (BusId × Byte)) (n : Nat) : (s.pass es n).cmd = s.cmd := by simp [State.pass]
@[simp] theorem State.pass_resp (s : State) (es : List (BusId × Byte)) (n : Nat) : (s.pass es n).resp = s.resp := by simp [State.pass]
@[simp] theorem State.pass_wbuf (s : State) (es : List (BusId × Byte)) (n : Nat) : (s.pass es n).wbuf = s.wbuf := by simp [State.pass]
@[simp] theorem State.pass_rbuf (s : State) (es : List (BusId × Byte)) (n : Nat) : (s.pass es n).rbuf = s.rbuf := by simp [State.pass]
@[simp] theorem State.pass_rbufValid (s : State) (es : List (BusId × Byte)) (n : Nat) : (s.pass es n).rbufValid = s.rbufValid := by simp [State.pass]
@[simp] theorem State.pass_rbufFree (s : State) (es : List (BusId × Byte)) (n : Nat) : (s.pass es n).rbufFree = s.rbufFree := by simp [State.pass]
@[simp] theorem State.pass_buses (s : State) (es : List (BusId × Byte)) (n : Nat) : (s.pass es n).buses = s.buses := by simp [State.pass]
@[simp] theorem State.pass_cs (s : State) (es : List (BusId × Byte)) (n : Nat) : (s.pass es n).cs = s.cs := by simp [State.pass]
@[simp] theorem State.pass_handlers (s : State) (es : List (BusId × Byte)) (n : Nat) : (s.pass es n).handlers = s.handlers := by simp [State.pass]
@[simp] theorem State.pass_txlog (s : State) (es : List (BusId × Byte)) (n : Nat) : (s.pass es n).txlog = s.txlog := by simp [State.pass]
@[simp] theorem State.pass_i2clog (s : State) (es : List (BusId × Byte)) (n : Nat) : (s.pass es n).i2clog = s.i2clog := by simp [State.pass]
@[simp] theorem State.pass_spilog (s : State) (es : List (BusId × Byte)) (n : Nat) : (s.pass es n).spilog = s.spilog := by simp [State.pass]
@[simp] theorem State.pass_inputs (s : State) (es : List (BusId × Byte)) (n : Nat) : (s.pass es n).inputs = s.inputs := by simp [State.pass]
@[simp] theorem State.pass_env (s : State) (es : List (BusId × Byte)) (n : Nat) : (s.pass es n).env = s.env := by simp [State.pass]
@[simp] theorem State.pass_draws (s : State) (es : List (BusId × Byte)) (n : Nat) : (s.pass es n).draws = s.draws := by simp [State.pass]
@[simp] theorem State.pass_bus (s : State) (es : List (BusId × Byte)) (n : Nat) (c : BusId) :
    (s.pass es n).bus c = s.bus c := by simp [State.pass]
@[simp] theorem State.pass_csOf (s : State) (es : List (BusId × Byte)) (n : Nat) (e : DevId) :
    (s.pass es n).csOf e = s.csOf e := by simp [State.pass]
@[simp] theorem State.pass_handler (s : State) (es : List (BusId × Byte)) (n : Nat) (c : BusId) :
    (s.pass es n).handler c = s.handler c := by simp [State.pass]
@[simp] theorem State.pass_txlogOf (s : State) (es : List (BusId × Byte)) (n : Nat) (c : BusId) :
    (s.pass es n).txlogOf c = s.txlogOf c := by simp [State.pass]
@[simp] theorem State.pass_i2clogOf (s : State) (es : List (BusId × Byte)) (n : Nat) (c : BusId) :
    (s.pass es n).i2clogOf c = s.i2clogOf c := by simp [State.pass]
@[simp] theorem State.pass_spilogOf (s : State) (es : List (BusId × Byte)) (n : Nat) (c : BusId) :
    (s.pass es n).spilogOf c = s.spilogOf c := by simp [State.pass]
@[simp] theorem State.pass_rbufByte (s : State) (es : List (BusId × Byte)) (n : Nat) (i : Nat) :
    (s.pass es n).rbufByte i = s.rbufByte i := by simp [State.pass]
@[simp] theorem State.pass_devOpt (s : State) (es : List (BusId × Byte)) (n : Nat) (e : DevId) :
    (s.pass es n).dev? e = s.dev? e := by simp [State.pass]
@[simp] theorem State.pass_busCfgOpt (s : State) (es : List (BusId × Byte)) (n : Nat) (c : BusId) :
    (s.pass es n).busCfg? c = s.busCfg? c := by simp [State.pass]
@[simp] theorem State.pass_busIs (s : State) (es : List (BusId × Byte)) (n : Nat) (c : BusId) (k : TransportKind) :
    (s.pass es n).busIs c k = s.busIs c k := by simp [State.pass]
@[simp] theorem State.pass_busTxOnly (s : State) (es : List (BusId × Byte)) (n : Nat) (c : BusId) :
    (s.pass es n).busTxOnly c = s.busTxOnly c := by simp [State.pass]
@[simp] theorem State.pass_defaultTimeout (s : State) (es : List (BusId × Byte)) (n : Nat) (c : BusId) :
    (s.pass es n).defaultTimeout c = s.defaultTimeout c := by simp [State.pass]
@[simp] theorem State.pass_hasCs (s : State) (es : List (BusId × Byte)) (n : Nat) (e : DevId) :
    (s.pass es n).hasCs e = s.hasCs e := by simp [State.pass]
@[simp] theorem State.pass_owns (s : State) (es : List (BusId × Byte)) (n : Nat) (c : BusId) (e : DevId) :
    (s.pass es n).owns c e = s.owns c e := by simp [State.pass]
@[simp] theorem State.pass_isHandler (s : State) (es : List (BusId × Byte)) (n : Nat) (c : BusId) (e : DevId) :
    (s.pass es n).isHandler c e = s.isHandler c e := by simp [State.pass]
@[simp] theorem State.pass_rxEnabled (s : State) (es : List (BusId × Byte)) (n : Nat) (c : BusId) :
    (s.pass es n).rxEnabled c = s.rxEnabled c := by simp [State.pass]

/-! ## `yieldPoint` -/

@[simp] theorem State.yieldPoint_cfg (s : State) : (s.yieldPoint).cfg = s.cfg := by simp [State.yieldPoint]
@[simp] theorem State.yieldPoint_busy (s : State) : (s.yieldPoint).busy = s.busy := by simp [State.yieldPoint]
@[simp] theorem State.yieldPoint_cmd (s : State) : (s.yieldPoint).cmd = s.cmd := by simp [State.yieldPoint]
@[simp] theorem State.yieldPoint_resp (s : State) : (s.yieldPoint).resp = s.resp := by simp [State.yieldPoint]
@[simp] theorem State.yieldPoint_wbuf (s : State) : (s.yieldPoint).wbuf = s.wbuf := by simp [State.yieldPoint]
@[simp] theorem State.yieldPoint_rbuf (s : State) : (s.yieldPoint).rbuf = s.rbuf := by simp [State.yieldPoint]
@[simp] theorem State.yieldPoint_rbufValid (s : State) : (s.yieldPoint).rbufValid = s.rbufValid := by simp [State.yieldPoint]
@[simp] theorem State.yieldPoint_rbufFree (s : State) : (s.yieldPoint).rbufFree = s.rbufFree := by simp [State.yieldPoint]
@[simp] theorem State.yieldPoint_buses (s : State) : (s.yieldPoint).buses = s.buses := by simp [State.yieldPoint]
@[simp] theorem State.yieldPoint_cs (s : State) : (s.yieldPoint).cs = s.cs := by simp [State.yieldPoint]
@[simp] theorem State.yieldPoint_handlers (s : State) : (s.yieldPoint).handlers = s.handlers := by simp [State.yieldPoint]
@[simp] theorem State.yieldPoint_txlog (s : State) : (s.yieldPoint).txlog = s.txlog := by simp [State.yieldPoint]
@[simp] theorem State.yieldPoint_i2clog (s : State) : (s.yieldPoint).i2clog = s.i2clog := by simp [State.yieldPoint]
@[simp] theorem State.yieldPoint_spilog (s : State) : (s.yieldPoint).spilog = s.spilog := by simp [State.yieldPoint]
@[simp] theorem State.yieldPoint_inputs (s : State) : (s.yieldPoint).inputs = s.inputs := by simp [State.yieldPoint]
@[simp] theorem State.yieldPoint_bus (s : State) (c : BusId) :
    (s.yieldPoint).bus c = s.bus c := by simp [State.yieldPoint]
@[simp] theorem State.yieldPoint_csOf (s : State) (e : DevId) :
    (s.yieldPoint).csOf e = s.csOf e := by simp [State.yieldPoint]
@[simp] theorem State.yieldPoint_handler (s : State) (c : BusId) :
    (s.yieldPoint).handler c = s.handler c := by simp [State.yieldPoint]
@[simp] theorem State.yieldPoint_txlogOf (s : State) (c : BusId) :
    (s.yieldPoint).txlogOf c = s.txlogOf c := by simp [State.yieldPoint]
@[simp] theorem State.yieldPoint_i2clogOf (s : State) (c : BusId) :
    (s.yieldPoint).i2clogOf c = s.i2clogOf c := by simp [State.yieldPoint]
@[simp] theorem State.yieldPoint_spilogOf (s : State) (c : BusId) :
    (s.yieldPoint).spilogOf c = s.spilogOf c := by simp [State.yieldPoint]
@[simp] theorem State.yieldPoint_rbufByte (s : State) (i : Nat) :
    (s.yieldPoint).rbufByte i = s.rbufByte i := by simp [State.yieldPoint]
@[simp] theorem State.yieldPoint_devOpt (s : State) (e : DevId) :
    (s.yieldPoint).dev? e = s.dev? e := by simp [State.yieldPoint]
@[simp] theorem State.yieldPoint_busCfgOpt (s : State) (c : BusId) :
    (s.yieldPoint).busCfg? c = s.busCfg? c := by simp [State.yieldPoint]
@[simp] theorem State.yieldPoint_busIs (s : State) (c : BusId) (k : TransportKind) :
    (s.yieldPoint).busIs c k = s.busIs c k := by simp [State.yieldPoint]
@[simp] theorem State.yieldPoint_busTxOnly (s : State) (c : BusId) :
    (s.yieldPoint).busTxOnly c = s.busTxOnly c := by simp [State.yieldPoint]
@[simp] theorem State.yieldPoint_defaultTimeout (s : State) (c : BusId) :
    (s.yieldPoint).defaultTimeout c = s.defaultTimeout c := by simp [State.yieldPoint]
@[simp] theorem State.yieldPoint_hasCs (s : State) (e : DevId) :
    (s.yieldPoint).hasCs e = s.hasCs e := by simp [State.yieldPoint]
@[simp] theorem State.yieldPoint_owns (s : State) (c : BusId) (e : DevId) :
    (s.yieldPoint).owns c e = s.owns c e := by simp [State.yieldPoint]
@[simp] theorem State.yieldPoint_isHandler (s : State) (c : BusId) (e : DevId) :
    (s.yieldPoint).isHandler c e = s.isHandler c e := by simp [State.yieldPoint]
@[simp] theorem State.yieldPoint_rxEnabled (s : State) (c : BusId) :
    (s.yieldPoint).rxEnabled c = s.rxEnabled c := by simp [State.yieldPoint]

/-! ## `wait` -/

@[simp] theorem State.wait_cfg (s : State) (n : Nat) : (s.wait n).cfg = s.cfg := by simp [State.wait]
@[simp] theorem State.wait_busy (s : State) (n : Nat) : (s.wait n).busy = s.busy := by simp [State.wait]
@[simp] theorem State.wait_cmd (s : State) (n : Nat) : (s.wait n).cmd = s.cmd := by simp [State.wait]
@[simp] theorem State.wait_resp (s : State) (n : Nat) : (s.wait n).resp = s.resp := by simp [State.wait]
@[simp] theorem State.wait_wbuf (s : State) (n : Nat) : (s.wait n).wbuf = s.wbuf := by simp [State.wait]
@[simp] theorem State.wait_rbuf (s : State) (n : Nat) : (s.wait n).rbuf = s.rbuf := by simp [State.wait]
@[simp] theorem State.wait_rbufValid (s : State) (n : Nat) : (s.wait n).rbufValid = s.rbufValid := by simp [State.wait]
@[simp] theorem State.wait_rbufFree (s : State) (n : Nat) : (s.wait n).rbufFree = s.rbufFree := by simp [State.wait]
@[simp] theorem State.wait_buses (s : State) (n : Nat) : (s.wait n).buses = s.buses := by simp [State.wait]
@[simp] theorem State.wait_cs (s : State) (n : Nat) : (s.wait n).cs = s.cs := by simp [State.wait]
@[simp] theorem State.wait_handlers (s : State) (n : Nat) : (s.wait n).handlers = s.handlers := by simp [State.wait]
@[simp] theorem State.wait_txlog (s : State) (n : Nat) : (s.wait n).txlog = s.txlog := by simp [State.wait]
@[simp] theorem State.wait_i2clog (s : State) (n : Nat) : (s.wait n).i2clog = s.i2clog := by simp [State.wait]
@[simp] theorem State.wait_spilog (s : State) (n : Nat) : (s.wait n).spilog = s.spilog := by simp [State.wait]
@[simp] theorem State.wait_inputs (s : State) (n : Nat) : (s.wait n).inputs = s.inputs := by simp [State.wait]
@[simp] theorem State.wait_bus (s : State) (n : Nat) (c : BusId) :
    (s.wait n).bus c = s.bus c := by simp [State.wait]
@[simp] theorem State.wait_csOf (s : State) (n : Nat) (e : DevId) :
    (s.wait n).csOf e = s.csOf e := by simp [State.wait]
@[simp] theorem State.wait_handler (s : State) (n : Nat) (c : BusId) :
    (s.wait n).handler c = s.handler c := by simp [State.wait]
@[simp] theorem State.wait_txlogOf (s : State) (n : Nat) (c : BusId) :
    (s.wait n).txlogOf c = s.txlogOf c := by simp [State.wait]
@[simp] theorem State.wait_i2clogOf (s : State) (n : Nat) (c : BusId) :
    (s.wait n).i2clogOf c = s.i2clogOf c := by simp [State.wait]
@[simp] theorem State.wait_spilogOf (s : State) (n : Nat) (c : BusId) :
    (s.wait n).spilogOf c = s.spilogOf c := by simp [State.wait]
@[simp] theorem State.wait_rbufByte (s : State) (n : Nat) (i : Nat) :
    (s.wait n).rbufByte i = s.rbufByte i := by simp [State.wait]
@[simp] theorem State.wait_devOpt (s : State) (n : Nat) (e : DevId) :
    (s.wait n).dev? e = s.dev? e := by simp [State.wait]
@[simp] theorem State.wait_busCfgOpt (s : State) (n : Nat) (c : BusId) :
    (s.wait n).busCfg? c = s.busCfg? c := by simp [State.wait]
@[simp] theorem State.wait_busIs (s : State) (n : Nat) (c : BusId) (k : TransportKind) :
    (s.wait n).busIs c k = s.busIs c k := by simp [State.wait]
@[simp] theorem State.wait_busTxOnly (s : State) (n : Nat) (c : BusId) :
    (s.wait n).busTxOnly c = s.busTxOnly c := by simp [State.wait]
@[simp] theorem State.wait_defaultTimeout (s : State) (n : Nat) (c : BusId) :
    (s.wait n).defaultTimeout c = s.defaultTimeout c := by simp [State.wait]
@[simp] theorem State.wait_hasCs (s : State) (n : Nat) (e : DevId) :
    (s.wait n).hasCs e = s.hasCs e := by simp [State.wait]
@[simp] theorem State.wait_owns (s : State) (n : Nat) (c : BusId) (e : DevId) :
    (s.wait n).owns c e = s.owns c e := by simp [State.wait]
@[simp] theorem State.wait_isHandler (s : State) (n : Nat) (c : BusId) (e : DevId) :
    (s.wait n).isHandler c e = s.isHandler c e := by simp [State.wait]
@[simp] theorem State.wait_rxEnabled (s : State) (n : Nat) (c : BusId) :
    (s.wait n).rxEnabled c = s.rxEnabled c := by simp [State.wait]

/-! ## `drift` -/

@[simp] theorem State.drift_cfg (s : State) : (s.drift).cfg = s.cfg := by simp [State.drift]
@[simp] theorem State.drift_busy (s : State) : (s.drift).busy = s.busy := by simp [State.drift]
@[simp] theorem State.drift_cmd (s : State) : (s.drift).cmd = s.cmd := by simp [State.drift]
@[simp] theorem State.drift_resp (s : State) : (s.drift).resp = s.resp := by simp [State.drift]
@[simp] theorem State.drift_wbuf (s : State) : (s.drift).wbuf = s.wbuf := by simp [State.drift]
@[simp] theorem State.drift_rbuf (s : State) : (s.drift).rbuf = s.rbuf := by simp [State.drift]
@[simp] theorem State.drift_rbufValid (s : State) : (s.drift).rbufValid = s.rbufValid := by simp [State.drift]
@[simp] theorem State.drift_rbufFree (s : State) : (s.drift).rbufFree = s.rbufFree := by simp [State.drift]
@[simp] theorem State.drift_buses (s : State) : (s.drift).buses = s.buses := by simp [State.drift]
@[simp] theorem State.drift_cs (s : State) : (s.drift).cs = s.cs := by simp [State.drift]
@[simp] theorem State.drift_rings (s : State) : (s.drift).rings = s.rings := by simp [State.drift]
@[simp] theorem State.drift_handlers (s : State) : (s.drift).handlers = s.handlers := by simp [State.drift]
@[simp] theorem State.drift_txlog (s : State) : (s.drift).txlog = s.txlog := by simp [State.drift]
@[simp] theorem State.drift_i2clog (s : State) : (s.drift).i2clog = s.i2clog := by simp [State.drift]
@[simp] theorem State.drift_spilog (s : State) : (s.drift).spilog = s.spilog := by simp [State.drift]
@[simp] theorem State.drift_notify (s : State) : (s.drift).notify = s.notify := by simp [State.drift]
@[simp] theorem State.drift_inputs (s : State) : (s.drift).inputs = s.inputs := by simp [State.drift]
@[simp] theorem State.drift_bus (s : State) (c : BusId) :
    (s.drift).bus c = s.bus c := by simp [State.drift]
@[simp] theorem State.drift_csOf (s : State) (e : DevId) :
    (s.drift).csOf e = s.csOf e := by simp [State.drift]
@[simp] theorem State.drift_ring (s : State) (e : DevId) :
    (s.drift).ring e = s.ring e := by simp [State.drift]
@[simp] theorem State.drift_handler (s : State) (c : BusId) :
    (s.drift).handler c = s.handler c := by simp [State.drift]
@[simp] theorem State.drift_txlogOf (s : State) (c : BusId) :
    (s.drift).txlogOf c = s.txlogOf c := by simp [State.drift]
@[simp] theorem State.drift_i2clogOf (s : State) (c : BusId) :
    (s.drift).i2clogOf c = s.i2clogOf c := by simp [State.drift]
@[simp] theorem State.drift_spilogOf (s : State) (c : BusId) :
    (s.drift).spilogOf c = s.spilogOf c := by simp [State.drift]
@[simp] theorem State.drift_rbufByte (s : State) (i : Nat) :
    (s.drift).rbufByte i = s.rbufByte i := by simp [State.drift]
@[simp] theorem State.drift_devOpt (s : State) (e : DevId) :
    (s.drift).dev? e = s.dev? e := by simp [State.drift]
@[simp] theorem State.drift_busCfgOpt (s : State) (c : BusId) :
    (s.drift).busCfg? c = s.busCfg? c := by simp [State.drift]
@[simp] theorem State.drift_busIs (s : State) (c : BusId) (k : TransportKind) :
    (s.drift).busIs c k = s.busIs c k := by simp [State.drift]
@[simp] theorem State.drift_busTxOnly (s : State) (c : BusId) :
    (s.drift).busTxOnly c = s.busTxOnly c := by simp [State.drift]
@[simp] theorem State.drift_defaultTimeout (s : State) (c : BusId) :
    (s.drift).defaultTimeout c = s.defaultTimeout c := by simp [State.drift]
@[simp] theorem State.drift_hasCs (s : State) (e : DevId) :
    (s.drift).hasCs e = s.hasCs e := by simp [State.drift]
@[simp] theorem State.drift_owns (s : State) (c : BusId) (e : DevId) :
    (s.drift).owns c e = s.owns c e := by simp [State.drift]
@[simp] theorem State.drift_isHandler (s : State) (c : BusId) (e : DevId) :
    (s.drift).isHandler c e = s.isHandler c e := by simp [State.drift]
@[simp] theorem State.drift_rxEnabled (s : State) (c : BusId) :
    (s.drift).rxEnabled c = s.rxEnabled c := by simp [State.drift]

@[simp] theorem State.pass_now (s : State) (es : List (BusId × Byte)) (n : Nat) :
    (s.pass es n).now = s.now + BitVec.ofNat 32 n := by simp [State.pass]

@[simp] theorem State.pass_rings (s : State) (es : List (BusId × Byte)) (n : Nat) :
    (s.pass es n).rings = (s.rxBytes es).rings := rfl

@[simp] theorem State.pass_ring (s : State) (es : List (BusId × Byte)) (n : Nat) (e : DevId) :
    (s.pass es n).ring e = (s.rxBytes es).ring e := rfl

@[simp] theorem State.pass_notify (s : State) (es : List (BusId × Byte)) (n : Nat) :
    (s.pass es n).notify = (s.rxBytes es).notify := rfl

end Sys2Proof.Machine
end

