-- ==== Sys2Proof/Laws/Operations.lean ====
section
/-! SUPPORT. The shared operations: for each, the state it leaves alone (one lemma per field and per reading) and one
lemma that says once what it does. -/

namespace Sys2Proof.Machine

/-! ## The receive interrupt -/

/-- What a receive event does: nothing (it is not enabled), a dropped byte, or a stored byte and one callback. -/
theorem State.rxByte_cases (s : State) (b : BusId) (x : Byte) :
    (s.rxEnabled b = false ∧ s.rxByte b x = s) ∨
    ∃ h, s.rxEnabled b = true ∧ s.handler b = some h ∧
      (((s.ring h.dev).full s.cfg.ringCap = true ∧
          s.rxByte b x = s.setRing h.dev { s.ring h.dev with ovf := true }) ∨
        ((s.ring h.dev).full s.cfg.ringCap = false ∧
          s.rxByte b x = (s.setRing h.dev ((s.ring h.dev).receive s.cfg.ringCap x)).emitNotify
            { dev := h.dev, cb := h.cb, byte := x })) := by
  by_cases he : s.rxEnabled b = true
  · right
    have hs : (s.handler b).isSome = true := by
      unfold State.rxEnabled at he
      split at he
      · simp at he
      · simp only [Bool.and_eq_true] at he; exact he.2
    obtain ⟨h, hh⟩ := Option.isSome_iff_exists.1 hs
    refine ⟨h, he, hh, ?_⟩
    by_cases hf : (s.ring h.dev).full s.cfg.ringCap = true
    · left; exact ⟨hf, by simp [State.rxByte, he, hh, hf, Ring.receive]⟩
    · right; exact ⟨by simpa using hf, by simp [State.rxByte, he, hh, hf]⟩
  · left
    have he' : s.rxEnabled b = false := by simpa using he
    exact ⟨he', by simp [State.rxByte, he']⟩

/-- What one receive event keeps, any sequence of them keeps. -/
theorem State.rxBytes_keeps {P : State → Prop} (hP : ∀ s b x, P s → P (s.rxByte b x)) :
    ∀ (es : List (BusId × Byte)) (s : State), P s → P (s.rxBytes es)
  | [], _, h => h
  | e :: es, s, h => State.rxBytes_keeps hP es _ (hP s e.1 e.2 h)

/-- No receive event moves a `TAIL` (R178). -/
@[simp] theorem State.rxByte_tail (s : State) (b : BusId) (x : Byte) (d : DevId) :
    ((s.rxByte b x).ring d).tail = (s.ring d).tail := by
  rcases s.rxByte_cases b x with ⟨-, h⟩ | ⟨h, -, -, ⟨hf, hs⟩ | ⟨hf, hs⟩⟩
  · rw [h]
  · rw [hs, State.setRing_ring]; split
    · next hd => rw [hd]
    · rfl
  · rw [hs, State.emitNotify_ring, State.setRing_ring]; split
    · next hd => rw [hd]; simp [Ring.receive, hf]
    · rfl

@[simp] theorem State.rxBytes_tail (es : List (BusId × Byte)) (d : DevId) :
    ∀ s : State, ((s.rxBytes es).ring d).tail = (s.ring d).tail := by
  induction es with
  | nil => intro s; rfl
  | cons e es ih => intro s; simp [State.rxBytes, ih]

/-- No receive event writes the ring of a device that is no handler device. -/
theorem State.rxByte_ring_other (s : State) (b : BusId) (x : Byte) (d : DevId)
    (h : ∀ g, s.handler b = some g → g.dev ≠ d) : (s.rxByte b x).ring d = s.ring d := by
  rcases s.rxByte_cases b x with ⟨-, hs⟩ | ⟨g, -, hg, ⟨-, hs⟩ | ⟨-, hs⟩⟩
  · rw [hs]
  · rw [hs, State.setRing_ring, if_neg (Ne.symm (h g hg))]
  · rw [hs, State.emitNotify_ring, State.setRing_ring, if_neg (Ne.symm (h g hg))]

theorem State.rxBytes_ring_other (es : List (BusId × Byte)) (d : DevId) :
    ∀ s : State, (∀ b g, s.handler b = some g → g.dev ≠ d) → (s.rxBytes es).ring d = s.ring d := by
  induction es with
  | nil => intro s _; rfl
  | cons e es ih =>
    intro s h
    rw [State.rxBytes, ih _ (by simpa using h), s.rxByte_ring_other _ _ _ (h _)]

/-- Receive events only append to `NOTIFY`. -/
theorem State.rxByte_notify (s : State) (b : BusId) (x : Byte) : s.notify <+: (s.rxByte b x).notify := by
  rcases s.rxByte_cases b x with ⟨-, h⟩ | ⟨h, -, -, ⟨-, hs⟩ | ⟨-, hs⟩⟩
  · rw [h]
  · rw [hs]; simp
  · rw [hs]; simp

theorem State.rxBytes_notify (es : List (BusId × Byte)) : ∀ s : State, s.notify <+: (s.rxBytes es).notify := by
  induction es with
  | nil => intro s; simp [State.rxBytes]
  | cons e es ih => intro s; exact (s.rxByte_notify e.1 e.2).trans (ih _)

/-- Receive events see of the state only its rings, logs, handlers, buses and configuration. -/
theorem State.rxByte_congr (s t : State) (b : BusId) (x : Byte) (hc : s.cfg = t.cfg) (hb : s.buses = t.buses)
    (hh : s.handlers = t.handlers) (hr : s.rings = t.rings) (hn : s.notify = t.notify) :
    (s.rxByte b x).rings = (t.rxByte b x).rings ∧ (s.rxByte b x).notify = (t.rxByte b x).notify := by
  have h1 : s.rxEnabled b = t.rxEnabled b := by
    unfold State.rxEnabled State.bus State.handler; rw [hc, hb, hh]
  have h2 : s.handler b = t.handler b := by unfold State.handler; rw [hh]
  have h3 : ∀ d, s.ring d = t.ring d := fun d => by unfold State.ring; rw [hr]
  unfold State.rxByte
  rw [h1, h2]
  split
  · split
    · exact ⟨hr, hn⟩
    · simp only [h3, hc]
      split <;> simp [hr, hn]
  · exact ⟨hr, hn⟩

theorem State.rxBytes_congr (es : List (BusId × Byte)) : ∀ s t : State, s.cfg = t.cfg → s.buses = t.buses →
    s.handlers = t.handlers → s.rings = t.rings → s.notify = t.notify →
    (s.rxBytes es).rings = (t.rxBytes es).rings ∧ (s.rxBytes es).notify = (t.rxBytes es).notify := by
  induction es with
  | nil => intro s t _ _ _ hr hn; exact ⟨hr, hn⟩
  | cons e es ih =>
    intro s t hc hb hh hr hn
    have h := s.rxByte_congr t e.1 e.2 hc hb hh hr hn
    exact ih _ _ (by simpa using hc) (by simpa using hb) (by simpa using hh) h.1 h.2

theorem State.rxBytes_append (es fs : List (BusId × Byte)) : ∀ s : State,
    s.rxBytes (es ++ fs) = (s.rxBytes es).rxBytes fs := by
  induction es with
  | nil => intro s; rfl
  | cons e es ih => intro s; exact ih _

/-! ## The polling rule (R116) -/

/-- Case A: an outcome before the deadline is seen. -/
theorem poll_before {rem gran t late : Nat} {race : Bool} (h : t < rem) :
    poll rem gran (some t) race late = { finished := true, ms := t + min late gran } := by simp [poll, h]

/-- Case B: no outcome by the last poll. -/
theorem poll_after {rem gran late : Nat} {done : Option Nat} {race : Bool}
    (h : done = none ∨ ∃ t, done = some t ∧ rem + gran < t) :
    poll rem gran done race late = { finished := false, ms := rem + min late gran } := by
  rcases h with rfl | ⟨t, rfl, h⟩
  · rfl
  · have h1 : ¬ t < rem := by omega
    simp [poll, h, h1]

/-- Case C: either. -/
theorem poll_race {rem gran t late : Nat} {race : Bool} (h1 : rem ≤ t) (h2 : t ≤ rem + gran) :
    poll rem gran (some t) race late =
      if race then { finished := true, ms := t + min late gran }
      else { finished := false, ms := rem + min late gran } := by
  have h3 : ¬ t < rem := by omega
  have h4 : ¬ rem + gran < t := by omega
  simp [poll, h3, h4]

/-- A poll ends in time (R119). -/
theorem poll_bound (rem gran : Nat) (done : Option Nat) (race : Bool) (late : Nat) :
    (poll rem gran done race late).ms ≤ rem + 2 * gran ∧
    ((poll rem gran done race late).finished = false → (poll rem gran done race late).ms ≤ rem + gran) := by
  unfold poll
  repeat' split
  all_goals simp_all
  all_goals omega

/-! ## The environment's draws, from a queue -/

theorem State.drawYield_cons (s : State) (a : Yield) (l : List Yield) (h : s.env.yields = a :: l) :
    s.drawYield = (a, { s with env := { s.env with yields := l } }) := by simp [State.drawYield, h]
@[simp] theorem State.drawYield_env_drifts (s : State) : s.drawYield.2.env.drifts = s.env.drifts := by
  unfold State.drawYield; split <;> rfl
@[simp] theorem State.drawYield_env_teardowns (s : State) : s.drawYield.2.env.teardowns = s.env.teardowns := by
  unfold State.drawYield; split <;> rfl
@[simp] theorem State.drawYield_env_i2c (s : State) : s.drawYield.2.env.i2c = s.env.i2c := by
  unfold State.drawYield; split <;> rfl
@[simp] theorem State.drawYield_env_spi (s : State) : s.drawYield.2.env.spi = s.env.spi := by
  unfold State.drawYield; split <;> rfl
@[simp] theorem State.drawYield_env_tx (s : State) : s.drawYield.2.env.tx = s.env.tx := by
  unfold State.drawYield; split <;> rfl
@[simp] theorem State.drawYield_env_rx (s : State) : s.drawYield.2.env.rx = s.env.rx := by
  unfold State.drawYield; split <;> rfl
theorem State.drawDrift_cons (s : State) (a : Nat) (l : List Nat) (h : s.env.drifts = a :: l) :
    s.drawDrift = (a, { s with env := { s.env with drifts := l } }) := by simp [State.drawDrift, h]
@[simp] theorem State.drawDrift_env_yields (s : State) : s.drawDrift.2.env.yields = s.env.yields := by
  unfold State.drawDrift; split <;> rfl
@[simp] theorem State.drawDrift_env_teardowns (s : State) : s.drawDrift.2.env.teardowns = s.env.teardowns := by
  unfold State.drawDrift; split <;> rfl
@[simp] theorem State.drawDrift_env_i2c (s : State) : s.drawDrift.2.env.i2c = s.env.i2c := by
  unfold State.drawDrift; split <;> rfl
@[simp] theorem State.drawDrift_env_spi (s : State) : s.drawDrift.2.env.spi = s.env.spi := by
  unfold State.drawDrift; split <;> rfl
@[simp] theorem State.drawDrift_env_tx (s : State) : s.drawDrift.2.env.tx = s.env.tx := by
  unfold State.drawDrift; split <;> rfl
@[simp] theorem State.drawDrift_env_rx (s : State) : s.drawDrift.2.env.rx = s.env.rx := by
  unfold State.drawDrift; split <;> rfl
theorem State.drawTeardown_cons (s : State) (a : Teardown) (l : List Teardown) (h : s.env.teardowns = a :: l) :
    s.drawTeardown = (a, { s with env := { s.env with teardowns := l } }) := by simp [State.drawTeardown, h]
@[simp] theorem State.drawTeardown_env_yields (s : State) : s.drawTeardown.2.env.yields = s.env.yields := by
  unfold State.drawTeardown; split <;> rfl
@[simp] theorem State.drawTeardown_env_drifts (s : State) : s.drawTeardown.2.env.drifts = s.env.drifts := by
  unfold State.drawTeardown; split <;> rfl
@[simp] theorem State.drawTeardown_env_i2c (s : State) : s.drawTeardown.2.env.i2c = s.env.i2c := by
  unfold State.drawTeardown; split <;> rfl
@[simp] theorem State.drawTeardown_env_spi (s : State) : s.drawTeardown.2.env.spi = s.env.spi := by
  unfold State.drawTeardown; split <;> rfl
@[simp] theorem State.drawTeardown_env_tx (s : State) : s.drawTeardown.2.env.tx = s.env.tx := by
  unfold State.drawTeardown; split <;> rfl
@[simp] theorem State.drawTeardown_env_rx (s : State) : s.drawTeardown.2.env.rx = s.env.rx := by
  unfold State.drawTeardown; split <;> rfl
theorem State.drawI2c_cons (s : State) (a : I2cAnswer) (l : List I2cAnswer) (h : s.env.i2c = a :: l) :
    s.drawI2c = (a, { s with env := { s.env with i2c := l } }) := by simp [State.drawI2c, h]
@[simp] theorem State.drawI2c_env_yields (s : State) : s.drawI2c.2.env.yields = s.env.yields := by
  unfold State.drawI2c; split <;> rfl
@[simp] theorem State.drawI2c_env_drifts (s : State) : s.drawI2c.2.env.drifts = s.env.drifts := by
  unfold State.drawI2c; split <;> rfl
@[simp] theorem State.drawI2c_env_teardowns (s : State) : s.drawI2c.2.env.teardowns = s.env.teardowns := by
  unfold State.drawI2c; split <;> rfl
@[simp] theorem State.drawI2c_env_spi (s : State) : s.drawI2c.2.env.spi = s.env.spi := by
  unfold State.drawI2c; split <;> rfl
@[simp] theorem State.drawI2c_env_tx (s : State) : s.drawI2c.2.env.tx = s.env.tx := by
  unfold State.drawI2c; split <;> rfl
@[simp] theorem State.drawI2c_env_rx (s : State) : s.drawI2c.2.env.rx = s.env.rx := by
  unfold State.drawI2c; split <;> rfl
theorem State.drawSpi_cons (s : State) (a : Byte) (l : List Byte) (h : s.env.spi = a :: l) :
    s.drawSpi = (a, { s with env := { s.env with spi := l } }) := by simp [State.drawSpi, h]
@[simp] theorem State.drawSpi_env_yields (s : State) : s.drawSpi.2.env.yields = s.env.yields := by
  unfold State.drawSpi; split <;> rfl
@[simp] theorem State.drawSpi_env_drifts (s : State) : s.drawSpi.2.env.drifts = s.env.drifts := by
  unfold State.drawSpi; split <;> rfl
@[simp] theorem State.drawSpi_env_teardowns (s : State) : s.drawSpi.2.env.teardowns = s.env.teardowns := by
  unfold State.drawSpi; split <;> rfl
@[simp] theorem State.drawSpi_env_i2c (s : State) : s.drawSpi.2.env.i2c = s.env.i2c := by
  unfold State.drawSpi; split <;> rfl
@[simp] theorem State.drawSpi_env_tx (s : State) : s.drawSpi.2.env.tx = s.env.tx := by
  unfold State.drawSpi; split <;> rfl
@[simp] theorem State.drawSpi_env_rx (s : State) : s.drawSpi.2.env.rx = s.env.rx := by
  unfold State.drawSpi; split <;> rfl
theorem State.drawTx_cons (s : State) (a : TxAnswer) (l : List TxAnswer) (h : s.env.tx = a :: l) :
    s.drawTx = (a, { s with env := { s.env with tx := l } }) := by simp [State.drawTx, h]
@[simp] theorem State.drawTx_env_yields (s : State) : s.drawTx.2.env.yields = s.env.yields := by
  unfold State.drawTx; split <;> rfl
@[simp] theorem State.drawTx_env_drifts (s : State) : s.drawTx.2.env.drifts = s.env.drifts := by
  unfold State.drawTx; split <;> rfl
@[simp] theorem State.drawTx_env_teardowns (s : State) : s.drawTx.2.env.teardowns = s.env.teardowns := by
  unfold State.drawTx; split <;> rfl
@[simp] theorem State.drawTx_env_i2c (s : State) : s.drawTx.2.env.i2c = s.env.i2c := by
  unfold State.drawTx; split <;> rfl
@[simp] theorem State.drawTx_env_spi (s : State) : s.drawTx.2.env.spi = s.env.spi := by
  unfold State.drawTx; split <;> rfl
@[simp] theorem State.drawTx_env_rx (s : State) : s.drawTx.2.env.rx = s.env.rx := by
  unfold State.drawTx; split <;> rfl
theorem State.drawRx_cons (s : State) (a : RxAnswer) (l : List RxAnswer) (h : s.env.rx = a :: l) :
    s.drawRx = (a, { s with env := { s.env with rx := l } }) := by simp [State.drawRx, h]
@[simp] theorem State.drawRx_env_yields (s : State) : s.drawRx.2.env.yields = s.env.yields := by
  unfold State.drawRx; split <;> rfl
@[simp] theorem State.drawRx_env_drifts (s : State) : s.drawRx.2.env.drifts = s.env.drifts := by
  unfold State.drawRx; split <;> rfl
@[simp] theorem State.drawRx_env_teardowns (s : State) : s.drawRx.2.env.teardowns = s.env.teardowns := by
  unfold State.drawRx; split <;> rfl
@[simp] theorem State.drawRx_env_i2c (s : State) : s.drawRx.2.env.i2c = s.env.i2c := by
  unfold State.drawRx; split <;> rfl
@[simp] theorem State.drawRx_env_spi (s : State) : s.drawRx.2.env.spi = s.env.spi := by
  unfold State.drawRx; split <;> rfl
@[simp] theorem State.drawRx_env_tx (s : State) : s.drawRx.2.env.tx = s.env.tx := by
  unfold State.drawRx; split <;> rfl

/-! ## The passing of time between two statements (R55) -/

theorem State.drift_cons (s : State) (n : Nat) (ns : List Nat) (h : s.env.drifts = n :: ns) :
    s.drift = { s with env := { s.env with drifts := ns }, now := s.now + BitVec.ofNat 32 n } := by
  simp [State.drift, State.drawDrift, h, State.advance]
/-- An advance of `NOW` draws from its own queue and no other. -/
@[simp] theorem State.drift_env (s : State) : { s.drift.env with drifts := s.env.drifts } = s.env := by
  cases h : s.env.drifts <;> simp [State.drift, State.drawDrift, h] <;> simp [← h]
@[simp] theorem State.drift_env_yields (s : State) : s.drift.env.yields = s.env.yields := by simp [State.drift]
@[simp] theorem State.drift_env_teardowns (s : State) : s.drift.env.teardowns = s.env.teardowns := by simp [State.drift]
@[simp] theorem State.drift_env_i2c (s : State) : s.drift.env.i2c = s.env.i2c := by simp [State.drift]
@[simp] theorem State.drift_env_spi (s : State) : s.drift.env.spi = s.env.spi := by simp [State.drift]
@[simp] theorem State.drift_env_tx (s : State) : s.drift.env.tx = s.env.tx := by simp [State.drift]
@[simp] theorem State.drift_env_rx (s : State) : s.drift.env.rx = s.env.rx := by simp [State.drift]

/-! ## `select` (R86) -/

@[simp] theorem State.select_cfg (s : State) (d : DevId) (dc : DevCfg) :
    (s.select d dc).cfg = s.cfg := by 
  unfold State.select; simp only []; repeat' split
  all_goals simp
@[simp] theorem State.select_busy (s : State) (d : DevId) (dc : DevCfg) :
    (s.select d dc).busy = s.busy := by 
  unfold State.select; simp only []; repeat' split
  all_goals simp
@[simp] theorem State.select_cmd (s : State) (d : DevId) (dc : DevCfg) :
    (s.select d dc).cmd = s.cmd := by 
  unfold State.select; simp only []; repeat' split
  all_goals simp
@[simp] theorem State.select_resp (s : State) (d : DevId) (dc : DevCfg) :
    (s.select d dc).resp = s.resp := by 
  unfold State.select; simp only []; repeat' split
  all_goals simp
@[simp] theorem State.select_wbuf (s : State) (d : DevId) (dc : DevCfg) :
    (s.select d dc).wbuf = s.wbuf := by 
  unfold State.select; simp only []; repeat' split
  all_goals simp
@[simp] theorem State.select_rbuf (s : State) (d : DevId) (dc : DevCfg) :
    (s.select d dc).rbuf = s.rbuf := by 
  unfold State.select; simp only []; repeat' split
  all_goals simp
@[simp] theorem State.select_rbufValid (s : State) (d : DevId) (dc : DevCfg) :
    (s.select d dc).rbufValid = s.rbufValid := by 
  unfold State.select; simp only []; repeat' split
  all_goals simp
@[simp] theorem State.select_rbufFree (s : State) (d : DevId) (dc : DevCfg) :
    (s.select d dc).rbufFree = s.rbufFree := by 
  unfold State.select; simp only []; repeat' split
  all_goals simp
@[simp] theorem State.select_buses (s : State) (d : DevId) (dc : DevCfg) :
    (s.select d dc).buses = s.buses := by 
  unfold State.select; simp only []; repeat' split
  all_goals simp
@[simp] theorem State.select_handlers (s : State) (d : DevId) (dc : DevCfg) :
    (s.select d dc).handlers = s.handlers := by 
  unfold State.select; simp only []; repeat' split
  all_goals simp
@[simp] theorem State.select_txlog (s : State) (d : DevId) (dc : DevCfg) :
    (s.select d dc).txlog = s.txlog := by 
  unfold State.select; simp only []; repeat' split
  all_goals simp
@[simp] theorem State.select_i2clog (s : State) (d : DevId) (dc : DevCfg) :
    (s.select d dc).i2clog = s.i2clog := by 
  unfold State.select; simp only []; repeat' split
  all_goals simp
@[simp] theorem State.select_spilog (s : State) (d : DevId) (dc : DevCfg) :
    (s.select d dc).spilog = s.spilog := by 
  unfold State.select; simp only []; repeat' split
  all_goals simp
@[simp] theorem State.select_inputs (s : State) (d : DevId) (dc : DevCfg) :
    (s.select d dc).inputs = s.inputs := by 
  unfold State.select; simp only []; repeat' split
  all_goals simp
@[simp] theorem State.select_bus (s : State) (d : DevId) (dc : DevCfg) (c : BusId) :
    (s.select d dc).bus c = s.bus c := by 
  unfold State.select; simp only []; repeat' split
  all_goals simp
@[simp] theorem State.select_handler (s : State) (d : DevId) (dc : DevCfg) (c : BusId) :
    (s.select d dc).handler c = s.handler c := by 
  unfold State.select; simp only []; repeat' split
  all_goals simp
@[simp] theorem State.select_txlogOf (s : State) (d : DevId) (dc : DevCfg) (c : BusId) :
    (s.select d dc).txlogOf c = s.txlogOf c := by 
  unfold State.select; simp only []; repeat' split
  all_goals simp
@[simp] theorem State.select_i2clogOf (s : State) (d : DevId) (dc : DevCfg) (c : BusId) :
    (s.select d dc).i2clogOf c = s.i2clogOf c := by 
  unfold State.select; simp only []; repeat' split
  all_goals simp
@[simp] theorem State.select_spilogOf (s : State) (d : DevId) (dc : DevCfg) (c : BusId) :
    (s.select d dc).spilogOf c = s.spilogOf c := by 
  unfold State.select; simp only []; repeat' split
  all_goals simp
@[simp] theorem State.select_rbufByte (s : State) (d : DevId) (dc : DevCfg) (i : Nat) :
    (s.select d dc).rbufByte i = s.rbufByte i := by 
  unfold State.select; simp only []; repeat' split
  all_goals simp
@[simp] theorem State.select_devOpt (s : State) (d : DevId) (dc : DevCfg) (e : DevId) :
    (s.select d dc).dev? e = s.dev? e := by 
  unfold State.select; simp only []; repeat' split
  all_goals simp
@[simp] theorem State.select_busCfgOpt (s : State) (d : DevId) (dc : DevCfg) (c : BusId) :
    (s.select d dc).busCfg? c = s.busCfg? c := by 
  unfold State.select; simp only []; repeat' split
  all_goals simp
@[simp] theorem State.select_busIs (s : State) (d : DevId) (dc : DevCfg) (c : BusId) (k : TransportKind) :
    (s.select d dc).busIs c k = s.busIs c k := by 
  unfold State.select; simp only []; repeat' split
  all_goals simp
@[simp] theorem State.select_busTxOnly (s : State) (d : DevId) (dc : DevCfg) (c : BusId) :
    (s.select d dc).busTxOnly c = s.busTxOnly c := by 
  unfold State.select; simp only []; repeat' split
  all_goals simp
@[simp] theorem State.select_defaultTimeout (s : State) (d : DevId) (dc : DevCfg) (c : BusId) :
    (s.select d dc).defaultTimeout c = s.defaultTimeout c := by 
  unfold State.select; simp only []; repeat' split
  all_goals simp
@[simp] theorem State.select_hasCs (s : State) (d : DevId) (dc : DevCfg) (e : DevId) :
    (s.select d dc).hasCs e = s.hasCs e := by 
  unfold State.select; simp only []; repeat' split
  all_goals simp
@[simp] theorem State.select_owns (s : State) (d : DevId) (dc : DevCfg) (c : BusId) (e : DevId) :
    (s.select d dc).owns c e = s.owns c e := by 
  unfold State.select; simp only []; repeat' split
  all_goals simp
@[simp] theorem State.select_isHandler (s : State) (d : DevId) (dc : DevCfg) (c : BusId) (e : DevId) :
    (s.select d dc).isHandler c e = s.isHandler c e := by 
  unfold State.select; simp only []; repeat' split
  all_goals simp
@[simp] theorem State.select_rxEnabled (s : State) (d : DevId) (dc : DevCfg) (c : BusId) :
    (s.select d dc).rxEnabled c = s.rxEnabled c := by 
  unfold State.select; simp only []; repeat' split
  all_goals simp

/-! ## `init` (R87) -/

@[simp] theorem State.bringUp_cfg (s : State) (dc : DevCfg) :
    ((s.bringUp dc).2).cfg = s.cfg := by 
  unfold State.bringUp; simp only []; split <;> simp
@[simp] theorem State.bringUp_busy (s : State) (dc : DevCfg) :
    ((s.bringUp dc).2).busy = s.busy := by 
  unfold State.bringUp; simp only []; split <;> simp
@[simp] theorem State.bringUp_cmd (s : State) (dc : DevCfg) :
    ((s.bringUp dc).2).cmd = s.cmd := by 
  unfold State.bringUp; simp only []; split <;> simp
@[simp] theorem State.bringUp_resp (s : State) (dc : DevCfg) :
    ((s.bringUp dc).2).resp = s.resp := by 
  unfold State.bringUp; simp only []; split <;> simp
@[simp] theorem State.bringUp_wbuf (s : State) (dc : DevCfg) :
    ((s.bringUp dc).2).wbuf = s.wbuf := by 
  unfold State.bringUp; simp only []; split <;> simp
@[simp] theorem State.bringUp_rbuf (s : State) (dc : DevCfg) :
    ((s.bringUp dc).2).rbuf = s.rbuf := by 
  unfold State.bringUp; simp only []; split <;> simp
@[simp] theorem State.bringUp_rbufValid (s : State) (dc : DevCfg) :
    ((s.bringUp dc).2).rbufValid = s.rbufValid := by 
  unfold State.bringUp; simp only []; split <;> simp
@[simp] theorem State.bringUp_rbufFree (s : State) (dc : DevCfg) :
    ((s.bringUp dc).2).rbufFree = s.rbufFree := by 
  unfold State.bringUp; simp only []; split <;> simp
@[simp] theorem State.bringUp_now (s : State) (dc : DevCfg) :
    ((s.bringUp dc).2).now = s.now := by 
  unfold State.bringUp; simp only []; split <;> simp
@[simp] theorem State.bringUp_cs (s : State) (dc : DevCfg) :
    ((s.bringUp dc).2).cs = s.cs := by 
  unfold State.bringUp; simp only []; split <;> simp
@[simp] theorem State.bringUp_rings (s : State) (dc : DevCfg) :
    ((s.bringUp dc).2).rings = s.rings := by 
  unfold State.bringUp; simp only []; split <;> simp
@[simp] theorem State.bringUp_handlers (s : State) (dc : DevCfg) :
    ((s.bringUp dc).2).handlers = s.handlers := by 
  unfold State.bringUp; simp only []; split <;> simp
@[simp] theorem State.bringUp_txlog (s : State) (dc : DevCfg) :
    ((s.bringUp dc).2).txlog = s.txlog := by 
  unfold State.bringUp; simp only []; split <;> simp
@[simp] theorem State.bringUp_i2clog (s : State) (dc : DevCfg) :
    ((s.bringUp dc).2).i2clog = s.i2clog := by 
  unfold State.bringUp; simp only []; split <;> simp
@[simp] theorem State.bringUp_spilog (s : State) (dc : DevCfg) :
    ((s.bringUp dc).2).spilog = s.spilog := by 
  unfold State.bringUp; simp only []; split <;> simp
@[simp] theorem State.bringUp_notify (s : State) (dc : DevCfg) :
    ((s.bringUp dc).2).notify = s.notify := by 
  unfold State.bringUp; simp only []; split <;> simp
@[simp] theorem State.bringUp_inputs (s : State) (dc : DevCfg) :
    ((s.bringUp dc).2).inputs = s.inputs := by 
  unfold State.bringUp; simp only []; split <;> simp
@[simp] theorem State.bringUp_csOf (s : State) (dc : DevCfg) (e : DevId) :
    ((s.bringUp dc).2).csOf e = s.csOf e := by 
  unfold State.bringUp; simp only []; split <;> simp
@[simp] theorem State.bringUp_ring (s : State) (dc : DevCfg) (e : DevId) :
    ((s.bringUp dc).2).ring e = s.ring e := by 
  unfold State.bringUp; simp only []; split <;> simp
@[simp] theorem State.bringUp_handler (s : State) (dc : DevCfg) (c : BusId) :
    ((s.bringUp dc).2).handler c = s.handler c := by 
  unfold State.bringUp; simp only []; split <;> simp
@[simp] theorem State.bringUp_txlogOf (s : State) (dc : DevCfg) (c : BusId) :
    ((s.bringUp dc).2).txlogOf c = s.txlogOf c := by 
  unfold State.bringUp; simp only []; split <;> simp
@[simp] theorem State.bringUp_i2clogOf (s : State) (dc : DevCfg) (c : BusId) :
    ((s.bringUp dc).2).i2clogOf c = s.i2clogOf c := by 
  unfold State.bringUp; simp only []; split <;> simp
@[simp] theorem State.bringUp_spilogOf (s : State) (dc : DevCfg) (c : BusId) :
    ((s.bringUp dc).2).spilogOf c = s.spilogOf c := by 
  unfold State.bringUp; simp only []; split <;> simp
@[simp] theorem State.bringUp_rbufByte (s : State) (dc : DevCfg) (i : Nat) :
    ((s.bringUp dc).2).rbufByte i = s.rbufByte i := by 
  unfold State.bringUp; simp only []; split <;> simp
@[simp] theorem State.bringUp_devOpt (s : State) (dc : DevCfg) (e : DevId) :
    ((s.bringUp dc).2).dev? e = s.dev? e := by 
  unfold State.bringUp; simp only []; split <;> simp
@[simp] theorem State.bringUp_busCfgOpt (s : State) (dc : DevCfg) (c : BusId) :
    ((s.bringUp dc).2).busCfg? c = s.busCfg? c := by 
  unfold State.bringUp; simp only []; split <;> simp
@[simp] theorem State.bringUp_busIs (s : State) (dc : DevCfg) (c : BusId) (k : TransportKind) :
    ((s.bringUp dc).2).busIs c k = s.busIs c k := by 
  unfold State.bringUp; simp only []; split <;> simp
@[simp] theorem State.bringUp_busTxOnly (s : State) (dc : DevCfg) (c : BusId) :
    ((s.bringUp dc).2).busTxOnly c = s.busTxOnly c := by 
  unfold State.bringUp; simp only []; split <;> simp
@[simp] theorem State.bringUp_defaultTimeout (s : State) (dc : DevCfg) (c : BusId) :
    ((s.bringUp dc).2).defaultTimeout c = s.defaultTimeout c := by 
  unfold State.bringUp; simp only []; split <;> simp
@[simp] theorem State.bringUp_hasCs (s : State) (dc : DevCfg) (e : DevId) :
    ((s.bringUp dc).2).hasCs e = s.hasCs e := by 
  unfold State.bringUp; simp only []; split <;> simp
@[simp] theorem State.bringUp_isHandler (s : State) (dc : DevCfg) (c : BusId) (e : DevId) :
    ((s.bringUp dc).2).isHandler c e = s.isHandler c e := by 
  unfold State.bringUp; simp only []; split <;> simp

/-! ## `unlock` (R89) -/

@[simp] theorem State.unlock_cfg (s : State) (b : BusId) :
    ((s.unlock b).2).cfg = s.cfg := by 
  unfold State.unlock; simp only []; repeat' split
  all_goals simp
@[simp] theorem State.unlock_busy (s : State) (b : BusId) :
    ((s.unlock b).2).busy = s.busy := by 
  unfold State.unlock; simp only []; repeat' split
  all_goals simp
@[simp] theorem State.unlock_cmd (s : State) (b : BusId) :
    ((s.unlock b).2).cmd = s.cmd := by 
  unfold State.unlock; simp only []; repeat' split
  all_goals simp
@[simp] theorem State.unlock_resp (s : State) (b : BusId) :
    ((s.unlock b).2).resp = s.resp := by 
  unfold State.unlock; simp only []; repeat' split
  all_goals simp
@[simp] theorem State.unlock_wbuf (s : State) (b : BusId) :
    ((s.unlock b).2).wbuf = s.wbuf := by 
  unfold State.unlock; simp only []; repeat' split
  all_goals simp
@[simp] theorem State.unlock_rbuf (s : State) (b : BusId) :
    ((s.unlock b).2).rbuf = s.rbuf := by 
  unfold State.unlock; simp only []; repeat' split
  all_goals simp
@[simp] theorem State.unlock_rbufValid (s : State) (b : BusId) :
    ((s.unlock b).2).rbufValid = s.rbufValid := by 
  unfold State.unlock; simp only []; repeat' split
  all_goals simp
@[simp] theorem State.unlock_rbufFree (s : State) (b : BusId) :
    ((s.unlock b).2).rbufFree = s.rbufFree := by 
  unfold State.unlock; simp only []; repeat' split
  all_goals simp
@[simp] theorem State.unlock_now (s : State) (b : BusId) :
    ((s.unlock b).2).now = s.now := by 
  unfold State.unlock; simp only []; repeat' split
  all_goals simp
@[simp] theorem State.unlock_rings (s : State) (b : BusId) :
    ((s.unlock b).2).rings = s.rings := by 
  unfold State.unlock; simp only []; repeat' split
  all_goals simp
@[simp] theorem State.unlock_handlers (s : State) (b : BusId) :
    ((s.unlock b).2).handlers = s.handlers := by 
  unfold State.unlock; simp only []; repeat' split
  all_goals simp
@[simp] theorem State.unlock_txlog (s : State) (b : BusId) :
    ((s.unlock b).2).txlog = s.txlog := by 
  unfold State.unlock; simp only []; repeat' split
  all_goals simp
@[simp] theorem State.unlock_i2clog (s : State) (b : BusId) :
    ((s.unlock b).2).i2clog = s.i2clog := by 
  unfold State.unlock; simp only []; repeat' split
  all_goals simp
@[simp] theorem State.unlock_spilog (s : State) (b : BusId) :
    ((s.unlock b).2).spilog = s.spilog := by 
  unfold State.unlock; simp only []; repeat' split
  all_goals simp
@[simp] theorem State.unlock_notify (s : State) (b : BusId) :
    ((s.unlock b).2).notify = s.notify := by 
  unfold State.unlock; simp only []; repeat' split
  all_goals simp
@[simp] theorem State.unlock_inputs (s : State) (b : BusId) :
    ((s.unlock b).2).inputs = s.inputs := by 
  unfold State.unlock; simp only []; repeat' split
  all_goals simp
@[simp] theorem State.unlock_ring (s : State) (b : BusId) (e : DevId) :
    ((s.unlock b).2).ring e = s.ring e := by 
  unfold State.unlock; simp only []; repeat' split
  all_goals simp
@[simp] theorem State.unlock_handler (s : State) (b : BusId) (c : BusId) :
    ((s.unlock b).2).handler c = s.handler c := by 
  unfold State.unlock; simp only []; repeat' split
  all_goals simp
@[simp] theorem State.unlock_txlogOf (s : State) (b : BusId) (c : BusId) :
    ((s.unlock b).2).txlogOf c = s.txlogOf c := by 
  unfold State.unlock; simp only []; repeat' split
  all_goals simp
@[simp] theorem State.unlock_i2clogOf (s : State) (b : BusId) (c : BusId) :
    ((s.unlock b).2).i2clogOf c = s.i2clogOf c := by 
  unfold State.unlock; simp only []; repeat' split
  all_goals simp
@[simp] theorem State.unlock_spilogOf (s : State) (b : BusId) (c : BusId) :
    ((s.unlock b).2).spilogOf c = s.spilogOf c := by 
  unfold State.unlock; simp only []; repeat' split
  all_goals simp
@[simp] theorem State.unlock_rbufByte (s : State) (b : BusId) (i : Nat) :
    ((s.unlock b).2).rbufByte i = s.rbufByte i := by 
  unfold State.unlock; simp only []; repeat' split
  all_goals simp
@[simp] theorem State.unlock_devOpt (s : State) (b : BusId) (e : DevId) :
    ((s.unlock b).2).dev? e = s.dev? e := by 
  unfold State.unlock; simp only []; repeat' split
  all_goals simp
@[simp] theorem State.unlock_busCfgOpt (s : State) (b : BusId) (c : BusId) :
    ((s.unlock b).2).busCfg? c = s.busCfg? c := by 
  unfold State.unlock; simp only []; repeat' split
  all_goals simp
@[simp] theorem State.unlock_busIs (s : State) (b : BusId) (c : BusId) (k : TransportKind) :
    ((s.unlock b).2).busIs c k = s.busIs c k := by 
  unfold State.unlock; simp only []; repeat' split
  all_goals simp
@[simp] theorem State.unlock_busTxOnly (s : State) (b : BusId) (c : BusId) :
    ((s.unlock b).2).busTxOnly c = s.busTxOnly c := by 
  unfold State.unlock; simp only []; repeat' split
  all_goals simp
@[simp] theorem State.unlock_defaultTimeout (s : State) (b : BusId) (c : BusId) :
    ((s.unlock b).2).defaultTimeout c = s.defaultTimeout c := by 
  unfold State.unlock; simp only []; repeat' split
  all_goals simp
@[simp] theorem State.unlock_hasCs (s : State) (b : BusId) (e : DevId) :
    ((s.unlock b).2).hasCs e = s.hasCs e := by 
  unfold State.unlock; simp only []; repeat' split
  all_goals simp
@[simp] theorem State.unlock_isHandler (s : State) (b : BusId) (c : BusId) (e : DevId) :
    ((s.unlock b).2).isHandler c e = s.isHandler c e := by 
  unfold State.unlock; simp only []; repeat' split
  all_goals simp

/-! ## The end of `ACQUIRE` (R98) -/

@[simp] theorem State.conclude_cfg (s : State) (st : BusStatus) :
    (s.conclude st).cfg = s.cfg := by 
  unfold State.conclude; split <;> simp
@[simp] theorem State.conclude_cmd (s : State) (st : BusStatus) :
    (s.conclude st).cmd = s.cmd := by 
  unfold State.conclude; split <;> simp
@[simp] theorem State.conclude_wbuf (s : State) (st : BusStatus) :
    (s.conclude st).wbuf = s.wbuf := by 
  unfold State.conclude; split <;> simp
@[simp] theorem State.conclude_buses (s : State) (st : BusStatus) :
    (s.conclude st).buses = s.buses := by 
  unfold State.conclude; split <;> simp
@[simp] theorem State.conclude_cs (s : State) (st : BusStatus) :
    (s.conclude st).cs = s.cs := by 
  unfold State.conclude; split <;> simp
@[simp] theorem State.conclude_rings (s : State) (st : BusStatus) :
    (s.conclude st).rings = s.rings := by 
  unfold State.conclude; split <;> simp
@[simp] theorem State.conclude_handlers (s : State) (st : BusStatus) :
    (s.conclude st).handlers = s.handlers := by 
  unfold State.conclude; split <;> simp
@[simp] theorem State.conclude_txlog (s : State) (st : BusStatus) :
    (s.conclude st).txlog = s.txlog := by 
  unfold State.conclude; split <;> simp
@[simp] theorem State.conclude_i2clog (s : State) (st : BusStatus) :
    (s.conclude st).i2clog = s.i2clog := by 
  unfold State.conclude; split <;> simp
@[simp] theorem State.conclude_spilog (s : State) (st : BusStatus) :
    (s.conclude st).spilog = s.spilog := by 
  unfold State.conclude; split <;> simp
@[simp] theorem State.conclude_notify (s : State) (st : BusStatus) :
    (s.conclude st).notify = s.notify := by 
  unfold State.conclude; split <;> simp
@[simp] theorem State.conclude_inputs (s : State) (st : BusStatus) :
    (s.conclude st).inputs = s.inputs := by 
  unfold State.conclude; split <;> simp
@[simp] theorem State.conclude_bus (s : State) (st : BusStatus) (c : BusId) :
    (s.conclude st).bus c = s.bus c := by 
  unfold State.conclude; split <;> simp
@[simp] theorem State.conclude_csOf (s : State) (st : BusStatus) (e : DevId) :
    (s.conclude st).csOf e = s.csOf e := by 
  unfold State.conclude; split <;> simp
@[simp] theorem State.conclude_ring (s : State) (st : BusStatus) (e : DevId) :
    (s.conclude st).ring e = s.ring e := by 
  unfold State.conclude; split <;> simp
@[simp] theorem State.conclude_handler (s : State) (st : BusStatus) (c : BusId) :
    (s.conclude st).handler c = s.handler c := by 
  unfold State.conclude; split <;> simp
@[simp] theorem State.conclude_txlogOf (s : State) (st : BusStatus) (c : BusId) :
    (s.conclude st).txlogOf c = s.txlogOf c := by 
  unfold State.conclude; split <;> simp
@[simp] theorem State.conclude_i2clogOf (s : State) (st : BusStatus) (c : BusId) :
    (s.conclude st).i2clogOf c = s.i2clogOf c := by 
  unfold State.conclude; split <;> simp
@[simp] theorem State.conclude_spilogOf (s : State) (st : BusStatus) (c : BusId) :
    (s.conclude st).spilogOf c = s.spilogOf c := by 
  unfold State.conclude; split <;> simp
@[simp] theorem State.conclude_devOpt (s : State) (st : BusStatus) (e : DevId) :
    (s.conclude st).dev? e = s.dev? e := by 
  unfold State.conclude; split <;> simp
@[simp] theorem State.conclude_busCfgOpt (s : State) (st : BusStatus) (c : BusId) :
    (s.conclude st).busCfg? c = s.busCfg? c := by 
  unfold State.conclude; split <;> simp
@[simp] theorem State.conclude_busIs (s : State) (st : BusStatus) (c : BusId) (k : TransportKind) :
    (s.conclude st).busIs c k = s.busIs c k := by 
  unfold State.conclude; split <;> simp
@[simp] theorem State.conclude_busTxOnly (s : State) (st : BusStatus) (c : BusId) :
    (s.conclude st).busTxOnly c = s.busTxOnly c := by 
  unfold State.conclude; split <;> simp
@[simp] theorem State.conclude_defaultTimeout (s : State) (st : BusStatus) (c : BusId) :
    (s.conclude st).defaultTimeout c = s.defaultTimeout c := by 
  unfold State.conclude; split <;> simp
@[simp] theorem State.conclude_hasCs (s : State) (st : BusStatus) (e : DevId) :
    (s.conclude st).hasCs e = s.hasCs e := by 
  unfold State.conclude; split <;> simp
@[simp] theorem State.conclude_owns (s : State) (st : BusStatus) (c : BusId) (e : DevId) :
    (s.conclude st).owns c e = s.owns c e := by 
  unfold State.conclude; split <;> simp
@[simp] theorem State.conclude_isHandler (s : State) (st : BusStatus) (c : BusId) (e : DevId) :
    (s.conclude st).isHandler c e = s.isHandler c e := by 
  unfold State.conclude; split <;> simp
@[simp] theorem State.conclude_rxEnabled (s : State) (st : BusStatus) (c : BusId) :
    (s.conclude st).rxEnabled c = s.rxEnabled c := by 
  unfold State.conclude; split <;> simp

/-- `conclude` writes the response, lets time pass, and keeps `RBUF` only if the status is `Ok` (R45). -/
theorem State.conclude_cases (s : State) (st : BusStatus) :
    (st = .ok ∧ s.conclude st = s.drift.respond .ok false 0) ∨ (st ≠ .ok ∧ s.conclude st = s.drift.raise st) := by
  by_cases h : st = .ok <;> simp [State.conclude, h]

@[simp] theorem State.conclude_resp (s : State) (st : BusStatus) : (s.conclude st).resp = respWord st false 0 := by
  unfold State.conclude; split <;> simp_all

@[simp] theorem State.conclude_busy (s : State) (st : BusStatus) : (s.conclude st).busy = false := by
  unfold State.conclude; split <;> simp

@[simp] theorem State.conclude_now (s : State) (st : BusStatus) : (s.conclude st).now = s.drift.now := by
  unfold State.conclude; split <;> simp

@[simp] theorem State.conclude_env (s : State) (st : BusStatus) : (s.conclude st).env = s.drift.env := by
  unfold State.conclude; split <;> simp

@[simp] theorem State.conclude_rbufByte (s : State) (i : Nat) : (s.conclude .ok).rbufByte i = s.rbufByte i := by
  simp [State.conclude]

/-! ## `ACQUIRE` steps 3 to 5 -/

@[simp] theorem State.acquireFree_cfg (s : State) (d : DevId) (dc : DevCfg) :
    (s.acquireFree d dc).cfg = s.cfg := by 
  unfold State.acquireFree; simp only []; split <;> simp [State.take, State.arm]
@[simp] theorem State.acquireFree_cmd (s : State) (d : DevId) (dc : DevCfg) :
    (s.acquireFree d dc).cmd = s.cmd := by 
  unfold State.acquireFree; simp only []; split <;> simp [State.take, State.arm]
@[simp] theorem State.acquireFree_wbuf (s : State) (d : DevId) (dc : DevCfg) :
    (s.acquireFree d dc).wbuf = s.wbuf := by 
  unfold State.acquireFree; simp only []; split <;> simp [State.take, State.arm]
@[simp] theorem State.acquireFree_handlers (s : State) (d : DevId) (dc : DevCfg) :
    (s.acquireFree d dc).handlers = s.handlers := by 
  unfold State.acquireFree; simp only []; split <;> simp [State.take, State.arm]
@[simp] theorem State.acquireFree_txlog (s : State) (d : DevId) (dc : DevCfg) :
    (s.acquireFree d dc).txlog = s.txlog := by 
  unfold State.acquireFree; simp only []; split <;> simp [State.take, State.arm]
@[simp] theorem State.acquireFree_i2clog (s : State) (d : DevId) (dc : DevCfg) :
    (s.acquireFree d dc).i2clog = s.i2clog := by 
  unfold State.acquireFree; simp only []; split <;> simp [State.take, State.arm]
@[simp] theorem State.acquireFree_spilog (s : State) (d : DevId) (dc : DevCfg) :
    (s.acquireFree d dc).spilog = s.spilog := by 
  unfold State.acquireFree; simp only []; split <;> simp [State.take, State.arm]
@[simp] theorem State.acquireFree_inputs (s : State) (d : DevId) (dc : DevCfg) :
    (s.acquireFree d dc).inputs = s.inputs := by 
  unfold State.acquireFree; simp only []; split <;> simp [State.take, State.arm]
@[simp] theorem State.acquireFree_handler (s : State) (d : DevId) (dc : DevCfg) (c : BusId) :
    (s.acquireFree d dc).handler c = s.handler c := by 
  unfold State.acquireFree; simp only []; split <;> simp [State.take, State.arm]
@[simp] theorem State.acquireFree_txlogOf (s : State) (d : DevId) (dc : DevCfg) (c : BusId) :
    (s.acquireFree d dc).txlogOf c = s.txlogOf c := by 
  unfold State.acquireFree; simp only []; split <;> simp [State.take, State.arm]
@[simp] theorem State.acquireFree_i2clogOf (s : State) (d : DevId) (dc : DevCfg) (c : BusId) :
    (s.acquireFree d dc).i2clogOf c = s.i2clogOf c := by 
  unfold State.acquireFree; simp only []; split <;> simp [State.take, State.arm]
@[simp] theorem State.acquireFree_spilogOf (s : State) (d : DevId) (dc : DevCfg) (c : BusId) :
    (s.acquireFree d dc).spilogOf c = s.spilogOf c := by 
  unfold State.acquireFree; simp only []; split <;> simp [State.take, State.arm]
@[simp] theorem State.acquireFree_devOpt (s : State) (d : DevId) (dc : DevCfg) (e : DevId) :
    (s.acquireFree d dc).dev? e = s.dev? e := by 
  unfold State.acquireFree; simp only []; split <;> simp [State.take, State.arm]
@[simp] theorem State.acquireFree_busCfgOpt (s : State) (d : DevId) (dc : DevCfg) (c : BusId) :
    (s.acquireFree d dc).busCfg? c = s.busCfg? c := by 
  unfold State.acquireFree; simp only []; split <;> simp [State.take, State.arm]
@[simp] theorem State.acquireFree_busIs (s : State) (d : DevId) (dc : DevCfg) (c : BusId) (k : TransportKind) :
    (s.acquireFree d dc).busIs c k = s.busIs c k := by 
  unfold State.acquireFree; simp only []; split <;> simp [State.take, State.arm]
@[simp] theorem State.acquireFree_busTxOnly (s : State) (d : DevId) (dc : DevCfg) (c : BusId) :
    (s.acquireFree d dc).busTxOnly c = s.busTxOnly c := by 
  unfold State.acquireFree; simp only []; split <;> simp [State.take, State.arm]
@[simp] theorem State.acquireFree_defaultTimeout (s : State) (d : DevId) (dc : DevCfg) (c : BusId) :
    (s.acquireFree d dc).defaultTimeout c = s.defaultTimeout c := by 
  unfold State.acquireFree; simp only []; split <;> simp [State.take, State.arm]
@[simp] theorem State.acquireFree_hasCs (s : State) (d : DevId) (dc : DevCfg) (e : DevId) :
    (s.acquireFree d dc).hasCs e = s.hasCs e := by 
  unfold State.acquireFree; simp only []; split <;> simp [State.take, State.arm]
@[simp] theorem State.acquireFree_isHandler (s : State) (d : DevId) (dc : DevCfg) (c : BusId) (e : DevId) :
    (s.acquireFree d dc).isHandler c e = s.isHandler c e := by 
  unfold State.acquireFree; simp only []; split <;> simp [State.take, State.arm]

/-! ## The I2C engine (R117) -/

@[simp] theorem State.i2cXfer_cfg (s : State) (dc : DevCfg) (w : List Byte) (n : Nat) :
    ((s.i2cXfer dc w n).state).cfg = s.cfg := by simp [State.i2cXfer]
@[simp] theorem State.i2cXfer_busy (s : State) (dc : DevCfg) (w : List Byte) (n : Nat) :
    ((s.i2cXfer dc w n).state).busy = s.busy := by simp [State.i2cXfer]
@[simp] theorem State.i2cXfer_cmd (s : State) (dc : DevCfg) (w : List Byte) (n : Nat) :
    ((s.i2cXfer dc w n).state).cmd = s.cmd := by simp [State.i2cXfer]
@[simp] theorem State.i2cXfer_resp (s : State) (dc : DevCfg) (w : List Byte) (n : Nat) :
    ((s.i2cXfer dc w n).state).resp = s.resp := by simp [State.i2cXfer]
@[simp] theorem State.i2cXfer_wbuf (s : State) (dc : DevCfg) (w : List Byte) (n : Nat) :
    ((s.i2cXfer dc w n).state).wbuf = s.wbuf := by simp [State.i2cXfer]
@[simp] theorem State.i2cXfer_rbuf (s : State) (dc : DevCfg) (w : List Byte) (n : Nat) :
    ((s.i2cXfer dc w n).state).rbuf = s.rbuf := by simp [State.i2cXfer]
@[simp] theorem State.i2cXfer_rbufValid (s : State) (dc : DevCfg) (w : List Byte) (n : Nat) :
    ((s.i2cXfer dc w n).state).rbufValid = s.rbufValid := by simp [State.i2cXfer]
@[simp] theorem State.i2cXfer_rbufFree (s : State) (dc : DevCfg) (w : List Byte) (n : Nat) :
    ((s.i2cXfer dc w n).state).rbufFree = s.rbufFree := by simp [State.i2cXfer]
@[simp] theorem State.i2cXfer_buses (s : State) (dc : DevCfg) (w : List Byte) (n : Nat) :
    ((s.i2cXfer dc w n).state).buses = s.buses := by simp [State.i2cXfer]
@[simp] theorem State.i2cXfer_cs (s : State) (dc : DevCfg) (w : List Byte) (n : Nat) :
    ((s.i2cXfer dc w n).state).cs = s.cs := by simp [State.i2cXfer]
@[simp] theorem State.i2cXfer_handlers (s : State) (dc : DevCfg) (w : List Byte) (n : Nat) :
    ((s.i2cXfer dc w n).state).handlers = s.handlers := by simp [State.i2cXfer]
@[simp] theorem State.i2cXfer_txlog (s : State) (dc : DevCfg) (w : List Byte) (n : Nat) :
    ((s.i2cXfer dc w n).state).txlog = s.txlog := by simp [State.i2cXfer]
@[simp] theorem State.i2cXfer_spilog (s : State) (dc : DevCfg) (w : List Byte) (n : Nat) :
    ((s.i2cXfer dc w n).state).spilog = s.spilog := by simp [State.i2cXfer]
@[simp] theorem State.i2cXfer_inputs (s : State) (dc : DevCfg) (w : List Byte) (n : Nat) :
    ((s.i2cXfer dc w n).state).inputs = s.inputs := by simp [State.i2cXfer]
@[simp] theorem State.i2cXfer_bus (s : State) (dc : DevCfg) (w : List Byte) (n : Nat) (c : BusId) :
    ((s.i2cXfer dc w n).state).bus c = s.bus c := by simp [State.i2cXfer]
@[simp] theorem State.i2cXfer_csOf (s : State) (dc : DevCfg) (w : List Byte) (n : Nat) (e : DevId) :
    ((s.i2cXfer dc w n).state).csOf e = s.csOf e := by simp [State.i2cXfer]
@[simp] theorem State.i2cXfer_handler (s : State) (dc : DevCfg) (w : List Byte) (n : Nat) (c : BusId) :
    ((s.i2cXfer dc w n).state).handler c = s.handler c := by simp [State.i2cXfer]
@[simp] theorem State.i2cXfer_txlogOf (s : State) (dc : DevCfg) (w : List Byte) (n : Nat) (c : BusId) :
    ((s.i2cXfer dc w n).state).txlogOf c = s.txlogOf c := by simp [State.i2cXfer]
@[simp] theorem State.i2cXfer_spilogOf (s : State) (dc : DevCfg) (w : List Byte) (n : Nat) (c : BusId) :
    ((s.i2cXfer dc w n).state).spilogOf c = s.spilogOf c := by simp [State.i2cXfer]
@[simp] theorem State.i2cXfer_rbufByte (s : State) (dc : DevCfg) (w : List Byte) (n : Nat) (i : Nat) :
    ((s.i2cXfer dc w n).state).rbufByte i = s.rbufByte i := by simp [State.i2cXfer]
@[simp] theorem State.i2cXfer_devOpt (s : State) (dc : DevCfg) (w : List Byte) (n : Nat) (e : DevId) :
    ((s.i2cXfer dc w n).state).dev? e = s.dev? e := by simp [State.i2cXfer]
@[simp] theorem State.i2cXfer_busCfgOpt (s : State) (dc : DevCfg) (w : List Byte) (n : Nat) (c : BusId) :
    ((s.i2cXfer dc w n).state).busCfg? c = s.busCfg? c := by simp [State.i2cXfer]
@[simp] theorem State.i2cXfer_busIs (s : State) (dc : DevCfg) (w : List Byte) (n : Nat) (c : BusId) (k : TransportKind) :
    ((s.i2cXfer dc w n).state).busIs c k = s.busIs c k := by simp [State.i2cXfer]
@[simp] theorem State.i2cXfer_busTxOnly (s : State) (dc : DevCfg) (w : List Byte) (n : Nat) (c : BusId) :
    ((s.i2cXfer dc w n).state).busTxOnly c = s.busTxOnly c := by simp [State.i2cXfer]
@[simp] theorem State.i2cXfer_defaultTimeout (s : State) (dc : DevCfg) (w : List Byte) (n : Nat) (c : BusId) :
    ((s.i2cXfer dc w n).state).defaultTimeout c = s.defaultTimeout c := by simp [State.i2cXfer]
@[simp] theorem State.i2cXfer_hasCs (s : State) (dc : DevCfg) (w : List Byte) (n : Nat) (e : DevId) :
    ((s.i2cXfer dc w n).state).hasCs e = s.hasCs e := by simp [State.i2cXfer]
@[simp] theorem State.i2cXfer_owns (s : State) (dc : DevCfg) (w : List Byte) (n : Nat) (c : BusId) (e : DevId) :
    ((s.i2cXfer dc w n).state).owns c e = s.owns c e := by simp [State.i2cXfer]
@[simp] theorem State.i2cXfer_isHandler (s : State) (dc : DevCfg) (w : List Byte) (n : Nat) (c : BusId) (e : DevId) :
    ((s.i2cXfer dc w n).state).isHandler c e = s.isHandler c e := by simp [State.i2cXfer]
@[simp] theorem State.i2cXfer_rxEnabled (s : State) (dc : DevCfg) (w : List Byte) (n : Nat) (c : BusId) :
    ((s.i2cXfer dc w n).state).rxEnabled c = s.rxEnabled c := by simp [State.i2cXfer]

/-! ## The SPI engine (R127) -/

@[simp] theorem State.spiShift_cfg (b : BusId) (d : DevId) (n : Nat) : ∀ (s : State) (w : List Byte) (k : Nat),
    (s.spiShift b d n w k).2.cfg = s.cfg := by
  induction n with
  | zero => intro s w k; rfl
  | succ n ih => intro s w k; simp [State.spiShift, ih]
@[simp] theorem State.spiShift_busy (b : BusId) (d : DevId) (n : Nat) : ∀ (s : State) (w : List Byte) (k : Nat),
    (s.spiShift b d n w k).2.busy = s.busy := by
  induction n with
  | zero => intro s w k; rfl
  | succ n ih => intro s w k; simp [State.spiShift, ih]
@[simp] theorem State.spiShift_cmd (b : BusId) (d : DevId) (n : Nat) : ∀ (s : State) (w : List Byte) (k : Nat),
    (s.spiShift b d n w k).2.cmd = s.cmd := by
  induction n with
  | zero => intro s w k; rfl
  | succ n ih => intro s w k; simp [State.spiShift, ih]
@[simp] theorem State.spiShift_resp (b : BusId) (d : DevId) (n : Nat) : ∀ (s : State) (w : List Byte) (k : Nat),
    (s.spiShift b d n w k).2.resp = s.resp := by
  induction n with
  | zero => intro s w k; rfl
  | succ n ih => intro s w k; simp [State.spiShift, ih]
@[simp] theorem State.spiShift_wbuf (b : BusId) (d : DevId) (n : Nat) : ∀ (s : State) (w : List Byte) (k : Nat),
    (s.spiShift b d n w k).2.wbuf = s.wbuf := by
  induction n with
  | zero => intro s w k; rfl
  | succ n ih => intro s w k; simp [State.spiShift, ih]
@[simp] theorem State.spiShift_rbuf (b : BusId) (d : DevId) (n : Nat) : ∀ (s : State) (w : List Byte) (k : Nat),
    (s.spiShift b d n w k).2.rbuf = s.rbuf := by
  induction n with
  | zero => intro s w k; rfl
  | succ n ih => intro s w k; simp [State.spiShift, ih]
@[simp] theorem State.spiShift_rbufValid (b : BusId) (d : DevId) (n : Nat) : ∀ (s : State) (w : List Byte) (k : Nat),
    (s.spiShift b d n w k).2.rbufValid = s.rbufValid := by
  induction n with
  | zero => intro s w k; rfl
  | succ n ih => intro s w k; simp [State.spiShift, ih]
@[simp] theorem State.spiShift_rbufFree (b : BusId) (d : DevId) (n : Nat) : ∀ (s : State) (w : List Byte) (k : Nat),
    (s.spiShift b d n w k).2.rbufFree = s.rbufFree := by
  induction n with
  | zero => intro s w k; rfl
  | succ n ih => intro s w k; simp [State.spiShift, ih]
@[simp] theorem State.spiShift_buses (b : BusId) (d : DevId) (n : Nat) : ∀ (s : State) (w : List Byte) (k : Nat),
    (s.spiShift b d n w k).2.buses = s.buses := by
  induction n with
  | zero => intro s w k; rfl
  | succ n ih => intro s w k; simp [State.spiShift, ih]
@[simp] theorem State.spiShift_cs (b : BusId) (d : DevId) (n : Nat) : ∀ (s : State) (w : List Byte) (k : Nat),
    (s.spiShift b d n w k).2.cs = s.cs := by
  induction n with
  | zero => intro s w k; rfl
  | succ n ih => intro s w k; simp [State.spiShift, ih]
@[simp] theorem State.spiShift_handlers (b : BusId) (d : DevId) (n : Nat) : ∀ (s : State) (w : List Byte) (k : Nat),
    (s.spiShift b d n w k).2.handlers = s.handlers := by
  induction n with
  | zero => intro s w k; rfl
  | succ n ih => intro s w k; simp [State.spiShift, ih]
@[simp] theorem State.spiShift_txlog (b : BusId) (d : DevId) (n : Nat) : ∀ (s : State) (w : List Byte) (k : Nat),
    (s.spiShift b d n w k).2.txlog = s.txlog := by
  induction n with
  | zero => intro s w k; rfl
  | succ n ih => intro s w k; simp [State.spiShift, ih]
@[simp] theorem State.spiShift_i2clog (b : BusId) (d : DevId) (n : Nat) : ∀ (s : State) (w : List Byte) (k : Nat),
    (s.spiShift b d n w k).2.i2clog = s.i2clog := by
  induction n with
  | zero => intro s w k; rfl
  | succ n ih => intro s w k; simp [State.spiShift, ih]
@[simp] theorem State.spiShift_inputs (b : BusId) (d : DevId) (n : Nat) : ∀ (s : State) (w : List Byte) (k : Nat),
    (s.spiShift b d n w k).2.inputs = s.inputs := by
  induction n with
  | zero => intro s w k; rfl
  | succ n ih => intro s w k; simp [State.spiShift, ih]
@[simp] theorem State.spiShift_bus (b : BusId) (d : DevId) (c : BusId) (m : Nat) : ∀ (s : State) (w : List Byte) (j : Nat),
    (s.spiShift b d m w j).2.bus c = s.bus c := by
  induction m with
  | zero => intro s w j; rfl
  | succ m ih => intro s w j; simp [State.spiShift, ih]
@[simp] theorem State.spiShift_csOf (b : BusId) (d : DevId) (e : DevId) (m : Nat) : ∀ (s : State) (w : List Byte) (j : Nat),
    (s.spiShift b d m w j).2.csOf e = s.csOf e := by
  induction m with
  | zero => intro s w j; rfl
  | succ m ih => intro s w j; simp [State.spiShift, ih]
@[simp] theorem State.spiShift_handler (b : BusId) (d : DevId) (c : BusId) (m : Nat) : ∀ (s : State) (w : List Byte) (j : Nat),
    (s.spiShift b d m w j).2.handler c = s.handler c := by
  induction m with
  | zero => intro s w j; rfl
  | succ m ih => intro s w j; simp [State.spiShift, ih]
@[simp] theorem State.spiShift_txlogOf (b : BusId) (d : DevId) (c : BusId) (m : Nat) : ∀ (s : State) (w : List Byte) (j : Nat),
    (s.spiShift b d m w j).2.txlogOf c = s.txlogOf c := by
  induction m with
  | zero => intro s w j; rfl
  | succ m ih => intro s w j; simp [State.spiShift, ih]
@[simp] theorem State.spiShift_i2clogOf (b : BusId) (d : DevId) (c : BusId) (m : Nat) : ∀ (s : State) (w : List Byte) (j : Nat),
    (s.spiShift b d m w j).2.i2clogOf c = s.i2clogOf c := by
  induction m with
  | zero => intro s w j; rfl
  | succ m ih => intro s w j; simp [State.spiShift, ih]
@[simp] theorem State.spiShift_rbufByte (b : BusId) (d : DevId) (i : Nat) (m : Nat) : ∀ (s : State) (w : List Byte) (j : Nat),
    (s.spiShift b d m w j).2.rbufByte i = s.rbufByte i := by
  induction m with
  | zero => intro s w j; rfl
  | succ m ih => intro s w j; simp [State.spiShift, ih]
@[simp] theorem State.spiShift_devOpt (b : BusId) (d : DevId) (e : DevId) (m : Nat) : ∀ (s : State) (w : List Byte) (j : Nat),
    (s.spiShift b d m w j).2.dev? e = s.dev? e := by
  induction m with
  | zero => intro s w j; rfl
  | succ m ih => intro s w j; simp [State.spiShift, ih]
@[simp] theorem State.spiShift_busCfgOpt (b : BusId) (d : DevId) (c : BusId) (m : Nat) : ∀ (s : State) (w : List Byte) (j : Nat),
    (s.spiShift b d m w j).2.busCfg? c = s.busCfg? c := by
  induction m with
  | zero => intro s w j; rfl
  | succ m ih => intro s w j; simp [State.spiShift, ih]
@[simp] theorem State.spiShift_busIs (b : BusId) (d : DevId) (c : BusId) (k : TransportKind) (m : Nat) : ∀ (s : State) (w : List Byte) (j : Nat),
    (s.spiShift b d m w j).2.busIs c k = s.busIs c k := by
  induction m with
  | zero => intro s w j; rfl
  | succ m ih => intro s w j; simp [State.spiShift, ih]
@[simp] theorem State.spiShift_busTxOnly (b : BusId) (d : DevId) (c : BusId) (m : Nat) : ∀ (s : State) (w : List Byte) (j : Nat),
    (s.spiShift b d m w j).2.busTxOnly c = s.busTxOnly c := by
  induction m with
  | zero => intro s w j; rfl
  | succ m ih => intro s w j; simp [State.spiShift, ih]
@[simp] theorem State.spiShift_defaultTimeout (b : BusId) (d : DevId) (c : BusId) (m : Nat) : ∀ (s : State) (w : List Byte) (j : Nat),
    (s.spiShift b d m w j).2.defaultTimeout c = s.defaultTimeout c := by
  induction m with
  | zero => intro s w j; rfl
  | succ m ih => intro s w j; simp [State.spiShift, ih]
@[simp] theorem State.spiShift_hasCs (b : BusId) (d : DevId) (e : DevId) (m : Nat) : ∀ (s : State) (w : List Byte) (j : Nat),
    (s.spiShift b d m w j).2.hasCs e = s.hasCs e := by
  induction m with
  | zero => intro s w j; rfl
  | succ m ih => intro s w j; simp [State.spiShift, ih]
@[simp] theorem State.spiShift_owns (b : BusId) (d : DevId) (c : BusId) (e : DevId) (m : Nat) : ∀ (s : State) (w : List Byte) (j : Nat),
    (s.spiShift b d m w j).2.owns c e = s.owns c e := by
  induction m with
  | zero => intro s w j; rfl
  | succ m ih => intro s w j; simp [State.spiShift, ih]
@[simp] theorem State.spiShift_isHandler (b : BusId) (d : DevId) (c : BusId) (e : DevId) (m : Nat) : ∀ (s : State) (w : List Byte) (j : Nat),
    (s.spiShift b d m w j).2.isHandler c e = s.isHandler c e := by
  induction m with
  | zero => intro s w j; rfl
  | succ m ih => intro s w j; simp [State.spiShift, ih]
@[simp] theorem State.spiShift_rxEnabled (b : BusId) (d : DevId) (c : BusId) (m : Nat) : ∀ (s : State) (w : List Byte) (j : Nat),
    (s.spiShift b d m w j).2.rxEnabled c = s.rxEnabled c := by
  induction m with
  | zero => intro s w j; rfl
  | succ m ih => intro s w j; simp [State.spiShift, ih]

/-! ## The SPI transfer -/

@[simp] theorem State.spiXfer_cfg (s : State) (d : DevId) (dc : DevCfg) (w : List Byte) (n : Nat) :
    ((s.spiXfer d dc w n).state).cfg = s.cfg := by simp [State.spiXfer]
@[simp] theorem State.spiXfer_busy (s : State) (d : DevId) (dc : DevCfg) (w : List Byte) (n : Nat) :
    ((s.spiXfer d dc w n).state).busy = s.busy := by simp [State.spiXfer]
@[simp] theorem State.spiXfer_cmd (s : State) (d : DevId) (dc : DevCfg) (w : List Byte) (n : Nat) :
    ((s.spiXfer d dc w n).state).cmd = s.cmd := by simp [State.spiXfer]
@[simp] theorem State.spiXfer_resp (s : State) (d : DevId) (dc : DevCfg) (w : List Byte) (n : Nat) :
    ((s.spiXfer d dc w n).state).resp = s.resp := by simp [State.spiXfer]
@[simp] theorem State.spiXfer_wbuf (s : State) (d : DevId) (dc : DevCfg) (w : List Byte) (n : Nat) :
    ((s.spiXfer d dc w n).state).wbuf = s.wbuf := by simp [State.spiXfer]
@[simp] theorem State.spiXfer_rbuf (s : State) (d : DevId) (dc : DevCfg) (w : List Byte) (n : Nat) :
    ((s.spiXfer d dc w n).state).rbuf = s.rbuf := by simp [State.spiXfer]
@[simp] theorem State.spiXfer_rbufValid (s : State) (d : DevId) (dc : DevCfg) (w : List Byte) (n : Nat) :
    ((s.spiXfer d dc w n).state).rbufValid = s.rbufValid := by simp [State.spiXfer]
@[simp] theorem State.spiXfer_rbufFree (s : State) (d : DevId) (dc : DevCfg) (w : List Byte) (n : Nat) :
    ((s.spiXfer d dc w n).state).rbufFree = s.rbufFree := by simp [State.spiXfer]
@[simp] theorem State.spiXfer_buses (s : State) (d : DevId) (dc : DevCfg) (w : List Byte) (n : Nat) :
    ((s.spiXfer d dc w n).state).buses = s.buses := by simp [State.spiXfer]
@[simp] theorem State.spiXfer_cs (s : State) (d : DevId) (dc : DevCfg) (w : List Byte) (n : Nat) :
    ((s.spiXfer d dc w n).state).cs = s.cs := by simp [State.spiXfer]
@[simp] theorem State.spiXfer_handlers (s : State) (d : DevId) (dc : DevCfg) (w : List Byte) (n : Nat) :
    ((s.spiXfer d dc w n).state).handlers = s.handlers := by simp [State.spiXfer]
@[simp] theorem State.spiXfer_txlog (s : State) (d : DevId) (dc : DevCfg) (w : List Byte) (n : Nat) :
    ((s.spiXfer d dc w n).state).txlog = s.txlog := by simp [State.spiXfer]
@[simp] theorem State.spiXfer_i2clog (s : State) (d : DevId) (dc : DevCfg) (w : List Byte) (n : Nat) :
    ((s.spiXfer d dc w n).state).i2clog = s.i2clog := by simp [State.spiXfer]
@[simp] theorem State.spiXfer_inputs (s : State) (d : DevId) (dc : DevCfg) (w : List Byte) (n : Nat) :
    ((s.spiXfer d dc w n).state).inputs = s.inputs := by simp [State.spiXfer]
@[simp] theorem State.spiXfer_bus (s : State) (d : DevId) (dc : DevCfg) (w : List Byte) (n : Nat) (c : BusId) :
    ((s.spiXfer d dc w n).state).bus c = s.bus c := by simp [State.spiXfer]
@[simp] theorem State.spiXfer_csOf (s : State) (d : DevId) (dc : DevCfg) (w : List Byte) (n : Nat) (e : DevId) :
    ((s.spiXfer d dc w n).state).csOf e = s.csOf e := by simp [State.spiXfer]
@[simp] theorem State.spiXfer_handler (s : State) (d : DevId) (dc : DevCfg) (w : List Byte) (n : Nat) (c : BusId) :
    ((s.spiXfer d dc w n).state).handler c = s.handler c := by simp [State.spiXfer]
@[simp] theorem State.spiXfer_txlogOf (s : State) (d : DevId) (dc : DevCfg) (w : List Byte) (n : Nat) (c : BusId) :
    ((s.spiXfer d dc w n).state).txlogOf c = s.txlogOf c := by simp [State.spiXfer]
@[simp] theorem State.spiXfer_i2clogOf (s : State) (d : DevId) (dc : DevCfg) (w : List Byte) (n : Nat) (c : BusId) :
    ((s.spiXfer d dc w n).state).i2clogOf c = s.i2clogOf c := by simp [State.spiXfer]
@[simp] theorem State.spiXfer_rbufByte (s : State) (d : DevId) (dc : DevCfg) (w : List Byte) (n : Nat) (i : Nat) :
    ((s.spiXfer d dc w n).state).rbufByte i = s.rbufByte i := by simp [State.spiXfer]
@[simp] theorem State.spiXfer_devOpt (s : State) (d : DevId) (dc : DevCfg) (w : List Byte) (n : Nat) (e : DevId) :
    ((s.spiXfer d dc w n).state).dev? e = s.dev? e := by simp [State.spiXfer]
@[simp] theorem State.spiXfer_busCfgOpt (s : State) (d : DevId) (dc : DevCfg) (w : List Byte) (n : Nat) (c : BusId) :
    ((s.spiXfer d dc w n).state).busCfg? c = s.busCfg? c := by simp [State.spiXfer]
@[simp] theorem State.spiXfer_busIs (s : State) (d : DevId) (dc : DevCfg) (w : List Byte) (n : Nat) (c : BusId) (k : TransportKind) :
    ((s.spiXfer d dc w n).state).busIs c k = s.busIs c k := by simp [State.spiXfer]
@[simp] theorem State.spiXfer_busTxOnly (s : State) (d : DevId) (dc : DevCfg) (w : List Byte) (n : Nat) (c : BusId) :
    ((s.spiXfer d dc w n).state).busTxOnly c = s.busTxOnly c := by simp [State.spiXfer]
@[simp] theorem State.spiXfer_defaultTimeout (s : State) (d : DevId) (dc : DevCfg) (w : List Byte) (n : Nat) (c : BusId) :
    ((s.spiXfer d dc w n).state).defaultTimeout c = s.defaultTimeout c := by simp [State.spiXfer]
@[simp] theorem State.spiXfer_hasCs (s : State) (d : DevId) (dc : DevCfg) (w : List Byte) (n : Nat) (e : DevId) :
    ((s.spiXfer d dc w n).state).hasCs e = s.hasCs e := by simp [State.spiXfer]
@[simp] theorem State.spiXfer_owns (s : State) (d : DevId) (dc : DevCfg) (w : List Byte) (n : Nat) (c : BusId) (e : DevId) :
    ((s.spiXfer d dc w n).state).owns c e = s.owns c e := by simp [State.spiXfer]
@[simp] theorem State.spiXfer_isHandler (s : State) (d : DevId) (dc : DevCfg) (w : List Byte) (n : Nat) (c : BusId) (e : DevId) :
    ((s.spiXfer d dc w n).state).isHandler c e = s.isHandler c e := by simp [State.spiXfer]
@[simp] theorem State.spiXfer_rxEnabled (s : State) (d : DevId) (dc : DevCfg) (w : List Byte) (n : Nat) (c : BusId) :
    ((s.spiXfer d dc w n).state).rxEnabled c = s.rxEnabled c := by simp [State.spiXfer]

/-! ## The UART write phase (R134) -/

@[simp] theorem State.uartWrite_cfg (s : State) (dc : DevCfg) (w : List Byte) :
    ((s.uartWrite dc w).2).cfg = s.cfg := by 
  unfold State.uartWrite; simp only []; split <;> simp
@[simp] theorem State.uartWrite_busy (s : State) (dc : DevCfg) (w : List Byte) :
    ((s.uartWrite dc w).2).busy = s.busy := by 
  unfold State.uartWrite; simp only []; split <;> simp
@[simp] theorem State.uartWrite_cmd (s : State) (dc : DevCfg) (w : List Byte) :
    ((s.uartWrite dc w).2).cmd = s.cmd := by 
  unfold State.uartWrite; simp only []; split <;> simp
@[simp] theorem State.uartWrite_resp (s : State) (dc : DevCfg) (w : List Byte) :
    ((s.uartWrite dc w).2).resp = s.resp := by 
  unfold State.uartWrite; simp only []; split <;> simp
@[simp] theorem State.uartWrite_wbuf (s : State) (dc : DevCfg) (w : List Byte) :
    ((s.uartWrite dc w).2).wbuf = s.wbuf := by 
  unfold State.uartWrite; simp only []; split <;> simp
@[simp] theorem State.uartWrite_rbuf (s : State) (dc : DevCfg) (w : List Byte) :
    ((s.uartWrite dc w).2).rbuf = s.rbuf := by 
  unfold State.uartWrite; simp only []; split <;> simp
@[simp] theorem State.uartWrite_rbufValid (s : State) (dc : DevCfg) (w : List Byte) :
    ((s.uartWrite dc w).2).rbufValid = s.rbufValid := by 
  unfold State.uartWrite; simp only []; split <;> simp
@[simp] theorem State.uartWrite_rbufFree (s : State) (dc : DevCfg) (w : List Byte) :
    ((s.uartWrite dc w).2).rbufFree = s.rbufFree := by 
  unfold State.uartWrite; simp only []; split <;> simp
@[simp] theorem State.uartWrite_buses (s : State) (dc : DevCfg) (w : List Byte) :
    ((s.uartWrite dc w).2).buses = s.buses := by 
  unfold State.uartWrite; simp only []; split <;> simp
@[simp] theorem State.uartWrite_cs (s : State) (dc : DevCfg) (w : List Byte) :
    ((s.uartWrite dc w).2).cs = s.cs := by 
  unfold State.uartWrite; simp only []; split <;> simp
@[simp] theorem State.uartWrite_handlers (s : State) (dc : DevCfg) (w : List Byte) :
    ((s.uartWrite dc w).2).handlers = s.handlers := by 
  unfold State.uartWrite; simp only []; split <;> simp
@[simp] theorem State.uartWrite_i2clog (s : State) (dc : DevCfg) (w : List Byte) :
    ((s.uartWrite dc w).2).i2clog = s.i2clog := by 
  unfold State.uartWrite; simp only []; split <;> simp
@[simp] theorem State.uartWrite_spilog (s : State) (dc : DevCfg) (w : List Byte) :
    ((s.uartWrite dc w).2).spilog = s.spilog := by 
  unfold State.uartWrite; simp only []; split <;> simp
@[simp] theorem State.uartWrite_inputs (s : State) (dc : DevCfg) (w : List Byte) :
    ((s.uartWrite dc w).2).inputs = s.inputs := by 
  unfold State.uartWrite; simp only []; split <;> simp
@[simp] theorem State.uartWrite_bus (s : State) (dc : DevCfg) (w : List Byte) (c : BusId) :
    ((s.uartWrite dc w).2).bus c = s.bus c := by 
  unfold State.uartWrite; simp only []; split <;> simp
@[simp] theorem State.uartWrite_csOf (s : State) (dc : DevCfg) (w : List Byte) (e : DevId) :
    ((s.uartWrite dc w).2).csOf e = s.csOf e := by 
  unfold State.uartWrite; simp only []; split <;> simp
@[simp] theorem State.uartWrite_handler (s : State) (dc : DevCfg) (w : List Byte) (c : BusId) :
    ((s.uartWrite dc w).2).handler c = s.handler c := by 
  unfold State.uartWrite; simp only []; split <;> simp
@[simp] theorem State.uartWrite_i2clogOf (s : State) (dc : DevCfg) (w : List Byte) (c : BusId) :
    ((s.uartWrite dc w).2).i2clogOf c = s.i2clogOf c := by 
  unfold State.uartWrite; simp only []; split <;> simp
@[simp] theorem State.uartWrite_spilogOf (s : State) (dc : DevCfg) (w : List Byte) (c : BusId) :
    ((s.uartWrite dc w).2).spilogOf c = s.spilogOf c := by 
  unfold State.uartWrite; simp only []; split <;> simp
@[simp] theorem State.uartWrite_rbufByte (s : State) (dc : DevCfg) (w : List Byte) (i : Nat) :
    ((s.uartWrite dc w).2).rbufByte i = s.rbufByte i := by 
  unfold State.uartWrite; simp only []; split <;> simp
@[simp] theorem State.uartWrite_devOpt (s : State) (dc : DevCfg) (w : List Byte) (e : DevId) :
    ((s.uartWrite dc w).2).dev? e = s.dev? e := by 
  unfold State.uartWrite; simp only []; split <;> simp
@[simp] theorem State.uartWrite_busCfgOpt (s : State) (dc : DevCfg) (w : List Byte) (c : BusId) :
    ((s.uartWrite dc w).2).busCfg? c = s.busCfg? c := by 
  unfold State.uartWrite; simp only []; split <;> simp
@[simp] theorem State.uartWrite_busIs (s : State) (dc : DevCfg) (w : List Byte) (c : BusId) (k : TransportKind) :
    ((s.uartWrite dc w).2).busIs c k = s.busIs c k := by 
  unfold State.uartWrite; simp only []; split <;> simp
@[simp] theorem State.uartWrite_busTxOnly (s : State) (dc : DevCfg) (w : List Byte) (c : BusId) :
    ((s.uartWrite dc w).2).busTxOnly c = s.busTxOnly c := by 
  unfold State.uartWrite; simp only []; split <;> simp
@[simp] theorem State.uartWrite_defaultTimeout (s : State) (dc : DevCfg) (w : List Byte) (c : BusId) :
    ((s.uartWrite dc w).2).defaultTimeout c = s.defaultTimeout c := by 
  unfold State.uartWrite; simp only []; split <;> simp
@[simp] theorem State.uartWrite_hasCs (s : State) (dc : DevCfg) (w : List Byte) (e : DevId) :
    ((s.uartWrite dc w).2).hasCs e = s.hasCs e := by 
  unfold State.uartWrite; simp only []; split <;> simp
@[simp] theorem State.uartWrite_owns (s : State) (dc : DevCfg) (w : List Byte) (c : BusId) (e : DevId) :
    ((s.uartWrite dc w).2).owns c e = s.owns c e := by 
  unfold State.uartWrite; simp only []; split <;> simp
@[simp] theorem State.uartWrite_isHandler (s : State) (dc : DevCfg) (w : List Byte) (c : BusId) (e : DevId) :
    ((s.uartWrite dc w).2).isHandler c e = s.isHandler c e := by 
  unfold State.uartWrite; simp only []; split <;> simp
@[simp] theorem State.uartWrite_rxEnabled (s : State) (dc : DevCfg) (w : List Byte) (c : BusId) :
    ((s.uartWrite dc w).2).rxEnabled c = s.rxEnabled c := by 
  unfold State.uartWrite; simp only []; split <;> simp

/-! ## The UART read phase (R137) -/

@[simp] theorem State.uartRead_cfg (s : State) (dc : DevCfg) (n : Nat) :
    ((s.uartRead dc n).state).cfg = s.cfg := by 
  unfold State.uartRead; simp only []; split <;> simp
@[simp] theorem State.uartRead_busy (s : State) (dc : DevCfg) (n : Nat) :
    ((s.uartRead dc n).state).busy = s.busy := by 
  unfold State.uartRead; simp only []; split <;> simp
@[simp] theorem State.uartRead_cmd (s : State) (dc : DevCfg) (n : Nat) :
    ((s.uartRead dc n).state).cmd = s.cmd := by 
  unfold State.uartRead; simp only []; split <;> simp
@[simp] theorem State.uartRead_resp (s : State) (dc : DevCfg) (n : Nat) :
    ((s.uartRead dc n).state).resp = s.resp := by 
  unfold State.uartRead; simp only []; split <;> simp
@[simp] theorem State.uartRead_wbuf (s : State) (dc : DevCfg) (n : Nat) :
    ((s.uartRead dc n).state).wbuf = s.wbuf := by 
  unfold State.uartRead; simp only []; split <;> simp
@[simp] theorem State.uartRead_rbuf (s : State) (dc : DevCfg) (n : Nat) :
    ((s.uartRead dc n).state).rbuf = s.rbuf := by 
  unfold State.uartRead; simp only []; split <;> simp
@[simp] theorem State.uartRead_rbufValid (s : State) (dc : DevCfg) (n : Nat) :
    ((s.uartRead dc n).state).rbufValid = s.rbufValid := by 
  unfold State.uartRead; simp only []; split <;> simp
@[simp] theorem State.uartRead_rbufFree (s : State) (dc : DevCfg) (n : Nat) :
    ((s.uartRead dc n).state).rbufFree = s.rbufFree := by 
  unfold State.uartRead; simp only []; split <;> simp
@[simp] theorem State.uartRead_buses (s : State) (dc : DevCfg) (n : Nat) :
    ((s.uartRead dc n).state).buses = s.buses := by 
  unfold State.uartRead; simp only []; split <;> simp
@[simp] theorem State.uartRead_cs (s : State) (dc : DevCfg) (n : Nat) :
    ((s.uartRead dc n).state).cs = s.cs := by 
  unfold State.uartRead; simp only []; split <;> simp
@[simp] theorem State.uartRead_handlers (s : State) (dc : DevCfg) (n : Nat) :
    ((s.uartRead dc n).state).handlers = s.handlers := by 
  unfold State.uartRead; simp only []; split <;> simp
@[simp] theorem State.uartRead_txlog (s : State) (dc : DevCfg) (n : Nat) :
    ((s.uartRead dc n).state).txlog = s.txlog := by 
  unfold State.uartRead; simp only []; split <;> simp
@[simp] theorem State.uartRead_i2clog (s : State) (dc : DevCfg) (n : Nat) :
    ((s.uartRead dc n).state).i2clog = s.i2clog := by 
  unfold State.uartRead; simp only []; split <;> simp
@[simp] theorem State.uartRead_spilog (s : State) (dc : DevCfg) (n : Nat) :
    ((s.uartRead dc n).state).spilog = s.spilog := by 
  unfold State.uartRead; simp only []; split <;> simp
@[simp] theorem State.uartRead_inputs (s : State) (dc : DevCfg) (n : Nat) :
    ((s.uartRead dc n).state).inputs = s.inputs := by 
  unfold State.uartRead; simp only []; split <;> simp
@[simp] theorem State.uartRead_bus (s : State) (dc : DevCfg) (n : Nat) (c : BusId) :
    ((s.uartRead dc n).state).bus c = s.bus c := by 
  unfold State.uartRead; simp only []; split <;> simp
@[simp] theorem State.uartRead_csOf (s : State) (dc : DevCfg) (n : Nat) (e : DevId) :
    ((s.uartRead dc n).state).csOf e = s.csOf e := by 
  unfold State.uartRead; simp only []; split <;> simp
@[simp] theorem State.uartRead_handler (s : State) (dc : DevCfg) (n : Nat) (c : BusId) :
    ((s.uartRead dc n).state).handler c = s.handler c := by 
  unfold State.uartRead; simp only []; split <;> simp
@[simp] theorem State.uartRead_txlogOf (s : State) (dc : DevCfg) (n : Nat) (c : BusId) :
    ((s.uartRead dc n).state).txlogOf c = s.txlogOf c := by 
  unfold State.uartRead; simp only []; split <;> simp
@[simp] theorem State.uartRead_i2clogOf (s : State) (dc : DevCfg) (n : Nat) (c : BusId) :
    ((s.uartRead dc n).state).i2clogOf c = s.i2clogOf c := by 
  unfold State.uartRead; simp only []; split <;> simp
@[simp] theorem State.uartRead_spilogOf (s : State) (dc : DevCfg) (n : Nat) (c : BusId) :
    ((s.uartRead dc n).state).spilogOf c = s.spilogOf c := by 
  unfold State.uartRead; simp only []; split <;> simp
@[simp] theorem State.uartRead_rbufByte (s : State) (dc : DevCfg) (n : Nat) (i : Nat) :
    ((s.uartRead dc n).state).rbufByte i = s.rbufByte i := by 
  unfold State.uartRead; simp only []; split <;> simp
@[simp] theorem State.uartRead_devOpt (s : State) (dc : DevCfg) (n : Nat) (e : DevId) :
    ((s.uartRead dc n).state).dev? e = s.dev? e := by 
  unfold State.uartRead; simp only []; split <;> simp
@[simp] theorem State.uartRead_busCfgOpt (s : State) (dc : DevCfg) (n : Nat) (c : BusId) :
    ((s.uartRead dc n).state).busCfg? c = s.busCfg? c := by 
  unfold State.uartRead; simp only []; split <;> simp
@[simp] theorem State.uartRead_busIs (s : State) (dc : DevCfg) (n : Nat) (c : BusId) (k : TransportKind) :
    ((s.uartRead dc n).state).busIs c k = s.busIs c k := by 
  unfold State.uartRead; simp only []; split <;> simp
@[simp] theorem State.uartRead_busTxOnly (s : State) (dc : DevCfg) (n : Nat) (c : BusId) :
    ((s.uartRead dc n).state).busTxOnly c = s.busTxOnly c := by 
  unfold State.uartRead; simp only []; split <;> simp
@[simp] theorem State.uartRead_defaultTimeout (s : State) (dc : DevCfg) (n : Nat) (c : BusId) :
    ((s.uartRead dc n).state).defaultTimeout c = s.defaultTimeout c := by 
  unfold State.uartRead; simp only []; split <;> simp
@[simp] theorem State.uartRead_hasCs (s : State) (dc : DevCfg) (n : Nat) (e : DevId) :
    ((s.uartRead dc n).state).hasCs e = s.hasCs e := by 
  unfold State.uartRead; simp only []; split <;> simp
@[simp] theorem State.uartRead_owns (s : State) (dc : DevCfg) (n : Nat) (c : BusId) (e : DevId) :
    ((s.uartRead dc n).state).owns c e = s.owns c e := by 
  unfold State.uartRead; simp only []; split <;> simp
@[simp] theorem State.uartRead_isHandler (s : State) (dc : DevCfg) (n : Nat) (c : BusId) (e : DevId) :
    ((s.uartRead dc n).state).isHandler c e = s.isHandler c e := by 
  unfold State.uartRead; simp only []; split <;> simp
@[simp] theorem State.uartRead_rxEnabled (s : State) (dc : DevCfg) (n : Nat) (c : BusId) :
    ((s.uartRead dc n).state).rxEnabled c = s.rxEnabled c := by 
  unfold State.uartRead; simp only []; split <;> simp

/-! ## The UART transfer (R138) -/

@[simp] theorem State.uartXfer_cfg (s : State) (dc : DevCfg) (w : List Byte) (n : Nat) :
    ((s.uartXfer dc w n).state).cfg = s.cfg := by 
  unfold State.uartXfer; simp only []; repeat' split
  all_goals simp
@[simp] theorem State.uartXfer_busy (s : State) (dc : DevCfg) (w : List Byte) (n : Nat) :
    ((s.uartXfer dc w n).state).busy = s.busy := by 
  unfold State.uartXfer; simp only []; repeat' split
  all_goals simp
@[simp] theorem State.uartXfer_cmd (s : State) (dc : DevCfg) (w : List Byte) (n : Nat) :
    ((s.uartXfer dc w n).state).cmd = s.cmd := by 
  unfold State.uartXfer; simp only []; repeat' split
  all_goals simp
@[simp] theorem State.uartXfer_resp (s : State) (dc : DevCfg) (w : List Byte) (n : Nat) :
    ((s.uartXfer dc w n).state).resp = s.resp := by 
  unfold State.uartXfer; simp only []; repeat' split
  all_goals simp
@[simp] theorem State.uartXfer_wbuf (s : State) (dc : DevCfg) (w : List Byte) (n : Nat) :
    ((s.uartXfer dc w n).state).wbuf = s.wbuf := by 
  unfold State.uartXfer; simp only []; repeat' split
  all_goals simp
@[simp] theorem State.uartXfer_rbuf (s : State) (dc : DevCfg) (w : List Byte) (n : Nat) :
    ((s.uartXfer dc w n).state).rbuf = s.rbuf := by 
  unfold State.uartXfer; simp only []; repeat' split
  all_goals simp
@[simp] theorem State.uartXfer_rbufValid (s : State) (dc : DevCfg) (w : List Byte) (n : Nat) :
    ((s.uartXfer dc w n).state).rbufValid = s.rbufValid := by 
  unfold State.uartXfer; simp only []; repeat' split
  all_goals simp
@[simp] theorem State.uartXfer_rbufFree (s : State) (dc : DevCfg) (w : List Byte) (n : Nat) :
    ((s.uartXfer dc w n).state).rbufFree = s.rbufFree := by 
  unfold State.uartXfer; simp only []; repeat' split
  all_goals simp
@[simp] theorem State.uartXfer_buses (s : State) (dc : DevCfg) (w : List Byte) (n : Nat) :
    ((s.uartXfer dc w n).state).buses = s.buses := by 
  unfold State.uartXfer; simp only []; repeat' split
  all_goals simp
@[simp] theorem State.uartXfer_cs (s : State) (dc : DevCfg) (w : List Byte) (n : Nat) :
    ((s.uartXfer dc w n).state).cs = s.cs := by 
  unfold State.uartXfer; simp only []; repeat' split
  all_goals simp
@[simp] theorem State.uartXfer_handlers (s : State) (dc : DevCfg) (w : List Byte) (n : Nat) :
    ((s.uartXfer dc w n).state).handlers = s.handlers := by 
  unfold State.uartXfer; simp only []; repeat' split
  all_goals simp
@[simp] theorem State.uartXfer_i2clog (s : State) (dc : DevCfg) (w : List Byte) (n : Nat) :
    ((s.uartXfer dc w n).state).i2clog = s.i2clog := by 
  unfold State.uartXfer; simp only []; repeat' split
  all_goals simp
@[simp] theorem State.uartXfer_spilog (s : State) (dc : DevCfg) (w : List Byte) (n : Nat) :
    ((s.uartXfer dc w n).state).spilog = s.spilog := by 
  unfold State.uartXfer; simp only []; repeat' split
  all_goals simp
@[simp] theorem State.uartXfer_inputs (s : State) (dc : DevCfg) (w : List Byte) (n : Nat) :
    ((s.uartXfer dc w n).state).inputs = s.inputs := by 
  unfold State.uartXfer; simp only []; repeat' split
  all_goals simp
@[simp] theorem State.uartXfer_bus (s : State) (dc : DevCfg) (w : List Byte) (n : Nat) (c : BusId) :
    ((s.uartXfer dc w n).state).bus c = s.bus c := by 
  unfold State.uartXfer; simp only []; repeat' split
  all_goals simp
@[simp] theorem State.uartXfer_csOf (s : State) (dc : DevCfg) (w : List Byte) (n : Nat) (e : DevId) :
    ((s.uartXfer dc w n).state).csOf e = s.csOf e := by 
  unfold State.uartXfer; simp only []; repeat' split
  all_goals simp
@[simp] theorem State.uartXfer_handler (s : State) (dc : DevCfg) (w : List Byte) (n : Nat) (c : BusId) :
    ((s.uartXfer dc w n).state).handler c = s.handler c := by 
  unfold State.uartXfer; simp only []; repeat' split
  all_goals simp
@[simp] theorem State.uartXfer_i2clogOf (s : State) (dc : DevCfg) (w : List Byte) (n : Nat) (c : BusId) :
    ((s.uartXfer dc w n).state).i2clogOf c = s.i2clogOf c := by 
  unfold State.uartXfer; simp only []; repeat' split
  all_goals simp
@[simp] theorem State.uartXfer_spilogOf (s : State) (dc : DevCfg) (w : List Byte) (n : Nat) (c : BusId) :
    ((s.uartXfer dc w n).state).spilogOf c = s.spilogOf c := by 
  unfold State.uartXfer; simp only []; repeat' split
  all_goals simp
@[simp] theorem State.uartXfer_rbufByte (s : State) (dc : DevCfg) (w : List Byte) (n : Nat) (i : Nat) :
    ((s.uartXfer dc w n).state).rbufByte i = s.rbufByte i := by 
  unfold State.uartXfer; simp only []; repeat' split
  all_goals simp
@[simp] theorem State.uartXfer_devOpt (s : State) (dc : DevCfg) (w : List Byte) (n : Nat) (e : DevId) :
    ((s.uartXfer dc w n).state).dev? e = s.dev? e := by 
  unfold State.uartXfer; simp only []; repeat' split
  all_goals simp
@[simp] theorem State.uartXfer_busCfgOpt (s : State) (dc : DevCfg) (w : List Byte) (n : Nat) (c : BusId) :
    ((s.uartXfer dc w n).state).busCfg? c = s.busCfg? c := by 
  unfold State.uartXfer; simp only []; repeat' split
  all_goals simp
@[simp] theorem State.uartXfer_busIs (s : State) (dc : DevCfg) (w : List Byte) (n : Nat) (c : BusId) (k : TransportKind) :
    ((s.uartXfer dc w n).state).busIs c k = s.busIs c k := by 
  unfold State.uartXfer; simp only []; repeat' split
  all_goals simp
@[simp] theorem State.uartXfer_busTxOnly (s : State) (dc : DevCfg) (w : List Byte) (n : Nat) (c : BusId) :
    ((s.uartXfer dc w n).state).busTxOnly c = s.busTxOnly c := by 
  unfold State.uartXfer; simp only []; repeat' split
  all_goals simp
@[simp] theorem State.uartXfer_defaultTimeout (s : State) (dc : DevCfg) (w : List Byte) (n : Nat) (c : BusId) :
    ((s.uartXfer dc w n).state).defaultTimeout c = s.defaultTimeout c := by 
  unfold State.uartXfer; simp only []; repeat' split
  all_goals simp
@[simp] theorem State.uartXfer_hasCs (s : State) (dc : DevCfg) (w : List Byte) (n : Nat) (e : DevId) :
    ((s.uartXfer dc w n).state).hasCs e = s.hasCs e := by 
  unfold State.uartXfer; simp only []; repeat' split
  all_goals simp
@[simp] theorem State.uartXfer_owns (s : State) (dc : DevCfg) (w : List Byte) (n : Nat) (c : BusId) (e : DevId) :
    ((s.uartXfer dc w n).state).owns c e = s.owns c e := by 
  unfold State.uartXfer; simp only []; repeat' split
  all_goals simp
@[simp] theorem State.uartXfer_isHandler (s : State) (dc : DevCfg) (w : List Byte) (n : Nat) (c : BusId) (e : DevId) :
    ((s.uartXfer dc w n).state).isHandler c e = s.isHandler c e := by 
  unfold State.uartXfer; simp only []; repeat' split
  all_goals simp
@[simp] theorem State.uartXfer_rxEnabled (s : State) (dc : DevCfg) (w : List Byte) (n : Nat) (c : BusId) :
    ((s.uartXfer dc w n).state).rxEnabled c = s.rxEnabled c := by 
  unfold State.uartXfer; simp only []; repeat' split
  all_goals simp

/-! ## The back-end transfer (R104) -/

@[simp] theorem State.xfer_cfg (s : State) (d : DevId) (dc : DevCfg) (w : List Byte) (n : Nat) :
    ((s.xfer d dc w n).state).cfg = s.cfg := by 
  unfold State.xfer; repeat' split
  all_goals simp
@[simp] theorem State.xfer_busy (s : State) (d : DevId) (dc : DevCfg) (w : List Byte) (n : Nat) :
    ((s.xfer d dc w n).state).busy = s.busy := by 
  unfold State.xfer; repeat' split
  all_goals simp
@[simp] theorem State.xfer_cmd (s : State) (d : DevId) (dc : DevCfg) (w : List Byte) (n : Nat) :
    ((s.xfer d dc w n).state).cmd = s.cmd := by 
  unfold State.xfer; repeat' split
  all_goals simp
@[simp] theorem State.xfer_resp (s : State) (d : DevId) (dc : DevCfg) (w : List Byte) (n : Nat) :
    ((s.xfer d dc w n).state).resp = s.resp := by 
  unfold State.xfer; repeat' split
  all_goals simp
@[simp] theorem State.xfer_wbuf (s : State) (d : DevId) (dc : DevCfg) (w : List Byte) (n : Nat) :
    ((s.xfer d dc w n).state).wbuf = s.wbuf := by 
  unfold State.xfer; repeat' split
  all_goals simp
@[simp] theorem State.xfer_rbuf (s : State) (d : DevId) (dc : DevCfg) (w : List Byte) (n : Nat) :
    ((s.xfer d dc w n).state).rbuf = s.rbuf := by 
  unfold State.xfer; repeat' split
  all_goals simp
@[simp] theorem State.xfer_rbufValid (s : State) (d : DevId) (dc : DevCfg) (w : List Byte) (n : Nat) :
    ((s.xfer d dc w n).state).rbufValid = s.rbufValid := by 
  unfold State.xfer; repeat' split
  all_goals simp
@[simp] theorem State.xfer_rbufFree (s : State) (d : DevId) (dc : DevCfg) (w : List Byte) (n : Nat) :
    ((s.xfer d dc w n).state).rbufFree = s.rbufFree := by 
  unfold State.xfer; repeat' split
  all_goals simp
@[simp] theorem State.xfer_buses (s : State) (d : DevId) (dc : DevCfg) (w : List Byte) (n : Nat) :
    ((s.xfer d dc w n).state).buses = s.buses := by 
  unfold State.xfer; repeat' split
  all_goals simp
@[simp] theorem State.xfer_cs (s : State) (d : DevId) (dc : DevCfg) (w : List Byte) (n : Nat) :
    ((s.xfer d dc w n).state).cs = s.cs := by 
  unfold State.xfer; repeat' split
  all_goals simp
@[simp] theorem State.xfer_handlers (s : State) (d : DevId) (dc : DevCfg) (w : List Byte) (n : Nat) :
    ((s.xfer d dc w n).state).handlers = s.handlers := by 
  unfold State.xfer; repeat' split
  all_goals simp
@[simp] theorem State.xfer_inputs (s : State) (d : DevId) (dc : DevCfg) (w : List Byte) (n : Nat) :
    ((s.xfer d dc w n).state).inputs = s.inputs := by 
  unfold State.xfer; repeat' split
  all_goals simp
@[simp] theorem State.xfer_bus (s : State) (d : DevId) (dc : DevCfg) (w : List Byte) (n : Nat) (c : BusId) :
    ((s.xfer d dc w n).state).bus c = s.bus c := by 
  unfold State.xfer; repeat' split
  all_goals simp
@[simp] theorem State.xfer_csOf (s : State) (d : DevId) (dc : DevCfg) (w : List Byte) (n : Nat) (e : DevId) :
    ((s.xfer d dc w n).state).csOf e = s.csOf e := by 
  unfold State.xfer; repeat' split
  all_goals simp
@[simp] theorem State.xfer_handler (s : State) (d : DevId) (dc : DevCfg) (w : List Byte) (n : Nat) (c : BusId) :
    ((s.xfer d dc w n).state).handler c = s.handler c := by 
  unfold State.xfer; repeat' split
  all_goals simp
@[simp] theorem State.xfer_rbufByte (s : State) (d : DevId) (dc : DevCfg) (w : List Byte) (n : Nat) (i : Nat) :
    ((s.xfer d dc w n).state).rbufByte i = s.rbufByte i := by 
  unfold State.xfer; repeat' split
  all_goals simp
@[simp] theorem State.xfer_devOpt (s : State) (d : DevId) (dc : DevCfg) (w : List Byte) (n : Nat) (e : DevId) :
    ((s.xfer d dc w n).state).dev? e = s.dev? e := by 
  unfold State.xfer; repeat' split
  all_goals simp
@[simp] theorem State.xfer_busCfgOpt (s : State) (d : DevId) (dc : DevCfg) (w : List Byte) (n : Nat) (c : BusId) :
    ((s.xfer d dc w n).state).busCfg? c = s.busCfg? c := by 
  unfold State.xfer; repeat' split
  all_goals simp
@[simp] theorem State.xfer_busIs (s : State) (d : DevId) (dc : DevCfg) (w : List Byte) (n : Nat) (c : BusId) (k : TransportKind) :
    ((s.xfer d dc w n).state).busIs c k = s.busIs c k := by 
  unfold State.xfer; repeat' split
  all_goals simp
@[simp] theorem State.xfer_busTxOnly (s : State) (d : DevId) (dc : DevCfg) (w : List Byte) (n : Nat) (c : BusId) :
    ((s.xfer d dc w n).state).busTxOnly c = s.busTxOnly c := by 
  unfold State.xfer; repeat' split
  all_goals simp
@[simp] theorem State.xfer_defaultTimeout (s : State) (d : DevId) (dc : DevCfg) (w : List Byte) (n : Nat) (c : BusId) :
    ((s.xfer d dc w n).state).defaultTimeout c = s.defaultTimeout c := by 
  unfold State.xfer; repeat' split
  all_goals simp
@[simp] theorem State.xfer_hasCs (s : State) (d : DevId) (dc : DevCfg) (w : List Byte) (n : Nat) (e : DevId) :
    ((s.xfer d dc w n).state).hasCs e = s.hasCs e := by 
  unfold State.xfer; repeat' split
  all_goals simp
@[simp] theorem State.xfer_owns (s : State) (d : DevId) (dc : DevCfg) (w : List Byte) (n : Nat) (c : BusId) (e : DevId) :
    ((s.xfer d dc w n).state).owns c e = s.owns c e := by 
  unfold State.xfer; repeat' split
  all_goals simp
@[simp] theorem State.xfer_isHandler (s : State) (d : DevId) (dc : DevCfg) (w : List Byte) (n : Nat) (c : BusId) (e : DevId) :
    ((s.xfer d dc w n).state).isHandler c e = s.isHandler c e := by 
  unfold State.xfer; repeat' split
  all_goals simp
@[simp] theorem State.xfer_rxEnabled (s : State) (d : DevId) (dc : DevCfg) (w : List Byte) (n : Nat) (c : BusId) :
    ((s.xfer d dc w n).state).rxEnabled c = s.rxEnabled c := by 
  unfold State.xfer; repeat' split
  all_goals simp

/-! ## What the arbiter's operations and the end of a transfer do, once -/

/-- `select` (R86): nothing to assert, an assertion without a wait, or an assertion and a wait. -/
theorem State.select_cases (s : State) (d : DevId) (dc : DevCfg) :
    ((dc.chipSelect = none ∨ s.csOf d = true) ∧ s.select d dc = s) ∨
    (dc.chipSelect.isSome = true ∧ s.csOf d = false ∧
      ((dc.powerUpDelay = 0 ∧ s.select d dc = s.setCs d true) ∨
        (dc.powerUpDelay ≠ 0 ∧ s.select d dc = (s.setCs d true).wait dc.powerUpDelay.toNat))) := by
  cases hc : dc.chipSelect <;> cases hs : s.csOf d <;> by_cases hp : dc.powerUpDelay = 0#32 <;>
    simp [State.select, hc, hs, hp]

/-- The chip-select of the device is asserted after `select`, if it has one; every other keeps its state. -/
theorem State.select_csOf (s : State) (d e : DevId) (dc : DevCfg) :
    (s.select d dc).csOf e = if e = d ∧ dc.chipSelect.isSome = true then true else s.csOf e := by
  rcases s.select_cases d dc with ⟨h, hs⟩ | ⟨h, -, ⟨-, hs⟩ | ⟨-, hs⟩⟩
  · rw [hs]
    rcases h with h | h
    · simp [h]
    · split
      · next he => rw [he.1, h]
      · rfl
  · rw [hs]; simp [h]
  · rw [hs]; simp [h, State.wait]

/-- `unlock` (R89), by the outcome of the teardown. -/
theorem State.unlock_cases (s : State) (b : BusId) :
    let s1 := s.drawTeardown.2
    let o := (s.bus b).ownerId
    (s.drawTeardown.1 = .succeeded ∧
      s.unlock b = (true,
        let s2 := s1.setBus b { s.bus b with up := false, ownerId := 0, locked := false }
        if s.hasCs o then s2.setCs o false else s2)) ∨
    (∃ u, s.drawTeardown.1 = .failed u ∧
      s.unlock b = (false, s1.setBus b { s.bus b with up := u, ownerId := 0, locked := false })) := by
  cases h : s.drawTeardown.1 <;> simp [State.unlock, h]

/-- The bus is free after `unlock`, and keeps its timer; no other bus changes. -/
theorem State.unlock_bus (s : State) (b c : BusId) :
    ∃ u, (s.unlock b).2.bus c = if c = b then { s.bus b with up := u, ownerId := 0, locked := false } else s.bus c := by
  rcases s.unlock_cases b with ⟨-, h⟩ | ⟨u, -, h⟩
  · refine ⟨false, ?_⟩
    rw [h]
    simp only []
    split <;> simp
  · exact ⟨u, by rw [h]; simp⟩

/-- `ACQUIRE` steps 3 to 5: the bring-up succeeds and the bus is taken, or it raises `InvalidArgument` (R112). -/
theorem State.acquireFree_cases (s : State) (d : DevId) (dc : DevCfg) :
    ((s.select d dc).initStatus dc = .ok ∧
      s.acquireFree d dc =
        (((s.select d dc).setBus dc.bus { (s.select d dc).bus dc.bus with up := true }).drift.take d dc).conclude .ok) ∨
    ((s.select d dc).initStatus dc = .invalidArgument ∧
      s.acquireFree d dc = (s.select d dc).conclude .invalidArgument) := by
  have h : (s.select d dc).initStatus dc = .ok ∨ (s.select d dc).initStatus dc = .invalidArgument := by
    unfold State.initStatus i2cInit spiInit uartInit
    repeat' split
    all_goals simp
  rcases h with h | h <;> simp [State.acquireFree, State.bringUp, h]

/-- How a transfer's result ends the command (R105). -/
theorem XferResult.finish_cases (r : XferResult) (n : Nat) :
    (r.status = .ok ∧ n = 0 ∧ r.finish n = r.state.respond .ok false 0) ∨
    (r.status = .ok ∧ n ≠ 0 ∧ r.finish n = (r.state.storeRbuf r.data).respond .ok false n) ∨
    (r.status ≠ .ok ∧ r.finish n = r.state.raise r.status) := by
  by_cases h : r.status = .ok <;> by_cases hn : n = 0 <;> simp [XferResult.finish, h, hn]

end Sys2Proof.Machine
end

