-- ==== Sys2Proof/Laws/PerInstr.lean ====
section
/-! SUPPORT. The families of statements made of every command: one lemma per constructor of `Instr`. -/

namespace Sys2Proof.Laws

/-- The word of a command carries the command's device in `DEV` and lies in the row of its mnemonic (R63, R69). -/
def EncodedFields.Statement (i : Instr) : Prop :=
  fieldDev (encode i) = i.dev ∧ encode i &&& i.mnemonic.mask = i.mnemonic.pattern

theorem EncodedFields.acquire (d : DevId) : EncodedFields.Statement (.acquire d) :=
  ⟨fieldDev_formatC _ _ _ _, (formatC_and 0x01 d 0 0 0xFF 0x00 0xFF 0xFF).trans (by simp; rfl)⟩

theorem EncodedFields.release (d : DevId) : EncodedFields.Statement (.release d) :=
  ⟨fieldDev_formatC _ _ _ _, (formatC_and 0x02 d 0 0 0xFF 0x00 0xFF 0xFF).trans (by simp; rfl)⟩

theorem EncodedFields.read (d : DevId) (n : Byte) : EncodedFields.Statement (.read d n) :=
  ⟨fieldDev_formatC _ _ _ _, (formatC_and 0x03 d 0 n 0xFF 0x00 0xFF 0x00).trans (by simp; rfl)⟩

theorem EncodedFields.write (d : DevId) (n : Byte) : EncodedFields.Statement (.write d n) :=
  ⟨fieldDev_formatC _ _ _ _, (formatC_and 0x04 d n 0 0xFF 0x00 0x00 0xFF).trans (by simp; rfl)⟩

theorem EncodedFields.transfer (d : DevId) (n m : Byte) : EncodedFields.Statement (.transfer d n m) :=
  ⟨fieldDev_formatC _ _ _ _, (formatC_and 0x05 d n m 0xFF 0x00 0x00 0x00).trans (by simp; rfl)⟩

theorem EncodedFields.isOwner (d : DevId) : EncodedFields.Statement (.isOwner d) :=
  ⟨fieldDev_formatC _ _ _ _, (formatC_and 0x06 d 0 0 0xFF 0x00 0xFF 0xFF).trans (by simp; rfl)⟩

theorem EncodedFields.setInputHandler (d : DevId) (cb : Byte) : EncodedFields.Statement (.setInputHandler d cb) :=
  ⟨fieldDev_formatC _ _ _ _, (formatC_and 0x07 d 0 cb 0xFF 0x00 0xFF 0x00).trans (by simp; rfl)⟩

theorem EncodedFields.readLine (d : DevId) (n : Byte) : EncodedFields.Statement (.readLine d n) :=
  ⟨fieldDev_formatC _ _ _ _, (formatC_and 0x08 d 0 n 0xFF 0x00 0xFF 0x00).trans (by simp; rfl)⟩

theorem EncodedFields.readAll (d : DevId) (n : Byte) : EncodedFields.Statement (.readAll d n) :=
  ⟨fieldDev_formatC _ _ _ _, (formatC_and 0x09 d 0 n 0xFF 0x00 0xFF 0x00).trans (by simp; rfl)⟩

end Sys2Proof.Laws
end

