-- ==== Sys2Proof/Laws/Step.lean ====
section
/-! SUPPORT. The step in each of its cases: a command that runs, a reserved word, a reset, another stimulus, and an
idle block with nothing to come. -/

namespace Sys2Proof.Machine

theorem State.resetStrikes_iff (s : State) : s.resetStrikes = true ↔ s.inputs.head? = some .reset := by
  simp [State.resetStrikes]

/-- A busy block that no reset strikes runs the command in `CMD`. -/
theorem step_command (s : State) (i : Instr) (hw : s.cfg.wellFormed = true) (hb : s.busy = true)
    (hr : s.inputs.head? ≠ some .reset) (hd : decode s.cmd = .ok i) : step s = exec i s := by
  have hr : s.resetStrikes = false := by simpa [State.resetStrikes] using hr
  simp [step, hw, hb, hr, State.runCommand, hd]

/-- A reserved word raises `InvalidArgument`. -/
theorem step_reserved (s : State) (e : DecodeError) (hw : s.cfg.wellFormed = true) (hb : s.busy = true)
    (hr : s.inputs.head? ≠ some .reset) (hd : decode s.cmd = .error e) :
    step s = .next (s.raise .invalidArgument) := by
  have hr : s.resetStrikes = false := by simpa [State.resetStrikes] using hr
  simp [step, hw, hb, hr, State.runCommand, hd]

/-- A reset is taken by a block that is busy and by one that is idle (R185). -/
theorem step_reset (s : State) (rest : List Input) (hw : s.cfg.wellFormed = true) (hi : s.inputs = .reset :: rest) :
    step s = .next { s with inputs := rest }.resetEvent := by
  have hr : s.resetStrikes = true := by simp [State.resetStrikes, hi]
  simp [step, hw, hr, State.takeInput, hi, State.accept]

/-- An idle block takes the next stimulus. -/
theorem step_idle (s : State) (hw : s.cfg.wellFormed = true) (hb : s.busy = false) : step s = s.takeInput := by
  simp [step, hw, hb]

end Sys2Proof.Machine
end

