-- ==== Sys2Proof/Tests/Slice0.lean ====
section
/-! SUPPORT. Tests: the well-formedness checks, words decoded by hand from spec/30_encoding.md and
spec/95_test_vectors.md, one step of each command with its result from spec/95_test_vectors.md (the row is named
beside each), and for every statement with hypotheses a state and operands that meet them. -/

namespace Sys2Proof.Tests

open Sys2Proof.Machine

/-! ## WellFormed: the board of the spec passes; one ill-formed board for each check -/

theorem test_cfgT_wellFormed : Config.cfgT.wellFormed = true := by decide

theorem test_counts_refused : ({ Config.cfgT with devs := [] }).countsOk = false := by decide

theorem test_defaults_refused :
    ({ Config.cfgT with
        buses := [{ kind := .spi, uartMode := .txOnly, defaultTimeout := 0, wiring := [] }] }).defaultsOk = false := by
  decide

theorem test_ringCap_refused : ({ Config.cfgT with ringCap := 1 }).ringCapOk = false := by decide

theorem test_canonicalSpeeds_refused : ({ Config.cfgT with i2cSpeedB := 100000 }).canonicalSpeedsOk = false := by
  decide

/-- A device of the boards below. -/
def device : DevCfg where
  bus := 1
  speed := 1000
  address := 0
  inactivityTimeout := 0
  powerUpDelay := 0
  chipSelect := none

/-- A chip-select of the boards below. -/
def pin3 : ChipSelect where
  port := 0
  pin := 3
  activeHigh := true
  autoAssert := false

theorem test_busIndices_refused :
    ({ Config.cfgT with devs := [{ device with bus := 3 }] }).busIndicesOk = false := by decide

theorem test_i2cAddress_refused :
    ({ Config.cfgT with devs := [{ device with bus := 0, address := 0x80 }] }).i2cDevicesOk = false := by decide

theorem test_i2cChipSelect_refused :
    ({ Config.cfgT with devs := [{ device with bus := 0, chipSelect := some pin3 }] }).i2cDevicesOk = false := by
  decide

theorem test_pins_refused :
    ({ Config.cfgT with
        devs := [{ device with chipSelect := some pin3 }, { device with chipSelect := some pin3 }] }).pinsOk = false := by
  decide

theorem test_intervals_refused :
    ({ Config.cfgT with devs := [{ device with powerUpDelay := 0x80000000 }] }).intervalsOk = false := by decide

theorem test_speeds_refused : ({ Config.cfgT with devs := [{ device with speed := 0 }] }).speedsOk = false := by decide

/-! ## Decoding: words of the table in spec/95_test_vectors.md section 2.1 -/

theorem test_decode_acquire : decode 0x01040000 = .ok (.acquire 4) := by decide
theorem test_decode_release : decode 0x02020000 = .ok (.release 2) := by decide
theorem test_decode_read : decode 0x03000006 = .ok (.read 0 6) := by decide
theorem test_decode_write : decode 0x04000200 = .ok (.write 0 2) := by decide
theorem test_decode_transfer : decode 0x05000203 = .ok (.transfer 0 2 3) := by decide
theorem test_decode_isOwner : decode 0x06010000 = .ok (.isOwner 1) := by decide
theorem test_decode_setInputHandler : decode 0x07040001 = .ok (.setInputHandler 4 1) := by decide
theorem test_decode_readLine : decode 0x080400FF = .ok (.readLine 4 255) := by decide
theorem test_decode_readAll : decode 0x09040010 = .ok (.readAll 4 16) := by decide

theorem test_decode_reserved_op :
    decode 0x00000000 = .error (.reservedOp 0x00) ∧ decode 0x0A000000 = .error (.reservedOp 0x0A) ∧
    decode 0xFFFFFFFF = .error (.reservedOp 0xFF) ∧ decode 0x8002000A = .error (.reservedOp 0x80) := by decide

theorem test_decode_reserved_field :
    decode 0x01000001 = .error (.mustBeZero 0x01) ∧ decode 0x02000100 = .error (.mustBeZero 0x02) ∧
    decode 0x03000106 = .error (.mustBeZero 0x03) ∧ decode 0x04000201 = .error (.mustBeZero 0x04) ∧
    decode 0x06010001 = .error (.mustBeZero 0x06) ∧ decode 0x08040100 = .error (.mustBeZero 0x08) := by decide

/-- The host's numbering of a table word: the whole word. -/
theorem test_decodeTableWord : decodeTableWord 32 0x05000203 = some (.transfer 0 2 3) := by decide

/-- R80 and R82: stimulus words. -/
theorem test_stimulus :
    stimulus 0x8002000A = .rxByte 2 0x0A ∧ stimulus 0x81000065 = .advanceTime 101 ∧
    stimulus 0x01000000 = .command 0x01000000 := by decide

/-- Response words of section 2.1. -/
theorem test_respWord :
    respWord .unknownError false 0 = 0x00000007 ∧ respWord .ok false 255 = 0x00FF0000 ∧
    respWord .ok true 0 = 0x00000100 := by decide

/-! ## States for the steps below -/

/-- Nothing happens at a yield point and no time passes. -/
def calm : Yield where
  rx := []
  ms := 0
  race := false

/-- An environment in which nothing happens by itself. -/
def quiet : Env where
  yields := [calm, calm, calm, calm]
  drifts := [0, 0]
  teardowns := [.succeeded]
  i2c := []
  spi := []
  tx := []
  rx := []

/-- CFG-T after reset, busy, at a time, in the quiet environment. -/
def fresh (now : Millis) : State := { State.boot Config.cfgT now with busy := true, env := quiet }

/-- Bus b of CFG-T owned by device d, armed at a time for an interval. -/
def owned (b : BusId) (d : DevId) (start interval now : Millis) : State :=
  (fresh now).setBus b { ownerId := d, locked := true, expStart := start, expInterval := interval, up := true }

/-- The state a command leaves. -/
def after (i : Instr) (s : State) : State :=
  match exec i s with
  | .next t => t
  | .fault _ => { s with resp := 0xFFFFFFFF }
  | .refused _ => { s with resp := 0xFFFFFFFF }

/-- The records of devices 0, 1, 2 and 4 of CFG-T. -/
def dev0 : DevCfg := Config.cfgT.devs[0]
def dev1 : DevCfg := Config.cfgT.devs[1]
def dev2 : DevCfg := Config.cfgT.devs[2]
def dev3 : DevCfg := Config.cfgT.devs[3]
def dev4 : DevCfg := Config.cfgT.devs[4]
def dev5 : DevCfg := Config.cfgT.devs[5]

/-! ## ACQUIRE, RELEASE, IS_OWNER (section 2.2) -/

/-- A9: the wait takes exactly 5. -/
theorem test_acquire_waits :
    let t := after (.acquire 2) (fresh 1000)
    t.resp = 0x00000000 ∧ t.now = 1005 ∧ t.csOf 2 = true ∧ t.pinLevel 2 = some false ∧
    t.bus 1 = { ownerId := 2, locked := true, expStart := 1005, expInterval := 50, up := true } := by decide

/-- A16 and A17: the elapsed test across the wrap of `NOW`. -/
theorem test_acquire_across_wrap :
    (after (.acquire 1) (owned 0 0 0xFFFFFFF0 32 0x0000000F)).resp = 0x00000001 ∧
    (after (.acquire 1) (owned 0 0 0xFFFFFFF0 32 0x00000010)).resp = 0x00000000 ∧
    (after (.acquire 1) (owned 0 0 0xFFFFFFF0 32 0x00000010)).bus 0 =
      { ownerId := 1, locked := true, expStart := 0x00000010, expInterval := 1000, up := true } := by decide

/-- R98: 3 ms pass before the arming and 4 ms between the arming and the response. -/
theorem test_acquire_instants :
    let t := after (.acquire 2) { fresh 1000 with env := { quiet with drifts := [3, 4] } }
    (t.bus 1).expStart = 1008 ∧ t.now = 1012 := by decide

/-- A7: a release by the owner. -/
theorem test_release_owner :
    let t := after (.release 1) (owned 0 1 5160 1000 5160)
    t.resp = 0x00000000 ∧ (t.bus 0).locked = false ∧ (t.bus 0).ownerId = 0 ∧ (t.bus 0).up = false := by decide

/-- A10: a teardown that fails; the lock is cleared and the chip-select stays. -/
theorem test_release_teardown_fails :
    let t := after (.release 2)
      (({ owned 1 2 1005 50 1005 with env := { quiet with teardowns := [.failed true] } }).setCs 2 true)
    t.resp = 0x00000007 ∧ (t.bus 1).locked = false ∧ t.csOf 2 = true := by decide

/-- A6. -/
theorem test_isOwner :
    (after (.isOwner 0) (owned 0 1 5160 1000 5160)).resp = 0x00000000 ∧
    (after (.isOwner 1) (owned 0 1 5160 1000 5160)).resp = 0x00010000 := by decide

/-! ## READ, WRITE, TRANSFER (sections 2.4 to 2.6) -/

/-- I6: a pure read on I2C. -/
theorem test_read_i2c :
    let s := { owned 0 0 5000 100 5001 with
      env := { quiet with i2c := [{ kind := .done [1, 2, 3, 4, 5, 6], tDone := some 1 }] } }
    let t := after (.read 0 6) s
    t.resp = 0x00060000 ∧ t.rbufBytes 6 = [1, 2, 3, 4, 5, 6] ∧ t.now = 5002 ∧
    t.i2clogOf 0 = [{ address := 0x44, written := [], rlen := 6, outcome := .ok }] := by decide

/-- U4: a polled UART read that ends at the deadline. -/
theorem test_read_uart_timeout :
    let s := { owned 2 4 200 1000 200 with env := { quiet with rx := [{ bytes := [], tRx := none }] } }
    let t := after (.read 4 2) s
    t.resp = 0x00000005 ∧ t.now = 1200 ∧ t.rbufValid = 0 := by decide

/-- P2: a pure write on SPI; every byte shifted in is discarded. -/
theorem test_write_spi :
    let s := { owned 1 3 1000 20 1000 with
      wbuf := writeBytes [] 0 [0x06, 0x01, 0x02], env := { quiet with spi := [0x5A, 0x5A, 0x5A] } }
    let t := after (.write 3 3) s
    t.resp = 0x00000000 ∧ t.rbufValid = 0 ∧ t.spilogOf 1 =
      [{ dev := 3, tx := 0x06, rx := 0x5A }, { dev := 3, tx := 0x01, rx := 0x5A }, { dev := 3, tx := 0x02, rx := 0x5A }]
    := by decide

/-- U2 (its board's flow control apart): a UART write that times out after two bytes. -/
theorem test_write_uart_timeout :
    let s := { owned 2 4 200 1000 200 with
      wbuf := writeBytes [] 0 [0x68, 0x65, 0x6C, 0x6C, 0x6F]
      env := { quiet with tx := [{ tPush := none, pushed := 2 }] } }
    let t := after (.write 4 5) s
    t.resp = 0x00000005 ∧ t.txlogOf 2 = [0x68, 0x65] ∧ t.now = 1200 ∧ t.owns 2 4 = true := by decide

/-- P4: more bytes written than read on SPI. -/
theorem test_transfer_spi :
    let s := { owned 1 3 1000 20 1000 with
      wbuf := writeBytes [] 0 [1, 2, 3], env := { quiet with spi := [0x10, 0x20, 0x30] } }
    let t := after (.transfer 3 3 1) s
    t.resp = 0x00010000 ∧ t.rbufBytes 1 = [0x10] ∧ (t.spilogOf 1).length = 3 := by decide

/-- I9: an outcome after the last poll is a timeout. -/
theorem test_transfer_i2c_timeout :
    let s := { owned 0 0 5000 100 5095 with
      wbuf := writeBytes [] 0 [0x2C, 0x06]
      env := { quiet with i2c := [{ kind := .done [0x61, 0x12, 0x8F], tDone := some 10 }] } }
    let t := after (.transfer 0 2 3) s
    t.resp = 0x00000005 ∧ t.now = 5100 ∧
    t.i2clogOf 0 = [{ address := 0x44, written := [0x2C, 0x06], rlen := 3, outcome := .timeout }] := by decide

/-! ## SET_INPUT_HANDLER, READ_LINE, READ_ALL (sections 2.6 and 2.7) -/

/-- Device 4 owns bus 2 of CFG-T and is its handler device, with a ring. -/
def listening (r : Ring) : State := ((owned 2 4 200 1000 200).setHandler 2 (some { dev := 4, cb := 1 })).setRing 4 r

/-- S6 after its six bytes: `"ab\ncd\n"`. -/
def twoLines : Ring where
  buf := [(0, 0x61), (1, 0x62), (2, 0x0A), (3, 0x63), (4, 0x64), (5, 0x0A)]
  head := 6
  tail := 0
  mark := some 6
  ovf := false

/-- U7 and U12: a new handler device has an empty ring. -/
theorem test_setInputHandler_registers :
    let t := after (.setInputHandler 4 1) ((fresh 200).setRing 4 twoLines)
    t.resp = 0x00000000 ∧ t.handler 2 = some { dev := 4, cb := 1 } ∧ (t.ring 4).head = 0 ∧ (t.ring 4).mark = none := by
  decide

/-- U6: device 0 is on an I2C bus. After the refusal no byte of `RBUF` is specified (R45, U3). -/
theorem test_setInputHandler_refused :
    let t := after (.setInputHandler 0 1) ((fresh 200).storeRbuf [1, 2])
    t.resp = 0x00000006 ∧ t.rbufValid = 0 := by decide

/-- S6: the first line, and then the second. -/
theorem test_readLine :
    let t := after (.readLine 4 255) (listening twoLines)
    t.resp = 0x00030000 ∧ t.rbufBytes 3 = [0x61, 0x62, 0x0A] ∧ (t.ring 4).tail = 3 ∧ (t.ring 4).mark = some 6 ∧
    (after (.readLine 4 255) t).rbufBytes 3 = [0x63, 0x64, 0x0A] ∧ ((after (.readLine 4 255) t).ring 4).mark = none := by
  decide

/-- G9: a line across the end of the ring. -/
theorem test_readLine_wraps :
    let t := after (.readLine 4 255) (listening
      { buf := [(0, 0x7A), (1, 0x0A), (14, 0x78), (15, 0x79)], head := 2, tail := 14, mark := some 2, ovf := false })
    t.resp = 0x00040000 ∧ t.rbufBytes 4 = [0x78, 0x79, 0x7A, 0x0A] ∧ (t.ring 4).tail = 2 ∧ (t.ring 4).mark = none := by
  decide

/-- G10: a byte that arrives while `READ_ALL` runs. -/
theorem test_readAll_late_byte :
    let s := { listening { twoLines with head := 2, mark := none } with
      env := { quiet with yields := [{ rx := [(2, 0x0A)], ms := 0, race := false }] } }
    let t := after (.readAll 4 16) s
    t.resp = 0x00020000 ∧ t.rbufBytes 2 = [0x61, 0x62] ∧ (t.ring 4).tail = 2 ∧ (t.ring 4).head = 3 ∧
    (t.ring 4).mark = some 3 := by decide

/-- G7: the marker is kept. -/
theorem test_readAll_keeps_marker :
    let t := after (.readAll 4 3) (listening
      { buf := [(0, 0x61), (1, 0x0A), (2, 0x62), (3, 0x0A), (4, 0x63)], head := 5, tail := 0, mark := some 4, ovf := false })
    t.resp = 0x00030000 ∧ t.rbufBytes 3 = [0x61, 0x0A, 0x62] ∧ (t.ring 4).tail = 3 ∧ (t.ring 4).mark = some 4 := by
  decide

/-! ## Receive events (section 2.7) -/

/-- A full ring of CFG-S. -/
def fullRing : State :=
  { listening { buf := [(0, 0x31), (1, 0x32), (2, 0x33)], head := 3, tail := 0, mark := none, ovf := false } with
    cfg := { Config.cfgT with ringCap := 4 } }

/-- G14: a full ring drops the newest byte. -/
theorem test_receive_overflow :
    let t := fullRing.rxByte 2 0x0A
    (t.ring 4).head = 3 ∧ (t.ring 4).mark = none ∧ (t.ring 4).ovf = true ∧ t.notify = [] := by decide

/-- U9: a stored byte and its callback. -/
theorem test_receive_stores :
    let t := (listening Ring.empty).rxByte 2 0x78
    memRead (t.ring 4).buf 0 = 0x78 ∧ (t.ring 4).head = 1 ∧ t.notify = [{ dev := 4, cb := 1, byte := 0x78 }] := by decide

/-! ## The step -/

/-- The host's placement of a word: the next step runs it. -/
theorem test_step_runs_placed_word : step (State.reset.withFetchWord 32 0x06000000) =
    .next { State.reset with cmd := 0x06000000, resp := 0x00000000 } := rfl

/-- A reserved word answers `InvalidArgument` (section 2.1). -/
theorem test_step_reserved_word : step (State.reset.withFetchWord 32 0x01000001) =
    .next { State.reset.spoilRbuf with cmd := 0x01000001, resp := 0x00000006 } := rfl

/-- R185: a reset abandons the command in `CMD`, which writes no response; the same `ACQUIRE 0` with a tick before the
reset runs. -/
theorem test_step_reset_abandons :
    (match step { fresh 5000 with cmd := 0x01000000, resp := 0x00010000, inputs := [.reset] } with
      | .next t => decide (t.busy = false ∧ t.resp = 0 ∧ (t.bus 0).locked = false ∧ t.inputs = [])
      | .fault _ => false
      | .refused _ => false) = true ∧
    (match step { fresh 5000 with cmd := 0x01000000, resp := 0x00010000, inputs := [.ticks 0, .reset] } with
      | .next t => decide (t.busy = false ∧ t.resp = 0 ∧ (t.bus 0).locked = true ∧ t.inputs = [.ticks 0, .reset])
      | .fault _ => false
      | .refused _ => false) = true := by decide

/-! ## Witnesses: states and operands that meet the hypotheses of each statement -/

theorem witness_EncodeOfDecode : decode 0x05000203 = .ok (.transfer 0 2 3) := by decide

theorem witness_ResponseWordFields : 0 < 65536 ∧ 65535 < 65536 := by decide

/-- One word for each clause of the statement on reserved words. -/
theorem witness_ReservedWordAnswersInvalidArgument :
    (∀ w : Word, ({ fresh 0 with cmd := w }).cfg.wellFormed = true ∧ ({ fresh 0 with cmd := w }).busy = true ∧
      ({ fresh 0 with cmd := w }).inputs.head? ≠ some .reset) ∧
    fieldOp 0x00FFFFFF = 0x00 ∧ 0x0A ≤ (fieldOp 0x0A000000).toNat ∧ 0x0A ≤ (fieldOp 0xFF000000).toNat ∧
    (fieldOp 0x01000001 = 0x01 ∧ fieldB 0x01000001 ≠ 0) ∧ (fieldOp 0x06010100 = 0x06 ∧ fieldA 0x06010100 ≠ 0) ∧
    (fieldOp 0x0904FF10 = 0x09 ∧ fieldA 0x0904FF10 ≠ 0) ∧ (fieldOp 0x04000001 = 0x04 ∧ fieldB 0x04000001 ≠ 0) :=
  ⟨fun _ => ⟨test_cfgT_wellFormed, rfl, nofun⟩, by decide⟩

theorem witness_StepRunsDecodedCommand :
    let s := { fresh 0 with cmd := 0x05FFFFFF }
    s.cfg.wellFormed = true ∧ s.busy = true ∧ s.inputs.head? ≠ some .reset ∧
    decode s.cmd = .ok (.transfer 255 255 255) := by decide

/-- An idle block with one stimulus. -/
def idle (l : List Input) : State := { State.reset with inputs := l }

/-- One stimulus of each kind; the host's writes at both sides of the end of `WBUF`. -/
theorem witness_IdleBlockTakesStimulus :
    ∀ l ∈ ([[], [.command 0x01000000], [.hostWrite 255 1], [.hostWrite 256 1], [.rxByte 2 1], [.ticks 1], [.reset]] :
        List (List Input)),
      (idle l).cfg.wellFormed = true ∧ (idle l).busy = false ∧ (idle l).inputs = l := by decide

/-- CFG-T with a ring capacity one below the range of R6. -/
def narrow : State := State.boot { Config.cfgT with ringCap := 1 } 0

theorem witness_IllFormedConfigurationRefused :
    ¬ ((1 ≤ narrow.cfg.buses.length ∧ narrow.cfg.buses.length ≤ 256 ∧ 1 ≤ narrow.cfg.devs.length ∧
        narrow.cfg.devs.length ≤ 256) ∧
      (∀ b ∈ narrow.cfg.buses, 1 ≤ b.defaultTimeout.toNat ∧ b.defaultTimeout.toNat < 2 ^ 31) ∧
      (2 ≤ narrow.cfg.ringCap ∧ narrow.cfg.ringCap ≤ 256) ∧
      (narrow.cfg.i2cSpeedA ≠ narrow.cfg.i2cSpeedB ∧ narrow.cfg.i2cSpeedA ≠ 0 ∧ narrow.cfg.i2cSpeedB ≠ 0) ∧
      (∀ d ∈ narrow.cfg.devs, ∃ b, narrow.cfg.buses[d.bus.toNat]? = some b ∧
        (b.kind = .i2c → d.chipSelect = none ∧ d.address.toNat < 128)) ∧
      (∀ (i j : Nat) (p q : ChipSelect), i ≠ j → narrow.cfg.devs[i]?.bind (fun d => d.chipSelect) = some p →
        narrow.cfg.devs[j]?.bind (fun d => d.chipSelect) = some q → (p.port, p.pin) ≠ (q.port, q.pin)) ∧
      (∀ d ∈ narrow.cfg.devs, d.inactivityTimeout.toNat < 2 ^ 31 ∧ d.powerUpDelay.toNat < 2 ^ 31 ∧ d.speed ≠ 0)) :=
  fun h => absurd h.2.2.1.1 (by decide)

theorem witness_StepAlwaysAnswers :
    (idle [.hostWrite 255 1]).cfg.wellFormed = true ∧
    (∀ off x rest, (idle [.hostWrite 255 1]).busy = false →
      (idle [.hostWrite 255 1]).inputs = .hostWrite off x :: rest → off < 256) :=
  ⟨by decide, fun _ _ _ _ h => by cases h; decide⟩

theorem witness_ConfigurationIsImmutable : ∃ t, step (idle [.ticks 1]) = .next t := ⟨_, rfl⟩

theorem witness_InvalidDeviceIndexAnswersInvalidArgument :
    (fresh 0).cfg.devs.length ≤ (Instr.acquire 6).dev.toNat ∧
    (fresh 0).cfg.devs.length ≤ (Instr.isOwner 255).dev.toNat := by decide

/-- With a timeout of the device's own, and with the bus's default. -/
theorem witness_AcquireByOwnerRenews :
    ((owned 0 0 5000 100 5260).dev? 0 = some dev0 ∧ ((owned 0 0 5000 100 5260).bus dev0.bus).locked = true ∧
      ((owned 0 0 5000 100 5260).bus dev0.bus).ownerId = 0 ∧ dev0.inactivityTimeout ≠ 0) ∧
    ((owned 0 1 5000 100 5260).dev? 1 = some dev1 ∧ ((owned 0 1 5000 100 5260).bus dev1.bus).locked = true ∧
      ((owned 0 1 5000 100 5260).bus dev1.bus).ownerId = 1 ∧ dev1.inactivityTimeout = 0) := by decide

/-- A3: one millisecond before the deadline. -/
theorem witness_LockedHasNoSideEffect :
    ((owned 0 0 5060 100 5159).dev? 1 = some dev1 ∧ ((owned 0 0 5060 100 5159).bus dev1.bus).locked = true ∧
      ((owned 0 0 5060 100 5159).bus dev1.bus).ownerId ≠ 1 ∧
      ((owned 0 0 5060 100 5159).now - ((owned 0 0 5060 100 5159).bus dev1.bus).expStart).toNat <
        ((owned 0 0 5060 100 5159).bus dev1.bus).expInterval.toNat) ∧
    ∃ t, exec (.acquire 1) (owned 0 0 5060 100 5159) = .next t ∧ respStatus t.resp = BusStatus.locked.code :=
  ⟨by decide, _, rfl, by decide⟩

/-- A3 and A4: one millisecond before the deadline, and at it. -/
theorem witness_LockedAnsweredIffLockIsLive :
    ((owned 0 0 5060 100 5159).dev? 1 = some dev1 ∧ ((owned 0 0 5060 100 5159).bus dev1.bus).locked = true ∧
      ((owned 0 0 5060 100 5159).bus dev1.bus).ownerId ≠ 1) ∧
    ((owned 0 0 5060 100 5160).dev? 1 = some dev1 ∧ ((owned 0 0 5060 100 5160).bus dev1.bus).locked = true ∧
      ((owned 0 0 5060 100 5160).bus dev1.bus).ownerId ≠ 1) ∧
    (∃ t, exec (.acquire 1) (owned 0 0 5060 100 5159) = .next t) ∧
    (∃ t, exec (.acquire 1) (owned 0 0 5060 100 5160) = .next t) := ⟨by decide, by decide, ⟨_, rfl⟩, ⟨_, rfl⟩⟩

/-- A free I2C bus, a stale one, and a free bus of a device with a chip-select. -/
theorem witness_AcquireTakesFreeOrStaleBus :
    ((fresh 0).dev? 0 = some dev0 ∧ (fresh 0).busCfg? dev0.bus = some Config.cfgT.buses[0] ∧
      dev0.speed = (fresh 0).cfg.i2cSpeedA ∧ ((fresh 0).bus dev0.bus).locked = false) ∧
    ((owned 0 0 5060 100 5160).dev? 1 = some dev1 ∧ dev1.speed = (fresh 0).cfg.i2cSpeedB ∧
      ((owned 0 0 5060 100 5160).bus dev1.bus).locked = true ∧
      ((owned 0 0 5060 100 5160).bus dev1.bus).ownerId ≠ 1 ∧ (owned 0 0 5060 100 5160).elapsed dev1.bus = true) ∧
    ((fresh 0).dev? 2 = some dev2 ∧ (fresh 0).busCfg? dev2.bus = some Config.cfgT.buses[1] ∧
      dev2.chipSelect.isSome = true ∧ ((fresh 0).bus dev2.bus).locked = false) := by decide

/-- A18, with a teardown that succeeds and with one that fails. -/
def evicted (td : Teardown) : State :=
  ({ owned 1 2 1005 50 1055 with env := { quiet with teardowns := [td] } }).setCs 2 true

theorem witness_EvictionReleasesStaleOwner :
    (∀ td ∈ ([.succeeded, .failed true, .failed false] : List Teardown), (evicted td).dev? 3 = some dev3 ∧
      ((evicted td).bus dev3.bus).locked = true ∧ ((evicted td).bus dev3.bus).ownerId = 2 ∧ (2 : DevId) ≠ 3 ∧
      (evicted td).elapsed dev3.bus = true ∧ (evicted td).hasCs 2 = true ∧ (evicted td).drawTeardown.1 = td) ∧
    (∃ t, exec (.acquire 3) (evicted .succeeded) = .next t) ∧
    (∃ t, exec (.acquire 3) (evicted (.failed true)) = .next t) := ⟨by decide, ⟨_, rfl⟩, ⟨_, rfl⟩⟩

/-- A13 and A14: a free bus and a stale one. -/
theorem witness_AcquireBringUpFailureLeavesBusFree :
    ∀ s ∈ ([fresh 0, owned 0 0 5000 100 5100] : List State),
      s.dev? 5 = some dev5 ∧ s.busIs dev5.bus .i2c = true ∧ dev5.speed ≠ s.cfg.i2cSpeedA ∧
      dev5.speed ≠ s.cfg.i2cSpeedB ∧
      ((s.bus dev5.bus).locked = true → (s.bus dev5.bus).ownerId ≠ 5 ∧ s.elapsed dev5.bus = true) := by decide

/-- CFG-T with its UART device given a chip-select and a delay, and its last device put on the same bus. -/
def uartSelect : State :=
  { fresh 1000 with
    cfg := { Config.cfgT with
      devs := Config.cfgT.devs.take 4 ++
        [{ dev4 with chipSelect := some pin3, powerUpDelay := 7 }, { dev5 with bus := 2, powerUpDelay := 9 }] } }

/-- A9 and A11 (a chip-select newly asserted, and one that is already asserted), an eviction (A18), a UART device with
a chip-select, and a device without one that names a delay. -/
theorem witness_PowerUpDelayOnlyWhenNewlyAsserted :
    (∀ s ∈ ([fresh 1000, (fresh 1010).setCs 2 true, owned 1 3 1000 20 1020] : List State),
      s.dev? 2 = some dev2 ∧ s.busCfg? dev2.bus = some Config.cfgT.buses[1] ∧
      ((s.bus dev2.bus).locked = true → (s.bus dev2.bus).ownerId ≠ 2 ∧ s.elapsed dev2.bus = true) ∧
      dev2.chipSelect.isSome = true ∧ dev2.powerUpDelay ≠ 0 ∧
      s.env.yields = calm :: [calm, calm, calm] ∧ s.env.drifts = 0 :: 0 :: []) ∧
    (fresh 1000).csOf 2 = false ∧ ((fresh 1010).setCs 2 true).csOf 2 = true ∧
    ((owned 1 3 1000 20 1020).bus 1).locked = true ∧
    (uartSelect.dev? 4 = some { dev4 with chipSelect := some pin3, powerUpDelay := 7 } ∧
      uartSelect.busCfg? dev4.bus = some Config.cfgT.buses[2] ∧ uartSelect.csOf 4 = false ∧
      (uartSelect.bus dev4.bus).locked = false) ∧
    (uartSelect.dev? 5 = some { dev5 with bus := 2, powerUpDelay := 9 } ∧ dev5.chipSelect = none) := by decide

/-- Device 2 of CFG-T waits its delay, while a byte arrives for device 4, on a free bus and after an eviction. -/
theorem witness_AcquireReceiveEvents :
    let y : Yield := { rx := [(2, 0x78)], ms := 0, race := false }
    (∀ td ∈ ([.succeeded, .failed true] : List Teardown),
      let s := { owned 1 3 1000 20 1020 with env := { quiet with yields := [y], teardowns := [td] } }
      s.dev? 2 = some dev2 ∧ s.env.yields = y :: [] ∧ dev2.chipSelect.isSome = true ∧ s.csOf 2 = false ∧
      dev2.powerUpDelay ≠ 0 ∧ (s.bus dev2.bus).locked = true ∧ (s.bus dev2.bus).ownerId ≠ 2 ∧
      s.elapsed dev2.bus = true ∧ s.drawTeardown.1 = td) ∧
    ((listening twoLines).bus dev2.bus).locked = false ∧ (listening twoLines).csOf 2 = false ∧
    (fresh 0).dev? 0 = some dev0 ∧ dev0.chipSelect = none := by decide

theorem witness_AcquireFrame :
    (evicted .succeeded).dev? 3 = some dev3 ∧ (∃ t, exec (.acquire 3) (evicted .succeeded) = .next t) :=
  ⟨by decide, ⟨_, rfl⟩⟩

theorem witness_ReleaseByOwnerUnlocks :
    ∀ td ∈ ([.succeeded, .failed true, .failed false] : List Teardown), (evicted td).dev? 2 = some dev2 ∧
      ((evicted td).bus dev2.bus).locked = true ∧ ((evicted td).bus dev2.bus).ownerId = 2 ∧
      (evicted td).drawTeardown.1 = td ∧ dev2.chipSelect.isSome = true := by decide

/-- S4: a bus that another device owns, and a free one. -/
theorem witness_ReleaseByNonOwnerChangesNothing :
    ∀ s ∈ ([owned 0 0 5000 100 5000, fresh 0] : List State), s.dev? 1 = some dev1 ∧
      ¬ ((s.bus dev1.bus).locked = true ∧ (s.bus dev1.bus).ownerId = 1) := by decide

theorem witness_IsOwnerAnswersOwnership : (owned 0 0 5000 100 5000).dev? 1 = some dev1 := by decide

/-- T1 and T4, for each I/O command. -/
theorem witness_IoWithoutOwnershipAnswersNotOwned :
    (∀ i ∈ ([.read 1 3, .write 1 2, .transfer 1 0 0] : List Instr), i.io?.isSome = true ∧ i.dev = 1) ∧
    ∀ s ∈ ([owned 0 0 5000 100 5000, fresh 0] : List State), s.dev? 1 = some dev1 ∧
      ¬ ((s.bus dev1.bus).locked = true ∧ (s.bus dev1.bus).ownerId = 1) := by decide

/-- Device 0 owns a bus that is a `TX_ONLY` UART. -/
def txOnlyOwned : State :=
  { owned 0 0 0 100 0 with
    cfg := { Config.cfgT with buses := [{ kind := .uart, uartMode := .txOnly, defaultTimeout := 1, wiring := [] }] } }

/-- T3 (both lengths 0), T8 (a handler is registered), and a bus that is `TX_ONLY`. -/
theorem witness_IoArgumentChecks :
    ((Instr.read 0 0).io? = some (0, 0, 0) ∧ (owned 0 0 0 100 0).dev? 0 = some dev0 ∧
      ((owned 0 0 0 100 0).bus dev0.bus).locked = true ∧ ((owned 0 0 0 100 0).bus dev0.bus).ownerId = 0) ∧
    ((Instr.read 4 1).io? = some (4, 0, 1) ∧ (listening twoLines).dev? 4 = some dev4 ∧
      ((listening twoLines).bus dev4.bus).locked = true ∧ ((listening twoLines).bus dev4.bus).ownerId = 4 ∧
      (listening twoLines).busIs dev4.bus .uart = true ∧ (1 : Byte) ≠ 0 ∧ (listening twoLines).handler dev4.bus ≠ none) ∧
    ((Instr.transfer 0 1 1).io? = some (0, 1, 1) ∧ txOnlyOwned.dev? 0 = some dev0 ∧
      (txOnlyOwned.bus dev0.bus).locked = true ∧ (txOnlyOwned.bus dev0.bus).ownerId = 0 ∧
      txOnlyOwned.busIs dev0.bus .uart = true ∧ txOnlyOwned.busTxOnly dev0.bus = true) := by decide

/-- Device 0 owns its I2C bus with 99 ms left, and its slave gives this answer. -/
def i2cBusy (k : I2cKind) (tDone : Option Nat) : State :=
  { owned 0 0 5000 100 5001 with env := { quiet with i2c := [{ kind := k, tDone := tDone }] } }

/-- The answers at both ends of each case of R116 (99 ms left, granularity 1). -/
theorem witness_I2cTransactionOutcome :
    (∀ o ∈ ([some 0, some 98, some 99, some 100, some 101, none] : List (Option Nat)),
      (Instr.transfer 0 2 3).io? = some (0, 2, 3) ∧ (i2cBusy (.done [1, 2, 3]) o).dev? 0 = some dev0 ∧
      ((i2cBusy (.done [1, 2, 3]) o).bus dev0.bus).locked = true ∧
      ((i2cBusy (.done [1, 2, 3]) o).bus dev0.bus).ownerId = 0 ∧
      (i2cBusy (.done [1, 2, 3]) o).busIs dev0.bus .i2c = true ∧ ¬ ((2 : Byte) = 0 ∧ (3 : Byte) = 0) ∧
      (i2cBusy (.done [1, 2, 3]) o).drawI2c.1 = { kind := .done [1, 2, 3], tDone := o } ∧
      (i2cBusy (.done [1, 2, 3]) o).remaining dev0.bus = 99 ∧
      (i2cBusy (.done [1, 2, 3]) o).cfg.pollGranularity = 1) ∧
    (∀ r, I2cKind.done [1, 2, 3] = .done r → r.length = (3 : Byte).toNat) ∧
    (∀ k, I2cKind.done [1, 2, 3] = .dataNack k → k < (2 : Byte).toNat) ∧
    (i2cBusy (.dataNack 1) none).drawI2c.1 = { kind := .dataNack 1, tDone := none } ∧
    (∀ k, I2cKind.dataNack 1 = .dataNack k → k < (2 : Byte).toNat) :=
  ⟨by decide, fun r h => (by cases h; rfl), fun k h => (by cases h), by decide, fun k h => (by cases h; decide)⟩

theorem witness_I2cCommandTimeBound :
    let s := i2cBusy .error none
    (Instr.read 0 3).io? = some (0, 0, 3) ∧ s.dev? 0 = some dev0 ∧ (s.bus dev0.bus).locked = true ∧
    (s.bus dev0.bus).ownerId = 0 ∧ s.busIs dev0.bus .i2c = true ∧ ¬ ((0 : Byte) = 0 ∧ (3 : Byte) = 0) := by decide

/-- P1 and P4: more read than written, and more written than read. -/
theorem witness_SpiTransferExchangesBytes :
    let s := { owned 1 3 1000 20 1000 with env := { quiet with spi := [0xFF, 0xC2, 0x20, 0x17, 0x00] } }
    (Instr.transfer 3 1 4).io? = some (3, 1, 4) ∧ (Instr.transfer 3 3 1).io? = some (3, 3, 1) ∧
    s.dev? 3 = some dev3 ∧ (s.bus dev3.bus).locked = true ∧ (s.bus dev3.bus).ownerId = 3 ∧
    s.busIs dev3.bus .spi = true ∧ s.env.spi = [0xFF, 0xC2, 0x20, 0x17] ++ [0x00] ∧
    ([0xFF, 0xC2, 0x20, 0x17] : List Byte).length = max (1 : Byte).toNat (4 : Byte).toNat ∧
    s.env.spi = [0xFF, 0xC2, 0x20] ++ [0x17, 0x00] ∧
    ([0xFF, 0xC2, 0x20] : List Byte).length = max (3 : Byte).toNat (1 : Byte).toNat := by decide

theorem witness_SpiTransferAlwaysOk :
    let s := owned 1 3 1000 20 1500
    (Instr.transfer 3 1 1).io? = some (3, 1, 1) ∧ s.dev? 3 = some dev3 ∧ (s.bus dev3.bus).locked = true ∧
    (s.bus dev3.bus).ownerId = 3 ∧ s.busIs dev3.bus .spi = true ∧ ¬ ((1 : Byte) = 0 ∧ (1 : Byte) = 0) := by decide

/-- Device 4 owns its UART bus with 1000 ms left and no handler, and the peer gives these answers. -/
def uartBusy (tPush tRx : Option Nat) : State :=
  { owned 2 4 200 1000 200 with
    env := { quiet with tx := [{ tPush := tPush, pushed := 1 }], rx := [{ bytes := [0x68, 0x69], tRx := tRx }] } }

theorem witness_UartWriteOutcome :
    ∀ o ∈ ([some 0, some 999, some 1000, some 1001, some 1002, none] : List (Option Nat)),
      (Instr.write 4 2).io? = some (4, 2, 0) ∧ (uartBusy o none).dev? 4 = some dev4 ∧
      ((uartBusy o none).bus dev4.bus).locked = true ∧ ((uartBusy o none).bus dev4.bus).ownerId = 4 ∧
      (uartBusy o none).busIs dev4.bus .uart = true ∧ (2 : Byte) ≠ 0 ∧
      (uartBusy o none).drawTx.1 = { tPush := o, pushed := 1 } ∧ (uartBusy o none).remaining dev4.bus = 1000 := by decide

theorem witness_UartPolledReadOutcome :
    ∀ o ∈ ([some 0, some 999, some 1000, some 1001, some 1002, none] : List (Option Nat)),
      (Instr.read 4 2).io? = some (4, 0, 2) ∧ (uartBusy none o).dev? 4 = some dev4 ∧
      ((uartBusy none o).bus dev4.bus).locked = true ∧ ((uartBusy none o).bus dev4.bus).ownerId = 4 ∧
      (uartBusy none o).busIs dev4.bus .uart = true ∧ (uartBusy none o).busTxOnly dev4.bus = false ∧
      (uartBusy none o).handler dev4.bus = none ∧ (2 : Byte) ≠ 0 ∧
      (uartBusy none o).drawRx.1 = { bytes := [0x68, 0x69], tRx := o } ∧
      ([0x68, 0x69] : List Byte).length = (2 : Byte).toNat := by decide

/-- Writes that finish 500 ms before the deadline, and reads that finish at every boundary of the sum of both times;
and writes that do not finish. -/
theorem witness_UartWriteThenRead :
    (∀ p ∈ ([some 500, some 1002, none] : List (Option Nat)),
      ∀ q ∈ ([some 499, some 500, some 501, some 502, none] : List (Option Nat)),
      let s := uartBusy p q
      s.dev? 4 = some dev4 ∧ (s.bus dev4.bus).locked = true ∧ (s.bus dev4.bus).ownerId = 4 ∧
      s.busIs dev4.bus .uart = true ∧ s.busTxOnly dev4.bus = false ∧ s.handler dev4.bus = none ∧
      s.env.tx = { tPush := p, pushed := 1 } :: [] ∧ s.env.rx = { bytes := [0x68, 0x69], tRx := q } :: [] ∧
      ([0x68, 0x69] : List Byte).length = (2 : Byte).toNat ∧ s.env.yields = calm :: calm :: [calm, calm] ∧
      calm.ms = 0 ∧ s.env.drifts = 0 :: [0] ∧ s.remaining dev4.bus = 1000 ∧ s.cfg.pollGranularity = 1) ∧
    (1 : Byte) ≠ 0 ∧ (2 : Byte) ≠ 0 := by decide

theorem witness_IoFrame :
    (Instr.transfer 4 1 2).io? = some (4, 1, 2) ∧ (uartBusy (some 1) (some 1)).dev? 4 = some dev4 ∧
    (∃ t, exec (.transfer 4 1 2) (uartBusy (some 1) (some 1)) = .next t) := ⟨by decide, by decide, ⟨_, rfl⟩⟩

/-- U7 and U10: a device that is not the handler device, and one that is. -/
theorem witness_RegisterInputHandler :
    (∀ s ∈ ([fresh 0, listening twoLines] : List State), s.dev? 4 = some dev4 ∧ s.busIs dev4.bus .uart = true ∧
      s.busTxOnly dev4.bus = false ∧ (7 : Byte) ≠ 0) ∧
    (fresh 0).isHandler dev4.bus 4 = false ∧ (listening twoLines).isHandler dev4.bus 4 = true := by decide

theorem witness_UnregisterInputHandler :
    (∀ s ∈ ([fresh 0, listening twoLines] : List State), s.dev? 4 = some dev4 ∧ s.busIs dev4.bus .uart = true) ∧
    (fresh 0).isHandler dev4.bus 4 = false ∧ (listening twoLines).isHandler dev4.bus 4 = true := by decide

/-- U14: the UART of CFG-T made `TX_ONLY`. -/
def txOnly : State :=
  { fresh 0 with
    cfg := { Config.cfgT with
      buses := Config.cfgT.buses.take 2 ++ [{ kind := .uart, uartMode := .txOnly, defaultTimeout := 1000, wiring := [] }] } }

/-- U6, U14, G11 and G12. -/
theorem witness_UartCommandsRefused :
    ((fresh 0).dev? 0 = some dev0 ∧ (fresh 0).busIs dev0.bus .uart = false) ∧
    (txOnly.dev? 4 = some dev4 ∧ txOnly.busIs dev4.bus .uart = true ∧ (1 : Byte) ≠ 0 ∧
      txOnly.busTxOnly dev4.bus = true) ∧
    ((fresh 0).dev? 4 = some dev4 ∧ (fresh 0).isHandler dev4.bus 4 = false) := by decide

/-- The ring of S6 is sound. -/
theorem twoLines_ok : twoLines.ok 16 := ⟨by decide, by decide, by decide, by decide, by decide, by decide, by decide⟩

/-- An empty ring is sound. -/
theorem empty_ok : Ring.empty.ok 16 :=
  ⟨by decide, by decide, fun i hi => absurd (show i < 0 from hi) (Nat.not_lt_zero i)⟩

theorem witness_ReadLineReturnsFirstLine :
    let s := listening twoLines
    s.dev? 4 = some dev4 ∧ s.busIs dev4.bus .uart = true ∧ s.isHandler dev4.bus 4 = true ∧
    (s.ring 4).ok s.cfg.ringCap ∧ (s.ring 4).mark = some 6 :=
  ⟨by decide, by decide, by decide, twoLines_ok, by decide⟩

theorem witness_ReadLineWithoutLine :
    let s := listening { twoLines with head := 2, mark := none, ovf := true }
    s.dev? 4 = some dev4 ∧ s.busIs dev4.bus .uart = true ∧ s.isHandler dev4.bus 4 = true ∧
    (s.ring 4).mark = none := by decide

theorem witness_ReadAllReturnsUnreadBytes :
    let s := listening twoLines
    s.dev? 4 = some dev4 ∧ s.busIs dev4.bus .uart = true ∧ s.isHandler dev4.bus 4 = true := by decide

theorem witness_ReadAllUpdatesAfterYield :
    let s := listening twoLines
    s.dev? 4 = some dev4 ∧ s.busIs dev4.bus .uart = true ∧ s.isHandler dev4.bus 4 = true ∧
    s.env.yields = calm :: [calm, calm, calm] := by decide

theorem witness_RingCommandFrame :
    (∃ t, exec (.readLine 4 255) (listening twoLines) = .next t) ∧
    (∃ t, exec (.readAll 4 255) (listening twoLines) = .next t) := ⟨⟨_, rfl⟩, ⟨_, rfl⟩⟩

/-- U8 and U9: the event is disabled while the transport is down. -/
theorem witness_ReceiveEnabledExactlyWhen :
    (listening twoLines).rxEnabled 2 = true ∧
    ((fresh 0).setHandler 2 (some { dev := 4, cb := 1 })).rxEnabled 2 = false := by decide

theorem witness_ReceiveStoresByte :
    let s := listening twoLines
    s.rxEnabled 2 = true ∧ s.handler 2 = some { dev := 4, cb := 1 } ∧ (s.ring 4).ok s.cfg.ringCap ∧
    ((s.ring 4).head + 1) % s.cfg.ringCap ≠ (s.ring 4).tail := ⟨by decide, by decide, twoLines_ok, by decide⟩

theorem witness_ReceiveOverflowDropsNewest :
    fullRing.rxEnabled 2 = true ∧ fullRing.handler 2 = some { dev := 4, cb := 1 } ∧
    ((fullRing.ring 4).head + 1) % fullRing.cfg.ringCap = (fullRing.ring 4).tail := by decide

/-- Armed 0x10 before the wrap; 31 and 32 ms later (A16, A17). -/
theorem witness_ElapsedAcrossWrap :
    ((owned 0 0 0xFFFFFFF0 32 0x0F).now = ((owned 0 0 0xFFFFFFF0 32 0x0F).bus 0).expStart + BitVec.ofNat 32 31) ∧
    ((owned 0 0 0xFFFFFFF0 32 0x10).now = ((owned 0 0 0xFFFFFFF0 32 0x10).bus 0).expStart + BitVec.ofNat 32 32) ∧
    32 < 2 ^ 32 := by decide

theorem witness_StatusesByCommand : ∃ t, exec (.transfer 0 2 3) (i2cBusy (.dataNack 1) (some 1)) = .next t := ⟨_, rfl⟩

theorem witness_OnlyArbiterCommandsWriteBuses :
    (∃ t, exec (.release 0) (owned 0 0 5000 100 5000) = .next t) ∧ (Instr.release 0).mnemonic ≠ .acquire ∧
    (∃ t, exec (.write 4 1) (uartBusy (some 1) none) = .next t) ∧ (Instr.write 4 1).mnemonic ≠ .acquire ∧
    (Instr.write 4 1).mnemonic ≠ .release := ⟨⟨_, rfl⟩, by decide, ⟨_, rfl⟩, by decide, by decide⟩

theorem witness_TailWrittenByConsumerOnly :
    (∃ t, exec (.acquire 2) (fresh 0) = .next t) ∧ (Instr.acquire 2).mnemonic ≠ .readLine ∧
    (Instr.acquire 2).mnemonic ≠ .readAll ∧ (Instr.acquire 2).mnemonic ≠ .setInputHandler :=
  ⟨⟨_, rfl⟩, by decide, by decide, by decide⟩

theorem witness_LogsOnlyGrow : ∃ t, exec (.write 4 2) (uartBusy (some 1) none) = .next t := ⟨_, rfl⟩

/-- An idle block and a busy one. -/
theorem witness_ResetEventRestoresRegisters :
    ∀ busy ∈ ([false, true] : List Bool),
      let s := { idle [.reset, .ticks 1] with busy := busy, cmd := 0x01000000 }
      s.cfg.wellFormed = true ∧ s.inputs = .reset :: [.ticks 1] := by decide

theorem witness_ResetIsSafe : Config.cfgT.wellFormed = true := by decide

/-- A state in use: device 4 owns its bus, listens, has two lines buffered, and `READ_LINE 4, 255` is in `CMD`. -/
def inUse : State := { listening twoLines with cmd := 0x080400FF }

theorem inUse_ring (d : DevId) : inUse.ring d = if d = 4 then twoLines else Ring.empty := by
  simp only [inUse, listening]
  exact State.setRing_ring _ 4 d twoLines

theorem inUse_steps : ∃ t, step inUse = .next t := ⟨_, rfl⟩

theorem witness_StepKeepsRingInvariant : inUse.ringsOk ∧ ∃ t, step inUse = .next t := by
  refine ⟨fun d => ?_, inUse_steps⟩
  rw [inUse_ring]
  split
  · exact twoLines_ok
  · exact empty_ok

theorem witness_StepKeepsArbiterInvariant : inUse.arbiterOk ∧ ∃ t, step inUse = .next t := by
  refine ⟨fun b => ?_, inUse_steps⟩
  by_cases hb : b = 2
  · subst hb
    exact (if_pos (by decide)).mpr ⟨dev4, by decide, by decide, by decide, by decide, by decide, by decide⟩
  · have h : inUse.bus b = Bus.free :=
      (State.setBus_bus (fresh 200) 2 b
        { ownerId := 4, locked := true, expStart := 200, expInterval := 1000, up := true }).trans (if_neg hb)
    unfold State.busOk
    rw [h]
    rfl

theorem witness_StepKeepsCanonicalForm : inUse.canonical ∧ ∃ t, step inUse = .next t := by
  refine ⟨⟨by decide, by decide, fun d => ?_, by decide, by decide, by decide, by decide, by decide, by decide, by decide⟩,
    inUse_steps⟩
  rw [inUse_ring]
  split <;> decide

theorem witness_StepKeepsHandlerInvariant : inUse.handlersOk ∧ ∃ t, step inUse = .next t := by
  refine ⟨fun b h hb => ?_, inUse_steps⟩
  by_cases h2 : b = 2
  · subst h2
    have h3 : some h = some { dev := 4, cb := 1 } := hb.symm.trans (by decide)
    cases h3
    exact ⟨by decide, by decide, by decide, dev4, by decide, by decide⟩
  · have h3 : inUse.handler b = none :=
      (State.setHandler_handler (owned 2 4 200 1000 200) 2 b (some { dev := 4, cb := 1 })).trans (if_neg h2)
    rw [h3] at hb
    cases hb

theorem witness_StepKeepsResponseForm : inUse.portOk ∧ ∃ t, step inUse = .next t :=
  ⟨⟨.ok, false, 0, by decide, by decide, by decide⟩, inUse_steps⟩

end Sys2Proof.Tests
end

section
/-! What each check of a well-formed configuration says of the records it ranges over (R6, R7), and the refusal of every
other configuration. -/

namespace Sys2Proof

/-- A well-formed configuration passes each check. -/
theorem Board.wellFormed_iff (c : Board) :
    c.wellFormed = true ↔
      c.countsOk = true ∧ c.defaultsOk = true ∧ c.ringCapOk = true ∧ c.canonicalSpeedsOk = true ∧
        c.busIndicesOk = true ∧ c.i2cDevicesOk = true ∧ c.pinsOk = true ∧ c.intervalsOk = true ∧
        c.speedsOk = true := by
  simp only [Board.wellFormed, Bool.and_eq_true, and_assoc]

theorem Board.countsOk_iff (c : Board) :
    c.countsOk = true ↔ 1 ≤ c.buses.length ∧ c.buses.length ≤ 256 ∧ 1 ≤ c.devs.length ∧ c.devs.length ≤ 256 := by
  simp only [Board.countsOk, decide_eq_true_eq]

theorem Board.defaultsOk_iff (c : Board) :
    c.defaultsOk = true ↔ ∀ b ∈ c.buses, 1 ≤ b.defaultTimeout.toNat ∧ b.defaultTimeout.toNat < 2 ^ 31 := by
  simp only [Board.defaultsOk, List.all_eq_true, decide_eq_true_eq]

theorem Board.ringCapOk_iff (c : Board) : c.ringCapOk = true ↔ 2 ≤ c.ringCap ∧ c.ringCap ≤ 256 := by
  simp only [Board.ringCapOk, decide_eq_true_eq]

theorem Board.canonicalSpeedsOk_iff (c : Board) :
    c.canonicalSpeedsOk = true ↔ c.i2cSpeedA ≠ c.i2cSpeedB ∧ c.i2cSpeedA ≠ 0 ∧ c.i2cSpeedB ≠ 0 := by
  simp only [Board.canonicalSpeedsOk, decide_eq_true_eq]

theorem Board.busIndicesOk_iff (c : Board) :
    c.busIndicesOk = true ↔ ∀ d ∈ c.devs, d.bus.toNat < c.buses.length := by
  simp only [Board.busIndicesOk, List.all_eq_true, decide_eq_true_eq]

theorem Board.intervalsOk_iff (c : Board) :
    c.intervalsOk = true ↔ ∀ d ∈ c.devs, d.inactivityTimeout.toNat < 2 ^ 31 ∧ d.powerUpDelay.toNat < 2 ^ 31 := by
  simp only [Board.intervalsOk, List.all_eq_true, decide_eq_true_eq]

theorem Board.speedsOk_iff (c : Board) : c.speedsOk = true ↔ ∀ d ∈ c.devs, d.speed ≠ 0 := by
  simp only [Board.speedsOk, List.all_eq_true, decide_eq_true_eq]

/-- A device on an I2C bus that exists has no chip-select and a 7-bit address (R7 (b)). -/
theorem Board.i2c_device_of_i2cDevicesOk {c : Board} (h : c.i2cDevicesOk = true) {d : DevCfg} (hd : d ∈ c.devs)
    {b : BusCfg} (hb : c.buses[d.bus.toNat]? = some b) :
    b.kind = .i2c → d.chipSelect = none ∧ d.address.toNat < 128 := by
  have hd := List.all_eq_true.1 h d hd
  simpa only [hb, decide_eq_true_eq] using hd

/-- Different devices have different chip-select pins (R7 (c)), as `Board.pinsOk` says of the list of pins. -/
theorem Board.pins_ne_of_pinsOk {c : Board} (h : c.pinsOk = true) {i j : Nat} {p q : ChipSelect} (hij : i ≠ j)
    (hp : c.devs[i]?.bind (fun d => d.chipSelect) = some p) (hq : c.devs[j]?.bind (fun d => d.chipSelect) = some q) :
    (p.port, p.pin) ≠ (q.port, q.pin) := by
  obtain ⟨d, hd, hdp⟩ := Option.bind_eq_some_iff.1 hp
  obtain ⟨e, he, heq⟩ := Option.bind_eq_some_iff.1 hq
  obtain ⟨hi, rfl⟩ := List.getElem?_eq_some_iff.1 hd
  obtain ⟨hj, rfl⟩ := List.getElem?_eq_some_iff.1 he
  have hpins := List.pairwise_iff_getElem.1 (List.pairwise_filterMap.1 (of_decide_eq_true h))
  rcases Nat.lt_or_gt_of_ne hij with hlt | hlt
  · exact hpins i j hi hj hlt _ (by rw [hdp]; rfl) _ (by rw [heq]; rfl)
  · exact (hpins j i hj hi hlt _ (by rw [heq]; rfl) _ (by rw [hdp]; rfl)).symm

/-- On a well-formed board a device's bus exists (R7 (a)). -/
theorem Board.bus_exists {c : Board} (hw : c.wellFormed = true) {d : DevCfg} (hd : d ∈ c.devs) :
    ∃ b ∈ c.buses, c.buses[d.bus.toNat]? = some b := by
  obtain ⟨-, -, -, -, hbus, -⟩ := c.wellFormed_iff.1 hw
  have hlt := c.busIndicesOk_iff.1 hbus d hd
  exact ⟨_, List.getElem_mem hlt, List.getElem?_eq_getElem hlt⟩

end Sys2Proof

namespace Sys2Proof.Machine

/-- A configuration that is not well formed is refused (R7, U13). -/
theorem step_refused (s : State) (hw : ¬ s.cfg.wellFormed = true) : step s = .refused .illFormedConfig :=
  if_neg hw

/-- Settles O9: a configuration that is not refused passes each check, and each check gives its clause of R6 or R7. -/
theorem illFormedConfigurationRefused : Obligations.IllFormedConfigurationRefused := by
  intro s hbroken
  refine step_refused s fun hw => hbroken ?_
  obtain ⟨hcounts, hdefaults, hcap, hcanonical, -, hi2c, hpins, hintervals, hspeeds⟩ := s.cfg.wellFormed_iff.1 hw
  refine ⟨s.cfg.countsOk_iff.1 hcounts, s.cfg.defaultsOk_iff.1 hdefaults, s.cfg.ringCapOk_iff.1 hcap,
    s.cfg.canonicalSpeedsOk_iff.1 hcanonical, fun d hd => ?_, fun i j p q hij hp hq => ?_, fun d hd => ?_⟩
  · obtain ⟨b, -, hb⟩ := Board.bus_exists hw hd
    exact ⟨b, hb, Board.i2c_device_of_i2cDevicesOk hi2c hd hb⟩
  · exact Board.pins_ne_of_pinsOk hpins hij hp hq
  · obtain ⟨htimeout, hdelay⟩ := s.cfg.intervalsOk_iff.1 hintervals d hd
    exact ⟨htimeout, hdelay, s.cfg.speedsOk_iff.1 hspeeds d hd⟩

end Sys2Proof.Machine
end

section
/-! What a step that answers a next state did (R39, R66, R72, R185). -/

namespace Sys2Proof.Machine

/-- A step that answers a next state ran on a well-formed board, and either ran the command in `CMD`, refused a reserved
word, found nothing to do, or took the next stimulus. -/
theorem step_next_cases {s t : State} (h : step s = .next t) :
    s.cfg.wellFormed = true ∧
      ((∃ i, s.busy = true ∧ s.inputs.head? ≠ some .reset ∧ decode s.cmd = .ok i ∧ exec i s = .next t) ∨
        (∃ e, s.busy = true ∧ s.inputs.head? ≠ some .reset ∧ decode s.cmd = .error e ∧
          t = s.raise .invalidArgument) ∨
        (s.busy = false ∧ s.inputs = [] ∧ t = s) ∨
        (∃ i rest, (s.busy = false ∨ i = .reset) ∧ s.inputs = i :: rest ∧
          { s with inputs := rest }.accept i = .next t)) := by
  by_cases hw : s.cfg.wellFormed = true
  swap
  · rw [step_refused s hw] at h; cases h
  refine ⟨hw, ?_⟩
  by_cases hr : s.inputs.head? = some .reset
  · obtain ⟨rest, hi⟩ := List.head?_eq_some_iff.1 hr
    rw [step_reset s rest hw hi] at h
    exact .inr (.inr (.inr ⟨.reset, rest, .inr rfl, hi, h⟩))
  by_cases hb : s.busy = true
  · cases hd : decode s.cmd with
    | ok i =>
      rw [step_command s i hw hb hr hd] at h
      exact .inl ⟨i, hb, hr, rfl, h⟩
    | error e =>
      rw [step_reserved s e hw hb hr hd] at h
      cases h
      exact .inr (.inl ⟨e, hb, hr, rfl, rfl⟩)
  · have hidle : s.busy = false := Bool.eq_false_of_not_eq_true hb
    rw [step_idle s hw hidle, State.takeInput] at h
    split at h
    next hi =>
      cases h
      exact .inr (.inr (.inl ⟨hidle, hi, rfl⟩))
    next i rest hi => exact .inr (.inr (.inr ⟨i, rest, .inl hidle, hi, h⟩))

end Sys2Proof.Machine
end

section
/-! The arbiter's invariants (R16, R18, R100) are kept by every step. Only `select`, `unlock`, `arm`, `take` and reset
write what they speak of; each has one lemma here, and every other operation leaves buses and chip-selects alone. -/

namespace Sys2Proof.Machine

/-! ## The invariant, read on one bus -/

theorem State.busOk_iff_of_free {s : State} {b : BusId} (hfree : (s.bus b).locked = false) :
    s.busOk b ↔ (s.bus b).ownerId = 0 := by
  simp [State.busOk, hfree]

theorem State.busOk_iff_of_locked {s : State} {b : BusId} (hlocked : (s.bus b).locked = true) :
    s.busOk b ↔ ∃ dc, s.dev? (s.bus b).ownerId = some dc ∧ dc.bus = b ∧ (s.bus b).up = true ∧
      (dc.chipSelect.isSome = true → s.csOf (s.bus b).ownerId = true) ∧
      1 ≤ (s.bus b).expInterval.toNat ∧ (s.bus b).expInterval.toNat < 2 ^ 31 := by
  simp [State.busOk, hlocked]

/-- A bus stays sound while its registers and the chip-selects asserted by its own devices stay as they are. -/
theorem State.busOk_of_bus_eq {s t : State} {b : BusId} (h : s.busOk b) (hcfg : t.cfg = s.cfg)
    (hbus : t.bus b = s.bus b)
    (hcs : ∀ e dc, s.dev? e = some dc → dc.bus = b → s.csOf e = true → t.csOf e = true) : t.busOk b := by
  cases hl : (s.bus b).locked with
  | false =>
    rw [State.busOk_iff_of_free (hbus ▸ hl), hbus]
    exact (State.busOk_iff_of_free hl).1 h
  | true =>
    obtain ⟨dc, hdev, hdc, hup, hsel, hinterval⟩ := (State.busOk_iff_of_locked hl).1 h
    have hdev' : t.dev? (s.bus b).ownerId = some dc := by simpa only [State.dev?, hcfg] using hdev
    rw [State.busOk_iff_of_locked (hbus ▸ hl), hbus]
    exact ⟨dc, hdev', hdc, hup, fun hc => hcs _ dc hdev hdc (hsel hc), hinterval⟩

/-- What the arbiter's invariants read is the same in both states. -/
def State.sameArbiter (s t : State) : Prop := t.cfg = s.cfg ∧ t.buses = s.buses ∧ t.cs = s.cs

theorem State.sameArbiter.keeps {s t : State} (same : s.sameArbiter t) (h : s.arbiterOk) : t.arbiterOk := by
  obtain ⟨hcfg, hbuses, hcs⟩ := same
  refine fun b => State.busOk_of_bus_eq (h b) hcfg (by simp only [State.bus, hbuses]) fun e _ _ _ he => ?_
  simpa only [State.csOf, hcs] using he

/-! ## The interval that is armed (R18, R84) -/

/-- On a well-formed board the interval a device arms is nonzero and below 2^31 (R6, R7 (d), R24). -/
theorem State.lockInterval_bounds {s : State} (hw : s.cfg.wellFormed = true) {d : DevId} {dc : DevCfg}
    (hd : s.dev? d = some dc) : 1 ≤ (s.lockInterval dc).toNat ∧ (s.lockInterval dc).toNat < 2 ^ 31 := by
  obtain ⟨-, hdefaults, -, -, -, -, -, hintervals, -⟩ := s.cfg.wellFormed_iff.1 hw
  have hmem : dc ∈ s.cfg.devs := List.mem_of_getElem? hd
  by_cases hz : dc.inactivityTimeout = 0
  · obtain ⟨b, hb, hget⟩ := Board.bus_exists hw hmem
    have heq : s.lockInterval dc = b.defaultTimeout := by
      simp [State.lockInterval, hz, State.defaultTimeout, State.busCfg?, hget]
    exact heq ▸ s.cfg.defaultsOk_iff.1 hdefaults b hb
  · have heq : s.lockInterval dc = dc.inactivityTimeout := if_neg hz
    have hpos : dc.inactivityTimeout.toNat ≠ 0 := fun h0 => hz (BitVec.eq_of_toNat_eq h0)
    exact heq ▸ ⟨Nat.one_le_iff_ne_zero.2 hpos, (s.cfg.intervalsOk_iff.1 hintervals dc hmem).1⟩

/-! ## The operations that write a bus or a chip-select -/

theorem State.arm_bus (s : State) (dc : DevCfg) (c : BusId) :
    (s.arm dc).bus c =
      if c = dc.bus then { s.bus dc.bus with expStart := s.now, expInterval := s.lockInterval dc } else s.bus c := by
  simp [State.arm]

theorem State.take_bus (s : State) (d : DevId) (dc : DevCfg) (c : BusId) :
    (s.take d dc).bus c =
      if c = dc.bus then
        { ownerId := d, locked := true, expStart := s.now, expInterval := s.lockInterval dc, up := (s.bus dc.bus).up }
      else s.bus c := by
  by_cases hc : c = dc.bus <;> simp [State.take, State.arm_bus, hc, State.lockInterval]

/-- `unlock` touches no chip-select but that of the owner it removes (R89). -/
theorem State.unlock_csOf_of_ne (s : State) (b : BusId) {e : DevId} (he : e ≠ (s.bus b).ownerId) :
    (s.unlock b).2.csOf e = s.csOf e := by
  rcases s.unlock_cases b with ⟨-, hu⟩ | ⟨u, -, hu⟩
  · rw [hu]
    by_cases hcs : s.hasCs (s.bus b).ownerId = true <;> simp [hcs, he]
  · simp [hu]

/-- `select` asserts a chip-select and deasserts none (R86). -/
theorem State.select_keeps_arbiterOk {s : State} (h : s.arbiterOk) (d : DevId) (dc : DevCfg) :
    (s.select d dc).arbiterOk := by
  refine fun b => State.busOk_of_bus_eq (h b) (by simp) (by simp) fun e _ _ _ he => ?_
  rw [State.select_csOf]
  split
  · rfl
  · exact he

/-- `unlock` frees its bus, and the chip-select it may deassert is of a device of that bus (R16, R89). -/
theorem State.unlock_keeps_arbiterOk {s : State} (h : s.arbiterOk) {b : BusId} (hlocked : (s.bus b).locked = true) :
    (s.unlock b).2.arbiterOk := by
  obtain ⟨o, howner, hob, -⟩ := (State.busOk_iff_of_locked hlocked).1 (h b)
  intro c
  obtain ⟨u, hbus⟩ := s.unlock_bus b c
  by_cases hc : c = b
  · rw [if_pos hc] at hbus
    rw [State.busOk_iff_of_free (by rw [hbus]), hbus]
  · rw [if_neg hc] at hbus
    refine State.busOk_of_bus_eq (h c) (by simp) hbus fun e dc hdev hdc he => ?_
    have hne : e ≠ (s.bus b).ownerId := by
      rintro rfl
      cases hdev.symm.trans howner
      exact hc (hdc.symm.trans hob)
    rw [s.unlock_csOf_of_ne b hne, he]

/-- Arming sets an admissible interval and leaves the owner as it was (R84). -/
theorem State.arm_keeps_arbiterOk {s : State} (hw : s.cfg.wellFormed = true) (h : s.arbiterOk) {d : DevId} {dc : DevCfg}
    (hd : s.dev? d = some dc) : (s.arm dc).arbiterOk := by
  intro c
  by_cases hc : c = dc.bus
  · subst hc
    have hbus := (s.arm_bus dc dc.bus).trans (if_pos rfl)
    cases hl : (s.bus dc.bus).locked with
    | false =>
      rw [State.busOk_iff_of_free (by rw [hbus]; exact hl), hbus]
      exact (State.busOk_iff_of_free hl).1 (h dc.bus)
    | true =>
      obtain ⟨o, howner, hob, hup, hsel, -⟩ := (State.busOk_iff_of_locked hl).1 (h dc.bus)
      rw [State.busOk_iff_of_locked (by rw [hbus]; exact hl), hbus]
      exact ⟨o, howner, hob, hup, hsel, State.lockInterval_bounds hw hd⟩
  · exact State.busOk_of_bus_eq (h c) rfl ((s.arm_bus dc c).trans (if_neg hc)) fun _ _ _ _ he => he

/-- `take` makes d the owner of its bus: it needs the transport up and the chip-select asserted, and the other buses
sound (R88, R100). -/
theorem State.take_gives_arbiterOk {s : State} (hw : s.cfg.wellFormed = true) {d : DevId} {dc : DevCfg}
    (hd : s.dev? d = some dc) (hup : (s.bus dc.bus).up = true)
    (hcs : dc.chipSelect.isSome = true → s.csOf d = true) (hothers : ∀ c, c ≠ dc.bus → s.busOk c) :
    (s.take d dc).arbiterOk := by
  intro c
  by_cases hc : c = dc.bus
  · subst hc
    have hbus := (s.take_bus d dc dc.bus).trans (if_pos rfl)
    rw [State.busOk_iff_of_locked (by rw [hbus]), hbus]
    exact ⟨dc, hd, rfl, hup, hcs, State.lockInterval_bounds hw hd⟩
  · exact State.busOk_of_bus_eq (hothers c hc) rfl ((s.take_bus d dc c).trans (if_neg hc)) fun _ _ _ _ he => he

/-! ## `ACQUIRE` and `RELEASE` -/

theorem State.raise_sameArbiter (s : State) (st : BusStatus) : s.sameArbiter (s.raise st) := by
  simp [State.sameArbiter]

theorem State.conclude_sameArbiter (s : State) (st : BusStatus) : s.sameArbiter (s.conclude st) := by
  simp [State.sameArbiter]

/-- `ACQUIRE` steps 3 to 5: the bus is taken with its transport up and the chip-select asserted, or the bring-up fails
and only a chip-select was asserted (R87, R88, R97). -/
theorem State.acquireFree_keeps_arbiterOk {s : State} (hw : s.cfg.wellFormed = true) (h : s.arbiterOk) {d : DevId}
    {dc : DevCfg} (hd : s.dev? d = some dc) : (s.acquireFree d dc).arbiterOk := by
  have hsel := State.select_keeps_arbiterOk h d dc
  rcases s.acquireFree_cases d dc with ⟨-, heq⟩ | ⟨-, heq⟩ <;> rw [heq]
  · refine (State.conclude_sameArbiter _ _).keeps (State.take_gives_arbiterOk ?wf ?dev ?up ?cs ?others)
    case wf => simpa using hw
    case dev => simpa using hd
    case up => simp
    case cs => intro hc; simp [State.select_csOf, hc]
    case others =>
      intro c hc
      exact State.busOk_of_bus_eq (hsel c) (by simp) (by simp [hc]) fun _ _ _ _ he => by simpa using he
  · exact (State.conclude_sameArbiter _ _).keeps hsel

theorem execAcquire_keeps_arbiterOk {s : State} (hw : s.cfg.wellFormed = true) (h : s.arbiterOk) (d : DevId) :
    ∃ t, execAcquire d s = .next t ∧ t.arbiterOk := by
  unfold execAcquire
  split
  next => exact ⟨_, rfl, (s.raise_sameArbiter _).keeps h⟩
  next dc hd =>
    split
    next howns => exact ⟨_, rfl, (State.conclude_sameArbiter _ _).keeps (State.arm_keeps_arbiterOk hw h hd)⟩
    next =>
      split
      next hlocked =>
        split
        next hstale =>
          have hunlocked := State.unlock_keeps_arbiterOk h hlocked
          exact ⟨_, rfl, State.acquireFree_keeps_arbiterOk (by simpa using hw) hunlocked (by simpa using hd)⟩
        next hlive => exact ⟨_, rfl, (State.conclude_sameArbiter _ _).keeps h⟩
      next hfree => exact ⟨_, rfl, State.acquireFree_keeps_arbiterOk hw h hd⟩

theorem execRelease_keeps_arbiterOk {s : State} (h : s.arbiterOk) (d : DevId) :
    ∃ t, execRelease d s = .next t ∧ t.arbiterOk := by
  unfold execRelease
  split
  next => exact ⟨_, rfl, (s.raise_sameArbiter _).keeps h⟩
  next dc hd =>
    split
    next howns =>
      have hlocked : (s.bus dc.bus).locked = true := (Bool.and_eq_true_iff.1 howns).1
      have hunlocked := State.unlock_keeps_arbiterOk h hlocked
      cases hu : s.unlock dc.bus with
      | mk ok s1 =>
        rw [hu] at hunlocked
        refine ⟨_, rfl, State.sameArbiter.keeps ?_ hunlocked⟩
        cases ok <;> simp [State.sameArbiter]
    next => exact ⟨_, rfl, (s.raise_sameArbiter _).keeps h⟩

/-! ## The other commands write no bus and no chip-select -/

theorem State.ioCommand_sameArbiter (s : State) (d : DevId) (wlen rlen : Byte) :
    s.sameArbiter (s.ioCommand d wlen rlen) := by
  unfold State.ioCommand
  split
  next => exact s.raise_sameArbiter _
  next dc hd =>
    split_ifs
    · exact s.raise_sameArbiter _
    · exact s.raise_sameArbiter _
    · rcases XferResult.finish_cases (s.xfer d dc (s.wbufBytes wlen.toNat) rlen.toNat) rlen.toNat with
        ⟨-, -, heq⟩ | ⟨-, -, heq⟩ | ⟨-, heq⟩ <;> simp [State.sameArbiter, heq]
    · exact s.raise_sameArbiter _

theorem State.register_sameArbiter (s : State) (b : BusId) (d : DevId) (cb : Byte) :
    s.sameArbiter (s.register b d cb) := by
  unfold State.register
  split_ifs <;> simp [State.sameArbiter]

theorem State.readLine_sameArbiter (s : State) (d : DevId) (maxlen : Nat) : s.sameArbiter (s.readLine d maxlen) := by
  unfold State.readLine
  dsimp only
  split <;> simp [State.sameArbiter]

theorem State.readAll_sameArbiter (s : State) (d : DevId) (maxlen : Nat) : s.sameArbiter (s.readAll d maxlen) := by
  simp [State.readAll, State.sameArbiter]

theorem execIsOwner_sameArbiter (d : DevId) (s : State) : ∃ t, execIsOwner d s = .next t ∧ s.sameArbiter t := by
  unfold execIsOwner
  split
  next => exact ⟨_, rfl, s.raise_sameArbiter _⟩
  next => exact ⟨_, rfl, by simp [State.sameArbiter]⟩

theorem execSetInputHandler_sameArbiter (d : DevId) (cb : Byte) (s : State) :
    ∃ t, execSetInputHandler d cb s = .next t ∧ s.sameArbiter t := by
  unfold execSetInputHandler
  split
  next => exact ⟨_, rfl, s.raise_sameArbiter _⟩
  next dc hd =>
    split_ifs
    · exact ⟨_, rfl, s.raise_sameArbiter _⟩
    · exact ⟨_, rfl, s.raise_sameArbiter _⟩
    · exact ⟨_, rfl, s.register_sameArbiter dc.bus d cb⟩

theorem execReadLine_sameArbiter (d : DevId) (maxlen : Byte) (s : State) :
    ∃ t, execReadLine d maxlen s = .next t ∧ s.sameArbiter t := by
  unfold execReadLine
  split
  next => exact ⟨_, rfl, s.raise_sameArbiter _⟩
  next =>
    split_ifs
    · exact ⟨_, rfl, s.readLine_sameArbiter d maxlen.toNat⟩
    · exact ⟨_, rfl, s.raise_sameArbiter _⟩

theorem execReadAll_sameArbiter (d : DevId) (maxlen : Byte) (s : State) :
    ∃ t, execReadAll d maxlen s = .next t ∧ s.sameArbiter t := by
  unfold execReadAll
  split
  next => exact ⟨_, rfl, s.raise_sameArbiter _⟩
  next =>
    split_ifs
    · exact ⟨_, rfl, s.readAll_sameArbiter d maxlen.toNat⟩
    · exact ⟨_, rfl, s.raise_sameArbiter _⟩

/-- Every command but `ACQUIRE` and `RELEASE` answers, and leaves buses and chip-selects as they were (R16, R27). -/
theorem exec_sameArbiter (i : Instr) (s : State) (hacquire : i.mnemonic ≠ .acquire)
    (hrelease : i.mnemonic ≠ .release) : ∃ t, exec i s = .next t ∧ s.sameArbiter t := by
  cases i with
  | acquire d => exact absurd rfl hacquire
  | release d => exact absurd rfl hrelease
  | read d rlen => exact ⟨_, rfl, s.ioCommand_sameArbiter d 0 rlen⟩
  | write d wlen => exact ⟨_, rfl, s.ioCommand_sameArbiter d wlen 0⟩
  | transfer d wlen rlen => exact ⟨_, rfl, s.ioCommand_sameArbiter d wlen rlen⟩
  | isOwner d => exact execIsOwner_sameArbiter d s
  | setInputHandler d cb => exact execSetInputHandler_sameArbiter d cb s
  | readLine d maxlen => exact execReadLine_sameArbiter d maxlen s
  | readAll d maxlen => exact execReadAll_sameArbiter d maxlen s

/-! ## The step -/

/-- Every command answers and keeps the arbiter's invariants, on a well-formed board. -/
theorem exec_keeps_arbiterOk {s : State} (hw : s.cfg.wellFormed = true) (h : s.arbiterOk) (i : Instr) :
    ∃ t, exec i s = .next t ∧ t.arbiterOk := by
  have hother (hacquire : i.mnemonic ≠ .acquire) (hrelease : i.mnemonic ≠ .release) :
      ∃ t, exec i s = .next t ∧ t.arbiterOk := by
    obtain ⟨t, heq, same⟩ := exec_sameArbiter i s hacquire hrelease
    exact ⟨t, heq, same.keeps h⟩
  cases i with
  | acquire d => exact execAcquire_keeps_arbiterOk hw h d
  | release d => exact execRelease_keeps_arbiterOk h d
  | _ => exact hother nofun nofun

/-- After a reset every bus is free (R42, R185). -/
theorem State.resetEvent_arbiterOk (s : State) : s.resetEvent.arbiterOk :=
  fun _ => (State.busOk_iff_of_free rfl).2 rfl

/-- No stimulus but a reset writes a bus or a chip-select. -/
theorem State.accept_keeps_arbiterOk {s t : State} (h : s.arbiterOk) (i : Input) (ha : s.accept i = .next t) :
    t.arbiterOk := by
  cases i with
  | command w =>
    cases ha
    exact State.sameArbiter.keeps (by simp [State.sameArbiter, State.issue]) h
  | hostWrite off x =>
    rw [State.accept] at ha
    split at ha
    · cases ha
      exact State.sameArbiter.keeps ⟨rfl, rfl, rfl⟩ h
    · cases ha
  | rxByte b x =>
    cases ha
    exact State.sameArbiter.keeps (by simp [State.sameArbiter]) h
  | ticks n =>
    cases ha
    exact State.sameArbiter.keeps ⟨rfl, rfl, rfl⟩ h
  | reset =>
    cases ha
    exact s.resetEvent_arbiterOk

/-- Settles O57, by the cases of a step: a command, a reserved word, nothing to do, a stimulus. -/
theorem stepKeepsArbiterInvariant : Obligations.StepKeepsArbiterInvariant := by
  intro s t h hstep
  obtain ⟨hw, hcases⟩ := step_next_cases hstep
  rcases hcases with ⟨i, -, -, -, hexec⟩ | ⟨-, -, -, -, rfl⟩ | ⟨-, -, rfl⟩ | ⟨i, rest, -, -, haccept⟩
  · obtain ⟨t', heq, ht'⟩ := exec_keeps_arbiterOk hw h i
    cases heq.symm.trans hexec
    exact ht'
  · exact (s.raise_sameArbiter _).keeps h
  · exact h
  · have hrest : { s with inputs := rest }.arbiterOk := State.sameArbiter.keeps ⟨rfl, rfl, rfl⟩ h
    exact State.accept_keeps_arbiterOk hrest i haccept

end Sys2Proof.Machine
end

section
/-! Ring arithmetic (R209), and what the receive step, a consumer and a registration do to the unread bytes and the
marker of one ring (R31, R140, R143, R149, R152). -/

namespace Sys2Proof.Machine

/-! ## Positions and distances modulo the capacity -/

theorem ringAdvance_lt {cap : Nat} (hcap : 0 < cap) (i k : Nat) : ringAdvance cap i k < cap := Nat.mod_lt _ hcap

theorem ringDist_lt {cap : Nat} (hcap : 0 < cap) (i j : Nat) : ringDist cap i j < cap := Nat.mod_lt _ hcap

theorem ringAdvance_ringAdvance (cap i a b : Nat) :
    ringAdvance cap (ringAdvance cap i a) b = ringAdvance cap i (a + b) := by
  simp [ringAdvance, Nat.add_assoc]

/-- The distance from j to i is the one number below the capacity by which j advances to i. -/
theorem ringDist_eq_iff {cap i j k : Nat} (hi : i < cap) (hj : j < cap) (hk : k < cap) :
    ringDist cap i j = k ↔ i = ringAdvance cap j k := by
  have hdist : ringDist cap i j = if j ≤ i then i - j else i + (cap - j) := by
    rw [ringDist, Nat.mod_eq_of_lt hj]
    split
    · rw [show i + (cap - j) = (i - j) + cap by omega, Nat.add_mod_right, Nat.mod_eq_of_lt (by omega)]
    · exact Nat.mod_eq_of_lt (by omega)
  have hadvance : ringAdvance cap j k = if j + k < cap then j + k else j + k - cap := by
    rw [ringAdvance]
    split
    next hlt => exact Nat.mod_eq_of_lt hlt
    next hge => rw [Nat.mod_eq_sub_mod (Nat.le_of_not_lt hge), Nat.mod_eq_of_lt (by omega)]
  rw [hdist, hadvance]
  split_ifs <;> omega

theorem ringAdvance_ringDist {cap i j : Nat} (hi : i < cap) (hj : j < cap) :
    ringAdvance cap j (ringDist cap i j) = i :=
  ((ringDist_eq_iff hi hj (ringDist_lt (by omega) i j)).1 rfl).symm

theorem ringDist_ringAdvance {cap j k : Nat} (hj : j < cap) (hk : k < cap) :
    ringDist cap (ringAdvance cap j k) j = k :=
  (ringDist_eq_iff (ringAdvance_lt (by omega) j k) hj hk).2 rfl

/-- Advancing the origin by no more than the distance takes that much off the distance. -/
theorem ringDist_ringAdvance_right {cap i j n : Nat} (hi : i < cap) (hj : j < cap) (hn : n ≤ ringDist cap i j) :
    ringDist cap i (ringAdvance cap j n) = ringDist cap i j - n := by
  have hcap : 0 < cap := by omega
  have hlt := ringDist_lt hcap i j
  refine (ringDist_eq_iff hi (ringAdvance_lt hcap j n) (by omega)).2 ?_
  rw [ringAdvance_ringAdvance, Nat.add_sub_cancel' hn, ringAdvance_ringDist hi hj]

/-! ## The marker invariant (R31), by the marker -/

theorem Ring.markOk_iff_of_none {cap : Nat} {r : Ring} (hm : r.mark = none) :
    r.markOk cap ↔ ∀ i, i < r.count cap → r.byteAt cap i ≠ Config.lineTerminator := by
  simp [Ring.markOk, hm]

theorem Ring.markOk_iff_of_some {cap m : Nat} {r : Ring} (hm : r.mark = some m) :
    r.markOk cap ↔ m < cap ∧ 1 ≤ r.markOffset cap m ∧ r.markOffset cap m ≤ r.count cap ∧
      r.byteAt cap (r.markOffset cap m - 1) = Config.lineTerminator ∧
      ∀ i, r.markOffset cap m ≤ i → i < r.count cap → r.byteAt cap i ≠ Config.lineTerminator := by
  simp [Ring.markOk, hm]

/-- A ring with both indices at 0 and no marker is sound: nothing is unread (R42, R140). -/
theorem Ring.ok_of_restarted {cap : Nat} (hcap : 0 < cap) {r : Ring} (hhead : r.head = 0) (htail : r.tail = 0)
    (hmark : r.mark = none) : r.ok cap := by
  have hcount : r.count cap = 0 := by simp [Ring.count, ringDist, hhead, htail]
  exact ⟨hhead ▸ hcap, htail ▸ hcap, (Ring.markOk_iff_of_none hmark).2 fun i hi => by omega⟩

/-! ## The receive step (R143, R144) -/

theorem Ring.receive_of_full {cap : Nat} {r : Ring} (hfull : r.full cap = true) (x : Byte) :
    r.receive cap x = { r with ovf := true } := if_pos hfull

theorem Ring.receive_of_not_full {cap : Nat} {r : Ring} (hfull : r.full cap = false) (x : Byte) :
    r.receive cap x =
      { r with
        buf := memWrite r.buf r.head x
        head := ringAdvance cap r.head 1
        mark := if x = Config.lineTerminator then some (ringAdvance cap r.head 1) else r.mark } := by
  simp [Ring.receive, hfull]

/-- A ring that is not full has room for one more unread byte beside the slot that stays empty. -/
theorem Ring.count_lt_of_not_full {cap : Nat} {r : Ring} (hhead : r.head < cap) (htail : r.tail < cap)
    (hfull : r.full cap = false) : r.count cap + 1 < cap := by
  have hlt : r.count cap < cap := ringDist_lt (by omega) _ _
  have hne : ringAdvance cap r.head 1 ≠ r.tail := by simpa [Ring.full] using hfull
  refine lt_of_le_of_ne hlt fun hcap => hne ?_
  calc ringAdvance cap r.head 1
      = ringAdvance cap (ringAdvance cap r.tail (r.count cap)) 1 := by
        rw [Ring.count, ringAdvance_ringDist hhead htail]
    _ = ringAdvance cap r.tail cap := by rw [ringAdvance_ringAdvance, hcap]
    _ = r.tail := by rw [ringAdvance, Nat.add_mod_right, Nat.mod_eq_of_lt htail]

theorem Ring.count_receive_of_not_full {cap : Nat} {r : Ring} (hhead : r.head < cap) (htail : r.tail < cap)
    (hfull : r.full cap = false) (x : Byte) : (r.receive cap x).count cap = r.count cap + 1 := by
  have hroom := Ring.count_lt_of_not_full hhead htail hfull
  have hnext : ringAdvance cap r.head 1 = ringAdvance cap r.tail (r.count cap + 1) := by
    rw [← ringAdvance_ringAdvance, Ring.count, ringAdvance_ringDist hhead htail]
  rw [Ring.receive_of_not_full hfull]
  exact (congrArg (ringDist cap · r.tail) hnext).trans (ringDist_ringAdvance htail hroom)

/-- The byte stored is the newest unread one, and the older ones stay (R143). -/
theorem Ring.byteAt_receive_of_not_full {cap : Nat} {r : Ring} (hhead : r.head < cap) (htail : r.tail < cap)
    (hfull : r.full cap = false) (x : Byte) {i : Nat} (hi : i < cap) :
    (r.receive cap x).byteAt cap i = if i = r.count cap then x else r.byteAt cap i := by
  have hslot : ringAdvance cap r.tail i = r.head ↔ i = r.count cap := by
    rw [eq_comm, ← ringDist_eq_iff hhead htail hi, eq_comm, Ring.count]
  simp [Ring.receive_of_not_full hfull, Ring.byteAt, hslot]

/-- No receive step takes an unread byte out of a sound ring. -/
theorem Ring.count_le_receive {cap : Nat} {r : Ring} (h : r.ok cap) (x : Byte) :
    r.count cap ≤ (r.receive cap x).count cap := by
  obtain ⟨hhead, htail, -⟩ := h
  cases hfull : r.full cap with
  | true => rw [Ring.receive_of_full hfull]; exact le_rfl
  | false => rw [Ring.count_receive_of_not_full hhead htail hfull]; exact Nat.le_succ _

/-- A stored terminator is the last unread one, and any other byte leaves the last one where it was (R31, R143). -/
theorem Ring.receive_keeps_markOk {cap : Nat} {r : Ring} (h : r.ok cap) (hfull : r.full cap = false) (x : Byte) :
    (r.receive cap x).markOk cap := by
  obtain ⟨hhead, htail, hmarkOk⟩ := h
  have hroom := Ring.count_lt_of_not_full hhead htail hfull
  have hcount := Ring.count_receive_of_not_full hhead htail hfull x
  have hbyte : ∀ i, i < cap → (r.receive cap x).byteAt cap i = if i = r.count cap then x else r.byteAt cap i :=
    fun i => Ring.byteAt_receive_of_not_full hhead htail hfull x
  have htail' : (r.receive cap x).tail = r.tail := by rw [Ring.receive_of_not_full hfull]
  by_cases hx : x = Config.lineTerminator
  · have hmark : (r.receive cap x).mark = some (ringAdvance cap r.head 1) := by
      simp [Ring.receive_of_not_full hfull, hx]
    have hoffset : (r.receive cap x).markOffset cap (ringAdvance cap r.head 1) = r.count cap + 1 := by
      rw [← hcount, Ring.receive_of_not_full hfull]; rfl
    rw [Ring.markOk_iff_of_some hmark, hoffset, hcount, Nat.add_sub_cancel, hbyte _ (by omega), if_pos rfl]
    exact ⟨ringAdvance_lt (by omega) _ _, by omega, le_rfl, hx, fun i _ _ => by omega⟩
  · have hmark : (r.receive cap x).mark = r.mark := by simp [Ring.receive_of_not_full hfull, hx]
    have hnew : ∀ i, i < r.count cap + 1 → (i < r.count cap → r.byteAt cap i ≠ Config.lineTerminator) →
        (r.receive cap x).byteAt cap i ≠ Config.lineTerminator := by
      intro i hi hold
      rw [hbyte i (by omega)]
      split
      · exact hx
      · exact hold (by omega)
    cases hm : r.mark with
    | none =>
      rw [Ring.markOk_iff_of_none (hmark.trans hm), hcount]
      exact fun i hi => hnew i hi ((Ring.markOk_iff_of_none hm).1 hmarkOk i)
    | some m =>
      obtain ⟨hlt, hpos, hle, hlast, hrest⟩ := (Ring.markOk_iff_of_some hm).1 hmarkOk
      have hoffset : (r.receive cap x).markOffset cap m = r.markOffset cap m := by
        rw [Ring.markOffset, htail', Ring.markOffset]
      rw [Ring.markOk_iff_of_some (hmark.trans hm), hoffset, hcount, hbyte _ (by omega), if_neg (by omega)]
      exact ⟨hlt, hpos, by omega, hlast, fun i hmi hi => hnew i hi (hrest i hmi)⟩

theorem Ring.receive_keeps_ok {cap : Nat} {r : Ring} (h : r.ok cap) (x : Byte) : (r.receive cap x).ok cap := by
  cases hfull : r.full cap with
  | true => rw [Ring.receive_of_full hfull]; exact h
  | false =>
    have hmark := Ring.receive_keeps_markOk h hfull x
    obtain ⟨hhead, htail, -⟩ := h
    rw [Ring.receive_of_not_full hfull] at hmark ⊢
    exact ⟨ringAdvance_lt (by omega) _ _, htail, hmark⟩

/-! ## A consumer (R149, R152) -/

theorem Ring.count_consume {cap n : Nat} {r : Ring} (hhead : r.head < cap) (htail : r.tail < cap)
    (hn : n ≤ r.count cap) : (r.consume cap n).count cap = r.count cap - n :=
  ringDist_ringAdvance_right hhead htail hn

theorem Ring.byteAt_consume (cap n i : Nat) (r : Ring) :
    (r.consume cap n).byteAt cap i = r.byteAt cap (n + i) :=
  congrArg (memRead r.buf) (ringAdvance_ringAdvance cap r.tail n i)

/-- The first n unread bytes are taken; the marker is cleared exactly when the last unread terminator is among them
(R153). -/
theorem Ring.consume_keeps_markOk {cap n : Nat} {r : Ring} (h : r.ok cap) (hn : n ≤ r.count cap) :
    (r.consume cap n).markOk cap := by
  obtain ⟨hhead, htail, hmarkOk⟩ := h
  have hcount := Ring.count_consume hhead htail hn
  cases hm : r.mark with
  | none =>
    have hmark : (r.consume cap n).mark = none := by simp [Ring.consume, hm]
    rw [Ring.markOk_iff_of_none hmark, hcount]
    intro i hi
    rw [Ring.byteAt_consume]
    exact (Ring.markOk_iff_of_none hm).1 hmarkOk (n + i) (by omega)
  | some m =>
    obtain ⟨hlt, hpos, hle, hlast, hrest⟩ := (Ring.markOk_iff_of_some hm).1 hmarkOk
    by_cases hreached : r.markOffset cap m ≤ n
    · have hmark : (r.consume cap n).mark = none := by simp [Ring.consume, hm, hreached]
      rw [Ring.markOk_iff_of_none hmark, hcount]
      intro i hi
      rw [Ring.byteAt_consume]
      exact hrest (n + i) (by omega) (by omega)
    · have hmark : (r.consume cap n).mark = some m := by simp [Ring.consume, hm, hreached]
      have hoffset : (r.consume cap n).markOffset cap m = r.markOffset cap m - n :=
        ringDist_ringAdvance_right hlt htail (by rw [Ring.markOffset] at hreached; omega)
      rw [Ring.markOk_iff_of_some hmark, hcount, hoffset, Ring.byteAt_consume,
        show n + (r.markOffset cap m - n - 1) = r.markOffset cap m - 1 by omega]
      refine ⟨hlt, by omega, by omega, hlast, fun i hmi hi => ?_⟩
      rw [Ring.byteAt_consume]
      exact hrest (n + i) (by omega) (by omega)

theorem Ring.consume_keeps_ok {cap n : Nat} {r : Ring} (h : r.ok cap) (hn : n ≤ r.count cap) :
    (r.consume cap n).ok cap := by
  have hmark := Ring.consume_keeps_markOk h hn
  obtain ⟨hhead, -, -⟩ := h
  exact ⟨hhead, ringAdvance_lt (by omega) _ _, hmark⟩

theorem lineLength_le_length : ∀ v : List Byte, lineLength v ≤ v.length
  | [] => le_rfl
  | x :: v => by
    rw [lineLength]
    split
    · simp
    · simpa using lineLength_le_length v

/-- The first line is among the unread bytes (R148). -/
theorem Ring.firstLine_le_count (cap : Nat) (r : Ring) : r.firstLine cap ≤ r.count cap :=
  (lineLength_le_length _).trans (by simp [Ring.unread, Ring.bytes])

end Sys2Proof.Machine
end

section
/-! What a command does to the rings, the handlers and the observation logs: receive events, appends to the logs, and, in
three commands only, one write of a ring or of a handler. A property that receive events and appends keep is kept by the
other six commands; this is proved here once, for every such property. -/

namespace Sys2Proof.Machine

/-! ## Properties of the rings, the handlers and the logs -/

/-- The configuration, the rings, the handlers and the observation logs are the same in both states. -/
def State.sameTraffic (s t : State) : Prop :=
  t.cfg = s.cfg ∧ t.rings = s.rings ∧ t.handlers = s.handlers ∧ t.notify = s.notify ∧ t.txlog = s.txlog ∧
    t.i2clog = s.i2clog ∧ t.spilog = s.spilog

/-- A property of the configuration, the rings, the handlers and the logs alone, kept by every receive event and by every
append to a log. -/
structure Steady (P : State → Prop) : Prop where
  same : ∀ {s t : State}, s.sameTraffic t → P s → P t
  rxByte : ∀ (s : State) (b : BusId) (x : Byte), P s → P (s.rxByte b x)
  emitTx : ∀ (s : State) (b : BusId) (v : List Byte), P s → P (s.emitTx b v)
  emitI2c : ∀ (s : State) (b : BusId) (e : I2cEntry), P s → P (s.emitI2c b e)
  emitSpi : ∀ (s : State) (b : BusId) (e : SpiEntry), P s → P (s.emitSpi b e)

theorem State.sameTraffic.cfg {s t : State} (same : s.sameTraffic t) : t.cfg = s.cfg := by
  obtain ⟨hcfg, -⟩ := same
  exact hcfg

theorem State.sameTraffic.ring {s t : State} (same : s.sameTraffic t) (d : DevId) : t.ring d = s.ring d := by
  obtain ⟨-, hrings, -⟩ := same
  simp only [State.ring, hrings]

theorem State.sameTraffic.handler {s t : State} (same : s.sameTraffic t) (b : BusId) : t.handler b = s.handler b := by
  obtain ⟨-, -, hhandlers, -⟩ := same
  simp only [State.handler, hhandlers]

theorem State.raise_sameTraffic (s : State) (st : BusStatus) : s.sameTraffic (s.raise st) := by
  simp [State.sameTraffic]

theorem State.conclude_sameTraffic (s : State) (st : BusStatus) : s.sameTraffic (s.conclude st) := by
  simp [State.sameTraffic]

theorem State.drift_sameTraffic (s : State) : s.sameTraffic s.drift := by
  simp [State.sameTraffic]

theorem State.unlock_sameTraffic (s : State) (b : BusId) : s.sameTraffic (s.unlock b).2 := by
  simp [State.sameTraffic]

/-! ## Yield points -/

theorem Steady.pass {P : State → Prop} (hP : Steady P) {s : State} (h : P s) (rx : List (BusId × Byte)) (ms : Nat) :
    P (s.pass rx ms) :=
  hP.same (by simp [State.sameTraffic]) (State.rxBytes_keeps hP.rxByte rx s h)

theorem Steady.yieldPoint {P : State → Prop} (hP : Steady P) {s : State} (h : P s) : P s.yieldPoint :=
  hP.pass (s := s.drawYield.2) (hP.same (by simp [State.sameTraffic]) h) _ _

theorem Steady.wait {P : State → Prop} (hP : Steady P) {s : State} (h : P s) (n : Nat) : P (s.wait n) :=
  hP.pass (s := s.drawYield.2) (hP.same (by simp [State.sameTraffic]) h) _ _

/-! ## The arbiter's commands -/

theorem Steady.select {P : State → Prop} (hP : Steady P) {s : State} (h : P s) (d : DevId) (dc : DevCfg) :
    P (s.select d dc) := by
  have hcs : P (s.setCs d true) := hP.same (by simp [State.sameTraffic]) h
  rcases s.select_cases d dc with ⟨-, heq⟩ | ⟨-, -, ⟨-, heq⟩ | ⟨-, heq⟩⟩ <;> rw [heq]
  · exact h
  · exact hcs
  · exact hP.wait hcs _

theorem Steady.acquireFree {P : State → Prop} (hP : Steady P) {s : State} (h : P s) (d : DevId) (dc : DevCfg) :
    P (s.acquireFree d dc) := by
  have hsel := hP.select h d dc
  rcases s.acquireFree_cases d dc with ⟨-, heq⟩ | ⟨-, heq⟩ <;> rw [heq]
  · exact hP.same (by simp [State.sameTraffic, State.take, State.arm]) hsel
  · exact hP.same (State.conclude_sameTraffic _ _) hsel

theorem Steady.execAcquire {P : State → Prop} (hP : Steady P) {s : State} (h : P s) (d : DevId) :
    ∃ t, execAcquire d s = .next t ∧ P t := by
  unfold Machine.execAcquire
  split
  next => exact ⟨_, rfl, hP.same (s.raise_sameTraffic _) h⟩
  next dc _ =>
    split_ifs
    · exact ⟨_, rfl, hP.same (State.conclude_sameTraffic _ _) (hP.same (by simp [State.sameTraffic, State.arm]) h)⟩
    · exact ⟨_, rfl, hP.acquireFree (hP.same (s.unlock_sameTraffic _) h) d dc⟩
    · exact ⟨_, rfl, hP.same (s.conclude_sameTraffic _) h⟩
    · exact ⟨_, rfl, hP.acquireFree h d dc⟩

/-- What `RELEASE` does: a refusal, or the unlock path and the response that its teardown's outcome asks for (R90). -/
theorem execRelease_cases (d : DevId) (s : State) :
    (∃ st, execRelease d s = .next (s.raise st)) ∨
    ∃ dc, s.dev? d = some dc ∧
      (((s.unlock dc.bus).1 = true ∧ execRelease d s = .next ((s.unlock dc.bus).2.respond .ok false 0)) ∨
        ((s.unlock dc.bus).1 = false ∧ execRelease d s = .next ((s.unlock dc.bus).2.raise .unknownError))) := by
  unfold execRelease
  split
  next => exact .inl ⟨_, rfl⟩
  next dc hd =>
    split_ifs
    · refine .inr ⟨dc, hd, ?_⟩
      cases hok : (s.unlock dc.bus).1 <;> simp [hok]
    · exact .inl ⟨_, rfl⟩

theorem Steady.execRelease {P : State → Prop} (hP : Steady P) {s : State} (h : P s) (d : DevId) :
    ∃ t, execRelease d s = .next t ∧ P t := by
  rcases execRelease_cases d s with ⟨st, heq⟩ | ⟨dc, -, ⟨-, heq⟩ | ⟨-, heq⟩⟩
  · exact ⟨_, heq, hP.same (s.raise_sameTraffic st) h⟩
  · exact ⟨_, heq, hP.same (by simp [State.sameTraffic]) h⟩
  · exact ⟨_, heq, hP.same (by simp [State.sameTraffic]) h⟩

theorem Steady.execIsOwner {P : State → Prop} (hP : Steady P) {s : State} (h : P s) (d : DevId) :
    ∃ t, execIsOwner d s = .next t ∧ P t := by
  unfold Machine.execIsOwner
  split
  next => exact ⟨_, rfl, hP.same (s.raise_sameTraffic _) h⟩
  next => exact ⟨_, rfl, hP.same (by simp [State.sameTraffic]) h⟩

/-! ## The transfers -/

theorem Steady.i2cXfer {P : State → Prop} (hP : Steady P) {s : State} (h : P s) (dc : DevCfg) (w : List Byte) (n : Nat) :
    P (s.i2cXfer dc w n).state :=
  hP.emitI2c _ _ _ (hP.pass (s := s.drawI2c.2.drawYield.2) (hP.same (by simp [State.sameTraffic]) h) _ _)

theorem Steady.spiShift {P : State → Prop} (hP : Steady P) (b : BusId) (d : DevId) (n : Nat) :
    ∀ (s : State) (w : List Byte) (k : Nat), P s → P (s.spiShift b d n w k).2 := by
  induction n with
  | zero => exact fun _ _ _ h => h
  | succ n ih =>
    exact fun s w k h => ih _ _ _ (hP.yieldPoint (hP.emitSpi s.drawSpi.2 _ _ (hP.same (by simp [State.sameTraffic]) h)))

theorem Steady.uartWrite {P : State → Prop} (hP : Steady P) {s : State} (h : P s) (dc : DevCfg) (w : List Byte) :
    P (s.uartWrite dc w).2 := by
  have hpass (rx : List (BusId × Byte)) (ms : Nat) : P (s.drawTx.2.drawYield.2.pass rx ms) :=
    hP.pass (hP.same (by simp [State.sameTraffic]) h) rx ms
  unfold State.uartWrite
  dsimp only
  split_ifs <;> exact hP.emitTx _ _ _ (hpass _ _)

theorem Steady.uartRead {P : State → Prop} (hP : Steady P) {s : State} (h : P s) (dc : DevCfg) (n : Nat) :
    P (s.uartRead dc n).state := by
  have hpass (rx : List (BusId × Byte)) (ms : Nat) : P (s.drawRx.2.drawYield.2.pass rx ms) :=
    hP.pass (hP.same (by simp [State.sameTraffic]) h) rx ms
  unfold State.uartRead
  dsimp only
  split_ifs <;> exact hpass _ _

theorem Steady.uartXfer {P : State → Prop} (hP : Steady P) {s : State} (h : P s) (dc : DevCfg) (w : List Byte) (n : Nat) :
    P (s.uartXfer dc w n).state := by
  have hwrite := hP.uartWrite h dc w
  unfold State.uartXfer
  dsimp only
  split_ifs
  · exact h
  · exact hP.uartRead h dc n
  · exact hwrite
  · exact hP.uartRead (hP.same (State.drift_sameTraffic _) hwrite) dc n
  · exact hwrite

theorem Steady.xfer {P : State → Prop} (hP : Steady P) {s : State} (h : P s) (d : DevId) (dc : DevCfg) (w : List Byte)
    (n : Nat) : P (s.xfer d dc w n).state := by
  unfold State.xfer
  split
  next => exact h
  next =>
    split
    next => exact hP.i2cXfer h dc w n
    next => exact hP.spiShift dc.bus d _ s w n h
    next => exact hP.uartXfer h dc w n

theorem Steady.ioCommand {P : State → Prop} (hP : Steady P) {s : State} (h : P s) (d : DevId) (wlen rlen : Byte) :
    P (s.ioCommand d wlen rlen) := by
  unfold State.ioCommand
  split
  next => exact hP.same (s.raise_sameTraffic _) h
  next dc _ =>
    split_ifs
    · exact hP.same (s.raise_sameTraffic _) h
    · exact hP.same (s.raise_sameTraffic _) h
    · have hxfer := hP.xfer h d dc (s.wbufBytes wlen.toNat) rlen.toNat
      refine hP.same ?_ hxfer
      rcases XferResult.finish_cases (s.xfer d dc (s.wbufBytes wlen.toNat) rlen.toNat) rlen.toNat with
        ⟨-, -, heq⟩ | ⟨-, -, heq⟩ | ⟨-, heq⟩ <;> simp [State.sameTraffic, heq]
    · exact hP.same (s.raise_sameTraffic _) h

/-! ## The commands that write a ring or a handler -/

/-- What `SET_INPUT_HANDLER` does: a refusal, or its critical section on a device of a UART bus, which is not `TX_ONLY` if
a callback is registered (R140). -/
theorem execSetInputHandler_cases (d : DevId) (cb : Byte) (s : State) :
    execSetInputHandler d cb s = .next (s.raise .invalidArgument) ∨
    ∃ dc, s.dev? d = some dc ∧ s.busIs dc.bus .uart = true ∧ (cb ≠ 0 → s.busTxOnly dc.bus = false) ∧
      execSetInputHandler d cb s = .next ((s.register dc.bus d cb).respond .ok false 0) := by
  unfold execSetInputHandler
  split
  next => exact .inl rfl
  next dc hd =>
    split_ifs with hkind hmode
    · exact .inl rfl
    · exact .inl rfl
    · exact .inr ⟨dc, hd, by simpa using hkind, fun hcb => by simpa using not_and.1 hmode hcb, rfl⟩

/-- What `SET_INPUT_HANDLER` registers: nothing when it unregisters a device that is no handler device; else a new handler,
with the ring of a new handler device restarted (R140). -/
theorem State.register_cases (s : State) (b : BusId) (d : DevId) (cb : Byte) :
    (cb = 0 ∧ (s.register b d cb = s ∨ s.register b d cb = s.setHandler b none)) ∨
    (cb ≠ 0 ∧ (s.register b d cb = s.setHandler b (some { dev := d, cb := cb }) ∨
      s.register b d cb = (s.setRing d (s.ring d).restart).setHandler b (some { dev := d, cb := cb }))) := by
  unfold State.register
  split_ifs with hcb hhandler hhandler
  · exact .inl ⟨hcb, .inr rfl⟩
  · exact .inl ⟨hcb, .inl rfl⟩
  · exact .inr ⟨hcb, .inl rfl⟩
  · exact .inr ⟨hcb, .inr rfl⟩

theorem execReadLine_cases (d : DevId) (maxlen : Byte) (s : State) :
    execReadLine d maxlen s = .next (s.raise .invalidArgument) ∨
    execReadLine d maxlen s = .next (s.readLine d maxlen.toNat) := by
  unfold execReadLine
  split
  next => exact .inl rfl
  next => split_ifs <;> simp

theorem execReadAll_cases (d : DevId) (maxlen : Byte) (s : State) :
    execReadAll d maxlen s = .next (s.raise .invalidArgument) ∨
    execReadAll d maxlen s = .next (s.readAll d maxlen.toNat) := by
  unfold execReadAll
  split
  next => exact .inl rfl
  next => split_ifs <;> simp

/-- `READ_LINE` writes one ring: it clears `OVF`, or consumes a part of the first line (R149, R150). -/
theorem State.readLine_cases (s : State) (d : DevId) (maxlen : Nat) :
    (s.setRing d { s.ring d with ovf := false }).sameTraffic (s.readLine d maxlen) ∨
    ∃ n, n ≤ (s.ring d).firstLine s.cfg.ringCap ∧
      (s.setRing d ((s.ring d).consume s.cfg.ringCap n)).sameTraffic (s.readLine d maxlen) := by
  unfold State.readLine
  dsimp only
  split
  next => exact .inl (by simp [State.sameTraffic])
  next => exact .inr ⟨_, Nat.min_le_left _ maxlen, by simp [State.sameTraffic]⟩

/-- The state in which `READ_ALL` updates its ring: the bytes are copied to `RBUF` and the yield point has passed (R152). -/
def State.readAllYielded (s : State) (d : DevId) (maxlen : Nat) : State :=
  (s.storeRbuf ((s.ring d).bytes s.cfg.ringCap (min ((s.ring d).count s.cfg.ringCap) maxlen))).yieldPoint

/-- `READ_ALL` writes one ring, after the receive events of its yield point: it consumes as many bytes as it copied
(R152). -/
theorem State.readAll_sameTraffic (s : State) (d : DevId) (maxlen : Nat) :
    ((s.readAllYielded d maxlen).setRing d (((s.readAllYielded d maxlen).ring d).consume s.cfg.ringCap
      (min ((s.ring d).count s.cfg.ringCap) maxlen))).sameTraffic (s.readAll d maxlen) :=
  ⟨rfl, rfl, rfl, rfl, rfl, rfl, rfl⟩

theorem Steady.readAllYielded {P : State → Prop} (hP : Steady P) {s : State} (h : P s) (d : DevId) (maxlen : Nat) :
    P (s.readAllYielded d maxlen) :=
  hP.yieldPoint (hP.same (by simp [State.sameTraffic]) h)

/-- A steady property that no write of a ring breaks is kept by both ring commands. -/
theorem Steady.ringCommands {P : State → Prop} (hP : Steady P)
    (hring : ∀ (s : State) (d : DevId) (r : Ring), P s → P (s.setRing d r)) {s : State} (h : P s) (d : DevId)
    (maxlen : Byte) :
    (∃ t, execReadLine d maxlen s = .next t ∧ P t) ∧ ∃ t, execReadAll d maxlen s = .next t ∧ P t := by
  constructor
  · rcases execReadLine_cases d maxlen s with heq | heq
    · exact ⟨_, heq, hP.same (s.raise_sameTraffic _) h⟩
    · rcases s.readLine_cases d maxlen.toNat with same | ⟨n, -, same⟩ <;>
        exact ⟨_, heq, hP.same same (hring _ _ _ h)⟩
  · rcases execReadAll_cases d maxlen s with heq | heq
    · exact ⟨_, heq, hP.same (s.raise_sameTraffic _) h⟩
    · exact ⟨_, heq, hP.same (s.readAll_sameTraffic d maxlen.toNat) (hring _ _ _ (hP.readAllYielded h d _))⟩

/-! ## Every command, and the step -/

/-- A command other than `SET_INPUT_HANDLER`, `READ_LINE` and `READ_ALL` answers and keeps every steady property. -/
theorem Steady.exec {P : State → Prop} (hP : Steady P) {s : State} (h : P s) (i : Instr)
    (hhandler : i.mnemonic ≠ .setInputHandler) (hline : i.mnemonic ≠ .readLine) (hall : i.mnemonic ≠ .readAll) :
    ∃ t, exec i s = .next t ∧ P t := by
  cases i with
  | acquire d => exact hP.execAcquire h d
  | release d => exact hP.execRelease h d
  | read d rlen => exact ⟨_, rfl, hP.ioCommand h d 0 rlen⟩
  | write d wlen => exact ⟨_, rfl, hP.ioCommand h d wlen 0⟩
  | transfer d wlen rlen => exact ⟨_, rfl, hP.ioCommand h d wlen rlen⟩
  | isOwner d => exact hP.execIsOwner h d
  | setInputHandler d cb => exact absurd rfl hhandler
  | readLine d maxlen => exact absurd rfl hline
  | readAll d maxlen => exact absurd rfl hall

/-- Every stimulus keeps a steady property that a reset keeps. -/
theorem Steady.accept {P : State → Prop} (hP : Steady P) (hreset : ∀ s : State, P s → P s.resetEvent) {s t : State}
    (h : P s) (i : Input) (ha : s.accept i = .next t) : P t := by
  cases i with
  | command w =>
    cases ha
    exact hP.same (by simp [State.sameTraffic, State.issue]) h
  | hostWrite off x =>
    rw [State.accept] at ha
    split at ha
    · cases ha
      exact hP.same (s := s) ⟨rfl, rfl, rfl, rfl, rfl, rfl, rfl⟩ h
    · cases ha
  | rxByte b x =>
    cases ha
    exact hP.rxByte s b x h
  | ticks n =>
    cases ha
    exact hP.same (s := s) ⟨rfl, rfl, rfl, rfl, rfl, rfl, rfl⟩ h
  | reset =>
    cases ha
    exact hreset s h

/-- A steady property that every command and a reset keep is kept by every step. -/
theorem Steady.step {P : State → Prop} (hP : Steady P) (hreset : ∀ s : State, P s → P s.resetEvent)
    (hexec : ∀ (s : State) (i : Instr), P s → ∃ t, Machine.exec i s = .next t ∧ P t) {s t : State} (h : P s)
    (hstep : step s = .next t) : P t := by
  obtain ⟨-, hcases⟩ := step_next_cases hstep
  rcases hcases with ⟨i, -, -, -, hi⟩ | ⟨-, -, -, -, rfl⟩ | ⟨-, -, rfl⟩ | ⟨i, rest, -, -, ha⟩
  · obtain ⟨t', heq, ht'⟩ := hexec s i h
    cases heq.symm.trans hi
    exact ht'
  · exact hP.same (s.raise_sameTraffic _) h
  · exact h
  · exact hP.accept hreset (s := { s with inputs := rest })
      (hP.same (s := s) ⟨rfl, rfl, rfl, rfl, rfl, rfl, rfl⟩ h) i ha

end Sys2Proof.Machine
end

section
/-! The ring invariants (R29, R31) are kept by every step, and no command but the ring commands and a registration moves a
`TAIL` (R155). -/

namespace Sys2Proof.Machine

/-! ## What keeps every ring sound -/

theorem State.setRing_keeps_ringsOk {s : State} (h : s.ringsOk) (d : DevId) {r : Ring} (hr : r.ok s.cfg.ringCap) :
    (s.setRing d r).ringsOk := by
  intro e
  rw [State.setRing_ring, State.setRing_cfg]
  split
  · exact hr
  · exact h e

theorem State.rxByte_keeps_ringsOk {s : State} (h : s.ringsOk) (b : BusId) (x : Byte) : (s.rxByte b x).ringsOk := by
  rcases s.rxByte_cases b x with ⟨-, heq⟩ | ⟨g, -, -, ⟨-, heq⟩ | ⟨-, heq⟩⟩ <;> rw [heq]
  · exact h
  · exact State.setRing_keeps_ringsOk h g.dev (h g.dev)
  · exact State.setRing_keeps_ringsOk h g.dev (Ring.receive_keeps_ok (h g.dev) x)

theorem State.sameTraffic.keeps_ringsOk {s t : State} (same : s.sameTraffic t) (h : s.ringsOk) : t.ringsOk := by
  intro d
  rw [same.ring, same.cfg]
  exact h d

theorem steady_ringsOk : Steady State.ringsOk where
  same := State.sameTraffic.keeps_ringsOk
  rxByte _ b x h := State.rxByte_keeps_ringsOk h b x
  emitTx _ _ _ h := h
  emitI2c _ _ _ h := h
  emitSpi _ _ _ h := h

/-- The rings are sound, and device d has at least n unread bytes: what `READ_ALL` relies on when it has copied n bytes and
its yield point has passed (R152). -/
def State.hasUnread (d : DevId) (n : Nat) (s : State) : Prop := s.ringsOk ∧ n ≤ (s.ring d).count s.cfg.ringCap

/-- Only a consumer takes an unread byte: a receive event never shortens what is unread (R143, R144). -/
theorem State.count_le_rxByte {s : State} (h : s.ringsOk) (b : BusId) (x : Byte) (d : DevId) :
    (s.ring d).count s.cfg.ringCap ≤ ((s.rxByte b x).ring d).count s.cfg.ringCap := by
  rcases s.rxByte_cases b x with ⟨-, heq⟩ | ⟨g, -, -, ⟨-, heq⟩ | ⟨-, heq⟩⟩ <;> rw [heq]
  · rw [State.setRing_ring]
    split
    next hd => exact hd ▸ le_rfl
    next => exact le_rfl
  · rw [State.emitNotify_ring, State.setRing_ring]
    split
    next hd => exact hd ▸ Ring.count_le_receive (h g.dev) x
    next => exact le_rfl

theorem steady_hasUnread (d : DevId) (n : Nat) : Steady (State.hasUnread d n) where
  same := by
    rintro s t same ⟨hok, hn⟩
    refine ⟨same.keeps_ringsOk hok, ?_⟩
    rw [same.ring, same.cfg]
    exact hn
  rxByte := by
    rintro s b x ⟨hok, hn⟩
    refine ⟨State.rxByte_keeps_ringsOk hok b x, ?_⟩
    rw [State.rxByte_cfg]
    exact hn.trans (State.count_le_rxByte hok b x d)
  emitTx _ _ _ h := h
  emitI2c _ _ _ h := h
  emitSpi _ _ _ h := h

/-! ## The three commands that write a ring -/

theorem State.ringsOk.ringCap_pos {s : State} (h : s.ringsOk) : 0 < s.cfg.ringCap := by
  obtain ⟨hhead, -⟩ := h 0
  omega

theorem State.register_keeps_ringsOk {s : State} (h : s.ringsOk) (b : BusId) (d : DevId) (cb : Byte) :
    (s.register b d cb).ringsOk := by
  have hrestart : (s.setRing d (s.ring d).restart).ringsOk :=
    State.setRing_keeps_ringsOk h d (Ring.ok_of_restarted h.ringCap_pos rfl rfl rfl)
  rcases s.register_cases b d cb with ⟨-, heq | heq⟩ | ⟨-, heq | heq⟩ <;> rw [heq]
  · exact h
  · exact h
  · exact h
  · exact hrestart

theorem State.readLine_keeps_ringsOk {s : State} (h : s.ringsOk) (d : DevId) (maxlen : Nat) :
    (s.readLine d maxlen).ringsOk := by
  rcases s.readLine_cases d maxlen with same | ⟨n, hn, same⟩
  · exact same.keeps_ringsOk (State.setRing_keeps_ringsOk h d (h d))
  · have hcount := hn.trans ((s.ring d).firstLine_le_count _)
    exact same.keeps_ringsOk (State.setRing_keeps_ringsOk h d (Ring.consume_keeps_ok (h d) hcount))

theorem State.readAll_keeps_ringsOk {s : State} (h : s.ringsOk) (d : DevId) (maxlen : Nat) :
    (s.readAll d maxlen).ringsOk := by
  have hcfg : (s.readAllYielded d maxlen).cfg = s.cfg := by simp [State.readAllYielded]
  have hcopied : s.hasUnread d (min ((s.ring d).count s.cfg.ringCap) maxlen) := ⟨h, Nat.min_le_left _ _⟩
  obtain ⟨hok, hn⟩ := (steady_hasUnread _ _).readAllYielded hcopied d maxlen
  refine (s.readAll_sameTraffic d maxlen).keeps_ringsOk (State.setRing_keeps_ringsOk hok d ?_)
  rw [hcfg] at hn ⊢
  exact Ring.consume_keeps_ok (hcfg ▸ hok d) hn

/-! ## Every command, and the step -/

/-- Every command answers and keeps every ring sound. -/
theorem exec_keeps_ringsOk (s : State) (i : Instr) (h : s.ringsOk) : ∃ t, exec i s = .next t ∧ t.ringsOk := by
  have hraise (st : BusStatus) : (s.raise st).ringsOk := (s.raise_sameTraffic st).keeps_ringsOk h
  cases i with
  | setInputHandler d cb =>
    rcases execSetInputHandler_cases d cb s with heq | ⟨dc, -, -, -, heq⟩
    · exact ⟨_, heq, hraise _⟩
    · exact ⟨_, heq, State.register_keeps_ringsOk h dc.bus d cb⟩
  | readLine d maxlen =>
    rcases execReadLine_cases d maxlen s with heq | heq
    · exact ⟨_, heq, hraise _⟩
    · exact ⟨_, heq, State.readLine_keeps_ringsOk h d _⟩
  | readAll d maxlen =>
    rcases execReadAll_cases d maxlen s with heq | heq
    · exact ⟨_, heq, hraise _⟩
    · exact ⟨_, heq, State.readAll_keeps_ringsOk h d _⟩
  | _ => exact steady_ringsOk.exec h _ nofun nofun nofun

/-- After a reset every ring is empty (R42, R185). -/
theorem State.resetEvent_ringsOk {s : State} (h : s.ringsOk) : s.resetEvent.ringsOk :=
  fun _ => Ring.ok_of_restarted h.ringCap_pos rfl rfl rfl

/-- Settles O56: receive events, consumers and registrations each keep the marker just past the last unread terminator, and
nothing else writes a ring. -/
theorem stepKeepsRingInvariant : Obligations.StepKeepsRingInvariant := fun _ _ =>
  steady_ringsOk.step (fun _ => State.resetEvent_ringsOk) exec_keeps_ringsOk

/-! ## `TAIL` -/

/-- Every `TAIL` is where it was in s. -/
def State.sameTails (s t : State) : Prop := ∀ d, (t.ring d).tail = (s.ring d).tail

theorem steady_sameTails (s : State) : Steady s.sameTails where
  same same h d := by rw [same.ring, h d]
  rxByte _ b x h d := by rw [State.rxByte_tail, h d]
  emitTx _ _ _ h := h
  emitI2c _ _ _ h := h
  emitSpi _ _ _ h := h

/-- Settles O51: the other six commands write a ring by receive events only, and those move no `TAIL`. -/
theorem tailWrittenByConsumerOnly : Obligations.TailWrittenByConsumerOnly := by
  intro i s t hexec hline hall hhandler
  obtain ⟨t', heq, ht'⟩ := (steady_sameTails s).exec (fun _ => rfl) i hhandler hline hall
  cases heq.symm.trans hexec
  exact ht'

end Sys2Proof.Machine
end

section
/-! The observation logs only grow (R41). -/

namespace Sys2Proof.Machine

/-- Every log of s is the beginning of the same log of t. -/
def State.logsExtend (s t : State) : Prop :=
  s.notify <+: t.notify ∧
    ∀ b, s.txlogOf b <+: t.txlogOf b ∧ s.i2clogOf b <+: t.i2clogOf b ∧ s.spilogOf b <+: t.spilogOf b

/-- An entry appended to the log of one bus leaves each log an extension of what it extended. -/
theorem isPrefix_ite_append {α : Type} {old : List α} {new : BusId → List α} {b : BusId} (v : List α) (c : BusId)
    (h : old <+: new c) : old <+: if c = b then new b ++ v else new c := by
  split
  next hc => exact (hc ▸ h).trans (List.prefix_append _ _)
  next => exact h

theorem steady_logsExtend (s : State) : Steady s.logsExtend where
  same := by
    rintro t u ⟨-, -, -, hnotify, htx, hi2c, hspi⟩ h
    simpa only [State.logsExtend, State.txlogOf, State.i2clogOf, State.spilogOf, hnotify, htx, hi2c, hspi] using h
  rxByte := by
    rintro t b x ⟨hnotify, hlogs⟩
    exact ⟨hnotify.trans (t.rxByte_notify b x), by simpa using hlogs⟩
  emitTx := by
    rintro t b v ⟨hnotify, hlogs⟩
    refine ⟨hnotify, fun c => ?_⟩
    obtain ⟨htx, hi2c, hspi⟩ := hlogs c
    exact ⟨t.emitTx_txlogOf b c v ▸ isPrefix_ite_append v c htx, hi2c, hspi⟩
  emitI2c := by
    rintro t b e ⟨hnotify, hlogs⟩
    refine ⟨hnotify, fun c => ?_⟩
    obtain ⟨htx, hi2c, hspi⟩ := hlogs c
    exact ⟨htx, t.emitI2c_i2clogOf b c e ▸ isPrefix_ite_append [e] c hi2c, hspi⟩
  emitSpi := by
    rintro t b e ⟨hnotify, hlogs⟩
    refine ⟨hnotify, fun c => ?_⟩
    obtain ⟨htx, hi2c, hspi⟩ := hlogs c
    exact ⟨htx, hi2c, t.emitSpi_spilogOf b c e ▸ isPrefix_ite_append [e] c hspi⟩

/-- `SET_INPUT_HANDLER` writes no log. -/
theorem execSetInputHandler_logsExtend (d : DevId) (cb : Byte) {s t : State} (h : s.logsExtend t) :
    ∃ u, execSetInputHandler d cb t = .next u ∧ s.logsExtend u := by
  rcases execSetInputHandler_cases d cb t with heq | ⟨dc, -, -, -, heq⟩
  · exact ⟨_, heq, (steady_logsExtend s).same (t.raise_sameTraffic _) h⟩
  · refine ⟨_, heq, ?_⟩
    rcases t.register_cases dc.bus d cb with ⟨-, hreg | hreg⟩ | ⟨-, hreg | hreg⟩ <;> rw [hreg] <;> exact h

/-- Every command answers and extends the logs. -/
theorem exec_logsExtend (i : Instr) (s : State) : ∃ t, exec i s = .next t ∧ s.logsExtend t := by
  have hstart : s.logsExtend s := by simp [State.logsExtend]
  have hring : ∀ (t : State) (d : DevId) (r : Ring), s.logsExtend t → s.logsExtend (t.setRing d r) := fun _ _ _ h => h
  cases i with
  | setInputHandler d cb => exact execSetInputHandler_logsExtend d cb hstart
  | readLine d maxlen => exact ((steady_logsExtend s).ringCommands hring hstart d maxlen).1
  | readAll d maxlen => exact ((steady_logsExtend s).ringCommands hring hstart d maxlen).2
  | _ => exact (steady_logsExtend s).exec hstart _ nofun nofun nofun

/-- Settles O52: every write of a log appends to it. -/
theorem logsOnlyGrow : Obligations.LogsOnlyGrow := by
  intro i s t hexec
  obtain ⟨t', heq, hgrow⟩ := exec_logsExtend i s
  cases heq.symm.trans hexec
  exact hgrow

end Sys2Proof.Machine
end

section
/-! The handler invariant (R33, R140) is kept by every step: only `SET_INPUT_HANDLER` and a reset write a handler. -/

namespace Sys2Proof.Machine

/-- A handler that may be registered on bus b: a nonzero callback and a device of b, a UART that receives (R33, R140). -/
def State.admitsHandler (s : State) (b : BusId) (k : Handler) : Prop :=
  k.cb ≠ 0 ∧ s.busIs b .uart = true ∧ s.busTxOnly b = false ∧ ∃ dc, s.dev? k.dev = some dc ∧ dc.bus = b

theorem State.handlersOk_iff (s : State) :
    s.handlersOk ↔ ∀ (b : BusId) (k : Handler), s.handler b = some k → s.admitsHandler b k := Iff.rfl

theorem steady_handlersOk : Steady State.handlersOk where
  same := by
    intro s t same h b k hk
    rw [same.handler] at hk
    simpa only [State.busIs, State.busTxOnly, State.busCfg?, State.dev?, same.cfg] using h b k hk
  rxByte _ b x h := by simpa [State.handlersOk] using h
  emitTx _ _ _ h := h
  emitI2c _ _ _ h := h
  emitSpi _ _ _ h := h

/-- A handler written to one bus keeps the invariant, if what is registered meets it. -/
theorem State.setHandler_keeps_handlersOk {s : State} (h : s.handlersOk) {b : BusId} {g : Option Handler}
    (hg : ∀ k, g = some k → s.admitsHandler b k) : (s.setHandler b g).handlersOk := by
  refine (State.handlersOk_iff _).2 fun c k hk => ?_
  rw [State.setHandler_handler] at hk
  split at hk
  next hc => exact hc ▸ hg k hk
  next => exact h c k hk

/-- `SET_INPUT_HANDLER` registers a device of a receiving UART bus with a nonzero callback, or no device (R140). -/
theorem execSetInputHandler_keeps_handlersOk {s : State} (h : s.handlersOk) (d : DevId) (cb : Byte) :
    ∃ t, execSetInputHandler d cb s = .next t ∧ t.handlersOk := by
  rcases execSetInputHandler_cases d cb s with heq | ⟨dc, hdev, hkind, hmode, heq⟩
  · exact ⟨_, heq, steady_handlersOk.same (s.raise_sameTraffic _) h⟩
  have hnew : cb ≠ 0 → ∀ k : Handler, some { dev := d, cb := cb } = some k → s.admitsHandler dc.bus k := by
    rintro hcb k ⟨⟩
    exact ⟨hcb, hkind, hmode hcb, dc, hdev, rfl⟩
  have hregister : (s.register dc.bus d cb).handlersOk := by
    rcases s.register_cases dc.bus d cb with ⟨-, hreg | hreg⟩ | ⟨hcb, hreg | hreg⟩ <;> rw [hreg]
    · exact h
    · exact State.setHandler_keeps_handlersOk h nofun
    · exact State.setHandler_keeps_handlersOk h (hnew hcb)
    · exact State.setHandler_keeps_handlersOk (s := s.setRing d (s.ring d).restart) h (hnew hcb)
  exact ⟨_, heq, hregister⟩

/-- Every command answers and keeps the handler invariant. -/
theorem exec_keeps_handlersOk (s : State) (i : Instr) (h : s.handlersOk) : ∃ t, exec i s = .next t ∧ t.handlersOk := by
  have hring : ∀ (t : State) (d : DevId) (r : Ring), t.handlersOk → (t.setRing d r).handlersOk := fun _ _ _ h => h
  cases i with
  | setInputHandler d cb => exact execSetInputHandler_keeps_handlersOk h d cb
  | readLine d maxlen => exact (steady_handlersOk.ringCommands hring h d maxlen).1
  | readAll d maxlen => exact (steady_handlersOk.ringCommands hring h d maxlen).2
  | _ => exact steady_handlersOk.exec h _ nofun nofun nofun

/-- Settles O59: a registration meets the invariant, and a reset leaves no handler. -/
theorem stepKeepsHandlerInvariant : Obligations.StepKeepsHandlerInvariant := fun _ _ =>
  steady_handlersOk.step (fun _ _ => nofun) exec_keeps_handlersOk

end Sys2Proof.Machine
end

section
/-! Which command writes a bus (R18, R109), and what `ACQUIRE` of a free or stale bus and `RELEASE` by the owner leave
(R88, R90, R95). -/

namespace Sys2Proof.Machine

/-! ## The timers (R18) -/

/-- `unlock` keeps the timer of every bus (R89). -/
theorem State.unlock_timer (s : State) (b c : BusId) :
    ((s.unlock b).2.bus c).expStart = (s.bus c).expStart ∧
      ((s.unlock b).2.bus c).expInterval = (s.bus c).expInterval := by
  obtain ⟨u, hbus⟩ := s.unlock_bus b c
  rw [hbus]
  split
  next hc => exact hc ▸ ⟨rfl, rfl⟩
  next => exact ⟨rfl, rfl⟩

theorem State.unlock_bus_of_ne (s : State) {b c : BusId} (hc : c ≠ b) : (s.unlock b).2.bus c = s.bus c := by
  obtain ⟨u, hbus⟩ := s.unlock_bus b c
  rw [hbus, if_neg hc]

theorem execRelease_timer (d : DevId) (s : State) (b : BusId) :
    ∃ t, execRelease d s = .next t ∧ (t.bus b).expStart = (s.bus b).expStart ∧
      (t.bus b).expInterval = (s.bus b).expInterval := by
  rcases execRelease_cases d s with ⟨st, heq⟩ | ⟨dc, -, ⟨-, heq⟩ | ⟨-, heq⟩⟩
  · exact ⟨_, heq, by simp⟩
  · exact ⟨_, heq, by simpa using s.unlock_timer dc.bus b⟩
  · exact ⟨_, heq, by simpa using s.unlock_timer dc.bus b⟩

/-- Settles O50: `RELEASE` writes a bus by `unlock` alone, and the other seven commands write none. -/
theorem onlyArbiterCommandsWriteBuses : Obligations.OnlyArbiterCommandsWriteBuses := by
  intro i s t hexec hacquire
  have hother (hrelease : i.mnemonic ≠ .release) : s.sameArbiter t := by
    obtain ⟨t', heq, same⟩ := exec_sameArbiter i s hacquire hrelease
    cases heq.symm.trans hexec
    exact same
  refine ⟨fun b => ?_, fun hrelease => ?_⟩
  · cases i with
    | release d =>
      obtain ⟨t', heq, htimer⟩ := execRelease_timer d s b
      cases heq.symm.trans hexec
      exact htimer
    | acquire d => exact absurd rfl hacquire
    | _ =>
      obtain ⟨-, hbuses, -⟩ := hother nofun
      simp only [State.bus, hbuses, and_self]
  · obtain ⟨-, hbuses, hcs⟩ := hother hrelease
    exact ⟨hbuses, hcs⟩

/-! ## `ACQUIRE` of a free or stale bus -/

/-- Bring-up succeeds on a bus that exists, but on I2C only at a canonical speed (R87, R112). -/
theorem State.initStatus_eq_ok {s : State} {dc : DevCfg} {bc : BusCfg} (hbus : s.busCfg? dc.bus = some bc)
    (hspeed : bc.kind = .i2c → dc.speed = s.cfg.i2cSpeedA ∨ dc.speed = s.cfg.i2cSpeedB) :
    s.initStatus dc = .ok := by
  simp only [State.initStatus, hbus]
  split
  next hkind => exact if_neg fun ⟨ha, hb⟩ => (hspeed hkind).elim ha hb
  next => rfl
  next => rfl

/-- The state in which `ACQUIRE` takes its bus: the chip-select is asserted, the transport is up, and time may have passed
since (R86, R87, R98). -/
def State.readied (s : State) (d : DevId) (dc : DevCfg) : State :=
  ((s.select d dc).setBus dc.bus { (s.select d dc).bus dc.bus with up := true }).drift

theorem State.acquireFree_of_ok {s : State} {d : DevId} {dc : DevCfg} (hok : (s.select d dc).initStatus dc = .ok) :
    s.acquireFree d dc = ((s.readied d dc).take d dc).conclude .ok := by
  rcases s.acquireFree_cases d dc with ⟨-, heq⟩ | ⟨hbad, -⟩
  · exact heq
  · cases hok.symm.trans hbad

/-- The bus that is taken: its owner, and its timer armed with the device's interval at the instant it is taken (R84,
R88). -/
theorem State.acquireFree_bus_self {s : State} {d : DevId} {dc : DevCfg}
    (hok : (s.select d dc).initStatus dc = .ok) :
    (s.acquireFree d dc).bus dc.bus =
      { ownerId := d, locked := true, expStart := (s.readied d dc).now, expInterval := s.lockInterval dc, up := true } := by
  have hinterval : (s.readied d dc).lockInterval dc = s.lockInterval dc := by simp [State.lockInterval, State.readied]
  have hup : ((s.readied d dc).bus dc.bus).up = true := by simp [State.readied]
  rw [State.acquireFree_of_ok hok, State.conclude_bus, State.take_bus, if_pos rfl, hinterval, hup]

theorem State.acquireFree_bus_other {s : State} {d : DevId} {dc : DevCfg}
    (hok : (s.select d dc).initStatus dc = .ok) {c : BusId} (hc : c ≠ dc.bus) :
    (s.acquireFree d dc).bus c = s.bus c := by
  rw [State.acquireFree_of_ok hok, State.conclude_bus, State.take_bus, if_neg hc]
  simp [State.readied, hc]

/-- The device's own chip-select, if it has one, is asserted (R86, R95). -/
theorem State.acquireFree_csOf_self {s : State} {d : DevId} {dc : DevCfg}
    (hok : (s.select d dc).initStatus dc = .ok) (hcs : dc.chipSelect.isSome = true) :
    (s.acquireFree d dc).csOf d = true := by
  rw [State.acquireFree_of_ok hok]
  simp [State.take, State.arm, State.readied, State.select_csOf, hcs]

theorem State.select_env_drifts (s : State) (d : DevId) (dc : DevCfg) :
    (s.select d dc).env.drifts = s.env.drifts := by
  rcases s.select_cases d dc with ⟨-, heq⟩ | ⟨-, -, ⟨-, heq⟩ | ⟨-, heq⟩⟩ <;> simp [heq, State.wait]

/-- The response is written when the second drawn time has passed since the arming (R98). -/
theorem State.acquireFree_now {s : State} {d : DevId} {dc : DevCfg} (hok : (s.select d dc).initStatus dc = .ok)
    {n m : Nat} {ns : List Nat} (hdrifts : s.env.drifts = n :: m :: ns) :
    (s.acquireFree d dc).now = (s.readied d dc).now + BitVec.ofNat 32 m := by
  have hbefore : ((s.select d dc).setBus dc.bus { (s.select d dc).bus dc.bus with up := true }).env.drifts =
      n :: m :: ns := (s.select_env_drifts d dc).trans hdrifts
  have hafter : ((s.readied d dc).take d dc).env.drifts = m :: ns := by
    rw [State.readied, State.drift_cons _ n (m :: ns) hbefore]
    rfl
  rw [State.acquireFree_of_ok hok, State.conclude_now, State.drift_cons _ m ns hafter]
  rfl

theorem State.unlock_env_drifts (s : State) (b : BusId) : (s.unlock b).2.env.drifts = s.env.drifts := by
  rcases s.unlock_cases b with ⟨-, heq⟩ | ⟨u, -, heq⟩ <;> rw [heq]
  · dsimp only
    split_ifs <;> simp
  · simp

/-- `ACQUIRE` of a bus that no live lock of another device and no lock of its own holds runs steps 3 to 5, after an eviction
if the bus was locked (R88, R91): on a state of the same board, with no time passed and the other buses as they were. -/
theorem execAcquire_of_free_or_stale {s : State} {d : DevId} {dc : DevCfg} (hdev : s.dev? d = some dc)
    (hfree : (s.bus dc.bus).locked = true → (s.bus dc.bus).ownerId ≠ d ∧ s.elapsed dc.bus = true) :
    ∃ u : State, execAcquire d s = .next (u.acquireFree d dc) ∧ u.cfg = s.cfg ∧ u.env.drifts = s.env.drifts ∧
      ∀ c, c ≠ dc.bus → u.bus c = s.bus c := by
  cases hlocked : (s.bus dc.bus).locked with
  | false => exact ⟨s, by simp [execAcquire, hdev, State.owns, hlocked], rfl, rfl, fun _ _ => rfl⟩
  | true =>
    obtain ⟨howner, helapsed⟩ := hfree hlocked
    refine ⟨(s.unlock dc.bus).2, ?_, s.unlock_cfg dc.bus, s.unlock_env_drifts dc.bus, fun c => s.unlock_bus_of_ne⟩
    simp [execAcquire, hdev, State.owns, hlocked, howner, helapsed]

/-- Settles O16: the bus is free once a stale owner is evicted, and then it is taken. -/
theorem acquireTakesFreeOrStaleBus : Obligations.AcquireTakesFreeOrStaleBus := by
  intro s d dc bc hdev hbus hspeed hfree
  obtain ⟨u, hexec, hcfg, hdrifts, hothers⟩ := execAcquire_of_free_or_stale hdev hfree
  have hbus' : u.busCfg? dc.bus = some bc := by simpa only [State.busCfg?, hcfg] using hbus
  have hdev' : u.dev? d = some dc := by simpa only [State.dev?, hcfg] using hdev
  have hok : (u.select d dc).initStatus dc = .ok :=
    State.initStatus_eq_ok (bc := bc) (by simpa using hbus') (by simpa [hcfg] using hspeed)
  have hself := State.acquireFree_bus_self hok
  refine ⟨_, hexec, ?resp, ?busy, ?self, ?now, ?others, ?select⟩
  case resp => rw [State.acquireFree_of_ok hok, State.conclude_resp]
  case busy => rw [State.acquireFree_of_ok hok, State.conclude_busy]
  case self =>
    rw [hself]
    simp [State.lockInterval, State.defaultTimeout, hbus']
  case now =>
    intro n m ns hqueue
    rw [hself, State.acquireFree_now hok (hdrifts.trans hqueue)]
  case others => exact fun c hc => (State.acquireFree_bus_other hok hc).trans (hothers c hc)
  case select =>
    intro p hp
    have hasserted := State.acquireFree_csOf_self hok (by rw [hp]; rfl)
    exact ⟨hasserted, by simp [State.pinLevel, hdev', hp, hasserted]⟩

/-! ## `RELEASE` by the owner -/

theorem State.drawTeardown_eq (s : State) : ∃ e n, s.drawTeardown.2 = { s with env := e, draws := n } := by
  unfold State.drawTeardown
  split <;> exact ⟨_, _, rfl⟩

/-- The frame of `unlock`: it writes buses and chip-selects, and draws from the environment (R89). -/
theorem State.unlock_eq (s : State) (b : BusId) :
    ∃ bs cs e n, (s.unlock b).2 = { s with buses := bs, cs := cs, env := e, draws := n } := by
  obtain ⟨e, n, hdraw⟩ := s.drawTeardown_eq
  rcases s.unlock_cases b with ⟨-, heq⟩ | ⟨u, -, heq⟩ <;> rw [heq, hdraw]
  · dsimp only
    split_ifs <;> exact ⟨_, _, _, _, rfl⟩
  · exact ⟨_, _, _, _, rfl⟩

/-- After `unlock` the bus is free, whatever the outcome of the teardown (R89). -/
theorem State.unlock_frees (s : State) (b : BusId) :
    ((s.unlock b).2.bus b).locked = false ∧ ((s.unlock b).2.bus b).ownerId = 0 := by
  obtain ⟨u, hbus⟩ := s.unlock_bus b b
  simp [hbus]

/-- A teardown that succeeds leaves the transport down, and the owner's chip-select, if it has one, deasserted (R89). -/
theorem State.unlock_of_succeeded {s : State} (htd : s.drawTeardown.1 = .succeeded) (b : BusId) :
    (s.unlock b).1 = true ∧ ((s.unlock b).2.bus b).up = false ∧
      (s.hasCs (s.bus b).ownerId = true → (s.unlock b).2.csOf (s.bus b).ownerId = false) := by
  rcases s.unlock_cases b with ⟨-, heq⟩ | ⟨u, hfail, -⟩
  · rw [heq]
    dsimp only
    split_ifs with hcs <;> simp [hcs]
  · cases htd.symm.trans hfail

/-- A teardown that fails leaves `UP` at the value drawn, and every chip-select as it was (R89). -/
theorem State.unlock_of_failed {s : State} {u : Bool} (htd : s.drawTeardown.1 = .failed u) (b : BusId) :
    (s.unlock b).1 = false ∧ ((s.unlock b).2.bus b).up = u ∧ ∀ e, (s.unlock b).2.csOf e = s.csOf e := by
  rcases s.unlock_cases b with ⟨hok, -⟩ | ⟨u', hfail, heq⟩
  · cases hok.symm.trans htd
  · cases hfail.symm.trans htd
    simp [heq]

/-- `RELEASE` by the owner answers by the outcome of the teardown (R90). -/
theorem execRelease_of_owner {s : State} {d : DevId} {dc : DevCfg} (hdev : s.dev? d = some dc)
    (hlocked : (s.bus dc.bus).locked = true) (howner : (s.bus dc.bus).ownerId = d) :
    execRelease d s = .next (if (s.unlock dc.bus).1 then (s.unlock dc.bus).2.respond .ok false 0
      else (s.unlock dc.bus).2.raise .unknownError) := by
  simp [execRelease, hdev, State.owns, hlocked, howner]

/-- Settles O22, by the outcome of the teardown. -/
theorem releaseByOwnerUnlocks : Obligations.ReleaseByOwnerUnlocks := by
  rintro s d dc hdev hlocked rfl
  have hexec := execRelease_of_owner hdev hlocked rfl
  obtain ⟨hfree, hnone⟩ := s.unlock_frees dc.bus
  obtain ⟨hstart, hinterval⟩ := s.unlock_timer dc.bus dc.bus
  obtain ⟨bs, cs, e, n, hframe⟩ := s.unlock_eq dc.bus
  have hothers (c : BusId) : c ≠ dc.bus → (s.unlock dc.bus).2.bus c = s.bus c := s.unlock_bus_of_ne
  have hselects (e : DevId) : e ≠ (s.bus dc.bus).ownerId → (s.unlock dc.bus).2.csOf e = s.csOf e :=
    s.unlock_csOf_of_ne dc.bus
  cases htd : s.drawTeardown.1 with
  | succeeded =>
    obtain ⟨hok, hup, hcs⟩ := State.unlock_of_succeeded htd dc.bus
    rw [if_pos hok] at hexec
    refine ⟨_, hexec, rfl, hfree, hnone, hstart, hinterval, fun _ => ⟨rfl, hup, fun a => by simp, fun p hp => ?_⟩,
      fun _ => nofun, hothers, hselects, by rw [hframe]; rfl⟩
    have hdeasserted := hcs (by simp [State.hasCs, hdev, hp])
    exact ⟨hdeasserted, by simp [State.pinLevel, hdev, hp, hdeasserted]⟩
  | failed u =>
    obtain ⟨hfail, hup, hcs⟩ := State.unlock_of_failed htd dc.bus
    rw [if_neg (by simp [hfail])] at hexec
    refine ⟨_, hexec, rfl, hfree, hnone, hstart, hinterval, (nofun), fun v hv => ?_, hothers, hselects,
      by rw [hframe]; rfl⟩
    cases hv
    exact ⟨rfl, hup, hcs _⟩

end Sys2Proof.Machine
end

section
/-! The step of a busy block (R39, R72), and reset (R42, R185, R186). -/

namespace Sys2Proof.Machine

/-- Settles O7. -/
theorem stepRunsDecodedCommand : Obligations.StepRunsDecodedCommand :=
  fun s i hw hbusy hreset hdecode => step_command s i hw hbusy hreset hdecode

/-- A bus without a handler has no receive event enabled (R142). -/
theorem State.rxEnabled_of_no_handler {s : State} {b : BusId} (h : s.handler b = none) : s.rxEnabled b = false := by
  unfold State.rxEnabled
  split <;> simp [h]

/-- Settles O53: every table is empty, so each bus, chip-select, ring and handler reads as its reset value. -/
theorem resetLeavesBlockIdle : Obligations.ResetLeavesBlockIdle := by
  refine fun c now => ⟨rfl, fun b => ?_, fun d => ⟨rfl, rfl, rfl, rfl, rfl⟩⟩
  exact ⟨rfl, rfl, rfl, rfl, State.rxEnabled_of_no_handler rfl⟩

/-- Settles O54: on a well-formed board a busy block and an idle one take the reset alike. -/
theorem resetEventRestoresRegisters : Obligations.ResetEventRestoresRegisters :=
  fun s rest hw hinputs => ⟨_, step_reset s rest hw hinputs, rfl, rfl, rfl⟩

theorem State.boot_ringsOk {c : Board} (hw : c.wellFormed = true) (now : Millis) : (State.boot c now).ringsOk := by
  obtain ⟨-, -, hcap, -⟩ := c.wellFormed_iff.1 hw
  have htwo := (c.ringCapOk_iff.1 hcap).1
  exact fun _ => Ring.ok_of_restarted (show 0 < c.ringCap by omega) rfl rfl rfl

theorem State.boot_arbiterOk (c : Board) (now : Millis) : (State.boot c now).arbiterOk :=
  fun _ => (State.busOk_iff_of_free rfl).2 rfl

theorem State.boot_handlersOk (c : Board) (now : Millis) : (State.boot c now).handlersOk := fun _ _ => nofun

/-- The 0 that `RESP` holds is the response word of `Ok` (log 4). -/
theorem State.boot_portOk (c : Board) (now : Millis) : (State.boot c now).portOk :=
  ⟨.ok, false, 0, by simp [State.boot, respWord, BusStatus.code], by omega, by simp⟩

theorem State.boot_canonical (c : Board) (now : Millis) : (State.boot c now).canonical :=
  ⟨rfl, rfl, fun _ => rfl, rfl, rfl, rfl, rfl, rfl, rfl, rfl⟩

/-- The state after reset of a well-formed board meets every invariant. -/
theorem State.boot_safe {c : Board} (hw : c.wellFormed = true) (now : Millis) : (State.boot c now).Safe :=
  ⟨hw, State.boot_ringsOk hw now, State.boot_arbiterOk c now, State.boot_handlersOk c now, State.boot_portOk c now,
    State.boot_canonical c now⟩

/-- Settles O55. -/
theorem resetIsSafe : Obligations.ResetIsSafe :=
  ⟨fun _ now hw => State.boot_safe hw now, State.boot_safe (by decide) 0⟩

end Sys2Proof.Machine
end

section
/-! Readings that several commands share: what a refusal leaves (R45, R169), the ownership test (R92), and the passing of
time between two statements (R55). -/

namespace Sys2Proof.Machine

/-- What a refusal leaves: the response, the block idle, and every byte of `RBUF` free (R45, R169). -/
theorem State.raise_eq (s : State) (st : BusStatus) :
    s.raise st = { s.spoilRbuf with resp := respWord st false 0, busy := false } := rfl

theorem State.owns_iff (s : State) (b : BusId) (d : DevId) :
    s.owns b d = true ↔ (s.bus b).locked = true ∧ (s.bus b).ownerId = d := by
  simp [State.owns]

/-- The frame of the passing of time between two statements: `NOW`, and a draw from the environment (R55). -/
theorem State.drift_eq (s : State) : ∃ now e n, s.drift = { s with now := now, env := e, draws := n } := by
  cases hd : s.env.drifts <;> simp only [State.drift, State.drawDrift, hd] <;> exact ⟨_, _, _, rfl⟩

theorem State.drift_now {s : State} {n : Nat} {ns : List Nat} (hdrifts : s.env.drifts = n :: ns) :
    s.drift.now = s.now + BitVec.ofNat 32 n := by
  rw [s.drift_cons n ns hdrifts]

end Sys2Proof.Machine
end

section
/-! Every step keeps every table and byte space in canonical form: each write of one is a `tableSet`, a `memWrite`, or
a byte sequence written to an empty space. The rings, the handlers and the logs are what commands and receive events
both write; the byte spaces of the command port, the buses and the chip-selects are written by commands and the host
alone. -/

namespace Sys2Proof.Machine

/-! ## The two parts of the canonical form -/

/-- The rings, their bytes, the handlers and the logs are in canonical form. -/
def State.trafficCanonical (s : State) : Prop :=
  (∀ d : DevId, Memory.wf (s.ring d).buf = true) ∧ tableWf Ring.empty s.rings = true ∧
    tableWf none s.handlers = true ∧ tableWf [] s.txlog = true ∧ tableWf [] s.i2clog = true ∧
    tableWf [] s.spilog = true

/-- The byte spaces of the command port, the buses and the chip-selects are in canonical form. -/
def State.portCanonical (s : State) : Prop :=
  Memory.wf s.wbuf = true ∧ Memory.wf s.rbuf = true ∧ tableWf Bus.free s.buses = true ∧ tableWf false s.cs = true

theorem State.canonical_iff (s : State) : s.canonical ↔ s.portCanonical ∧ s.trafficCanonical := by
  simp only [State.canonical, State.portCanonical, State.trafficCanonical]
  tauto

/-! ## The rings, the handlers and the logs -/

theorem State.trafficCanonical.ring_buf {s : State} (h : s.trafficCanonical) (d : DevId) :
    Memory.wf (s.ring d).buf = true := by
  obtain ⟨hbufs, -⟩ := h
  exact hbufs d

theorem State.setRing_keeps_trafficCanonical {s : State} (h : s.trafficCanonical) (d : DevId) {r : Ring}
    (hr : Memory.wf r.buf = true) : (s.setRing d r).trafficCanonical := by
  obtain ⟨hbufs, hrings, hrest⟩ := h
  refine ⟨fun e => ?_, tableWf_set _ _ _ _ hrings, hrest⟩
  rw [State.setRing_ring]
  split
  · exact hr
  · exact hbufs e

theorem State.setHandler_keeps_trafficCanonical {s : State} (h : s.trafficCanonical) (b : BusId)
    (g : Option Handler) : (s.setHandler b g).trafficCanonical := by
  obtain ⟨hbufs, hrings, hhandlers, hlogs⟩ := h
  exact ⟨hbufs, hrings, tableWf_set _ _ _ _ hhandlers, hlogs⟩

/-- A receive step writes at most one byte of a ring (R143). -/
theorem Ring.receive_keeps_wf {r : Ring} (h : Memory.wf r.buf = true) (cap : Nat) (x : Byte) :
    Memory.wf (r.receive cap x).buf = true := by
  unfold Ring.receive
  split
  · exact h
  · exact wf_memWrite _ _ _ h

theorem State.rxByte_keeps_trafficCanonical {s : State} (h : s.trafficCanonical) (b : BusId) (x : Byte) :
    (s.rxByte b x).trafficCanonical := by
  rcases s.rxByte_cases b x with ⟨-, heq⟩ | ⟨g, -, -, ⟨-, heq⟩ | ⟨-, heq⟩⟩ <;> rw [heq]
  · exact h
  · exact State.setRing_keeps_trafficCanonical h g.dev (h.ring_buf g.dev)
  · exact State.setRing_keeps_trafficCanonical h g.dev (Ring.receive_keeps_wf (h.ring_buf g.dev) _ x)

theorem steady_trafficCanonical : Steady State.trafficCanonical where
  same := by
    rintro s t ⟨-, hrings, hhandlers, -, htx, hi2c, hspi⟩ h
    simpa only [State.trafficCanonical, State.ring, hrings, hhandlers, htx, hi2c, hspi] using h
  rxByte _ b x h := State.rxByte_keeps_trafficCanonical h b x
  emitTx := by
    rintro s b v ⟨hbufs, hrings, hhandlers, htx, hrest⟩
    exact ⟨hbufs, hrings, hhandlers, tableWf_set _ _ _ _ htx, hrest⟩
  emitI2c := by
    rintro s b e ⟨hbufs, hrings, hhandlers, htx, hi2c, hspi⟩
    exact ⟨hbufs, hrings, hhandlers, htx, tableWf_set _ _ _ _ hi2c, hspi⟩
  emitSpi := by
    rintro s b e ⟨hbufs, hrings, hhandlers, htx, hi2c, hspi⟩
    exact ⟨hbufs, hrings, hhandlers, htx, hi2c, tableWf_set _ _ _ _ hspi⟩

/-- A registration writes a handler, and moves the indices of a ring whose bytes stay (R140). -/
theorem State.register_keeps_trafficCanonical {s : State} (h : s.trafficCanonical) (b : BusId) (d : DevId) (cb : Byte) :
    (s.register b d cb).trafficCanonical := by
  have hrestart : (s.setRing d (s.ring d).restart).trafficCanonical :=
    State.setRing_keeps_trafficCanonical h d (h.ring_buf d)
  rcases s.register_cases b d cb with ⟨-, heq | heq⟩ | ⟨-, heq | heq⟩ <;> rw [heq]
  · exact h
  · exact State.setHandler_keeps_trafficCanonical h b none
  · exact State.setHandler_keeps_trafficCanonical h b _
  · exact State.setHandler_keeps_trafficCanonical hrestart b _

/-- `READ_LINE` takes bytes out of a ring by moving its indices (R149). -/
theorem State.readLine_keeps_trafficCanonical {s : State} (h : s.trafficCanonical) (d : DevId) (maxlen : Nat) :
    (s.readLine d maxlen).trafficCanonical := by
  rcases s.readLine_cases d maxlen with same | ⟨n, -, same⟩ <;>
    exact steady_trafficCanonical.same same (State.setRing_keeps_trafficCanonical h d (h.ring_buf d))

/-- `READ_ALL` does so after the receive events of its yield point (R152). -/
theorem State.readAll_keeps_trafficCanonical {s : State} (h : s.trafficCanonical) (d : DevId) (maxlen : Nat) :
    (s.readAll d maxlen).trafficCanonical := by
  have hyielded := steady_trafficCanonical.readAllYielded h d maxlen
  exact steady_trafficCanonical.same (s.readAll_sameTraffic d maxlen)
    (State.setRing_keeps_trafficCanonical hyielded d (hyielded.ring_buf d))

theorem exec_keeps_trafficCanonical (s : State) (i : Instr) (h : s.trafficCanonical) :
    ∃ t, exec i s = .next t ∧ t.trafficCanonical := by
  have hraise (st : BusStatus) : (s.raise st).trafficCanonical :=
    steady_trafficCanonical.same (s.raise_sameTraffic st) h
  cases i with
  | setInputHandler d cb =>
    rcases execSetInputHandler_cases d cb s with heq | ⟨dc, -, -, -, heq⟩
    · exact ⟨_, heq, hraise _⟩
    · exact ⟨_, heq, State.register_keeps_trafficCanonical h dc.bus d cb⟩
  | readLine d maxlen =>
    rcases execReadLine_cases d maxlen s with heq | heq
    · exact ⟨_, heq, hraise _⟩
    · exact ⟨_, heq, State.readLine_keeps_trafficCanonical h d _⟩
  | readAll d maxlen =>
    rcases execReadAll_cases d maxlen s with heq | heq
    · exact ⟨_, heq, hraise _⟩
    · exact ⟨_, heq, State.readAll_keeps_trafficCanonical h d _⟩
  | _ => exact steady_trafficCanonical.exec h _ nofun nofun nofun

theorem State.resetEvent_trafficCanonical (s : State) : s.resetEvent.trafficCanonical :=
  ⟨fun _ => rfl, rfl, rfl, rfl, rfl, rfl⟩

/-! ## The command port, the buses and the chip-selects -/

theorem State.portCanonical.of_eq {s t : State} (h : s.portCanonical) (hwbuf : t.wbuf = s.wbuf)
    (hrbuf : t.rbuf = s.rbuf) (hbuses : t.buses = s.buses) (hcs : t.cs = s.cs) : t.portCanonical := by
  simpa only [State.portCanonical, hwbuf, hrbuf, hbuses, hcs] using h

theorem State.setBus_keeps_portCanonical {s : State} (h : s.portCanonical) (b : BusId) (v : Bus) :
    (s.setBus b v).portCanonical := by
  obtain ⟨hwbuf, hrbuf, hbuses, hcs⟩ := h
  exact ⟨hwbuf, hrbuf, tableWf_set _ _ _ _ hbuses, hcs⟩

theorem State.setCs_keeps_portCanonical {s : State} (h : s.portCanonical) (d : DevId) (v : Bool) :
    (s.setCs d v).portCanonical := by
  obtain ⟨hwbuf, hrbuf, hbuses, hcs⟩ := h
  exact ⟨hwbuf, hrbuf, hbuses, tableWf_set _ _ _ _ hcs⟩

/-- `RBUF` is written whole: the bytes go into an empty space (R45). -/
theorem State.storeRbuf_keeps_portCanonical {s : State} (h : s.portCanonical) (v : List Byte) :
    (s.storeRbuf v).portCanonical := by
  obtain ⟨hwbuf, -, hrest⟩ := h
  exact ⟨hwbuf, wf_writeBytes v [] 0 rfl, hrest⟩

theorem State.raise_keeps_portCanonical {s : State} (h : s.portCanonical) (st : BusStatus) :
    (s.raise st).portCanonical :=
  State.storeRbuf_keeps_portCanonical h []

theorem State.drift_keeps_portCanonical {s : State} (h : s.portCanonical) : s.drift.portCanonical :=
  h.of_eq s.drift_wbuf s.drift_rbuf s.drift_buses s.drift_cs

theorem State.conclude_keeps_portCanonical {s : State} (h : s.portCanonical) (st : BusStatus) :
    (s.conclude st).portCanonical := by
  have hdrift := State.drift_keeps_portCanonical h
  rcases s.conclude_cases st with ⟨-, heq⟩ | ⟨-, heq⟩ <;> rw [heq]
  · exact hdrift
  · exact State.raise_keeps_portCanonical hdrift st

theorem State.select_keeps_portCanonical {s : State} (h : s.portCanonical) (d : DevId) (dc : DevCfg) :
    (s.select d dc).portCanonical := by
  have hcs := State.setCs_keeps_portCanonical h d true
  rcases s.select_cases d dc with ⟨-, heq⟩ | ⟨-, -, ⟨-, heq⟩ | ⟨-, heq⟩⟩ <;> rw [heq]
  · exact h
  · exact hcs
  · exact hcs.of_eq (State.wait_wbuf _ _) (State.wait_rbuf _ _) (State.wait_buses _ _) (State.wait_cs _ _)

theorem State.unlock_keeps_portCanonical {s : State} (h : s.portCanonical) (b : BusId) :
    (s.unlock b).2.portCanonical := by
  have hdrawn : s.drawTeardown.2.portCanonical :=
    h.of_eq s.drawTeardown_wbuf s.drawTeardown_rbuf s.drawTeardown_buses s.drawTeardown_cs
  rcases s.unlock_cases b with ⟨-, heq⟩ | ⟨u, -, heq⟩ <;> rw [heq]
  · dsimp only
    split_ifs
    · exact State.setCs_keeps_portCanonical (State.setBus_keeps_portCanonical hdrawn _ _) _ _
    · exact State.setBus_keeps_portCanonical hdrawn _ _
  · exact State.setBus_keeps_portCanonical hdrawn _ _

theorem State.take_keeps_portCanonical {s : State} (h : s.portCanonical) (d : DevId) (dc : DevCfg) :
    (s.take d dc).portCanonical :=
  State.setBus_keeps_portCanonical (State.setBus_keeps_portCanonical h _ _) _ _

theorem State.acquireFree_keeps_portCanonical {s : State} (h : s.portCanonical) (d : DevId) (dc : DevCfg) :
    (s.acquireFree d dc).portCanonical := by
  have hsel := State.select_keeps_portCanonical h d dc
  rcases s.acquireFree_cases d dc with ⟨-, heq⟩ | ⟨-, heq⟩ <;> rw [heq]
  · have hup := State.setBus_keeps_portCanonical hsel dc.bus { (s.select d dc).bus dc.bus with up := true }
    exact State.conclude_keeps_portCanonical
      (State.take_keeps_portCanonical (State.drift_keeps_portCanonical hup) d dc) _
  · exact State.conclude_keeps_portCanonical hsel _

theorem execAcquire_keeps_portCanonical {s : State} (h : s.portCanonical) (d : DevId) :
    ∃ t, execAcquire d s = .next t ∧ t.portCanonical := by
  unfold execAcquire
  split
  next => exact ⟨_, rfl, State.raise_keeps_portCanonical h _⟩
  next dc _ =>
    split_ifs
    · exact ⟨_, rfl, State.conclude_keeps_portCanonical (State.setBus_keeps_portCanonical h _ _) _⟩
    · exact ⟨_, rfl, State.acquireFree_keeps_portCanonical (State.unlock_keeps_portCanonical h _) d dc⟩
    · exact ⟨_, rfl, State.conclude_keeps_portCanonical h _⟩
    · exact ⟨_, rfl, State.acquireFree_keeps_portCanonical h d dc⟩

theorem execRelease_keeps_portCanonical {s : State} (h : s.portCanonical) (d : DevId) :
    ∃ t, execRelease d s = .next t ∧ t.portCanonical := by
  rcases execRelease_cases d s with ⟨st, heq⟩ | ⟨dc, -, ⟨-, heq⟩ | ⟨-, heq⟩⟩
  · exact ⟨_, heq, State.raise_keeps_portCanonical h st⟩
  · exact ⟨_, heq, State.unlock_keeps_portCanonical h dc.bus⟩
  · exact ⟨_, heq, State.raise_keeps_portCanonical (State.unlock_keeps_portCanonical h dc.bus) _⟩

theorem State.ioCommand_keeps_portCanonical {s : State} (h : s.portCanonical) (d : DevId) (wlen rlen : Byte) :
    (s.ioCommand d wlen rlen).portCanonical := by
  unfold State.ioCommand
  split
  next => exact State.raise_keeps_portCanonical h _
  next dc _ =>
    have hxfer : (s.xfer d dc (s.wbufBytes wlen.toNat) rlen.toNat).state.portCanonical :=
      h.of_eq (State.xfer_wbuf _ _ _ _ _) (State.xfer_rbuf _ _ _ _ _) (State.xfer_buses _ _ _ _ _)
        (State.xfer_cs _ _ _ _ _)
    split_ifs
    · exact State.raise_keeps_portCanonical h _
    · exact State.raise_keeps_portCanonical h _
    · rcases XferResult.finish_cases (s.xfer d dc (s.wbufBytes wlen.toNat) rlen.toNat) rlen.toNat with
        ⟨-, -, heq⟩ | ⟨-, -, heq⟩ | ⟨-, heq⟩ <;> rw [heq]
      · exact hxfer
      · exact State.storeRbuf_keeps_portCanonical hxfer _
      · exact State.raise_keeps_portCanonical hxfer _
    · exact State.raise_keeps_portCanonical h _

theorem execIsOwner_keeps_portCanonical {s : State} (h : s.portCanonical) (d : DevId) :
    ∃ t, execIsOwner d s = .next t ∧ t.portCanonical := by
  unfold execIsOwner
  split
  next => exact ⟨_, rfl, State.raise_keeps_portCanonical h _⟩
  next => exact ⟨_, rfl, h⟩

theorem State.register_keeps_portCanonical {s : State} (h : s.portCanonical) (b : BusId) (d : DevId) (cb : Byte) :
    (s.register b d cb).portCanonical := by
  rcases s.register_cases b d cb with ⟨-, heq | heq⟩ | ⟨-, heq | heq⟩ <;> rw [heq] <;> exact h

theorem State.readLine_keeps_portCanonical {s : State} (h : s.portCanonical) (d : DevId) (maxlen : Nat) :
    (s.readLine d maxlen).portCanonical := by
  have hstore (r : Ring) (v : List Byte) (o : Bool) (n : Nat) :
      (((s.setRing d r).storeRbuf v).respond .ok o n).portCanonical :=
    State.storeRbuf_keeps_portCanonical (s := s.setRing d r) h v
  unfold State.readLine
  dsimp only
  split <;> exact hstore _ _ _ _

theorem State.readAll_keeps_portCanonical {s : State} (h : s.portCanonical) (d : DevId) (maxlen : Nat) :
    (s.readAll d maxlen).portCanonical := by
  have hstored := State.storeRbuf_keeps_portCanonical h
    ((s.ring d).bytes s.cfg.ringCap (min ((s.ring d).count s.cfg.ringCap) maxlen))
  exact hstored.of_eq (State.yieldPoint_wbuf _) (State.yieldPoint_rbuf _) (State.yieldPoint_buses _)
    (State.yieldPoint_cs _)

theorem exec_keeps_portCanonical (s : State) (i : Instr) (h : s.portCanonical) :
    ∃ t, exec i s = .next t ∧ t.portCanonical := by
  cases i with
  | acquire d => exact execAcquire_keeps_portCanonical h d
  | release d => exact execRelease_keeps_portCanonical h d
  | read d rlen => exact ⟨_, rfl, State.ioCommand_keeps_portCanonical h d 0 rlen⟩
  | write d wlen => exact ⟨_, rfl, State.ioCommand_keeps_portCanonical h d wlen 0⟩
  | transfer d wlen rlen => exact ⟨_, rfl, State.ioCommand_keeps_portCanonical h d wlen rlen⟩
  | isOwner d => exact execIsOwner_keeps_portCanonical h d
  | setInputHandler d cb =>
    rcases execSetInputHandler_cases d cb s with heq | ⟨dc, -, -, -, heq⟩
    · exact ⟨_, heq, State.raise_keeps_portCanonical h _⟩
    · exact ⟨_, heq, State.register_keeps_portCanonical h dc.bus d cb⟩
  | readLine d maxlen =>
    rcases execReadLine_cases d maxlen s with heq | heq
    · exact ⟨_, heq, State.raise_keeps_portCanonical h _⟩
    · exact ⟨_, heq, State.readLine_keeps_portCanonical h d _⟩
  | readAll d maxlen =>
    rcases execReadAll_cases d maxlen s with heq | heq
    · exact ⟨_, heq, State.raise_keeps_portCanonical h _⟩
    · exact ⟨_, heq, State.readAll_keeps_portCanonical h d _⟩

/-- The host's writes and a reset keep the form, and no other stimulus writes these tables and spaces. -/
theorem State.accept_keeps_portCanonical {s t : State} (h : s.portCanonical) (i : Input) (ha : s.accept i = .next t) :
    t.portCanonical := by
  cases i with
  | command w =>
    cases ha
    exact State.drift_keeps_portCanonical (s := { s with cmd := w, busy := true }) h
  | hostWrite off x =>
    rw [State.accept] at ha
    split at ha
    · cases ha
      obtain ⟨hwbuf, hrest⟩ := h
      exact ⟨wf_memWrite _ _ _ hwbuf, hrest⟩
    · cases ha
  | rxByte b x =>
    cases ha
    exact h.of_eq (State.rxByte_wbuf _ _ _) (State.rxByte_rbuf _ _ _) (State.rxByte_buses _ _ _)
      (State.rxByte_cs _ _ _)
  | ticks n =>
    cases ha
    exact h
  | reset =>
    cases ha
    exact ⟨rfl, rfl, rfl, rfl⟩

theorem step_keeps_portCanonical {s t : State} (h : s.portCanonical) (hstep : step s = .next t) : t.portCanonical := by
  obtain ⟨-, hcases⟩ := step_next_cases hstep
  rcases hcases with ⟨i, -, -, -, hexec⟩ | ⟨-, -, -, -, rfl⟩ | ⟨-, -, rfl⟩ | ⟨i, rest, -, -, haccept⟩
  · obtain ⟨t', heq, ht'⟩ := exec_keeps_portCanonical s i h
    cases heq.symm.trans hexec
    exact ht'
  · exact State.raise_keeps_portCanonical h _
  · exact h
  · exact State.accept_keeps_portCanonical (s := { s with inputs := rest }) h i haccept

/-- Settles O58, by the two parts of the canonical form. -/
theorem stepKeepsCanonicalForm : Obligations.StepKeepsCanonicalForm := by
  intro s t h hstep
  obtain ⟨hport, htraffic⟩ := s.canonical_iff.1 h
  exact t.canonical_iff.2 ⟨step_keeps_portCanonical hport hstep,
    steady_trafficCanonical.step (fun u _ => u.resetEvent_trafficCanonical) exec_keeps_trafficCanonical htraffic hstep⟩

end Sys2Proof.Machine
end

section
/-! `ACQUIRE`, by what it finds on its bus (R88, R91, R94): a refusal that changes nothing, the receive events of its
power-up wait, and its frame (R55, R96, R98, R146, R178). -/

namespace Sys2Proof

/-- `STATUS` of a response word (R67). -/
theorem respStatus_respWord (st : BusStatus) (ovf : Bool) (n : Nat) : respStatus (respWord st ovf n) = st.code := by
  apply BitVec.eq_of_getLsbD_eq
  intro i hi
  rw [respStatus, BitVec.getLsbD_extractLsb', Nat.zero_add, decide_eq_true hi, Bool.true_and]
  calc (respWord st ovf n).getLsbD i
      = (BitVec.ofBool ovf ++ st.code).getLsbD i :=
        (BitVec.getLsbD_append (x := BitVec.ofNat 16 n ++ 0#7)).trans (if_pos (by omega))
    _ = st.code.getLsbD i := BitVec.getLsbD_append.trans (if_pos hi)

/-- Different statuses have different codes (R70). -/
theorem BusStatus.code_inj {st st' : BusStatus} (h : st.code = st'.code) : st = st' := by
  revert h
  cases st <;> cases st' <;> decide

end Sys2Proof

namespace Sys2Proof.Machine

/-! ## What `ACQUIRE` does, by the state of its bus -/

theorem execAcquire_of_no_device {s : State} {d : DevId} (hdev : s.dev? d = none) :
    execAcquire d s = .next (s.raise .invalidArgument) := by
  simp only [execAcquire, hdev]

theorem execAcquire_of_owner {s : State} {d : DevId} {dc : DevCfg} (hdev : s.dev? d = some dc)
    (hlocked : (s.bus dc.bus).locked = true) (howner : (s.bus dc.bus).ownerId = d) :
    execAcquire d s = .next ((s.arm dc).conclude .ok) := by
  simp [execAcquire, hdev, State.owns, hlocked, howner]

theorem execAcquire_of_live {s : State} {d : DevId} {dc : DevCfg} (hdev : s.dev? d = some dc)
    (hlocked : (s.bus dc.bus).locked = true) (howner : (s.bus dc.bus).ownerId ≠ d)
    (hlive : s.elapsed dc.bus = false) : execAcquire d s = .next (s.conclude .locked) := by
  simp [execAcquire, hdev, State.owns, hlocked, howner, hlive]

theorem execAcquire_of_stale {s : State} {d : DevId} {dc : DevCfg} (hdev : s.dev? d = some dc)
    (hlocked : (s.bus dc.bus).locked = true) (howner : (s.bus dc.bus).ownerId ≠ d)
    (hstale : s.elapsed dc.bus = true) : execAcquire d s = .next ((s.unlock dc.bus).2.acquireFree d dc) := by
  simp [execAcquire, hdev, State.owns, hlocked, howner, hstale]

theorem execAcquire_of_free {s : State} {d : DevId} {dc : DevCfg} (hdev : s.dev? d = some dc)
    (hfree : (s.bus dc.bus).locked = false) : execAcquire d s = .next (s.acquireFree d dc) := by
  simp [execAcquire, hdev, State.owns, hfree]

/-- `ACQUIRE` by a device that exists renews its own lock, answers `Locked` while another device's lock is live, evicts a
stale owner and takes the bus, or takes a free bus (R88, R91, R94). -/
theorem execAcquire_cases {s : State} {d : DevId} {dc : DevCfg} (hdev : s.dev? d = some dc) :
    ((s.bus dc.bus).locked = true ∧ (s.bus dc.bus).ownerId = d ∧
      execAcquire d s = .next ((s.arm dc).conclude .ok)) ∨
    ((s.bus dc.bus).locked = true ∧ (s.bus dc.bus).ownerId ≠ d ∧ s.elapsed dc.bus = false ∧
      execAcquire d s = .next (s.conclude .locked)) ∨
    ((s.bus dc.bus).locked = true ∧ (s.bus dc.bus).ownerId ≠ d ∧ s.elapsed dc.bus = true ∧
      execAcquire d s = .next ((s.unlock dc.bus).2.acquireFree d dc)) ∨
    ((s.bus dc.bus).locked = false ∧ execAcquire d s = .next (s.acquireFree d dc)) := by
  cases hlocked : (s.bus dc.bus).locked with
  | false => exact .inr (.inr (.inr ⟨rfl, execAcquire_of_free hdev hlocked⟩))
  | true =>
    by_cases howner : (s.bus dc.bus).ownerId = d
    · exact .inl ⟨rfl, howner, execAcquire_of_owner hdev hlocked howner⟩
    cases htimer : s.elapsed dc.bus with
    | false => exact .inr (.inl ⟨rfl, howner, rfl, execAcquire_of_live hdev hlocked howner htimer⟩)
    | true => exact .inr (.inr (.inl ⟨rfl, howner, rfl, execAcquire_of_stale hdev hlocked howner htimer⟩))

theorem State.acquireFree_resp (s : State) (d : DevId) (dc : DevCfg) :
    (s.acquireFree d dc).resp = respWord .ok false 0 ∨
      (s.acquireFree d dc).resp = respWord .invalidArgument false 0 := by
  rcases s.acquireFree_cases d dc with ⟨-, heq⟩ | ⟨-, heq⟩ <;> rw [heq, State.conclude_resp] <;> simp

/-- `ACQUIRE` answers a status without a count (R66, R67). -/
theorem execAcquire_resp {s t : State} {d : DevId} (hexec : execAcquire d s = .next t) :
    ∃ st, t.resp = respWord st false 0 := by
  cases hdev : s.dev? d with
  | none =>
    rw [execAcquire_of_no_device hdev] at hexec
    cases hexec
    exact ⟨_, s.raise_resp _⟩
  | some dc =>
    rcases execAcquire_cases hdev with ⟨-, -, heq⟩ | ⟨-, -, -, heq⟩ | ⟨-, -, -, heq⟩ | ⟨-, heq⟩ <;>
      cases heq.symm.trans hexec
    · exact ⟨_, State.conclude_resp _ _⟩
    · exact ⟨_, State.conclude_resp _ _⟩
    · exact ((s.unlock dc.bus).2.acquireFree_resp d dc).elim (⟨_, ·⟩) (⟨_, ·⟩)
    · exact (s.acquireFree_resp d dc).elim (⟨_, ·⟩) (⟨_, ·⟩)

/-- The `STATUS` that `ACQUIRE` answers fixes its whole response word. -/
theorem execAcquire_resp_of_status {s t : State} {d : DevId} (hexec : execAcquire d s = .next t) {st : BusStatus}
    (hstatus : respStatus t.resp = st.code) : t.resp = respWord st false 0 := by
  obtain ⟨st', hresp⟩ := execAcquire_resp hexec
  rw [hresp, respStatus_respWord] at hstatus
  exact BusStatus.code_inj hstatus ▸ hresp

/-! ## `Locked` (R94, R96) -/

/-- `ACQUIRE` answers `Locked` by its test of the timer alone (R94): no other path ends with that status. -/
theorem execAcquire_eq_of_locked {s t : State} {d : DevId} (hexec : execAcquire d s = .next t)
    (hstatus : respStatus t.resp = BusStatus.locked.code) : t = s.conclude .locked := by
  have hresp := execAcquire_resp_of_status hexec hstatus
  have hfree {u : State} {dc : DevCfg} : (u.acquireFree d dc).resp ≠ respWord .locked false 0 := by
    rcases u.acquireFree_resp d dc with heq | heq <;> rw [heq] <;> decide
  cases hdev : s.dev? d with
  | none =>
    rw [execAcquire_of_no_device hdev] at hexec
    cases hexec
    exact absurd hresp (by rw [State.raise_resp]; decide)
  | some dc =>
    rcases execAcquire_cases hdev with ⟨-, -, heq⟩ | ⟨-, -, -, heq⟩ | ⟨-, -, -, heq⟩ | ⟨-, heq⟩ <;>
      cases heq.symm.trans hexec
    · exact absurd hresp (by rw [State.conclude_resp]; decide)
    · rfl
    · exact absurd hresp hfree
    · exact absurd hresp hfree

/-- Settles O14: the test of the timer is followed by a passing of time and the response, and by nothing else. -/
theorem lockedHasNoSideEffect : Obligations.LockedHasNoSideEffect := by
  refine ⟨fun s d dc hdev hlocked howner hlive => ?live, fun s t d hexec hstatus => ?frame⟩
  case live =>
    have helapsed : s.elapsed dc.bus = false := decide_eq_false (Nat.not_le.2 hlive)
    exact ⟨_, execAcquire_of_live hdev hlocked howner helapsed, s.conclude_resp .locked⟩
  case frame =>
    obtain rfl := execAcquire_eq_of_locked hexec hstatus
    refine ⟨s.conclude_resp .locked, s.conclude_busy .locked, fun n ns hdrifts => ?now, ?env, ?rest⟩
    case now => rw [State.conclude_now, State.drift_now hdrifts]
    case env => rw [State.conclude_env, State.drift_env]
    case rest =>
      obtain ⟨now, e, n, hdrift⟩ := s.drift_eq
      rw [State.conclude, if_neg nofun, hdrift]
      rfl

/-! ## The receive events of the power-up wait (R55, R142, R146) -/

theorem State.sameTraffic.refl (s : State) : s.sameTraffic s := ⟨rfl, rfl, rfl, rfl, rfl, rfl, rfl⟩

theorem State.sameTraffic.trans {s t u : State} (hst : s.sameTraffic t) (htu : t.sameTraffic u) : s.sameTraffic u := by
  obtain ⟨hcfg, hrings, hhandlers, hnotify, htx, hi2c, hspi⟩ := hst
  obtain ⟨hcfg', hrings', hhandlers', hnotify', htx', hi2c', hspi'⟩ := htu
  exact ⟨hcfg'.trans hcfg, hrings'.trans hrings, hhandlers'.trans hhandlers, hnotify'.trans hnotify, htx'.trans htx,
    hi2c'.trans hi2c, hspi'.trans hspi⟩

/-- Of a bus, a receive event sees only whether its transport is up (R142). -/
theorem State.rxByte_sameTraffic {s t : State} (same : s.sameTraffic t) {b : BusId}
    (hup : (t.bus b).up = (s.bus b).up) (x : Byte) : (s.rxByte b x).sameTraffic (t.rxByte b x) := by
  have henabled : t.rxEnabled b = s.rxEnabled b := by simp only [State.rxEnabled, same.cfg, same.handler, hup]
  have hsetRing (d : DevId) (r : Ring) : (s.setRing d r).sameTraffic (t.setRing d r) := by
    obtain ⟨hcfg, hrings, hrest⟩ := same
    exact ⟨hcfg, by rw [State.setRing_rings, hrings, State.setRing_rings], hrest⟩
  have hnotify (d : DevId) (r : Ring) (e : NotifyEntry) :
      ((s.setRing d r).emitNotify e).sameTraffic ((t.setRing d r).emitNotify e) := by
    obtain ⟨hcfg, hrings, hhandlers, hnotify, hlogs⟩ := hsetRing d r
    exact ⟨hcfg, hrings, hhandlers, congrArg (· ++ [e]) hnotify, hlogs⟩
  unfold State.rxByte
  rw [henabled, same.handler b]
  split
  next =>
    split
    next => exact same
    next g _ =>
      simp only [same.ring, same.cfg]
      split
      · exact hsetRing _ _
      · exact hnotify _ _ _
  next => exact same

theorem State.rxBytes_sameTraffic (es : List (BusId × Byte)) : ∀ {s t : State}, s.sameTraffic t →
    (∀ e ∈ es, (t.bus e.1).up = (s.bus e.1).up) → (s.rxBytes es).sameTraffic (t.rxBytes es) := by
  induction es with
  | nil => exact fun same _ => same
  | cons e es ih =>
    intro s t same hup
    obtain ⟨hfirst, hrest⟩ := List.forall_mem_cons.1 hup
    exact ih (State.rxByte_sameTraffic same hfirst e.2) (by simpa using hrest)

/-- The bytes of a bus whose transport is down are lost (R142, R146). -/
theorem State.rxBytes_of_down {b : BusId} (es : List (BusId × Byte)) : ∀ {s : State}, (s.bus b).up = false →
    s.rxBytes es = s.rxBytes (es.filter fun e => e.1 ≠ b) := by
  induction es with
  | nil => exact fun _ => rfl
  | cons e es ih =>
    intro s hdown
    by_cases hbus : e.1 = b
    · have hdisabled : s.rxEnabled e.1 = false := by
        unfold State.rxEnabled
        split <;> simp [hbus, hdown]
      have hlost : s.rxByte e.1 e.2 = s := by simp [State.rxByte, hdisabled]
      rw [State.rxBytes, hlost, List.filter_cons_of_neg (by simpa using hbus)]
      exact ih hdown
    · rw [List.filter_cons_of_pos (by simpa using hbus), State.rxBytes, State.rxBytes]
      exact ih (by simpa using hdown)

/-- Without a wait `select` takes no receive event (R86). -/
theorem State.select_sameTraffic_of_no_wait {s : State} {d : DevId} {dc : DevCfg}
    (hno : dc.chipSelect = none ∨ s.csOf d = true ∨ dc.powerUpDelay = 0) : s.sameTraffic (s.select d dc) := by
  rcases s.select_cases d dc with ⟨-, heq⟩ | ⟨hcs, hdeasserted, ⟨-, heq⟩ | ⟨hdelay, -⟩⟩
  · rw [heq]
    exact State.sameTraffic.refl s
  · rw [heq]
    exact ⟨rfl, rfl, rfl, rfl, rfl, rfl, rfl⟩
  · rcases hno with hnone | hasserted | hzero
    · simp [hnone] at hcs
    · cases hdeasserted.symm.trans hasserted
    · exact absurd hzero hdelay

/-- The wait of `select` takes the receive events drawn for it (R55, R86). -/
theorem State.select_sameTraffic_of_wait {s : State} {d : DevId} {dc : DevCfg} {y : Yield} {ys : List Yield}
    (hyields : s.env.yields = y :: ys) (hcs : dc.chipSelect.isSome = true) (hdeasserted : s.csOf d = false)
    (hdelay : dc.powerUpDelay ≠ 0) : (s.rxBytes y.rx).sameTraffic (s.select d dc) := by
  have hasserts : (dc.chipSelect.isSome && !s.csOf d) = true := by simp [hcs, hdeasserted]
  have hwait : s.select d dc = (s.setCs d true).wait dc.powerUpDelay.toNat := by
    rw [State.select, if_pos hasserts, if_neg hdelay]
  have hdraw := (s.setCs d true).drawYield_cons y ys hyields
  rw [hwait, State.wait, hdraw]
  exact State.rxBytes_sameTraffic y.rx ⟨rfl, rfl, rfl, rfl, rfl, rfl, rfl⟩ fun _ _ => rfl

/-- After `select`, `ACQUIRE` takes no receive event. -/
theorem State.acquireFree_sameTraffic (s : State) (d : DevId) (dc : DevCfg) :
    (s.select d dc).sameTraffic (s.acquireFree d dc) := by
  rcases s.acquireFree_cases d dc with ⟨-, heq⟩ | ⟨-, heq⟩ <;> rw [heq]
  · simp [State.sameTraffic, State.take, State.arm]
  · exact State.conclude_sameTraffic _ _

theorem State.unlock_env_yields (s : State) (b : BusId) : (s.unlock b).2.env.yields = s.env.yields := by
  rcases s.unlock_cases b with ⟨-, heq⟩ | ⟨u, -, heq⟩ <;> rw [heq]
  · dsimp only
    split_ifs <;> simp
  · simp

/-- An `ACQUIRE` that waits takes the receive events drawn for the wait, and no other. -/
theorem State.acquireFree_traffic_of_wait {s : State} {d : DevId} {dc : DevCfg} {y : Yield} {ys : List Yield}
    (hyields : s.env.yields = y :: ys) (hcs : dc.chipSelect.isSome = true) (hdeasserted : s.csOf d = false)
    (hdelay : dc.powerUpDelay ≠ 0) : (s.rxBytes y.rx).sameTraffic (s.acquireFree d dc) :=
  (State.select_sameTraffic_of_wait hyields hcs hdeasserted hdelay).trans (s.acquireFree_sameTraffic d dc)

/-- An `ACQUIRE` that does not wait takes no receive event, whatever it finds on its bus. -/
theorem execAcquire_sameTraffic_of_no_wait {s : State} {d : DevId} {dc : DevCfg} (hdev : s.dev? d = some dc)
    (hno : dc.chipSelect = none ∨ s.csOf d = true ∨ dc.powerUpDelay = 0) :
    ∃ t, execAcquire d s = .next t ∧ s.sameTraffic t := by
  have htake {u : State} (same : s.sameTraffic u) (hcs : u.csOf d = s.csOf d) : s.sameTraffic (u.acquireFree d dc) :=
    same.trans ((State.select_sameTraffic_of_no_wait (hcs ▸ hno)).trans (u.acquireFree_sameTraffic d dc))
  rcases execAcquire_cases hdev with ⟨-, -, heq⟩ | ⟨-, -, -, heq⟩ | ⟨-, howner, -, heq⟩ | ⟨-, heq⟩
  · exact ⟨_, heq, by simp [State.sameTraffic, State.arm]⟩
  · exact ⟨_, heq, s.conclude_sameTraffic _⟩
  · exact ⟨_, heq, htake (s.unlock_sameTraffic dc.bus) (s.unlock_csOf_of_ne dc.bus howner.symm)⟩
  · exact ⟨_, heq, htake (State.sameTraffic.refl s) rfl⟩

/-- What the receive events of a wait after an eviction write (R146): with the transport torn down the bytes of its bus
are lost, and otherwise they are received as the drawn `UP` says. -/
theorem State.unlock_rxBytes (s : State) (b : BusId) (es : List (BusId × Byte)) :
    (s.drawTeardown.1 = .succeeded →
      (s.rxBytes (es.filter fun e => e.1 ≠ b)).sameTraffic ((s.unlock b).2.rxBytes es)) ∧
    (∀ u, s.drawTeardown.1 = .failed u →
      ((s.setBus b { s.bus b with up := u }).rxBytes es).sameTraffic ((s.unlock b).2.rxBytes es)) := by
  have same := s.unlock_sameTraffic b
  refine ⟨fun htd => ?succeeded, fun u htd => ?failed⟩
  case succeeded =>
    obtain ⟨-, hdown, -⟩ := State.unlock_of_succeeded htd b
    rw [State.rxBytes_of_down es hdown]
    refine State.rxBytes_sameTraffic _ same fun e he => ?_
    have hbus : e.1 ≠ b := by simpa using (List.mem_filter.1 he).2
    rw [s.unlock_bus_of_ne hbus]
  case failed =>
    obtain ⟨-, hup, -⟩ := State.unlock_of_failed htd b
    refine State.rxBytes_sameTraffic (s := s.setBus b { s.bus b with up := u }) _ same fun e _ => ?_
    rw [State.setBus_bus]
    split
    next hbus => rw [hbus, hup]
    next hbus => rw [s.unlock_bus_of_ne hbus]

theorem State.sameTraffic.rings_notify {s t : State} (same : s.sameTraffic t) :
    t.rings = s.rings ∧ t.notify = s.notify := by
  obtain ⟨-, hrings, -, hnotify, -⟩ := same
  exact ⟨hrings, hnotify⟩

/-- Settles O20, by what `ACQUIRE` finds on its bus. -/
theorem acquireReceiveEvents : Obligations.AcquireReceiveEvents := by
  intro s d dc hdev
  refine ⟨fun y ys hyields hcs hdeasserted hdelay => ⟨fun hfree => ?free, fun hlocked howner hstale => ?stale⟩,
    fun hno => ?noWait⟩
  case free =>
    exact ⟨_, execAcquire_of_free hdev hfree,
      (State.acquireFree_traffic_of_wait hyields hcs hdeasserted hdelay).rings_notify⟩
  case stale =>
    have hwait : ((s.unlock dc.bus).2.rxBytes y.rx).sameTraffic ((s.unlock dc.bus).2.acquireFree d dc) :=
      State.acquireFree_traffic_of_wait ((s.unlock_env_yields dc.bus).trans hyields) hcs
        ((s.unlock_csOf_of_ne dc.bus howner.symm).trans hdeasserted) hdelay
    obtain ⟨hsucceeded, hfailed⟩ := s.unlock_rxBytes dc.bus y.rx
    exact ⟨_, execAcquire_of_stale hdev hlocked howner hstale,
      fun htd => ((hsucceeded htd).trans hwait).rings_notify, fun u htd => ((hfailed u htd).trans hwait).rings_notify⟩
  case noWait =>
    obtain ⟨t, heq, same⟩ := execAcquire_sameTraffic_of_no_wait hdev hno
    exact ⟨t, heq, same.rings_notify⟩

/-! ## The frame (R88, R178) -/

theorem State.acquireFree_bus_of_ne (s : State) (d : DevId) {dc : DevCfg} {c : BusId} (hc : c ≠ dc.bus) :
    (s.acquireFree d dc).bus c = s.bus c := by
  rcases s.acquireFree_cases d dc with ⟨hok, -⟩ | ⟨-, heq⟩
  · exact State.acquireFree_bus_other hok hc
  · rw [heq, State.conclude_bus, State.select_bus]

theorem State.acquireFree_csOf_of_ne (s : State) {d e : DevId} (dc : DevCfg) (he : e ≠ d) :
    (s.acquireFree d dc).csOf e = s.csOf e := by
  rcases s.acquireFree_cases d dc with ⟨-, heq⟩ | ⟨-, heq⟩ <;>
    simp [heq, State.take, State.arm, State.select_csOf, he]

/-- `RBUF` is kept by an `ACQUIRE` that answers `Ok` (log 5). -/
theorem State.acquireFree_rbufByte {s : State} {d : DevId} {dc : DevCfg}
    (hok : (s.acquireFree d dc).resp = respWord .ok false 0) (a : Nat) :
    (s.acquireFree d dc).rbufByte a = s.rbufByte a := by
  rcases s.acquireFree_cases d dc with ⟨-, heq⟩ | ⟨-, heq⟩
  · simp [heq, State.take, State.arm]
  · rw [heq, State.conclude_resp] at hok
    exact absurd hok (by decide)

/-- A device that is registered on no bus keeps its ring through every receive event. -/
theorem steady_unregistered_ring (s : State) (e : DevId) :
    Steady fun t => t.unregistered e ∧ t.ring e = s.ring e where
  same := by
    rintro t u same ⟨hnone, hring⟩
    exact ⟨fun b g hg => hnone b g (same.handler b ▸ hg), (same.ring e).trans hring⟩
  rxByte := by
    rintro t b x ⟨hnone, hring⟩
    exact ⟨fun c g hg => hnone c g (t.rxByte_handler b x c ▸ hg), (t.rxByte_ring_other b x e (hnone b)).trans hring⟩
  emitTx _ _ _ h := h
  emitI2c _ _ _ h := h
  emitSpi _ _ _ h := h

/-- What `ACQUIRE` leaves alone on every path: the configuration, `CMD`, `WBUF`, the handlers, the logs but `NOTIFY`, and
the stimuli to come. -/
def State.sameBackdrop (s t : State) : Prop :=
  t.cfg = s.cfg ∧ t.cmd = s.cmd ∧ t.wbuf = s.wbuf ∧ t.handlers = s.handlers ∧ t.txlog = s.txlog ∧
    t.i2clog = s.i2clog ∧ t.spilog = s.spilog ∧ t.inputs = s.inputs

theorem State.sameBackdrop.restored {s t : State} (same : s.sameBackdrop t) :
    { t with
      resp := s.resp, busy := s.busy, now := s.now, buses := s.buses, cs := s.cs, rings := s.rings,
      notify := s.notify, rbuf := s.rbuf, rbufValid := s.rbufValid, rbufFree := s.rbufFree, env := s.env,
      draws := s.draws } = s := by
  obtain ⟨hcfg, hcmd, hwbuf, hhandlers, htx, hi2c, hspi, hinputs⟩ := same
  simp only [hcfg, hcmd, hwbuf, hhandlers, htx, hi2c, hspi, hinputs]

theorem State.acquireFree_sameBackdrop (s : State) (d : DevId) (dc : DevCfg) :
    s.sameBackdrop (s.acquireFree d dc) := by
  simp [State.sameBackdrop]

theorem State.conclude_sameBackdrop (s : State) (st : BusStatus) : s.sameBackdrop (s.conclude st) := by
  simp [State.sameBackdrop]

/-- What an `ACQUIRE` of d on the bus of dc may touch: no other bus, no chip-select but that of d and of the owner it
evicts, nothing of the backdrop, and `RBUF` only if it does not answer `Ok`. -/
structure State.acquireTouches (s : State) (d : DevId) (dc : DevCfg) (t : State) : Prop where
  bus : ∀ c, c ≠ dc.bus → t.bus c = s.bus c
  csOf : ∀ e, e ≠ d → ((s.bus dc.bus).locked = true → e ≠ (s.bus dc.bus).ownerId) → t.csOf e = s.csOf e
  rbufByte : t.resp = respWord .ok false 0 → ∀ a, t.rbufByte a = s.rbufByte a
  backdrop : s.sameBackdrop t

/-- The frame of `ACQUIRE`, by what it finds on its bus. -/
theorem execAcquire_touches {s t : State} {d : DevId} {dc : DevCfg} (hdev : s.dev? d = some dc)
    (hexec : execAcquire d s = .next t) : s.acquireTouches d dc t := by
  rcases execAcquire_cases hdev with ⟨-, -, heq⟩ | ⟨-, -, -, heq⟩ | ⟨hlocked, -, -, heq⟩ | ⟨-, heq⟩ <;>
    cases heq.symm.trans hexec
  · exact {
      bus := fun c hc => by rw [State.conclude_bus, State.arm_bus, if_neg hc]
      csOf := fun e _ _ => State.conclude_csOf _ _ e
      rbufByte := fun _ a => State.conclude_rbufByte _ a
      backdrop := State.conclude_sameBackdrop _ _ }
  · exact {
      bus := fun c _ => s.conclude_bus _ c
      csOf := fun e _ _ => s.conclude_csOf _ e
      rbufByte := fun hok => absurd ((s.conclude_resp .locked).symm.trans hok) (by decide)
      backdrop := s.conclude_sameBackdrop _ }
  · exact {
      bus := fun c hc => (State.acquireFree_bus_of_ne _ d hc).trans (s.unlock_bus_of_ne hc)
      csOf := fun e he howner =>
        (State.acquireFree_csOf_of_ne _ dc he).trans (s.unlock_csOf_of_ne dc.bus (howner hlocked))
      rbufByte := fun hok a => (State.acquireFree_rbufByte hok a).trans (s.unlock_rbufByte dc.bus a)
      backdrop := by
        obtain ⟨bs, cs, e, n, hunlock⟩ := s.unlock_eq dc.bus
        rw [hunlock]
        exact State.acquireFree_sameBackdrop _ d dc }
  · exact {
      bus := fun c hc => s.acquireFree_bus_of_ne d hc
      csOf := fun e he _ => s.acquireFree_csOf_of_ne dc he
      rbufByte := fun hok => State.acquireFree_rbufByte hok
      backdrop := s.acquireFree_sameBackdrop d dc }

/-- Settles O21. -/
theorem acquireFrame : Obligations.AcquireFrame := by
  intro s t d dc hdev hexec
  have touches := execAcquire_touches hdev hexec
  have hring (e : DevId) (hnone : s.unregistered e) : t.ring e = s.ring e := by
    obtain ⟨t', heq, -, hring⟩ := (steady_unregistered_ring s e).execAcquire ⟨hnone, rfl⟩ d
    cases heq.symm.trans hexec
    exact hring
  obtain ⟨-, -, hwbuf, -⟩ := touches.backdrop
  exact ⟨touches.bus, touches.csOf, hring, tailWrittenByConsumerOnly (.acquire d) s t hexec nofun nofun nofun,
    fun a => by rw [hwbuf], fun hstatus => touches.rbufByte (execAcquire_resp_of_status hexec hstatus),
    touches.backdrop.restored⟩

end Sys2Proof.Machine
end

section
/-! How a command is refused: a reserved word, a device index out of range, an argument or a transport that the command
does not allow, and a command of a device that is not the owner (R73, R74, R83, R90, R102, R103, R140, R147). -/

namespace Sys2Proof

/-- A word whose `OP` selects no row is reserved (R73). -/
theorem decode_of_reservedOp {w : Word} (hop : fieldOp w = 0x00 ∨ 0x0A ≤ (fieldOp w).toNat) :
    decode w = .error (.reservedOp (fieldOp w)) := by
  have hne (k : Byte) (hpos : k ≠ 0x00) (hlt : k.toNat < 0x0A) : fieldOp w ≠ k := by
    rintro rfl
    exact hop.elim hpos fun hle => by omega
  simp only [decode, hne 0x01 (by decide) (by decide), hne 0x02 (by decide) (by decide),
    hne 0x03 (by decide) (by decide), hne 0x04 (by decide) (by decide), hne 0x05 (by decide) (by decide),
    hne 0x06 (by decide) (by decide), hne 0x07 (by decide) (by decide), hne 0x08 (by decide) (by decide),
    hne 0x09 (by decide) (by decide), if_false]

/-- `ACQUIRE`, `RELEASE` and `IS_OWNER` have the must-be-zero fields `A` and `B` (R69, R74). -/
theorem decode_of_nonzero_a_or_b {w : Word} (hop : fieldOp w ∈ ([0x01, 0x02, 0x06] : List Byte))
    (hab : fieldA w ≠ 0 ∨ fieldB w ≠ 0) : decode w = .error (.mustBeZero (fieldOp w)) := by
  have hzero : ¬ (fieldA w = 0 ∧ fieldB w = 0) := fun ⟨ha, hb⟩ => hab.elim (· ha) (· hb)
  simp only [List.mem_cons, List.not_mem_nil, or_false] at hop
  rcases hop with hop | hop | hop <;> simpa [decode, hop] using hzero

/-- `READ`, `SET_INPUT_HANDLER`, `READ_LINE` and `READ_ALL` have the must-be-zero field `A` (R69, R74). -/
theorem decode_of_nonzero_a {w : Word} (hop : fieldOp w ∈ ([0x03, 0x07, 0x08, 0x09] : List Byte))
    (ha : fieldA w ≠ 0) : decode w = .error (.mustBeZero (fieldOp w)) := by
  simp only [List.mem_cons, List.not_mem_nil, or_false] at hop
  rcases hop with hop | hop | hop | hop <;> simpa [decode, hop] using ha

/-- `WRITE` has the must-be-zero field `B` (R69, R74). -/
theorem decode_of_write_nonzero_b {w : Word} (hop : fieldOp w = 0x04) (hb : fieldB w ≠ 0) :
    decode w = .error (.mustBeZero (fieldOp w)) := by
  simpa [decode, hop] using hb

end Sys2Proof

namespace Sys2Proof.Machine

/-- Settles O6, by the clauses of R73 and R74. -/
theorem reservedWordAnswersInvalidArgument : Obligations.ReservedWordAnswersInvalidArgument := by
  intro s hw hbusy hreset hreserved
  have hdecode : ∃ e, decode s.cmd = .error e := by
    rcases hreserved with hop | hop | ⟨hop, hab⟩ | ⟨hop, ha⟩ | ⟨hop, hb⟩
    · exact ⟨_, decode_of_reservedOp (.inl hop)⟩
    · exact ⟨_, decode_of_reservedOp (.inr hop)⟩
    · exact ⟨_, decode_of_nonzero_a_or_b hop hab⟩
    · exact ⟨_, decode_of_nonzero_a hop ha⟩
    · exact ⟨_, decode_of_write_nonzero_b hop hb⟩
  obtain ⟨e, he⟩ := hdecode
  exact step_reserved s e hw hbusy hreset he

/-- Settles O12: every command looks its device up before anything else. -/
theorem invalidDeviceIndexAnswersInvalidArgument : Obligations.InvalidDeviceIndexAnswersInvalidArgument := by
  intro i s hindex
  have hdev : s.dev? i.dev = none := List.getElem?_eq_none hindex
  rw [← State.raise_eq]
  cases i <;>
    simp only [exec, execAcquire, execRelease, execRead, execWrite, execTransfer, State.ioCommand, execIsOwner,
      execSetInputHandler, execReadLine, execReadAll, Instr.dev] at hdev ⊢ <;>
    rw [hdev]

/-! ## Commands of a device that does not own its bus, and an owner's argument checks (R90, R102, R103) -/

/-- Settles O23. -/
theorem releaseByNonOwnerChangesNothing : Obligations.ReleaseByNonOwnerChangesNothing := by
  intro s d dc hdev hnot
  have howns : ¬ s.owns dc.bus d = true := mt (s.owns_iff dc.bus d).1 hnot
  rw [← State.raise_eq]
  simp only [exec, execRelease, hdev, if_neg howns]

/-- The three I/O commands are one, with their lengths (R105 to R107). -/
theorem exec_of_io {i : Instr} {d : DevId} {wlen rlen : Byte} (hio : i.io? = some (d, wlen, rlen)) (s : State) :
    exec i s = .next (s.ioCommand d wlen rlen) := by
  cases i <;> cases hio <;> rfl

theorem State.ioCommand_of_not_owns {s : State} {d : DevId} {dc : DevCfg} (hdev : s.dev? d = some dc)
    (howns : ¬ s.owns dc.bus d = true) (wlen rlen : Byte) : s.ioCommand d wlen rlen = s.raise .notOwned := by
  simp only [State.ioCommand, hdev, if_neg howns]

/-- The argument checks of an owner's I/O command (R102). -/
theorem State.ioCommand_of_bad_argument {s : State} {d : DevId} {dc : DevCfg} (hdev : s.dev? d = some dc)
    (howns : s.owns dc.bus d = true) {wlen rlen : Byte}
    (hbad : (wlen = 0 ∧ rlen = 0) ∨ (rlen ≠ 0 ∧ s.readRefused dc.bus = true)) :
    s.ioCommand d wlen rlen = s.raise .invalidArgument := by
  simp only [State.ioCommand, hdev, if_pos howns]
  by_cases hlengths : wlen = 0 ∧ rlen = 0
  · rw [if_pos hlengths]
  · rw [if_neg hlengths, if_pos (hbad.resolve_left hlengths)]

/-- Settles O25. -/
theorem ioWithoutOwnershipAnswersNotOwned : Obligations.IoWithoutOwnershipAnswersNotOwned := by
  intro s i d wlen rlen dc hio hdev hnot
  rw [exec_of_io hio, State.ioCommand_of_not_owns hdev (mt (s.owns_iff dc.bus d).1 hnot), State.raise_eq]

/-- A UART bus that is `TX_ONLY` or has a handler refuses a transfer that reads (R102 (b)). -/
theorem State.readRefused_of_uart {s : State} {b : BusId} (huart : s.busIs b .uart = true)
    (hmode : s.busTxOnly b = true ∨ s.handler b ≠ none) : s.readRefused b = true := by
  simpa [State.readRefused, huart, Option.isSome_iff_ne_none] using hmode

/-- Settles O26, by the two causes of R102. -/
theorem ioArgumentChecks : Obligations.IoArgumentChecks := by
  intro s i d wlen rlen dc hio hdev hlocked howner hbad
  have howns : s.owns dc.bus d = true := (s.owns_iff dc.bus d).2 ⟨hlocked, howner⟩
  have hrefused : (wlen = 0 ∧ rlen = 0) ∨ (rlen ≠ 0 ∧ s.readRefused dc.bus = true) :=
    hbad.imp_right fun ⟨huart, hreads, hmode⟩ => ⟨hreads, State.readRefused_of_uart huart hmode⟩
  rw [exec_of_io hio, State.ioCommand_of_bad_argument hdev howns hrefused, State.raise_eq]

/-! ## The UART commands (R140, R147) -/

theorem execSetInputHandler_refused {s : State} {d : DevId} {dc : DevCfg} (hdev : s.dev? d = some dc) {cb : Byte}
    (hbad : s.busIs dc.bus .uart = false ∨ (cb ≠ 0 ∧ s.busTxOnly dc.bus = true)) :
    execSetInputHandler d cb s = .next (s.raise .invalidArgument) := by
  simp only [execSetInputHandler, hdev]
  by_cases hkind : s.busIs dc.bus .uart = false
  · rw [if_pos hkind]
  · rw [if_neg hkind, if_pos (hbad.resolve_left hkind)]

theorem State.not_ringReadable {s : State} {b : BusId} {d : DevId}
    (hbad : s.busIs b .uart = false ∨ s.isHandler b d = false) : ¬ s.ringReadable b d = true := by
  rcases hbad with hbad | hbad <;> simp [State.ringReadable, hbad]

/-- Settles O38. -/
theorem uartCommandsRefused : Obligations.UartCommandsRefused := by
  intro s d x dc hdev
  rw [← State.raise_eq]
  refine ⟨execSetInputHandler_refused hdev, fun hbad => ?_⟩
  have hring := State.not_ringReadable hbad
  constructor
  · simp only [exec, execReadLine, hdev, if_neg hring]
  · simp only [exec, execReadAll, hdev, if_neg hring]

end Sys2Proof.Machine
end

section
/-! The steps of an idle block (R44, R55, R66, R185), and the configuration, which no step writes (R14, R47). -/

namespace Sys2Proof.Machine

/-- No command and no stimulus writes `CFG`. -/
theorem steady_cfg (c : Board) : Steady fun t => t.cfg = c where
  same same h := same.cfg.trans h
  rxByte s b x h := (s.rxByte_cfg b x).trans h
  emitTx _ _ _ h := h
  emitI2c _ _ _ h := h
  emitSpi _ _ _ h := h

theorem State.register_cfg (s : State) (b : BusId) (d : DevId) (cb : Byte) : (s.register b d cb).cfg = s.cfg :=
  (s.register_sameArbiter b d cb).1

theorem exec_cfg (c : Board) (s : State) (i : Instr) (h : s.cfg = c) : ∃ t, exec i s = .next t ∧ t.cfg = c := by
  have hring : ∀ (t : State) (d : DevId) (r : Ring), t.cfg = c → (t.setRing d r).cfg = c := fun _ _ _ h => h
  cases i with
  | setInputHandler d cb =>
    rcases execSetInputHandler_cases d cb s with heq | ⟨dc, -, -, -, heq⟩
    · exact ⟨_, heq, h⟩
    · exact ⟨_, heq, (s.register_cfg dc.bus d cb).trans h⟩
  | readLine d maxlen => exact ((steady_cfg c).ringCommands hring h d maxlen).1
  | readAll d maxlen => exact ((steady_cfg c).ringCommands hring h d maxlen).2
  | _ => exact (steady_cfg c).exec h _ nofun nofun nofun

/-- Settles O11: a reset keeps the configuration too (R185). -/
theorem configurationIsImmutable : Obligations.ConfigurationIsImmutable := fun s _ =>
  (steady_cfg s.cfg).step (fun _ h => h) (exec_cfg s.cfg) rfl

/-! ## The stimuli -/

/-- An idle block takes the first stimulus out of the queue. -/
theorem step_stimulus {s : State} (hw : s.cfg.wellFormed = true) (hidle : s.busy = false) {i : Input}
    {rest : List Input} (hi : s.inputs = i :: rest) : step s = { s with inputs := rest }.accept i := by
  rw [step_idle s hw hidle, State.takeInput, hi]

/-- Settles O8, by the stimulus that stands first. -/
theorem idleBlockTakesStimulus : Obligations.IdleBlockTakesStimulus := by
  intro s hw hidle
  refine ⟨?nothing, ?command, ?hostWrite, ?noSuchOffset, ?rxByte, ?ticks, ?reset⟩
  case nothing =>
    intro hi
    rw [step_idle s hw hidle, State.takeInput, hi]
  case command =>
    intro w rest hi
    have htaken : step s = .next { s with inputs := rest, cmd := w, busy := true }.drift :=
      step_stimulus hw hidle hi
    obtain ⟨now, e, n, hframe⟩ := State.drift_eq { s with inputs := rest, cmd := w, busy := true }
    refine ⟨_, htaken, State.drift_cmd _, State.drift_busy _, State.drift_inputs _,
      fun n ns hdrifts => State.drift_now (s := { s with inputs := rest, cmd := w, busy := true }) hdrifts,
      State.drift_env _, ?_⟩
    rw [hframe, ← hidle]
  case hostWrite =>
    intro off x rest hi hoff
    refine ⟨{ s with inputs := rest }.hostStore off x, ?_, rfl, fun a => memRead_write s.wbuf off a x, rfl⟩
    rw [step_stimulus hw hidle hi, State.accept, Config.bufferSize, if_pos hoff]
  case noSuchOffset =>
    intro off x rest hi hoff
    rw [step_stimulus hw hidle hi, State.accept, Config.bufferSize, if_neg (Nat.not_lt.2 hoff)]
  case rxByte => exact fun b x rest hi => step_stimulus hw hidle hi
  case ticks => exact fun n rest hi => step_stimulus hw hidle hi
  case reset => exact fun rest hi => step_reset s rest hw hi

end Sys2Proof.Machine
end

section
/-! The encoding of commands (R63, R65, R69, R72, R74, R82). A row of the opcode table is its `OP` and a mask on each of
`A` and `B`; a word that meets them decodes to the row's command with the word's own fields as operands. -/

namespace Sys2Proof

/-! ## The rows of the opcode table, by the fields of the word (R63, R69) -/

/-- `OP` of a row. -/
def Mnemonic.op : Mnemonic → Byte
  | .acquire => 0x01
  | .release => 0x02
  | .read => 0x03
  | .write => 0x04
  | .transfer => 0x05
  | .isOwner => 0x06
  | .setInputHandler => 0x07
  | .readLine => 0x08
  | .readAll => 0x09

/-- The bits of field `A` that must be zero in a row. -/
def Mnemonic.maskA : Mnemonic → Byte
  | .write | .transfer => 0x00
  | .acquire | .release | .read | .isOwner | .setInputHandler | .readLine | .readAll => 0xFF

/-- The bits of field `B` that must be zero in a row. -/
def Mnemonic.maskB : Mnemonic → Byte
  | .acquire | .release | .write | .isOwner => 0xFF
  | .read | .transfer | .setInputHandler | .readLine | .readAll => 0x00

/-- The command of a row with the fields `DEV`, `A` and `B` as its operands. -/
def Mnemonic.command (m : Mnemonic) (d : DevId) (a b : Byte) : Instr :=
  match m with
  | .acquire => .acquire d
  | .release => .release d
  | .read => .read d b
  | .write => .write d a
  | .transfer => .transfer d a b
  | .isOwner => .isOwner d
  | .setInputHandler => .setInputHandler d b
  | .readLine => .readLine d b
  | .readAll => .readAll d b

theorem Mnemonic.mask_eq (m : Mnemonic) : m.mask = formatC 0xFF 0x00 m.maskA m.maskB := by
  cases m <;> rfl

theorem Mnemonic.pattern_eq (m : Mnemonic) : m.pattern = formatC m.op 0x00 0x00 0x00 := by
  cases m <;> rfl

theorem Mnemonic.mnemonic_command (m : Mnemonic) (d : DevId) (a b : Byte) : (m.command d a b).mnemonic = m := by
  cases m <;> rfl

/-- Words of format C are equal when their fields are. -/
theorem formatC_inj {op op' d d' a a' b b' : Byte} :
    formatC op d a b = formatC op' d' a' b' ↔ op = op' ∧ d = d' ∧ a = a' ∧ b = b' := by
  refine ⟨fun h => ⟨?_, ?_, ?_, ?_⟩, fun ⟨hop, hd, ha, hb⟩ => by rw [hop, hd, ha, hb]⟩
  · simpa only [fieldOp_formatC] using congrArg fieldOp h
  · simpa only [fieldDev_formatC] using congrArg fieldDev h
  · simpa only [fieldA_formatC] using congrArg fieldA h
  · simpa only [fieldB_formatC] using congrArg fieldB h

/-- A word meets the mask and match of a row when it has the row's `OP` and its must-be-zero fields are zero. -/
theorem and_mask_eq_pattern_iff (w : Word) (m : Mnemonic) :
    w &&& m.mask = m.pattern ↔ fieldOp w = m.op ∧ fieldA w &&& m.maskA = 0 ∧ fieldB w &&& m.maskB = 0 := by
  have hmasked : w &&& m.mask = formatC (fieldOp w) 0x00 (fieldA w &&& m.maskA) (fieldB w &&& m.maskB) :=
    calc w &&& m.mask
        = formatC (fieldOp w) (fieldDev w) (fieldA w) (fieldB w) &&& formatC 0xFF 0x00 m.maskA m.maskB := by
          rw [formatC_fields, m.mask_eq]
      _ = formatC (fieldOp w &&& 0xFF) (fieldDev w &&& 0x00) (fieldA w &&& m.maskA) (fieldB w &&& m.maskB) :=
          formatC_and _ _ _ _ _ _ _ _
      _ = formatC (fieldOp w) 0x00 (fieldA w &&& m.maskA) (fieldB w &&& m.maskB) := by
          rw [show fieldOp w &&& 0xFF = fieldOp w from BitVec.and_allOnes,
            show fieldDev w &&& 0x00 = 0x00 from BitVec.and_zero]
  rw [hmasked, m.pattern_eq, formatC_inj]
  tauto

/-! ## Decoding by rows, and the round trips -/

/-- A word that meets the mask and match of a row decodes to the row's command, its own fields being the operands. -/
theorem decode_of_and_mask {w : Word} {m : Mnemonic} (h : w &&& m.mask = m.pattern) :
    decode w = .ok (m.command (fieldDev w) (fieldA w) (fieldB w)) := by
  obtain ⟨hop, ha, hb⟩ := (and_mask_eq_pattern_iff w m).1 h
  have hall (x : Byte) : x &&& 0xFF = x := BitVec.and_allOnes
  cases m <;> simp only [Mnemonic.op, Mnemonic.maskA, Mnemonic.maskB, hall] at hop ha hb <;>
    simp [decode, Mnemonic.command, hop, ha, hb]

/-- The word of a command meets the mask and match of its row. -/
theorem encode_and_mask (i : Instr) : encode i &&& i.mnemonic.mask = i.mnemonic.pattern := by
  cases i with
  | acquire d => exact (Laws.EncodedFields.acquire d).2
  | release d => exact (Laws.EncodedFields.release d).2
  | read d n => exact (Laws.EncodedFields.read d n).2
  | write d n => exact (Laws.EncodedFields.write d n).2
  | transfer d n k => exact (Laws.EncodedFields.transfer d n k).2
  | isOwner d => exact (Laws.EncodedFields.isOwner d).2
  | setInputHandler d cb => exact (Laws.EncodedFields.setInputHandler d cb).2
  | readLine d n => exact (Laws.EncodedFields.readLine d n).2
  | readAll d n => exact (Laws.EncodedFields.readAll d n).2

/-- The fields of a command's word are the command's operands. -/
theorem command_fields_encode (i : Instr) :
    i.mnemonic.command (fieldDev (encode i)) (fieldA (encode i)) (fieldB (encode i)) = i := by
  cases i <;> simp only [Instr.mnemonic, Mnemonic.command, encode, fieldDev_formatC, fieldA_formatC, fieldB_formatC]

/-- Settles O1: the word of a command meets its row, and so decodes to that row's command with its own fields. -/
theorem decodeOfEncode : Obligations.DecodeOfEncode := by
  intro i
  rw [decode_of_and_mask (encode_and_mask i), command_fields_encode]

/-- Settles O2: in each branch of the decoder that answers a command, the fields that the command does not carry are
zero. -/
theorem encodeOfDecode : Obligations.EncodeOfDecode := by
  intro w i h
  have hfields : encode i = formatC (fieldOp w) (fieldDev w) (fieldA w) (fieldB w) := by
    simp only [decode] at h
    split_ifs at h <;> cases h <;> simp only [encode, *]
  rw [hfields, formatC_fields]

/-- Settles O3: a word that decodes is its command's encoding, and that meets no mask but its row's. -/
theorem wordSelectsRowByMask : Obligations.WordSelectsRowByMask := by
  intro w m
  constructor
  · intro h
    exact ⟨_, decode_of_and_mask h, m.mnemonic_command _ _ _⟩
  · rintro ⟨i, hdecode, rfl⟩
    rw [← encodeOfDecode w i hdecode]
    exact encode_and_mask i

/-- Settles O4. -/
theorem workedEncodings : Obligations.WorkedEncodings := by
  refine ⟨fun p hp => ?commands, by decide⟩
  case commands =>
    have hword : encode p.2 = p.1 := by
      revert p
      decide
    exact ⟨hword ▸ decodeOfEncode p.2, hword⟩

end Sys2Proof
end

section
/-! The fields of the response word (R67, R70). -/

namespace Sys2Proof

/-- A bit of a response word is a bit of the field it lies in. -/
theorem getLsbD_respWord (st : BusStatus) (ovf : Bool) (n i : Nat) :
    (respWord st ovf n).getLsbD i =
      if i < 8 then st.code.getLsbD i else if i = 8 then ovf else if i < 16 then false
      else (BitVec.ofNat 16 n).getLsbD (i - 16) := by
  have hlow : (BitVec.ofBool ovf ++ st.code).getLsbD i =
      if i < 8 then st.code.getLsbD i else (BitVec.ofBool ovf).getLsbD (i - 8) := BitVec.getLsbD_append
  have hhigh : (BitVec.ofNat 16 n ++ 0#7).getLsbD (i - 9) =
      if i - 9 < 7 then (0#7).getLsbD (i - 9) else (BitVec.ofNat 16 n).getLsbD (i - 9 - 7) := BitVec.getLsbD_append
  refine (BitVec.getLsbD_append (x := BitVec.ofNat 16 n ++ 0#7) (y := BitVec.ofBool ovf ++ st.code)).trans ?_
  simp only [Nat.reduceAdd, hlow, hhigh]
  by_cases hstatus : i < 8
  · simp [hstatus, show i < 9 by omega]
  by_cases hovf : i = 8
  · simp [hovf]
  by_cases hzero : i < 16
  · simp [hstatus, hovf, hzero, show ¬ i < 9 by omega, show i - 9 < 7 by omega]
  · simp [hstatus, hovf, hzero, show ¬ i < 9 by omega, show ¬ i - 9 < 7 by omega, show i - 9 - 7 = i - 16 by omega]

theorem zero_field_respWord (st : BusStatus) (ovf : Bool) (n : Nat) : (respWord st ovf n).extractLsb' 9 7 = 0 := by
  apply BitVec.eq_of_getLsbD_eq
  intro i hi
  simp [getLsbD_respWord, hi, show ¬ 9 + i < 8 by omega, show 9 + i ≠ 8 by omega, show 9 + i < 16 by omega]

theorem respCount_respWord (st : BusStatus) (ovf : Bool) {n : Nat} (hn : n < 65536) :
    respCount (respWord st ovf n) = n := by
  have hfield : (respWord st ovf n).extractLsb' 16 16 = BitVec.ofNat 16 n := by
    apply BitVec.eq_of_getLsbD_eq
    intro i hi
    simp [getLsbD_respWord, hi, show ¬ 16 + i < 8 by omega, show 16 + i ≠ 8 by omega]
  rw [respCount, hfield, BitVec.toNat_ofNat, Nat.mod_eq_of_lt hn]

/-- Settles O5: field by field of the response word. -/
theorem responseWordFields : Obligations.ResponseWordFields := by
  refine ⟨by decide, fun st ovf n hn => ⟨?status, ?ovf, ?zero, ?count⟩⟩
  case status => exact respStatus_respWord st ovf n
  case ovf => exact getLsbD_respWord st ovf n 8
  case zero => exact zero_field_respWord st ovf n
  case count => exact respCount_respWord st ovf hn

end Sys2Proof
end

section
/-! What every step answers: a next state (R72, R206), and a response word in `RESP` (R67, R68, R169, R210). -/

namespace Sys2Proof.Machine

/-- Settles O27: the three commands are one transfer, with their lengths (R77). -/
theorem readAndWriteAreTransfers : Obligations.ReadAndWriteAreTransfers :=
  fun s _ _ => ⟨(exec_of_io rfl s).trans (exec_of_io rfl s).symm, (exec_of_io rfl s).trans (exec_of_io rfl s).symm⟩

/-! ## Every step answers (R72, R206) -/

/-- Every command answers a next state. -/
theorem exec_answers (i : Instr) (s : State) : ∃ t, exec i s = .next t := by
  obtain ⟨t, hexec, -⟩ := exec_cfg s.cfg s i rfl
  exact ⟨t, hexec⟩

/-- So does every stimulus but a host write outside `WBUF` (log 17). -/
theorem State.accept_answers (s : State) (i : Input) (hwrite : ∀ off x, i = .hostWrite off x → off < 256) :
    ∃ t, s.accept i = .next t := by
  cases i with
  | hostWrite off x => exact ⟨_, if_pos (hwrite off x rfl)⟩
  | command w => exact ⟨_, rfl⟩
  | rxByte b x => exact ⟨_, rfl⟩
  | ticks n => exact ⟨_, rfl⟩
  | reset => exact ⟨_, rfl⟩

/-- Settles O10: a reset, then a busy block by the word in `CMD`, then an idle block by its stimulus. -/
theorem stepAlwaysAnswers : Obligations.StepAlwaysAnswers := by
  intro s hw hwrite
  by_cases hreset : s.inputs.head? = some .reset
  · obtain ⟨rest, hi⟩ := List.head?_eq_some_iff.1 hreset
    exact ⟨_, step_reset s rest hw hi⟩
  cases hbusy : s.busy with
  | true =>
    cases hdecode : decode s.cmd with
    | ok i =>
      rw [step_command s i hw hbusy hreset hdecode]
      exact exec_answers i s
    | error e => exact ⟨_, step_reserved s e hw hbusy hreset hdecode⟩
  | false =>
    cases hi : s.inputs with
    | nil => exact ⟨s, by rw [step_idle s hw hbusy, State.takeInput, hi]⟩
    | cons i rest =>
      rw [step_stimulus hw hbusy hi]
      exact State.accept_answers _ i fun off x he => hwrite off x rest hbusy (he ▸ hi)

/-! ## `RESP` after a step (R67, R68, R210) -/

theorem State.portOk.of_resp_eq {s t : State} (h : s.portOk) (hresp : t.resp = s.resp) : t.portOk := by
  simpa only [State.portOk, hresp] using h

/-- A response without `OVF` and without a count is of the form, whatever its status. -/
theorem State.portOk_of_status {s : State} {st : BusStatus} (hresp : s.resp = respWord st false 0) : s.portOk :=
  ⟨st, false, 0, hresp, Nat.zero_le _, fun _ => ⟨rfl, rfl⟩⟩

/-- So is an `Ok` with any `OVF` and a count that a byte holds. -/
theorem State.portOk_of_ok {s : State} {ovf : Bool} {n : Nat} (hresp : s.resp = respWord .ok ovf n) (hn : n ≤ 255) :
    s.portOk :=
  ⟨.ok, ovf, n, hresp, hn, fun hne => absurd rfl hne⟩

theorem toNat_le_255 (x : Byte) : x.toNat ≤ 255 := Nat.le_of_lt_succ x.isLt

theorem State.raise_portOk (s : State) (st : BusStatus) : (s.raise st).portOk :=
  State.portOk_of_status (s.raise_resp st)

theorem execRelease_portOk (d : DevId) (s : State) : ∃ t, execRelease d s = .next t ∧ t.portOk := by
  rcases execRelease_cases d s with ⟨st, heq⟩ | ⟨dc, -, ⟨-, heq⟩ | ⟨-, heq⟩⟩
  · exact ⟨_, heq, s.raise_portOk st⟩
  · exact ⟨_, heq, State.portOk_of_status (State.respond_resp _ .ok false 0)⟩
  · exact ⟨_, heq, State.raise_portOk _ _⟩

/-- An I/O command answers `rlen` as its count, or a status without one (R105). -/
theorem State.ioCommand_portOk (s : State) (d : DevId) (wlen rlen : Byte) : (s.ioCommand d wlen rlen).portOk := by
  unfold State.ioCommand
  split
  next => exact s.raise_portOk _
  next dc _ =>
    split_ifs
    · exact s.raise_portOk _
    · exact s.raise_portOk _
    · rcases XferResult.finish_cases (s.xfer d dc (s.wbufBytes wlen.toNat) rlen.toNat) rlen.toNat with
        ⟨-, -, heq⟩ | ⟨-, -, heq⟩ | ⟨-, heq⟩ <;> rw [heq]
      · exact State.portOk_of_status (State.respond_resp _ .ok false 0)
      · exact State.portOk_of_ok (State.respond_resp _ _ _ _) (toNat_le_255 rlen)
      · exact State.raise_portOk _ _
    · exact s.raise_portOk _

theorem execIsOwner_portOk (d : DevId) (s : State) : ∃ t, execIsOwner d s = .next t ∧ t.portOk := by
  unfold execIsOwner
  split
  next => exact ⟨_, rfl, s.raise_portOk _⟩
  next dc _ => exact ⟨_, rfl, State.portOk_of_ok (s.respond_resp _ _ _) (by split <;> decide)⟩

/-- A ring command answers at most `maxlen` as its count (R149, R152). -/
theorem State.readLine_portOk (s : State) (d : DevId) (maxlen : Byte) : (s.readLine d maxlen.toNat).portOk := by
  unfold State.readLine
  dsimp only
  split
  next => exact State.portOk_of_ok (State.respond_resp _ _ _ _) (Nat.zero_le _)
  next => exact State.portOk_of_ok (State.respond_resp _ _ _ _) ((Nat.min_le_right _ _).trans (toNat_le_255 maxlen))

theorem State.readAll_portOk (s : State) (d : DevId) (maxlen : Byte) : (s.readAll d maxlen.toNat).portOk :=
  State.portOk_of_ok (State.respond_resp _ _ _ _) ((Nat.min_le_right _ _).trans (toNat_le_255 maxlen))

/-- Every command answers a response of the form, whatever `RESP` held before. -/
theorem exec_portOk (i : Instr) (s : State) : ∃ t, exec i s = .next t ∧ t.portOk := by
  cases i with
  | acquire d =>
    obtain ⟨t, hexec⟩ := exec_answers (.acquire d) s
    obtain ⟨st, hresp⟩ := execAcquire_resp hexec
    exact ⟨t, hexec, State.portOk_of_status hresp⟩
  | release d => exact execRelease_portOk d s
  | read d rlen => exact ⟨_, rfl, s.ioCommand_portOk d 0 rlen⟩
  | write d wlen => exact ⟨_, rfl, s.ioCommand_portOk d wlen 0⟩
  | transfer d wlen rlen => exact ⟨_, rfl, s.ioCommand_portOk d wlen rlen⟩
  | isOwner d => exact execIsOwner_portOk d s
  | setInputHandler d cb =>
    rcases execSetInputHandler_cases d cb s with heq | ⟨dc, -, -, -, heq⟩
    · exact ⟨_, heq, s.raise_portOk _⟩
    · exact ⟨_, heq, State.portOk_of_status (State.respond_resp _ .ok false 0)⟩
  | readLine d maxlen =>
    rcases execReadLine_cases d maxlen s with heq | heq
    · exact ⟨_, heq, s.raise_portOk _⟩
    · exact ⟨_, heq, s.readLine_portOk d maxlen⟩
  | readAll d maxlen =>
    rcases execReadAll_cases d maxlen s with heq | heq
    · exact ⟨_, heq, s.raise_portOk _⟩
    · exact ⟨_, heq, s.readAll_portOk d maxlen⟩

/-- No stimulus but a reset writes `RESP`, and a reset leaves in it what the state after reset holds (log 4, log 14). -/
theorem State.accept_keeps_portOk {s t : State} (h : s.portOk) (i : Input) (ha : s.accept i = .next t) : t.portOk := by
  cases i with
  | command w =>
    cases ha
    exact h.of_resp_eq (State.drift_resp _)
  | hostWrite off x =>
    rw [State.accept] at ha
    split at ha
    · cases ha
      exact h.of_resp_eq rfl
    · cases ha
  | rxByte b x =>
    cases ha
    exact h.of_resp_eq (s.rxByte_resp b x)
  | ticks n =>
    cases ha
    exact h.of_resp_eq rfl
  | reset =>
    cases ha
    exact (State.boot_portOk s.cfg (Config.freeNow s.draws)).of_resp_eq rfl

/-- Settles O60, by the cases of a step: a command, a reserved word, nothing to do, a stimulus. -/
theorem stepKeepsResponseForm : Obligations.StepKeepsResponseForm := by
  intro s t h hstep
  obtain ⟨-, hcases⟩ := step_next_cases hstep
  rcases hcases with ⟨i, -, -, -, hexec⟩ | ⟨-, -, -, -, rfl⟩ | ⟨-, -, rfl⟩ | ⟨i, rest, -, -, haccept⟩
  · obtain ⟨t', heq, ht'⟩ := exec_portOk i s
    cases heq.symm.trans hexec
    exact ht'
  · exact s.raise_portOk _
  · exact h
  · exact State.accept_keeps_portOk (s := { s with inputs := rest }) h i haccept

end Sys2Proof.Machine
end

section
/-! The lock and its timer under `ACQUIRE` and `IS_OWNER`: renewal, the elapsed test, the eviction of a stale owner, and
`ACQUIRE` of a bus that is free or becomes so (R84 to R88, R91 to R94, R97, R98). -/

namespace Sys2Proof.Machine

/-! ## The elapsed test (R85) -/

/-- The age of a lock is counted modulo 2^32, so that it is right across a wrap of `NOW` (R208). -/
theorem State.age_of_now_eq {s : State} {b : BusId} {k : Nat} (hk : k < 2 ^ 32)
    (hnow : s.now = (s.bus b).expStart + BitVec.ofNat 32 k) : s.age b = k := by
  have hdiff : s.now - (s.bus b).expStart = BitVec.ofNat 32 k := by rw [hnow, BitVec.add_comm, BitVec.add_sub_cancel]
  rw [State.age, hdiff, BitVec.toNat_ofNat, Nat.mod_eq_of_lt hk]

theorem State.elapsed_iff (s : State) (b : BusId) : s.elapsed b = true ↔ (s.bus b).expInterval.toNat ≤ s.age b :=
  decide_eq_true_iff

/-- Settles O48. -/
theorem elapsedAcrossWrap : Obligations.ElapsedAcrossWrap := by
  intro s b k hk hnow
  rw [State.elapsed_iff, State.age_of_now_eq hk hnow]

/-! ## Ownership (R92) and renewal (R93) -/

/-- Settles O24: the ownership test is the one of every command, and asks no timer. -/
theorem isOwnerAnswersOwnership : Obligations.IsOwnerAnswersOwnership := by
  intro s d dc hdev
  simp only [exec, execIsOwner, hdev, s.owns_iff dc.bus d, State.respond]

/-- Settles O13: the timer is armed, time passes, and the response is written (R98). -/
theorem acquireByOwnerRenews : Obligations.AcquireByOwnerRenews := by
  intro s d dc hdev hlocked howner
  refine ⟨_, execAcquire_of_owner hdev hlocked howner, State.conclude_resp _ _, State.conclude_busy _ _, ?self, ?others,
    fun n ns hdrifts => ?now, ?env, ?rest⟩
  case self =>
    rw [State.conclude_bus, State.arm_bus, if_pos rfl]
    rfl
  case others =>
    intro c hc
    rw [State.conclude_bus, State.arm_bus, if_neg hc]
  case now =>
    rw [State.conclude_now, State.drift_now (s := s.arm dc) hdrifts]
    rfl
  case env =>
    rw [State.conclude_env]
    exact (s.arm dc).drift_env
  case rest =>
    obtain ⟨now, e, n, hdrift⟩ := (s.arm dc).drift_eq
    rw [State.conclude, if_pos rfl, hdrift]
    rfl

/-! ## `Locked` (R94) -/

/-- An `ACQUIRE` that gets past the test of the timer does not answer `Locked`. -/
theorem State.acquireFree_not_locked (s : State) (d : DevId) (dc : DevCfg) :
    respStatus (s.acquireFree d dc).resp ≠ BusStatus.locked.code := by
  rcases s.acquireFree_resp d dc with hresp | hresp <;> rw [hresp, respStatus_respWord] <;> decide

/-- Settles O15, by the outcome of the elapsed test. -/
theorem lockedAnsweredIffLockIsLive : Obligations.LockedAnsweredIffLockIsLive := by
  intro s t d dc hdev hlocked howner hexec
  have hlive : (s.now - (s.bus dc.bus).expStart).toNat < (s.bus dc.bus).expInterval.toNat ↔
      s.elapsed dc.bus = false := by
    rw [← Nat.not_le, ← Bool.not_eq_true, s.elapsed_iff, State.age]
  rw [hlive]
  cases htimer : s.elapsed dc.bus with
  | false =>
    cases (execAcquire_of_live hdev hlocked howner htimer).symm.trans hexec
    simp only [State.conclude_resp, respStatus_respWord]
  | true =>
    cases (execAcquire_of_stale hdev hlocked howner htimer).symm.trans hexec
    exact iff_of_false (State.acquireFree_not_locked _ d dc) nofun

/-! ## Eviction (R91) -/

/-- A bring-up that fails asserts at most a chip-select (R97). -/
theorem State.acquireFree_of_invalid {s : State} {d : DevId} {dc : DevCfg}
    (hbad : (s.select d dc).initStatus dc = .invalidArgument) :
    s.acquireFree d dc = (s.select d dc).conclude .invalidArgument := by
  rcases s.acquireFree_cases d dc with ⟨hok, -⟩ | ⟨-, heq⟩
  · cases hok.symm.trans hbad
  · exact heq

/-- No device but d owns a bus that was free before d's `ACQUIRE`, whatever the bring-up answers. -/
theorem State.acquireFree_not_owns_other {s : State} {d o : DevId} {dc : DevCfg}
    (hfree : (s.bus dc.bus).locked = false) (hne : o ≠ d) : (s.acquireFree d dc).owns dc.bus o = false := by
  rcases s.acquireFree_cases d dc with ⟨hok, -⟩ | ⟨hbad, -⟩
  · simp [State.owns, State.acquireFree_bus_self hok, hne.symm]
  · simp [State.owns, State.acquireFree_of_invalid hbad, hfree]

/-- Settles O17: the eviction is `unlock`'s, and what follows touches no chip-select but that of the acquiring device. -/
theorem evictionReleasesStaleOwner : Obligations.EvictionReleasesStaleOwner := by
  rintro s t d _ dc hdev hlocked rfl hne hstale hcs hexec
  cases (execAcquire_of_stale hdev hlocked hne hstale).symm.trans hexec
  refine ⟨State.acquireFree_not_owns_other (s.unlock_frees dc.bus).1 hne, fun htd => ?succeeded, fun u htd => ?failed⟩
  all_goals rw [State.acquireFree_csOf_of_ne _ dc hne]
  case succeeded =>
    obtain ⟨-, -, hdeasserted⟩ := State.unlock_of_succeeded htd dc.bus
    exact hdeasserted hcs
  case failed =>
    obtain ⟨-, -, hkept⟩ := State.unlock_of_failed htd dc.bus
    exact hkept _

/-! ## The bus once any lock on it is cleared -/

/-- The state in which `ACQUIRE` begins its steps 3 to 5 (R88): a stale owner has been evicted, and a free bus is as it
was. -/
def State.vacated (s : State) (b : BusId) : State := if (s.bus b).locked then (s.unlock b).2 else s

/-- `ACQUIRE` of a bus that is free or stale runs steps 3 to 5 on the vacated bus. -/
theorem execAcquire_of_vacated {s : State} {d : DevId} {dc : DevCfg} (hdev : s.dev? d = some dc)
    (hfree : (s.bus dc.bus).locked = true → (s.bus dc.bus).ownerId ≠ d ∧ s.elapsed dc.bus = true) :
    execAcquire d s = .next ((s.vacated dc.bus).acquireFree d dc) := by
  cases hlocked : (s.bus dc.bus).locked with
  | false =>
    rw [State.vacated, if_neg (by simp [hlocked])]
    exact execAcquire_of_free hdev hlocked
  | true =>
    obtain ⟨howner, hstale⟩ := hfree hlocked
    rw [State.vacated, if_pos hlocked]
    exact execAcquire_of_stale hdev hlocked howner hstale

theorem State.vacated_of_free {s : State} {b : BusId} (hfree : (s.bus b).locked = false) : s.vacated b = s :=
  if_neg (by simp [hfree])

theorem State.vacated_locked (s : State) (b : BusId) : ((s.vacated b).bus b).locked = false := by
  unfold State.vacated
  split
  next => exact (s.unlock_frees b).1
  next hfree => simpa using hfree

theorem State.vacated_bus_of_ne (s : State) {b c : BusId} (hc : c ≠ b) : (s.vacated b).bus c = s.bus c := by
  unfold State.vacated
  split
  next => exact s.unlock_bus_of_ne hc
  next => rfl

theorem State.vacated_csOf_of_ne (s : State) {b : BusId} {d : DevId}
    (hne : (s.bus b).locked = true → (s.bus b).ownerId ≠ d) : (s.vacated b).csOf d = s.csOf d := by
  unfold State.vacated
  split
  next hlocked => exact s.unlock_csOf_of_ne b (hne hlocked).symm
  next => rfl

@[simp] theorem State.vacated_cfg (s : State) (b : BusId) : (s.vacated b).cfg = s.cfg := by
  unfold State.vacated; split <;> simp

@[simp] theorem State.vacated_busCfgOpt (s : State) (b c : BusId) : (s.vacated b).busCfg? c = s.busCfg? c := by
  unfold State.vacated; split <;> simp

@[simp] theorem State.vacated_busIs (s : State) (b c : BusId) (k : TransportKind) :
    (s.vacated b).busIs c k = s.busIs c k := by
  unfold State.vacated; split <;> simp

@[simp] theorem State.vacated_now (s : State) (b : BusId) : (s.vacated b).now = s.now := by
  unfold State.vacated; split <;> simp

@[simp] theorem State.vacated_env_yields (s : State) (b : BusId) : (s.vacated b).env.yields = s.env.yields := by
  unfold State.vacated; split <;> simp [State.unlock_env_yields]

@[simp] theorem State.vacated_env_drifts (s : State) (b : BusId) : (s.vacated b).env.drifts = s.env.drifts := by
  unfold State.vacated; split <;> simp [State.unlock_env_drifts]

/-! ## A bring-up that fails (R97, R112) -/

/-- Only I2C checks the speed, and it admits the two canonical ones alone (R112). -/
theorem State.initStatus_of_bad_speed {s : State} {dc : DevCfg} (hkind : s.busIs dc.bus .i2c = true)
    (ha : dc.speed ≠ s.cfg.i2cSpeedA) (hb : dc.speed ≠ s.cfg.i2cSpeedB) : s.initStatus dc = .invalidArgument := by
  cases hbus : s.busCfg? dc.bus with
  | none => simp [State.initStatus, hbus]
  | some bc =>
    have hi2c : bc.kind = .i2c := by simpa [State.busIs, hbus] using hkind
    simp [State.initStatus, hbus, hi2c, i2cInit, ha, hb]

/-- Settles O18: `ACQUIRE` ends after `select`, which writes no bus. -/
theorem acquireBringUpFailureLeavesBusFree : Obligations.AcquireBringUpFailureLeavesBusFree := by
  intro s d dc hdev hkind ha hb hfree
  have hbad : ((s.vacated dc.bus).select d dc).initStatus dc = .invalidArgument :=
    State.initStatus_of_bad_speed (by simpa using hkind) (by simpa using ha) (by simpa using hb)
  have hbus (c : BusId) :
      (((s.vacated dc.bus).select d dc).conclude .invalidArgument).bus c = (s.vacated dc.bus).bus c := by simp
  have hexec := execAcquire_of_vacated hdev hfree
  rw [State.acquireFree_of_invalid hbad] at hexec
  refine ⟨_, hexec, State.conclude_resp _ _, State.conclude_busy _ _, ?free, ?select, ?kept, ?others⟩
  case free => rw [hbus, State.vacated_locked]
  case select =>
    intro hcs
    rw [State.conclude_csOf, State.select_csOf, if_pos ⟨rfl, hcs⟩]
  case kept =>
    intro hunlocked
    rw [hbus, State.vacated_of_free hunlocked]
  case others =>
    intro c hc
    rw [hbus, s.vacated_bus_of_ne hc]

/-! ## The power-up wait (R86, R98) -/

/-- The wait meets one yield point, and takes at least the power-up delay (R10 (2)). -/
theorem State.select_of_wait {s : State} {d : DevId} {dc : DevCfg} {y : Yield} {ys : List Yield}
    (hyields : s.env.yields = y :: ys) (hcs : dc.chipSelect.isSome = true) (hdeasserted : s.csOf d = false)
    (hdelay : dc.powerUpDelay ≠ 0) :
    (s.select d dc).now = s.now + BitVec.ofNat 32 (max dc.powerUpDelay.toNat y.ms) ∧
      (s.select d dc).env.yields = ys := by
  have hdraw := (s.setCs d true).drawYield_cons y ys hyields
  have hwait : s.select d dc = (s.setCs d true).wait dc.powerUpDelay.toNat := by
    rw [State.select, if_pos (by simp [hcs, hdeasserted]), if_neg hdelay]
  rw [hwait, State.wait, hdraw]
  simp [State.pass]

theorem State.select_of_no_wait {s : State} {d : DevId} {dc : DevCfg}
    (hno : dc.chipSelect = none ∨ s.csOf d = true ∨ dc.powerUpDelay = 0) :
    (s.select d dc).now = s.now ∧ (s.select d dc).env.yields = s.env.yields := by
  rcases s.select_cases d dc with ⟨-, heq⟩ | ⟨hcs, hdeasserted, ⟨-, heq⟩ | ⟨hdelay, -⟩⟩
  · rw [heq]; exact ⟨rfl, rfl⟩
  · rw [heq]; exact ⟨rfl, rfl⟩
  · rcases hno with hnone | hasserted | hzero
    · simp [hnone] at hcs
    · cases hdeasserted.symm.trans hasserted
    · exact absurd hzero hdelay

/-- Between `select` and the arming one drawn time passes (R98). -/
theorem State.readied_now {s : State} {d : DevId} {dc : DevCfg} {n : Nat} {ns : List Nat}
    (hdrifts : s.env.drifts = n :: ns) : (s.readied d dc).now = (s.select d dc).now + BitVec.ofNat 32 n :=
  State.drift_now (s := (s.select d dc).setBus _ _) ((s.select_env_drifts d dc).trans hdrifts)

theorem State.readied_env_drifts {s : State} {d : DevId} {dc : DevCfg} {n : Nat} {ns : List Nat}
    (hdrifts : s.env.drifts = n :: ns) : (s.readied d dc).env.drifts = ns := by
  have hdrift := State.drift_cons ((s.select d dc).setBus dc.bus { (s.select d dc).bus dc.bus with up := true }) n ns
    ((s.select_env_drifts d dc).trans hdrifts)
  rw [State.readied, hdrift]

/-- A successful `ACQUIRE` draws two times: one before the arming and one before the response (R98). -/
theorem State.acquireFree_env_drifts {s : State} {d : DevId} {dc : DevCfg}
    (hok : (s.select d dc).initStatus dc = .ok) {n m : Nat} {ns : List Nat} (hdrifts : s.env.drifts = n :: m :: ns) :
    (s.acquireFree d dc).env.drifts = ns := by
  have harmed : ((s.readied d dc).take d dc).env.drifts = m :: ns := State.readied_env_drifts hdrifts
  rw [State.acquireFree_of_ok hok, State.conclude_env, State.drift_cons _ m ns harmed]

/-- `ACQUIRE` meets no yield point after `select`. -/
theorem State.acquireFree_env_yields (s : State) (d : DevId) (dc : DevCfg) :
    (s.acquireFree d dc).env.yields = (s.select d dc).env.yields := by
  rcases s.acquireFree_cases d dc with ⟨-, heq⟩ | ⟨-, heq⟩ <;> simp [heq, State.take, State.arm]

/-- Settles O19: the instant of the arming is that of the end of `select`, with one drawn time passed since. -/
theorem powerUpDelayOnlyWhenNewlyAsserted : Obligations.PowerUpDelayOnlyWhenNewlyAsserted := by
  intro s d dc bc y ys n m ns hdev hbus hspeed hfree hyields hdrifts
  have hdrifts' : (s.vacated dc.bus).env.drifts = n :: m :: ns := (s.vacated_env_drifts _).trans hdrifts
  have hyields' : (s.vacated dc.bus).env.yields = y :: ys := (s.vacated_env_yields _).trans hyields
  have hsame : (s.vacated dc.bus).csOf d = s.csOf d := s.vacated_csOf_of_ne fun hlocked => (hfree hlocked).1
  have hok : ((s.vacated dc.bus).select d dc).initStatus dc = .ok :=
    State.initStatus_eq_ok (bc := bc) (by simpa using hbus) (by simpa using hspeed)
  have harmed : (((s.vacated dc.bus).acquireFree d dc).bus dc.bus).expStart =
      ((s.vacated dc.bus).readied d dc).now := by rw [State.acquireFree_bus_self hok]
  refine ⟨_, execAcquire_of_vacated hdev hfree, ?now, State.acquireFree_env_drifts hok hdrifts', ?wait, ?noWait⟩
  case now => rw [harmed, State.acquireFree_now hok hdrifts']
  all_goals rw [harmed, State.readied_now hdrifts', State.acquireFree_env_yields]
  case wait =>
    intro hcs hdeasserted hdelay
    obtain ⟨hnow, hrest⟩ := State.select_of_wait hyields' hcs (hsame.trans hdeasserted) hdelay
    rw [hnow, State.vacated_now]
    exact ⟨rfl, hrest⟩
  case noWait =>
    intro hno
    obtain ⟨hnow, hkept⟩ := State.select_of_no_wait (hsame.symm ▸ hno)
    rw [hnow, hkept, State.vacated_now, State.vacated_env_yields]
    exact ⟨rfl, rfl⟩

end Sys2Proof.Machine
end

section
/-! What the three engines share (R102 to R107, R116): how an I/O command reaches its back-end transfer and how it ends
once that has returned, where a poll ends, and what the receive events of a yield point see. -/

namespace Sys2Proof.Machine

/-! ## The way to the back-end transfer (R102 to R105) -/

/-- An owner's command that reads from no refusing bus reaches the back-end transfer. -/
theorem State.ioCommand_of_owner {s : State} {d : DevId} {dc : DevCfg} (hdev : s.dev? d = some dc)
    (howns : s.owns dc.bus d = true) {wlen rlen : Byte} (hlengths : ¬ (wlen = 0 ∧ rlen = 0))
    (hreads : s.readRefused dc.bus = false) :
    s.ioCommand d wlen rlen = (s.xfer d dc (s.wbufBytes wlen.toNat) rlen.toNat).finish rlen.toNat := by
  simp only [State.ioCommand, hdev, if_pos howns, if_neg hlengths, hreads, Bool.false_eq_true, and_false, if_false]

/-- An I/O command is refused before anything is driven, or is its back-end transfer (R102, R103). -/
theorem State.ioCommand_cases {s : State} {d : DevId} {dc : DevCfg} (hdev : s.dev? d = some dc) (wlen rlen : Byte) :
    (∃ st, st ≠ .ok ∧ s.ioCommand d wlen rlen = s.raise st) ∨
    s.ioCommand d wlen rlen = (s.xfer d dc (s.wbufBytes wlen.toNat) rlen.toNat).finish rlen.toNat := by
  by_cases howns : s.owns dc.bus d = true
  · by_cases hbad : (wlen = 0 ∧ rlen = 0) ∨ (rlen ≠ 0 ∧ s.readRefused dc.bus = true)
    · exact .inl ⟨.invalidArgument, nofun, State.ioCommand_of_bad_argument hdev howns hbad⟩
    · obtain ⟨hlengths, hreads⟩ := not_or.1 hbad
      exact .inr (by simp only [State.ioCommand, hdev, if_pos howns, if_neg hlengths, if_neg hreads])
  · exact .inl ⟨.notOwned, nofun, State.ioCommand_of_not_owns hdev howns wlen rlen⟩

theorem State.busCfg?_kind {s : State} {b : BusId} {k : TransportKind} (hkind : s.busIs b k = true) :
    ∃ bc, s.busCfg? b = some bc ∧ bc.kind = k := by
  cases hbus : s.busCfg? b with
  | none => simp [State.busIs, hbus] at hkind
  | some bc => exact ⟨bc, rfl, by simpa [State.busIs, hbus] using hkind⟩

/-- A bus is of one kind. -/
theorem State.busIs_of_ne {s : State} {b : BusId} {k k' : TransportKind} (hkind : s.busIs b k = true) (hne : k ≠ k') :
    s.busIs b k' = false := by
  obtain ⟨bc, hbus, rfl⟩ := State.busCfg?_kind hkind
  simpa [State.busIs, hbus] using hne

/-- Only a UART refuses a transfer that reads (R102 (b)). -/
theorem State.readRefused_of_not_uart {s : State} {b : BusId} (hkind : s.busIs b .uart = false) :
    s.readRefused b = false := by
  simp [State.readRefused, hkind]

theorem State.xfer_of_i2c {s : State} {dc : DevCfg} (hkind : s.busIs dc.bus .i2c = true) (d : DevId) (w : List Byte)
    (n : Nat) : s.xfer d dc w n = s.i2cXfer dc w n := by
  obtain ⟨bc, hbus, hbc⟩ := State.busCfg?_kind hkind
  simp only [State.xfer, hbus, hbc]

theorem State.xfer_of_spi {s : State} {dc : DevCfg} (hkind : s.busIs dc.bus .spi = true) (d : DevId) (w : List Byte)
    (n : Nat) : s.xfer d dc w n = s.spiXfer d dc w n := by
  obtain ⟨bc, hbus, hbc⟩ := State.busCfg?_kind hkind
  simp only [State.xfer, hbus, hbc]

/-- An owner's I/O command on an I2C bus is an I2C transaction (R105, R117). -/
theorem exec_of_i2c {s : State} {i : Instr} {d : DevId} {wlen rlen : Byte} {dc : DevCfg}
    (hio : i.io? = some (d, wlen, rlen)) (hdev : s.dev? d = some dc) (howns : s.owns dc.bus d = true)
    (hkind : s.busIs dc.bus .i2c = true) (hlengths : ¬ (wlen = 0 ∧ rlen = 0)) :
    exec i s = .next ((s.i2cXfer dc (s.wbufBytes wlen.toNat) rlen.toNat).finish rlen.toNat) := by
  have hreads := State.readRefused_of_not_uart (State.busIs_of_ne hkind (k' := .uart) nofun)
  rw [exec_of_io hio, State.ioCommand_of_owner hdev howns hlengths hreads, State.xfer_of_i2c hkind]

/-- An owner's I/O command on an SPI bus is an SPI transfer (R105, R127). -/
theorem exec_of_spi {s : State} {i : Instr} {d : DevId} {wlen rlen : Byte} {dc : DevCfg}
    (hio : i.io? = some (d, wlen, rlen)) (hdev : s.dev? d = some dc) (howns : s.owns dc.bus d = true)
    (hkind : s.busIs dc.bus .spi = true) (hlengths : ¬ (wlen = 0 ∧ rlen = 0)) :
    exec i s = .next ((s.spiXfer d dc (s.wbufBytes wlen.toNat) rlen.toNat).finish rlen.toNat) := by
  have hreads := State.readRefused_of_not_uart (State.busIs_of_ne hkind (k' := .uart) nofun)
  rw [exec_of_io hio, State.ioCommand_of_owner hdev howns hlengths hreads, State.xfer_of_spi hkind]

/-! ## The end of a command whose transfer has returned (R105, R107) -/

@[simp] theorem XferResult.finish_resp (r : XferResult) (n : Nat) :
    (r.finish n).resp = respWord r.status false (if r.status = .ok then n else 0) := by
  rcases r.finish_cases n with ⟨hst, rfl, heq⟩ | ⟨hst, -, heq⟩ | ⟨hst, heq⟩ <;> simp [heq, hst]

@[simp] theorem XferResult.finish_busy (r : XferResult) (n : Nat) : (r.finish n).busy = false := by
  rcases r.finish_cases n with ⟨-, -, heq⟩ | ⟨-, -, heq⟩ | ⟨-, heq⟩ <;> simp [heq]

@[simp] theorem XferResult.finish_now (r : XferResult) (n : Nat) : (r.finish n).now = r.state.now := by
  rcases r.finish_cases n with ⟨-, -, heq⟩ | ⟨-, -, heq⟩ | ⟨-, heq⟩ <;> simp [heq]

@[simp] theorem XferResult.finish_env (r : XferResult) (n : Nat) : (r.finish n).env = r.state.env := by
  rcases r.finish_cases n with ⟨-, -, heq⟩ | ⟨-, -, heq⟩ | ⟨-, heq⟩ <;> simp [heq]

/-- The logs of each bus are among what `sameTraffic` keeps. -/
theorem State.sameTraffic.logsOf {s t : State} (same : s.sameTraffic t) (c : BusId) :
    t.txlogOf c = s.txlogOf c ∧ t.i2clogOf c = s.i2clogOf c ∧ t.spilogOf c = s.spilogOf c := by
  obtain ⟨-, -, -, -, htx, hi2c, hspi⟩ := same
  simp only [State.txlogOf, State.i2clogOf, State.spilogOf, htx, hi2c, hspi, and_self]

theorem XferResult.finish_sameTraffic (r : XferResult) (n : Nat) : r.state.sameTraffic (r.finish n) := by
  rcases r.finish_cases n with ⟨-, -, heq⟩ | ⟨-, -, heq⟩ | ⟨-, heq⟩ <;> simp [State.sameTraffic, heq]

theorem XferResult.finish_sameBackdrop (r : XferResult) (n : Nat) : r.state.sameBackdrop (r.finish n) := by
  rcases r.finish_cases n with ⟨-, -, heq⟩ | ⟨-, -, heq⟩ | ⟨-, heq⟩ <;> simp [State.sameBackdrop, heq]

/-- On `Ok` the bytes read are in `RBUF`. -/
theorem XferResult.finish_rbufBytes {r : XferResult} {n : Nat} (hok : r.status = .ok) (hn : n ≠ 0)
    (hlength : r.data.length = n) : (r.finish n).rbufBytes n = r.data := by
  subst hlength
  rw [XferResult.finish, if_pos hok, if_neg hn, State.respond_rbufBytes, State.storeRbuf_bytes]

/-- A command that reads nothing and answers `Ok` leaves `RBUF` as its transfer left it (log 5). -/
theorem XferResult.finish_rbufByte {r : XferResult} (hok : r.status = .ok) (a : Nat) :
    (r.finish 0).rbufByte a = r.state.rbufByte a := by
  rw [XferResult.finish, if_pos hok, if_pos rfl, State.respond_rbufByte]

/-! ## The polling rule (R116), as what was seen and when -/

/-- The poll saw the outcome of the instant t, at most one granularity late. -/
def PollEnd.seen (p : PollEnd) (gran t : Nat) : Prop := p.finished = true ∧ t ≤ p.ms ∧ p.ms ≤ t + gran

/-- The poll gave up at the deadline, at most one granularity late. -/
def PollEnd.missed (p : PollEnd) (gran rem : Nat) : Prop := p.finished = false ∧ rem ≤ p.ms ∧ p.ms ≤ rem + gran

section
variable {rem gran late t : Nat} {done : Option Nat} {race : Bool}

/-- Case A of R116. -/
theorem poll_seen (hdone : done = some t) (hbefore : t < rem) : (poll rem gran done race late).seen gran t := by
  subst hdone
  rw [poll_before hbefore]
  exact ⟨rfl, Nat.le_add_right _ _, Nat.add_le_add_left (Nat.min_le_right _ _) _⟩

/-- Case B of R116. -/
theorem poll_missed (hafter : done = none ∨ ∃ t, done = some t ∧ rem + gran < t) :
    (poll rem gran done race late).missed gran rem := by
  rw [poll_after hafter]
  exact ⟨rfl, Nat.le_add_right _ _, Nat.add_le_add_left (Nat.min_le_right _ _) _⟩

/-- Case C of R116. -/
theorem poll_seen_or_missed (hdone : done = some t) (hfrom : rem ≤ t) (hto : t ≤ rem + gran) :
    (poll rem gran done race late).seen gran t ∨ (poll rem gran done race late).missed gran rem := by
  have hlate : min late gran ≤ gran := Nat.min_le_right _ _
  subst hdone
  rw [poll_race hfrom hto]
  cases race with
  | true => exact .inl ⟨rfl, Nat.le_add_right _ _, Nat.add_le_add_left hlate _⟩
  | false => exact .inr ⟨rfl, Nat.le_add_right _ _, Nat.add_le_add_left hlate _⟩

end

/-! ## Yield points: what the receive events see -/

/-- All that a receive event sees and writes is the same in both states (R142, R143). -/
def State.sameReception (s t : State) : Prop :=
  t.cfg = s.cfg ∧ t.buses = s.buses ∧ t.handlers = s.handlers ∧ t.rings = s.rings ∧ t.notify = s.notify

theorem State.sameReception.trans {s t u : State} (hst : s.sameReception t) (htu : t.sameReception u) :
    s.sameReception u := by
  obtain ⟨hcfg, hbuses, hhandlers, hrings, hnotify⟩ := hst
  obtain ⟨hcfg', hbuses', hhandlers', hrings', hnotify'⟩ := htu
  exact ⟨hcfg'.trans hcfg, hbuses'.trans hbuses, hhandlers'.trans hhandlers, hrings'.trans hrings,
    hnotify'.trans hnotify⟩

theorem State.sameReception.rxBytes {s t : State} (same : s.sameReception t) (es : List (BusId × Byte)) :
    (s.rxBytes es).sameReception (t.rxBytes es) := by
  obtain ⟨hcfg, hbuses, hhandlers, hrings, hnotify⟩ := same
  obtain ⟨hrings', hnotify'⟩ := t.rxBytes_congr es s hcfg hbuses hhandlers hrings hnotify
  exact ⟨by simpa using hcfg, by simpa using hbuses, by simpa using hhandlers, hrings', hnotify'⟩

/-- A yield point takes the receive events it is given; the clock is none of them (R55). -/
theorem State.pass_sameReception {s t : State} (same : s.sameReception t) (es : List (BusId × Byte)) (ms : Nat) :
    (s.rxBytes es).sameReception (t.pass es ms) :=
  same.rxBytes es

end Sys2Proof.Machine
end

section
/-! The outcome of an I2C transaction (R115 to R117). -/

namespace Sys2Proof.Machine

/-- Where the polling of a transaction of dc ends, under the answers that are drawn first (R116). -/
def State.i2cPoll (s : State) (dc : DevCfg) : PollEnd :=
  poll (s.remaining dc.bus) s.cfg.pollGranularity s.drawI2c.1.tDone s.drawI2c.2.drawYield.1.race
    s.drawI2c.2.drawYield.1.ms

theorem State.i2cXfer_status (s : State) (dc : DevCfg) (w : List Byte) (n : Nat) :
    (s.i2cXfer dc w n).status =
      if (s.i2cPoll dc).finished then i2cStatus (i2cAdmissible w.length n s.drawI2c.1.kind) else .timeout := rfl

theorem State.i2cXfer_data (s : State) (dc : DevCfg) (w : List Byte) (n : Nat) :
    (s.i2cXfer dc w n).data =
      if (s.i2cPoll dc).finished then i2cBytes (i2cAdmissible w.length n s.drawI2c.1.kind) else [] := rfl

theorem State.i2cXfer_now (s : State) (dc : DevCfg) (w : List Byte) (n : Nat) :
    (s.i2cXfer dc w n).state.now = s.now + BitVec.ofNat 32 (s.i2cPoll dc).ms := by
  simp [State.i2cXfer, State.i2cPoll]

/-- The transaction is logged with its outcome (R117). -/
theorem State.i2cXfer_i2clogOf (s : State) (dc : DevCfg) (w : List Byte) (n : Nat) (c : BusId) :
    (s.i2cXfer dc w n).state.i2clogOf c =
      if c = dc.bus then
        s.i2clogOf dc.bus ++
          [{ address := slaveAddress dc, written := w, rlen := n, outcome := (s.i2cXfer dc w n).status }]
      else s.i2clogOf c := by
  simp only [State.i2cXfer, State.emitI2c_i2clogOf, State.pass_i2clogOf, State.drawYield_i2clogOf,
    State.drawI2c_i2clogOf]

/-- A transaction meets one yield point. -/
theorem State.i2cXfer_sameReception (s : State) (dc : DevCfg) (w : List Byte) (n : Nat) :
    (s.rxBytes s.drawI2c.2.drawYield.1.rx).sameReception (s.i2cXfer dc w n).state :=
  State.pass_sameReception (t := s.drawI2c.2.drawYield.2) (by simp [State.sameReception]) _ (s.i2cPoll dc).ms

/-- An admissible answer is itself (R115). -/
theorem i2cAdmissible_eq {wlen n : Nat} {k : I2cKind} (hdone : ∀ r, k = .done r → r.length = n)
    (hnack : ∀ j, k = .dataNack j → j < wlen) : i2cAdmissible wlen n k = k := by
  cases k with
  | done r => rw [i2cAdmissible, ← hdone r rfl, fitBytes_eq]
  | dataNack j =>
    have hj := hnack j rfl
    rw [i2cAdmissible, if_neg (by omega), Nat.min_eq_left (by omega)]
  | addrNack => rfl
  | error => rfl

/-- Settles O28: the poll ends in one of the three cases of R116, and the response is that of the answer seen or
`Timeout`. -/
theorem i2cTransactionOutcome : Obligations.I2cTransactionOutcome := by
  intro s i d wlen rlen dc a hio hdev hlocked howner hkind hlengths rfl hdone hnack
  let r := s.i2cXfer dc (s.wbufBytes wlen.toNat) rlen.toNat
  let p := s.i2cPoll dc
  have hexec : exec i s = .next (r.finish rlen.toNat) :=
    exec_of_i2c hio hdev ((s.owns_iff _ _).2 ⟨hlocked, howner⟩) hkind hlengths
  have hadmissible : i2cAdmissible (s.wbufBytes wlen.toNat).length rlen.toNat s.drawI2c.1.kind = s.drawI2c.1.kind :=
    i2cAdmissible_eq hdone fun j hj => by simpa [State.wbufBytes] using hnack j hj
  have hstatus : r.status = if p.finished then i2cStatus s.drawI2c.1.kind else .timeout :=
    hadmissible ▸ s.i2cXfer_status dc _ _
  have hdata : r.data = if p.finished then i2cBytes s.drawI2c.1.kind else [] := hadmissible ▸ s.i2cXfer_data dc _ _
  have hseen {tf : Nat} (hend : p.seen s.cfg.pollGranularity tf) :
      r.status = i2cStatus s.drawI2c.1.kind ∧ tf ≤ p.ms ∧ p.ms ≤ tf + s.cfg.pollGranularity :=
    hend.imp_left fun hfinished => hstatus.trans (if_pos hfinished)
  have hmissed (hend : p.missed s.cfg.pollGranularity (s.remaining dc.bus)) :
      r.status = .timeout ∧ s.remaining dc.bus ≤ p.ms ∧ p.ms ≤ s.remaining dc.bus + s.cfg.pollGranularity :=
    hend.imp_left fun hunfinished => hstatus.trans (if_neg (by simp [hunfinished]))
  have same := r.finish_sameTraffic rlen.toNat
  obtain ⟨-, hi2clog, -⟩ := same.logsOf dc.bus
  obtain ⟨hrings, hnotify⟩ := same.rings_notify
  obtain ⟨-, -, -, hrings', hnotify'⟩ := s.i2cXfer_sameReception dc (s.wbufBytes wlen.toNat) rlen.toNat
  refine ⟨_, r.status, p.ms, hexec, r.finish_busy _, r.finish_resp _, (r.finish_now _).trans (s.i2cXfer_now _ _ _),
    ?log, ?bytes, ⟨hrings.trans hrings', hnotify.trans hnotify'⟩, ?before, ?after, ?race⟩
  case log => exact hi2clog.trans ((s.i2cXfer_i2clogOf dc _ _ dc.bus).trans (if_pos rfl))
  case bytes =>
    intro v hok hreads hv
    have hfinished : p.finished = true := by
      by_contra hnot
      rw [hstatus, if_neg hnot] at hok
      cases hok
    rw [if_pos hfinished, hv, i2cBytes] at hdata
    rw [XferResult.finish_rbufBytes hok (by simpa using BitVec.toNat_inj.not.2 hreads) (hdata ▸ hdone v hv), hdata]
  case before => exact fun _ htf hbefore => hseen (poll_seen htf hbefore)
  case after => exact fun hafter => hmissed (poll_missed hafter)
  case race => exact fun _ htf hfrom hto => (poll_seen_or_missed htf hfrom hto).imp hseen hmissed

end Sys2Proof.Machine
end

section
/-! The exchanges of an SPI transfer (R126, R127). -/

namespace Sys2Proof.Machine

/-! ## One exchange -/

/-- The state after one exchange of d on bus b, `w` being the data not yet sent. -/
def State.spiExchange (s : State) (b : BusId) (d : DevId) (w : List Byte) : State :=
  (s.drawSpi.2.emitSpi b { dev := d, tx := spiTx w, rx := s.drawSpi.1 }).yieldPoint

/-- A transfer is an exchange and the rest of the transfer; the byte received is captured while bytes are wanted. -/
theorem State.spiShift_succ (s : State) (b : BusId) (d : DevId) (n : Nat) (w : List Byte) (want : Nat) :
    s.spiShift b d (n + 1) w want =
      let rest := (s.spiExchange b d w).spiShift b d n w.tail (want - 1)
      (if want = 0 then rest.1 else s.drawSpi.1 :: rest.1, rest.2) := rfl

theorem State.spiExchange_env_spi {s : State} {x : Byte} {xs : List Byte} (hspi : s.env.spi = x :: xs) (b : BusId)
    (d : DevId) (w : List Byte) : (s.spiExchange b d w).env.spi = xs := by
  simp [State.spiExchange, State.yieldPoint, s.drawSpi_cons x xs hspi]

theorem State.spiExchange_spilogOf (s : State) (b : BusId) (d : DevId) (w : List Byte) (c : BusId) :
    (s.spiExchange b d w).spilogOf c =
      if c = b then s.spilogOf b ++ [{ dev := d, tx := spiTx w, rx := s.drawSpi.1 }] else s.spilogOf c := by
  simp [State.spiExchange]

/-- An exchange ends with one yield point, which takes the receive events drawn for it. -/
theorem State.spiExchange_receives {s : State} {y : Yield} {ys : List Yield} (hyields : s.env.yields = y :: ys)
    (b : BusId) (d : DevId) (w : List Byte) :
    (s.spiExchange b d w).env.yields = ys ∧ (s.rxBytes y.rx).sameReception (s.spiExchange b d w) := by
  let emitted := s.drawSpi.2.emitSpi b { dev := d, tx := spiTx w, rx := s.drawSpi.1 }
  have hdraw := emitted.drawYield_cons y ys (s.drawSpi_env_yields.trans hyields)
  have heq : s.spiExchange b d w = { emitted with env := { emitted.env with yields := ys } }.pass y.rx y.ms := by
    rw [State.spiExchange, State.yieldPoint, hdraw]
  rw [heq]
  exact ⟨by simp, State.pass_sameReception (by simp [State.sameReception, emitted]) _ _⟩

/-! ## All exchanges of a transfer, by the bytes the slave shifts out -/

/-- The first bytes received are captured, as many as are wanted. -/
theorem State.spiShift_captured (b : BusId) (d : DevId) (rest : List Byte) : ∀ (rx : List Byte) (s : State)
    (w : List Byte) (want : Nat), s.env.spi = rx ++ rest →
    (s.spiShift b d rx.length w want).1 = rx.take want := by
  intro rx
  induction rx with
  | nil => exact fun s w want _ => List.take_nil.symm
  | cons x rx ih =>
    intro s w want hspi
    have htail := ih (s.spiExchange b d w) w.tail (want - 1) (State.spiExchange_env_spi hspi b d w)
    rw [List.length_cons, State.spiShift_succ]
    cases want with
    | zero => simpa using htail
    | succ want => simpa [s.drawSpi_cons _ _ hspi] using htail

/-- One byte of the slave is taken for each exchange. -/
theorem State.spiShift_env_spi (b : BusId) (d : DevId) (rest : List Byte) : ∀ (rx : List Byte) (s : State)
    (w : List Byte) (want : Nat), s.env.spi = rx ++ rest → (s.spiShift b d rx.length w want).2.env.spi = rest := by
  intro rx
  induction rx with
  | nil => exact fun s w want hspi => hspi
  | cons x rx ih => exact fun s w want hspi => ih _ _ _ (State.spiExchange_env_spi hspi b d w)

theorem spiTx_eq_getD (w : List Byte) : spiTx w = w.getD 0 0 := by
  cases w <;> rfl

/-- The exchanges are logged in order: the data that is left to send and then zeros, with the bytes received. -/
theorem State.spiShift_spilogOf (b : BusId) (d : DevId) (rest : List Byte) : ∀ (rx : List Byte) (s : State)
    (w : List Byte) (want : Nat), s.env.spi = rx ++ rest →
    (s.spiShift b d rx.length w want).2.spilogOf b = s.spilogOf b ++
      (List.range rx.length).map fun k => { dev := d, tx := w.getD k 0, rx := rx.getD k 0 } := by
  intro rx
  induction rx with
  | nil => exact fun s w want _ => (List.append_nil _).symm
  | cons x rx ih =>
    intro s w want hspi
    have htail := ih (s.spiExchange b d w) w.tail (want - 1) (State.spiExchange_env_spi hspi b d w)
    rw [List.length_cons, State.spiShift_succ, htail, s.spiExchange_spilogOf, if_pos rfl, s.drawSpi_cons _ _ hspi,
      List.range_succ_eq_map, spiTx_eq_getD]
    simp [Function.comp_def]

/-- A transfer logs nothing on another bus. -/
theorem State.spiShift_spilogOf_of_ne {b c : BusId} (hc : c ≠ b) (d : DevId) (n : Nat) : ∀ (s : State) (w : List Byte)
    (want : Nat), (s.spiShift b d n w want).2.spilogOf c = s.spilogOf c := by
  induction n with
  | zero => exact fun s w want => rfl
  | succ n ih => exact fun s w want => (ih _ _ _).trans ((s.spiExchange_spilogOf b d w c).trans (if_neg hc))

/-- A transfer takes the receive events of one yield point for each exchange (R127, R146). -/
theorem State.spiShift_receives (b : BusId) (d : DevId) (zs : List Yield) : ∀ (ys : List Yield) (s : State)
    (w : List Byte) (want : Nat), s.env.yields = ys ++ zs →
    (s.rxBytes (ys.flatMap fun y => y.rx)).sameReception (s.spiShift b d ys.length w want).2 := by
  intro ys
  induction ys with
  | nil => exact fun s w want _ => ⟨rfl, rfl, rfl, rfl, rfl⟩
  | cons y ys ih =>
    intro s w want hyields
    obtain ⟨hrest, hfirst⟩ := State.spiExchange_receives hyields b d w
    rw [List.flatMap_cons, State.rxBytes_append]
    exact (hfirst.rxBytes _).trans (ih (s.spiExchange b d w) w.tail (want - 1) hrest)

/-! ## The transfer -/

/-- The write data, and zeros after it (R127). -/
theorem State.wbufBytes_getD (s : State) (n k : Nat) :
    (s.wbufBytes n).getD k 0 = if k < n then memRead s.wbuf k else 0x00 := by
  rw [State.wbufBytes]
  split
  next hk =>
    have hlt : k < (readBytes s.wbuf 0 n).length := by rwa [length_readBytes]
    rw [List.getD_eq_getElem _ _ hlt, getElem_readBytes, Nat.zero_add]
  next hk => exact List.getD_eq_default _ _ (by rw [length_readBytes]; omega)

/-- Settles O30. -/
theorem spiTransferExchangesBytes : Obligations.SpiTransferExchangesBytes := by
  intro s i d wlen rlen dc rx rest hio hdev hlocked howner hkind hlengths hspi hcount
  let r := s.spiXfer d dc (s.wbufBytes wlen.toNat) rlen.toNat
  have hexec : exec i s = .next (r.finish rlen.toNat) :=
    exec_of_spi hio hdev ((s.owns_iff _ _).2 ⟨hlocked, howner⟩) hkind hlengths
  have hshift (n : Nat) (hn : n = max wlen.toNat rlen.toNat) :
      s.spiShift dc.bus d n (s.wbufBytes wlen.toNat) rlen.toNat = (r.data, r.state) := by
    simp only [r, State.spiXfer, State.wbufBytes, length_readBytes, hn]
  have hcaptured := State.spiShift_captured dc.bus d rest rx s (s.wbufBytes wlen.toNat) rlen.toNat hspi
  have htaken := State.spiShift_env_spi dc.bus d rest rx s (s.wbufBytes wlen.toNat) rlen.toNat hspi
  have hlogged := State.spiShift_spilogOf dc.bus d rest rx s (s.wbufBytes wlen.toNat) rlen.toNat hspi
  rw [hshift _ hcount] at hcaptured htaken hlogged
  dsimp only at hcaptured
  have same := r.finish_sameTraffic rlen.toNat
  obtain ⟨-, -, hspilog⟩ := same.logsOf dc.bus
  obtain ⟨hrings, hnotify⟩ := same.rings_notify
  refine ⟨_, hexec, r.finish_resp _, r.finish_busy _, ?log, ?bytes, by rw [r.finish_env, htaken], ?receives⟩
  case log =>
    rw [hspilog]
    simpa only [hcount, State.wbufBytes_getD] using hlogged
  case bytes =>
    intro hreads
    have hlength : r.data.length = rlen.toNat := by
      rw [hcaptured, List.length_take, hcount, Nat.min_eq_left (Nat.le_max_right _ _)]
    rw [XferResult.finish_rbufBytes rfl (by simpa using BitVec.toNat_inj.not.2 hreads) hlength, hcaptured]
  case receives =>
    intro ys zs hyields hys
    have hreceives := State.spiShift_receives dc.bus d zs ys s (s.wbufBytes wlen.toNat) rlen.toNat hyields
    rw [hshift _ hys] at hreceives
    obtain ⟨-, -, -, hrings', hnotify'⟩ := hreceives
    exact ⟨hrings.trans hrings', hnotify.trans hnotify'⟩

end Sys2Proof.Machine
end

section
/-! The frame of `READ`, `WRITE` and `TRANSFER` (R105, R107 to R109). -/

namespace Sys2Proof.Machine

/-! ## The logs of other buses and of other transports -/

/-- From s to t the logs of wire traffic grew on bus b alone, and only the log of its transport. -/
structure State.logsOnlyOn (s : State) (b : BusId) (t : State) : Prop where
  others : ∀ c, c ≠ b → t.txlogOf c = s.txlogOf c ∧ t.i2clogOf c = s.i2clogOf c ∧ t.spilogOf c = s.spilogOf c
  i2clog : s.busIs b .i2c = false → t.i2clog = s.i2clog
  spilog : s.busIs b .spi = false → t.spilog = s.spilog
  txlog : s.busIs b .uart = false → t.txlog = s.txlog

/-- Logs that did not grow grew on no other bus. -/
theorem State.sameTraffic.logsOnlyOn {s t : State} (same : s.sameTraffic t) (b : BusId) : s.logsOnlyOn b t := by
  have hothers := same.logsOf
  obtain ⟨-, -, -, -, htx, hi2c, hspi⟩ := same
  exact ⟨fun c _ => hothers c, fun _ => hi2c, fun _ => hspi, fun _ => htx⟩

theorem State.logsOnlyOn.of_sameTraffic {s t u : State} {b : BusId} (hlogs : s.logsOnlyOn b t)
    (same : t.sameTraffic u) : s.logsOnlyOn b u := by
  have hothers := same.logsOf
  obtain ⟨-, -, -, -, htx, hi2c, hspi⟩ := same
  exact {
    others := fun c hc => by simpa only [hothers c] using hlogs.others c hc
    i2clog := fun hkind => hi2c.trans (hlogs.i2clog hkind)
    spilog := fun hkind => hspi.trans (hlogs.spilog hkind)
    txlog := fun hkind => htx.trans (hlogs.txlog hkind) }

theorem State.i2cXfer_logsOnlyOn {s : State} {dc : DevCfg} (hkind : s.busIs dc.bus .i2c = true) (w : List Byte)
    (n : Nat) : s.logsOnlyOn dc.bus (s.i2cXfer dc w n).state where
  others c hc := ⟨s.i2cXfer_txlogOf dc w n c, (s.i2cXfer_i2clogOf dc w n c).trans (if_neg hc),
    s.i2cXfer_spilogOf dc w n c⟩
  i2clog hnot := by simp [hkind] at hnot
  spilog _ := s.i2cXfer_spilog dc w n
  txlog _ := s.i2cXfer_txlog dc w n

theorem State.spiXfer_logsOnlyOn {s : State} {dc : DevCfg} (hkind : s.busIs dc.bus .spi = true) (d : DevId)
    (w : List Byte) (n : Nat) : s.logsOnlyOn dc.bus (s.spiXfer d dc w n).state where
  others c hc := ⟨s.spiXfer_txlogOf d dc w n c, s.spiXfer_i2clogOf d dc w n c,
    State.spiShift_spilogOf_of_ne hc d _ s w n⟩
  i2clog _ := s.spiXfer_i2clog d dc w n
  spilog hnot := by simp [hkind] at hnot
  txlog _ := s.spiXfer_txlog d dc w n

theorem State.uartWrite_txlogOf_of_ne (s : State) {dc : DevCfg} {c : BusId} (hc : c ≠ dc.bus) (w : List Byte) :
    (s.uartWrite dc w).2.txlogOf c = s.txlogOf c := by
  unfold State.uartWrite
  dsimp only
  split <;> simp [hc]

theorem State.uartXfer_txlogOf_of_ne (s : State) {dc : DevCfg} {c : BusId} (hc : c ≠ dc.bus) (w : List Byte)
    (n : Nat) : (s.uartXfer dc w n).state.txlogOf c = s.txlogOf c := by
  unfold State.uartXfer
  dsimp only
  split_ifs <;> simp [s.uartWrite_txlogOf_of_ne hc]

theorem State.uartXfer_logsOnlyOn {s : State} {dc : DevCfg} (hkind : s.busIs dc.bus .uart = true) (w : List Byte)
    (n : Nat) : s.logsOnlyOn dc.bus (s.uartXfer dc w n).state where
  others c hc := ⟨s.uartXfer_txlogOf_of_ne hc w n, s.uartXfer_i2clogOf dc w n c, s.uartXfer_spilogOf dc w n c⟩
  i2clog _ := s.uartXfer_i2clog dc w n
  spilog _ := s.uartXfer_spilog dc w n
  txlog hnot := by simp [hkind] at hnot

/-- A transfer drives the wires of its own bus, by its own engine (R104). -/
theorem State.xfer_logsOnlyOn (s : State) (d : DevId) (dc : DevCfg) (w : List Byte) (n : Nat) :
    s.logsOnlyOn dc.bus (s.xfer d dc w n).state := by
  unfold State.xfer
  split
  next => exact (State.sameTraffic.refl s).logsOnlyOn dc.bus
  next bc hbus =>
    split
    next hkind => exact State.i2cXfer_logsOnlyOn (by simp [State.busIs, hbus, hkind]) w n
    next hkind => exact State.spiXfer_logsOnlyOn (by simp [State.busIs, hbus, hkind]) d w n
    next hkind => exact State.uartXfer_logsOnlyOn (by simp [State.busIs, hbus, hkind]) w n

/-! ## What an I/O command touches -/

/-- What an I/O command on bus b that reads `rlen` bytes may touch: not `CMD`, `WBUF`, a handler or a stimulus to come,
no log but its own, and `RBUF` only if it reads or does not answer `Ok`. -/
structure State.ioTouches (s : State) (b : BusId) (rlen : Byte) (t : State) : Prop where
  kept : t.cmd = s.cmd ∧ t.wbuf = s.wbuf ∧ t.handlers = s.handlers ∧ t.inputs = s.inputs
  logs : s.logsOnlyOn b t
  rbufByte : rlen = 0 → respStatus t.resp = BusStatus.ok.code → ∀ a, t.rbufByte a = s.rbufByte a

theorem State.raise_ioTouches (s : State) {st : BusStatus} (hst : st ≠ .ok) (b : BusId) (rlen : Byte) :
    s.ioTouches b rlen (s.raise st) where
  kept := by simp
  logs := (s.raise_sameTraffic st).logsOnlyOn b
  rbufByte _ hok := by
    rw [State.raise_resp, respStatus_respWord] at hok
    exact absurd (BusStatus.code_inj hok) hst

/-- The end of a command whose transfer has returned touches `RBUF`, `RESP` and no log (R105). -/
theorem State.ioTouches_of_finish {s : State} {r : XferResult} {b : BusId}
    (hkept : r.state.cmd = s.cmd ∧ r.state.wbuf = s.wbuf ∧ r.state.handlers = s.handlers ∧ r.state.inputs = s.inputs)
    (hlogs : s.logsOnlyOn b r.state) (hrbuf : ∀ a, r.state.rbufByte a = s.rbufByte a) (rlen : Byte) :
    s.ioTouches b rlen (r.finish rlen.toNat) := by
  obtain ⟨-, hcmd, hwbuf, hhandlers, -, -, -, hinputs⟩ := r.finish_sameBackdrop rlen.toNat
  exact {
    kept := by simpa only [hcmd, hwbuf, hhandlers, hinputs] using hkept
    logs := hlogs.of_sameTraffic (r.finish_sameTraffic rlen.toNat)
    rbufByte := by
      rintro rfl hok a
      rw [XferResult.finish_resp, respStatus_respWord] at hok
      exact (XferResult.finish_rbufByte (BusStatus.code_inj hok) a).trans (hrbuf a) }

theorem State.ioCommand_ioTouches {s : State} {d : DevId} {dc : DevCfg} (hdev : s.dev? d = some dc)
    (wlen rlen : Byte) : s.ioTouches dc.bus rlen (s.ioCommand d wlen rlen) := by
  rcases State.ioCommand_cases hdev wlen rlen with ⟨st, hst, heq⟩ | heq <;> rw [heq]
  · exact s.raise_ioTouches hst dc.bus rlen
  · exact State.ioTouches_of_finish (by simp) (s.xfer_logsOnlyOn d dc _ _) (s.xfer_rbufByte d dc _ _) rlen

/-- Settles O35. -/
theorem ioFrame : Obligations.IoFrame := by
  intro s t i d wlen rlen dc hio hdev hexec
  cases (exec_of_io hio s).symm.trans hexec
  have hring (e : DevId) (hnone : s.unregistered e) : (s.ioCommand d wlen rlen).ring e = s.ring e := by
    obtain ⟨-, hring⟩ := (steady_unregistered_ring s e).ioCommand ⟨hnone, rfl⟩ d wlen rlen
    exact hring
  have htails := (steady_sameTails s).ioCommand (fun _ => rfl) d wlen rlen
  obtain ⟨hcfg, hbuses, hcs⟩ := s.ioCommand_sameArbiter d wlen rlen
  have touches := State.ioCommand_ioTouches hdev wlen rlen
  obtain ⟨hcmd, hwbuf, hhandlers, hinputs⟩ := touches.kept
  exact ⟨hring, htails, touches.logs.others, touches.logs.i2clog, touches.logs.spilog, touches.logs.txlog,
    touches.rbufByte, by simp only [hcfg, hcmd, hwbuf, hbuses, hcs, hhandlers, hinputs]⟩

end Sys2Proof.Machine
end

section
/-! The time an I2C command may take (R116, R119). -/

namespace Sys2Proof.Machine

/-- The status of an answer that was seen is never `Timeout` (R116). -/
theorem i2cStatus_ne_timeout (k : I2cKind) : i2cStatus k ≠ .timeout := by
  cases k <;> nofun

/-- A transaction times out only where its poll saw no outcome (R116). -/
theorem State.i2cPoll_of_timeout {s : State} {dc : DevCfg} {w : List Byte} {n : Nat}
    (htimeout : (s.i2cXfer dc w n).status = .timeout) : (s.i2cPoll dc).finished = false := by
  by_contra hfinished
  rw [s.i2cXfer_status, if_pos (by simpa using hfinished)] at htimeout
  exact i2cStatus_ne_timeout _ htimeout

/-- Settles O29: the command takes as long as its poll does. -/
theorem i2cCommandTimeBound : Obligations.I2cCommandTimeBound := by
  intro s i d wlen rlen dc hio hdev hlocked howner hkind hlengths
  let r := s.i2cXfer dc (s.wbufBytes wlen.toNat) rlen.toNat
  have hexec : exec i s = .next (r.finish rlen.toNat) :=
    exec_of_i2c hio hdev ((s.owns_iff _ _).2 ⟨hlocked, howner⟩) hkind hlengths
  obtain ⟨hbound, hunfinished⟩ : (s.i2cPoll dc).ms ≤ s.remaining dc.bus + 2 * s.cfg.pollGranularity ∧
      ((s.i2cPoll dc).finished = false → (s.i2cPoll dc).ms ≤ s.remaining dc.bus + s.cfg.pollGranularity) :=
    poll_bound _ _ _ _ _
  refine ⟨_, (s.i2cPoll dc).ms, hexec, (r.finish_now _).trans (s.i2cXfer_now _ _ _), hbound, fun htimeout => ?_⟩
  rw [XferResult.finish_resp, respStatus_respWord] at htimeout
  exact hunfinished (State.i2cPoll_of_timeout (BusStatus.code_inj htimeout))

end Sys2Proof.Machine
end

section
/-! The two phases of a UART transfer, each one poll against the deadline of the lock (R116, R134, R137, R138). -/

namespace Sys2Proof.Machine

/-! ## The way to the engine (R102 to R105, R138) -/

theorem State.xfer_of_uart {s : State} {dc : DevCfg} (hkind : s.busIs dc.bus .uart = true) (d : DevId) (w : List Byte)
    (n : Nat) : s.xfer d dc w n = s.uartXfer dc w n := by
  obtain ⟨bc, hbus, hbc⟩ := State.busCfg?_kind hkind
  simp only [State.xfer, hbus, hbc]

/-- An owner's I/O command on a UART bus is a UART transfer, if the bus lets it read whatever it reads (R102 (b), R138). -/
theorem exec_of_uart {s : State} {i : Instr} {d : DevId} {wlen rlen : Byte} {dc : DevCfg}
    (hio : i.io? = some (d, wlen, rlen)) (hdev : s.dev? d = some dc) (howns : s.owns dc.bus d = true)
    (hkind : s.busIs dc.bus .uart = true) (hlengths : ¬ (wlen = 0 ∧ rlen = 0))
    (hreads : ¬ (rlen ≠ 0 ∧ s.readRefused dc.bus = true)) :
    exec i s = .next ((s.uartXfer dc (s.wbufBytes wlen.toNat) rlen.toNat).finish rlen.toNat) := by
  rw [exec_of_io hio, State.ioCommand, hdev]
  dsimp only
  rw [if_pos howns, if_neg hlengths, if_neg hreads, State.xfer_of_uart hkind]

/-- A bus that receives and has no handler lets every transfer read (R102 (b)). -/
theorem State.readRefused_of_receiving {s : State} {b : BusId} (hmode : s.busTxOnly b = false)
    (hhandler : s.handler b = none) : s.readRefused b = false := by
  simp [State.readRefused, hmode, hhandler]

theorem toNat_ne_zero {x : Byte} (hx : x ≠ 0) : x.toNat ≠ 0 :=
  BitVec.toNat_inj.not.2 hx

theorem State.wbufBytes_ne_nil {s : State} {n : Nat} (hn : n ≠ 0) : s.wbufBytes n ≠ [] := by
  rw [← List.length_pos_iff, State.wbufBytes, length_readBytes]
  exact Nat.pos_of_ne_zero hn

/-! ## The write phase (R134) -/

/-- Where the polling of a write phase of dc ends, under the answers that are drawn first (R116). -/
def State.uartWritePoll (s : State) (dc : DevCfg) : PollEnd :=
  poll (s.remaining dc.bus) s.cfg.pollGranularity s.drawTx.1.tPush s.drawTx.2.drawYield.1.race
    s.drawTx.2.drawYield.1.ms

/-- A write phase succeeds or not, and takes its yield point and then the bytes it pushes. -/
theorem State.uartWrite_eq (s : State) (dc : DevCfg) (w : List Byte) :
    s.uartWrite dc w =
      ((s.uartWritePoll dc).finished,
        (s.drawTx.2.drawYield.2.pass s.drawTx.2.drawYield.1.rx (s.uartWritePoll dc).ms).emitTx dc.bus
          (if (s.uartWritePoll dc).finished then w else w.take (min s.drawTx.1.pushed (w.length - 1)))) := by
  change (if (s.uartWritePoll dc).finished then _ else _) = _
  cases (s.uartWritePoll dc).finished <;> rfl

theorem State.uartWrite_sent (s : State) (dc : DevCfg) (w : List Byte) :
    (s.uartWrite dc w).1 = (s.uartWritePoll dc).finished := by
  rw [s.uartWrite_eq]

theorem State.uartWrite_now (s : State) (dc : DevCfg) (w : List Byte) :
    (s.uartWrite dc w).2.now = s.now + BitVec.ofNat 32 (s.uartWritePoll dc).ms := by
  simp [s.uartWrite_eq]

/-- The bytes pushed are logged (R134). -/
theorem State.uartWrite_txlogOf (s : State) (dc : DevCfg) (w : List Byte) :
    (s.uartWrite dc w).2.txlogOf dc.bus = s.txlogOf dc.bus ++
      if (s.uartWritePoll dc).finished then w else w.take (min s.drawTx.1.pushed (w.length - 1)) := by
  simp [s.uartWrite_eq]

/-- A write that does not finish pushes its first bytes, and not all of them (R134). -/
theorem State.uartWrite_txlogOf_of_unfinished {s : State} {dc : DevCfg} {w : List Byte} (hw : w ≠ [])
    (hunfinished : (s.uartWritePoll dc).finished = false) :
    ∃ k, k < w.length ∧ (s.uartWrite dc w).2.txlogOf dc.bus = s.txlogOf dc.bus ++ w.take k := by
  have hlength := List.length_pos_iff.2 hw
  refine ⟨min s.drawTx.1.pushed (w.length - 1), by omega, ?_⟩
  rw [s.uartWrite_txlogOf, hunfinished, if_neg nofun]

/-- A write phase meets one yield point. -/
theorem State.uartWrite_sameReception (s : State) (dc : DevCfg) (w : List Byte) :
    (s.rxBytes s.drawTx.2.drawYield.1.rx).sameReception (s.uartWrite dc w).2 := by
  rw [s.uartWrite_eq]
  exact State.pass_sameReception (t := s.drawTx.2.drawYield.2) (by simp [State.sameReception]) _ (s.uartWritePoll dc).ms

theorem State.uartWrite_env_rx (s : State) (dc : DevCfg) (w : List Byte) :
    (s.uartWrite dc w).2.env.rx = s.env.rx := by
  simp [s.uartWrite_eq]

theorem State.uartWrite_env_drifts (s : State) (dc : DevCfg) (w : List Byte) :
    (s.uartWrite dc w).2.env.drifts = s.env.drifts := by
  simp [s.uartWrite_eq]

theorem State.uartWrite_env_yields {s : State} {y : Yield} {ys : List Yield} (hyields : s.env.yields = y :: ys)
    (dc : DevCfg) (w : List Byte) : (s.uartWrite dc w).2.env.yields = ys := by
  simp [s.uartWrite_eq, s.drawTx.2.drawYield_cons y ys (by simpa using hyields)]

/-! ## The read phase (R137) -/

/-- Where the polling of a read phase of dc ends, under the answers that are drawn first (R116). -/
def State.uartReadPoll (s : State) (dc : DevCfg) : PollEnd :=
  poll (s.remaining dc.bus) s.cfg.pollGranularity s.drawRx.1.tRx s.drawRx.2.drawYield.1.race
    s.drawRx.2.drawYield.1.ms

/-- A read phase takes its yield point, and returns the bytes received if its poll saw them arrive. -/
theorem State.uartRead_eq (s : State) (dc : DevCfg) (n : Nat) :
    s.uartRead dc n =
      { status := if (s.uartReadPoll dc).finished then .ok else .timeout
        data := if (s.uartReadPoll dc).finished then fitBytes n s.drawRx.1.bytes else []
        state := s.drawRx.2.drawYield.2.pass s.drawRx.2.drawYield.1.rx (s.uartReadPoll dc).ms } := by
  change (if (s.uartReadPoll dc).finished then _ else _) = _
  cases (s.uartReadPoll dc).finished <;> rfl

theorem State.uartRead_status (s : State) (dc : DevCfg) (n : Nat) :
    (s.uartRead dc n).status = if (s.uartReadPoll dc).finished then .ok else .timeout := by
  rw [s.uartRead_eq]

theorem State.uartRead_data (s : State) (dc : DevCfg) (n : Nat) :
    (s.uartRead dc n).data = if (s.uartReadPoll dc).finished then fitBytes n s.drawRx.1.bytes else [] := by
  rw [s.uartRead_eq]

theorem State.uartRead_now (s : State) (dc : DevCfg) (n : Nat) :
    (s.uartRead dc n).state.now = s.now + BitVec.ofNat 32 (s.uartReadPoll dc).ms := by
  simp [s.uartRead_eq]

/-- A read phase meets one yield point. -/
theorem State.uartRead_sameReception (s : State) (dc : DevCfg) (n : Nat) :
    (s.rxBytes s.drawRx.2.drawYield.1.rx).sameReception (s.uartRead dc n).state := by
  rw [s.uartRead_eq]
  exact State.pass_sameReception (t := s.drawRx.2.drawYield.2) (by simp [State.sameReception]) _ _

/-- A read phase whose bytes arrived answers `Ok` with them in `RBUF` (R105, R137). -/
theorem State.uartRead_finish_of_finished {s : State} {dc : DevCfg} {n : Nat} (hn : n ≠ 0)
    (hlength : s.drawRx.1.bytes.length = n) (hfinished : (s.uartReadPoll dc).finished = true) :
    ((s.uartRead dc n).finish n).resp = respWord .ok false n ∧
      ((s.uartRead dc n).finish n).rbufBytes n = s.drawRx.1.bytes := by
  have hstatus : (s.uartRead dc n).status = .ok := (s.uartRead_status dc n).trans (if_pos hfinished)
  have hdata : (s.uartRead dc n).data = s.drawRx.1.bytes := by
    rw [s.uartRead_data, if_pos hfinished, ← hlength, fitBytes_eq]
  refine ⟨by rw [XferResult.finish_resp, hstatus, if_pos rfl], ?_⟩
  rw [XferResult.finish_rbufBytes hstatus hn (hdata ▸ hlength), hdata]

/-- A read phase whose bytes did not arrive answers `Timeout` (R138). -/
theorem State.uartRead_finish_of_unfinished {s : State} {dc : DevCfg} (hunfinished : (s.uartReadPoll dc).finished = false)
    (n : Nat) : ((s.uartRead dc n).finish n).resp = respWord .timeout false 0 := by
  have hstatus : (s.uartRead dc n).status = .timeout := by rw [s.uartRead_status, hunfinished, if_neg nofun]
  rw [XferResult.finish_resp, hstatus, if_neg nofun]

/-- A read phase that starts p ms into the time `left` to the deadline ends in one of the three cases of R116, by the sum
of both times: with the bytes in `RBUF`, or with `Timeout` (R137, R138). -/
theorem State.uartRead_outcome {s : State} {dc : DevCfg} {n p left : Nat} (hn : n ≠ 0)
    (hlength : s.drawRx.1.bytes.length = n) (hleft : p + s.remaining dc.bus = left) :
    let t := (s.uartRead dc n).finish n
    let e := p + (s.uartReadPoll dc).ms
    let gran := s.cfg.pollGranularity
    let got := fun q => t.resp = respWord .ok false n ∧ t.rbufBytes n = s.drawRx.1.bytes ∧ p + q ≤ e ∧ e ≤ p + q + gran
    let cut := t.resp = respWord .timeout false 0 ∧ left ≤ e ∧ e ≤ left + gran
    (∀ q, s.drawRx.1.tRx = some q → p + q < left → got q) ∧
    ((s.drawRx.1.tRx = none ∨ ∃ q, s.drawRx.1.tRx = some q ∧ left + gran < p + q) → cut) ∧
    (∀ q, s.drawRx.1.tRx = some q → left ≤ p + q → p + q ≤ left + gran → got q ∨ cut) := by
  intro t e gran got cut
  have hgot {q : Nat} (hend : (s.uartReadPoll dc).seen gran q) : got q := by
    obtain ⟨hfinished, hfrom, hto⟩ := hend
    obtain ⟨hresp, hbytes⟩ := State.uartRead_finish_of_finished hn hlength hfinished
    exact ⟨hresp, hbytes, by omega, by omega⟩
  have hcut (hend : (s.uartReadPoll dc).missed gran (s.remaining dc.bus)) : cut := by
    obtain ⟨hunfinished, hfrom, hto⟩ := hend
    exact ⟨State.uartRead_finish_of_unfinished hunfinished n, by omega, by omega⟩
  refine ⟨fun q hq hbefore => hgot (poll_seen hq (by omega)), fun hafter => hcut (poll_missed ?_),
    fun q hq hfrom hto => (poll_seen_or_missed hq (by omega) (by omega)).imp hgot hcut⟩
  exact hafter.imp_right fun ⟨q, hq, hlate⟩ => ⟨q, hq, by omega⟩

/-! ## The transfer by its phases (R138) -/

/-- The end of a command whose transfer has returned touches nothing that receive events write (R105). -/
theorem XferResult.finish_sameReception (r : XferResult) (n : Nat) : r.state.sameReception (r.finish n) := by
  rcases r.finish_cases n with ⟨-, -, heq⟩ | ⟨-, -, heq⟩ | ⟨-, heq⟩ <;> simp [State.sameReception, heq]

theorem State.sameReception.rings_notify {s t : State} (same : s.sameReception t) :
    t.rings = s.rings ∧ t.notify = s.notify := by
  obtain ⟨-, -, -, hrings, hnotify⟩ := same
  exact ⟨hrings, hnotify⟩

theorem State.uartXfer_of_read (s : State) (dc : DevCfg) {n : Nat} (hn : n ≠ 0) :
    s.uartXfer dc [] n = s.uartRead dc n := by
  rw [State.uartXfer, if_pos rfl, if_neg hn]

theorem State.uartXfer_of_write (s : State) (dc : DevCfg) {w : List Byte} (hw : w ≠ []) :
    s.uartXfer dc w 0 =
      { status := if (s.uartWritePoll dc).finished then .ok else .timeout, data := [], state := (s.uartWrite dc w).2 } := by
  simp only [State.uartXfer, if_neg hw, s.uartWrite_sent]
  split <;> rfl

/-- A write phase that did not finish ends the transfer: no read phase follows. -/
theorem State.uartXfer_of_unfinished {s : State} {dc : DevCfg} {w : List Byte} (hw : w ≠ [])
    (hunfinished : (s.uartWritePoll dc).finished = false) (n : Nat) :
    s.uartXfer dc w n = { status := .timeout, data := [], state := (s.uartWrite dc w).2 } := by
  simp only [State.uartXfer, if_neg hw, s.uartWrite_sent, hunfinished, Bool.false_eq_true, if_false]

/-- A read phase follows a write phase that finished, after a passing of time (R55). -/
theorem State.uartXfer_of_finished {s : State} {dc : DevCfg} {w : List Byte} (hw : w ≠ [])
    (hfinished : (s.uartWritePoll dc).finished = true) {n : Nat} (hn : n ≠ 0) :
    s.uartXfer dc w n = (s.uartWrite dc w).2.drift.uartRead dc n := by
  simp only [State.uartXfer, if_neg hw, s.uartWrite_sent, hfinished, if_true, if_neg hn]

/-- What a transfer leaves whose write phase did not finish: `Timeout`, only first bytes in the log, the read phase's
answers still to be drawn, and the receive events of the one yield point (R138, R146). -/
theorem State.uartXfer_finish_of_unfinished {s : State} {dc : DevCfg} {w : List Byte} (hw : w ≠ [])
    (hunfinished : (s.uartWritePoll dc).finished = false) (n : Nat) :
    let t := (s.uartXfer dc w n).finish n
    t.resp = respWord .timeout false 0 ∧ t.now = s.now + BitVec.ofNat 32 (s.uartWritePoll dc).ms ∧
      t.env.rx = s.env.rx ∧ (∃ k, k < w.length ∧ t.txlogOf dc.bus = s.txlogOf dc.bus ++ w.take k) ∧
      (s.rxBytes s.drawTx.2.drawYield.1.rx).sameReception t := by
  rw [State.uartXfer_of_unfinished hw hunfinished]
  intro t
  have same := XferResult.finish_sameTraffic { status := .timeout, data := [], state := (s.uartWrite dc w).2 } n
  obtain ⟨htxlog, -, -⟩ := same.logsOf dc.bus
  obtain ⟨k, hk, hpushed⟩ := State.uartWrite_txlogOf_of_unfinished hw hunfinished
  exact ⟨XferResult.finish_resp _ n, (XferResult.finish_now _ n).trans (s.uartWrite_now dc w),
    by rw [XferResult.finish_env, s.uartWrite_env_rx], ⟨k, hk, htxlog.trans hpushed⟩,
    (s.uartWrite_sameReception dc w).trans (XferResult.finish_sameReception _ n)⟩

/-- What a transfer that only writes leaves if its write phase finished: `Ok` and all bytes in the log. -/
theorem State.uartXfer_finish_of_finished {s : State} {dc : DevCfg} {w : List Byte} (hw : w ≠ [])
    (hfinished : (s.uartWritePoll dc).finished = true) :
    let t := (s.uartXfer dc w 0).finish 0
    t.resp = respWord .ok false 0 ∧ t.txlogOf dc.bus = s.txlogOf dc.bus ++ w := by
  rw [s.uartXfer_of_write dc hw, hfinished]
  intro t
  have same := XferResult.finish_sameTraffic { status := .ok, data := [], state := (s.uartWrite dc w).2 } 0
  obtain ⟨htxlog, -, -⟩ := same.logsOf dc.bus
  exact ⟨XferResult.finish_resp _ 0, htxlog.trans (by rw [s.uartWrite_txlogOf, if_pos hfinished])⟩

/-! ## One phase alone -/

/-- Settles O32: the poll of the write phase ends in one of the three cases of R116, and the response and the log are
those of a phase that finished, or of one that did not. -/
theorem uartWriteOutcome : Obligations.UartWriteOutcome := by
  intro s i d wlen dc a hio hdev hlocked howner hkind hwrites rfl
  let w := s.wbufBytes wlen.toNat
  let r := s.uartXfer dc w 0
  let p := s.uartWritePoll dc
  have hw : w ≠ [] := State.wbufBytes_ne_nil (toNat_ne_zero hwrites)
  have hexec : exec i s = .next (r.finish 0) :=
    exec_of_uart hio hdev ((s.owns_iff _ _).2 ⟨hlocked, howner⟩) hkind (hwrites ·.1) (·.1 rfl)
  have hstate : r.state = (s.uartWrite dc w).2 := congrArg XferResult.state (s.uartXfer_of_write dc hw)
  have hreceives := (s.uartWrite_sameReception dc w).trans (hstate ▸ r.finish_sameReception 0)
  have hsent {tf : Nat} (hend : p.seen s.cfg.pollGranularity tf) :
      ((r.finish 0).resp = respWord .ok false 0 ∧ (r.finish 0).txlogOf dc.bus = s.txlogOf dc.bus ++ w) ∧
        tf ≤ p.ms ∧ p.ms ≤ tf + s.cfg.pollGranularity :=
    hend.imp_left (State.uartXfer_finish_of_finished hw)
  have hcut (hend : p.missed s.cfg.pollGranularity (s.remaining dc.bus)) :
      (r.finish 0).resp = respWord .timeout false 0 ∧
        (∃ k, k < wlen.toNat ∧ (r.finish 0).txlogOf dc.bus = s.txlogOf dc.bus ++ w.take k) ∧
        s.remaining dc.bus ≤ p.ms ∧ p.ms ≤ s.remaining dc.bus + s.cfg.pollGranularity := by
    obtain ⟨hunfinished, hbounds⟩ := hend
    obtain ⟨hresp, -, -, ⟨k, hk, hpushed⟩, -⟩ := State.uartXfer_finish_of_unfinished hw hunfinished 0
    exact ⟨hresp, ⟨k, by simpa [w, State.wbufBytes] using hk, hpushed⟩, hbounds⟩
  refine ⟨_, p.ms, hexec, r.finish_busy _, ?now, hreceives.rings_notify, ?before, ?after, ?race⟩
  case now => rw [r.finish_now, hstate, s.uartWrite_now]
  case before => exact fun _ htf hbefore => hsent (poll_seen htf hbefore)
  case after => exact fun hafter => hcut (poll_missed hafter)
  case race => exact fun _ htf hfrom hto => (poll_seen_or_missed htf hfrom hto).imp hsent hcut

/-- Settles O33: the read phase has all of the time that is left to the deadline. -/
theorem uartPolledReadOutcome : Obligations.UartPolledReadOutcome := by
  intro s i d rlen dc a hio hdev hlocked howner hkind hmode hhandler hreads rfl hlength
  let r := s.uartRead dc rlen.toNat
  let p := s.uartReadPoll dc
  have hn := toNat_ne_zero hreads
  have hallowed : s.readRefused dc.bus = false := State.readRefused_of_receiving hmode hhandler
  have hexec : exec i s = .next (r.finish rlen.toNat) := by
    rw [exec_of_uart hio hdev ((s.owns_iff _ _).2 ⟨hlocked, howner⟩) hkind (hreads ·.2) (by simp [hallowed]),
      show s.wbufBytes (0 : Byte).toNat = [] from rfl, s.uartXfer_of_read dc hn]
  have hreceives := (s.uartRead_sameReception dc rlen.toNat).trans (r.finish_sameReception rlen.toNat)
  refine ⟨_, p.ms, hexec, r.finish_busy _, (r.finish_now _).trans (s.uartRead_now _ _), ?log, hreceives.rings_notify,
    ?outcome⟩
  case log =>
    obtain ⟨-, -, -, -, htxlog, -, -⟩ := r.finish_sameTraffic rlen.toNat
    exact htxlog.trans (s.uartRead_txlog dc rlen.toNat)
  case outcome => simpa only [Nat.zero_add, and_assoc] using State.uartRead_outcome hn hlength (Nat.zero_add _)

end Sys2Proof.Machine
end

section
/-! A UART transfer of both phases: the read has what the write leaves of the time to the deadline (R116, R138). -/

namespace Sys2Proof.Machine

/-- A poll that is not late ends at the instant of the outcome it saw (R116). -/
theorem poll_before_punctual {rem gran t : Nat} {race : Bool} (h : t < rem) :
    poll rem gran (some t) race 0 = { finished := true, ms := t } := by
  rw [poll_before h, Nat.zero_min, Nat.add_zero]

/-- p ms later, and before the deadline of a lock that was not armed again, p ms less are left of its time: the age of the
lock does not wrap before its interval is over (log 8). -/
theorem State.remaining_of_later {s t : State} {b : BusId} {p : Nat} (hbus : t.bus b = s.bus b)
    (hnow : t.now = s.now + BitVec.ofNat 32 p) (hp : p < s.remaining b) : t.remaining b = s.remaining b - p := by
  have hinterval : (s.bus b).expInterval.toNat < 2 ^ 32 := (s.bus b).expInterval.isLt
  rw [State.remaining] at hp
  have hage : t.age b = s.age b + p := by
    refine State.age_of_now_eq (by omega) ?_
    rw [hnow, hbus, BitVec.ofNat_add, State.age, BitVec.ofNat_toNat, BitVec.setWidth_eq, ← BitVec.add_assoc,
      BitVec.add_comm (s.bus b).expStart, BitVec.sub_add_cancel]
  rw [State.remaining, State.remaining, hbus, hage, Nat.sub_add_eq]

/-- The state in which the read phase starts, once a write phase has pushed all of `w` (R138). -/
def State.uartWritten (s : State) (dc : DevCfg) (w : List Byte) : State := (s.uartWrite dc w).2.drift

section
variable {s : State} {y1 y2 : Yield} {ys : List Yield} {ns : List Nat}

theorem State.uartWritten_env_yields (hyields : s.env.yields = y1 :: ys) (dc : DevCfg) (w : List Byte) :
    (s.uartWritten dc w).env.yields = ys := by
  rw [State.uartWritten, State.drift_env_yields, State.uartWrite_env_yields hyields]

theorem State.uartWritten_env_rx (s : State) (dc : DevCfg) (w : List Byte) :
    (s.uartWritten dc w).env.rx = s.env.rx := by
  rw [State.uartWritten, State.drift_env_rx, s.uartWrite_env_rx]

/-- Where no time passes between the phases, the read phase starts as the poll of the write phase ends. -/
theorem State.uartWritten_now (hdrifts : s.env.drifts = 0 :: ns) (dc : DevCfg) (w : List Byte) :
    (s.uartWritten dc w).now = s.now + BitVec.ofNat 32 (s.uartWritePoll dc).ms := by
  rw [State.uartWritten, State.drift_now ((s.uartWrite_env_drifts dc w).trans hdrifts), s.uartWrite_now,
    BitVec.add_zero]

/-- The two phases take the receive events of one yield point each (R146). -/
theorem State.uartRead_uartWritten_sameReception (hyields : s.env.yields = y1 :: y2 :: ys) (dc : DevCfg) (w : List Byte)
    (n : Nat) : (s.rxBytes (y1.rx ++ y2.rx)).sameReception ((s.uartWritten dc w).uartRead dc n).state := by
  have hfirst := s.uartWrite_sameReception dc w
  have hdrift : (s.uartWrite dc w).2.sameReception (s.uartWritten dc w) := by
    simp [State.sameReception, State.uartWritten]
  have hsecond := (s.uartWritten dc w).uartRead_sameReception dc n
  rw [s.drawTx.2.drawYield_cons y1 (y2 :: ys) (by simpa using hyields)] at hfirst
  rw [(s.uartWritten dc w).drawRx.2.drawYield_cons y2 ys
    (by simpa using State.uartWritten_env_yields hyields dc w)] at hsecond
  rw [State.rxBytes_append]
  exact ((hfirst.trans hdrift).rxBytes y2.rx).trans hsecond

end

/-- The answers drawn first are those that stand first in their queues. -/
theorem State.uartWritePoll_of_queues {s : State} {a : TxAnswer} {txs : List TxAnswer} {y : Yield} {ys : List Yield}
    (htx : s.env.tx = a :: txs) (hyields : s.env.yields = y :: ys) (dc : DevCfg) :
    s.uartWritePoll dc = poll (s.remaining dc.bus) s.cfg.pollGranularity a.tPush y.race y.ms := by
  rw [State.uartWritePoll, s.drawTx.2.drawYield_cons y ys (by simpa using hyields), s.drawTx_cons a txs htx]

/-- All of `w` is logged before the read phase starts. -/
theorem State.uartWritten_txlogOf {s : State} {dc : DevCfg} {w : List Byte}
    (hfinished : (s.uartWritePoll dc).finished = true) :
    (s.uartWritten dc w).txlogOf dc.bus = s.txlogOf dc.bus ++ w := by
  rw [State.uartWritten, State.drift_txlogOf, s.uartWrite_txlogOf, if_pos hfinished]

/-- Settles O34, by how the poll of the write phase ends: a phase that did not finish is the whole transfer, and after one
that did the read phase has the time that is left. -/
theorem uartWriteThenRead : Obligations.UartWriteThenRead := by
  intro s d wlen rlen dc a txs r rxs y1 y2 ys ns hdev hlocked howner hkind hmode hhandler hwrites hreads htx hrx hlength
    hyields hpunctual hdrifts
  let w := s.wbufBytes wlen.toNat
  let p := s.uartWritePoll dc
  have hw : w ≠ [] := State.wbufBytes_ne_nil (toNat_ne_zero hwrites)
  have hn := toNat_ne_zero hreads
  have hp : p = poll (s.remaining dc.bus) s.cfg.pollGranularity a.tPush y1.race 0 :=
    hpunctual ▸ State.uartWritePoll_of_queues htx hyields dc
  have hallowed : s.readRefused dc.bus = false := State.readRefused_of_receiving hmode hhandler
  have hexec : exec (.transfer d wlen rlen) s = .next ((s.uartXfer dc w rlen.toNat).finish rlen.toNat) :=
    exec_of_uart rfl hdev ((s.owns_iff _ _).2 ⟨hlocked, howner⟩) hkind (hwrites ·.1) (by simp [hallowed])
  cases hfinished : p.finished with
  | false =>
    obtain ⟨hresp, hnow, hrest, ⟨k, hk, hpushed⟩, hreceives⟩ :=
      State.uartXfer_finish_of_unfinished hw hfinished rlen.toNat
    rw [s.drawTx.2.drawYield_cons y1 (y2 :: ys) (by simpa using hyields)] at hreceives
    refine ⟨_, p.ms, hexec, XferResult.finish_busy _ _, hnow, ?before, ?after⟩
    case before =>
      intro tp htp hbefore
      rw [hp, htp, poll_before hbefore] at hfinished
      cases hfinished
    case after =>
      intro hafter
      obtain ⟨-, hbounds⟩ : p.missed s.cfg.pollGranularity (s.remaining dc.bus) := hp ▸ poll_missed hafter
      exact ⟨⟨hresp, hbounds⟩, hrest, ⟨k, by simpa [w, State.wbufBytes] using hk, hpushed⟩, hreceives.rings_notify⟩
  | true =>
    let u := s.uartWritten dc w
    let x := u.uartRead dc rlen.toNat
    rw [show s.uartXfer dc w rlen.toNat = x from State.uartXfer_of_finished hw hfinished hn] at hexec
    have hnow : u.now = s.now + BitVec.ofNat 32 p.ms := State.uartWritten_now hdrifts dc w
    refine ⟨_, p.ms + (u.uartReadPoll dc).ms, hexec, x.finish_busy _, ?now, ?before, ?after⟩
    case now => rw [x.finish_now, u.uartRead_now, hnow, BitVec.add_assoc, ← BitVec.ofNat_add]
    case after =>
      intro hafter
      rw [hp, poll_after hafter] at hfinished
      cases hfinished
    case before =>
      intro tp htp hbefore
      have hms : p.ms = tp := by rw [hp, htp, poll_before_punctual hbefore]
      have hleft : u.remaining dc.bus = s.remaining dc.bus - tp :=
        State.remaining_of_later (by simp [u, State.uartWritten]) (hms ▸ hnow) hbefore
      have hdraw : u.drawRx.1 = r := by rw [u.drawRx_cons r rxs ((s.uartWritten_env_rx dc w).trans hrx)]
      have hgran : u.cfg.pollGranularity = s.cfg.pollGranularity := by simp [u, State.uartWritten]
      have hreceives := (State.uartRead_uartWritten_sameReception hyields dc w rlen.toNat).trans
        (x.finish_sameReception rlen.toNat)
      obtain ⟨hrings, hnotify⟩ := hreceives.rings_notify
      obtain ⟨htxlog, -, -⟩ := (x.finish_sameTraffic rlen.toNat).logsOf dc.bus
      have houtcome := State.uartRead_outcome (s := u) (dc := dc) (p := tp) (left := s.remaining dc.bus) hn
        (hdraw ▸ hlength) (by omega)
      rw [hdraw, hgran, ← hms] at houtcome
      exact ⟨htxlog.trans ((u.uartRead_txlogOf dc _ _).trans (State.uartWritten_txlogOf hfinished)), hrings, hnotify,
        hms ▸ houtcome⟩

end Sys2Proof.Machine
end

section
/-! Which command can answer which status, and on which transport (R154, R166). -/

namespace Sys2Proof.Machine

/-- The statuses that R166 restricts, and the commands and transports it leaves them to; a field about a status that st is
not needs no proof. -/
structure State.mayAnswer (s : State) (i : Instr) (st : BusStatus) : Prop where
  locked : st = .locked → i.mnemonic = .acquire := by nofun
  notOwned : st = .notOwned → i.mnemonic = .release ∨ i.io?.isSome = true := by nofun
  nack : st = .addressNack ∨ st = .dataNack → i.io?.isSome = true ∧
    ∃ dc, s.dev? i.dev = some dc ∧ s.busIs dc.bus .i2c = true := by nofun
  dataNack : st = .dataNack → ∃ d wlen rlen, i.io? = some (d, wlen, rlen) ∧ wlen ≠ 0 := by nofun
  timeout : st = .timeout → i.io?.isSome = true ∧
    ∃ dc, s.dev? i.dev = some dc ∧ (s.busIs dc.bus .i2c = true ∨ s.busIs dc.bus .uart = true) := by nofun
  unknownError : st = .unknownError → i.mnemonic = .release ∨
    (i.io?.isSome = true ∧ ∃ dc, s.dev? i.dev = some dc ∧ s.busIs dc.bus .i2c = true) := by nofun

/-- From s, `i` answered in t a status that R166 leaves to it, and `OVF` only if it reads a ring (R154). -/
def State.answers (s : State) (i : Instr) (t : State) : Prop :=
  ∃ st ovf n, t.resp = respWord st ovf n ∧ s.mayAnswer i st ∧
    (ovf = true → i.mnemonic = .readLine ∨ i.mnemonic = .readAll)

/-- Every command may answer `Ok` and `InvalidArgument`. -/
theorem State.mayAnswer_ok (s : State) (i : Instr) : s.mayAnswer i .ok := { }

theorem State.mayAnswer_invalidArgument (s : State) (i : Instr) : s.mayAnswer i .invalidArgument := { }

theorem State.mayAnswer_notOwned (s : State) {i : Instr} (hi : i.mnemonic = .release ∨ i.io?.isSome = true) :
    s.mayAnswer i .notOwned :=
  { notOwned := fun _ => hi }

theorem State.answers_of_status {s t : State} {i : Instr} {st : BusStatus} {n : Nat}
    (hresp : t.resp = respWord st false n) (hmay : s.mayAnswer i st) : s.answers i t :=
  ⟨st, false, n, hresp, hmay, nofun⟩

theorem State.answers_of_ok {s t : State} {i : Instr} {n : Nat} (hresp : t.resp = respWord .ok false n) :
    s.answers i t :=
  State.answers_of_status hresp (s.mayAnswer_ok i)

theorem State.answers_of_raise_invalidArgument (s : State) (i : Instr) : s.answers i (s.raise .invalidArgument) :=
  State.answers_of_status (s.raise_resp _) (s.mayAnswer_invalidArgument i)

/-! ## The arbiter's commands -/

theorem execAcquire_answers (s : State) (d : DevId) : ∃ t, execAcquire d s = .next t ∧ s.answers (.acquire d) t := by
  have hfree (u : State) (dc : DevCfg) : s.answers (.acquire d) (u.acquireFree d dc) := by
    rcases u.acquireFree_resp d dc with hresp | hresp
    · exact State.answers_of_ok hresp
    · exact State.answers_of_status hresp (s.mayAnswer_invalidArgument _)
  cases hdev : s.dev? d with
  | none => exact ⟨_, execAcquire_of_no_device hdev, s.answers_of_raise_invalidArgument _⟩
  | some dc =>
    rcases execAcquire_cases hdev with ⟨-, -, heq⟩ | ⟨-, -, -, heq⟩ | ⟨-, -, -, heq⟩ | ⟨-, heq⟩
    · exact ⟨_, heq, State.answers_of_ok (State.conclude_resp _ _)⟩
    · exact ⟨_, heq, State.answers_of_status (State.conclude_resp _ _) { locked := fun _ => rfl }⟩
    · exact ⟨_, heq, hfree _ dc⟩
    · exact ⟨_, heq, hfree s dc⟩

theorem execRelease_answers (s : State) (d : DevId) : ∃ t, execRelease d s = .next t ∧ s.answers (.release d) t := by
  have herror : s.mayAnswer (.release d) .unknownError := { unknownError := fun _ => .inl rfl }
  unfold execRelease
  split
  next => exact ⟨_, rfl, s.answers_of_raise_invalidArgument _⟩
  next dc _ =>
    split
    next =>
      refine ⟨_, rfl, ?_⟩
      split
      · exact State.answers_of_ok (State.respond_resp _ _ _ _)
      · exact State.answers_of_status (State.raise_resp _ _) herror
    next => exact ⟨_, rfl, State.answers_of_status (s.raise_resp _) (s.mayAnswer_notOwned (.inl rfl))⟩

theorem execIsOwner_answers (s : State) (d : DevId) : ∃ t, execIsOwner d s = .next t ∧ s.answers (.isOwner d) t := by
  unfold execIsOwner
  split
  next => exact ⟨_, rfl, s.answers_of_raise_invalidArgument _⟩
  next => exact ⟨_, rfl, State.answers_of_ok (State.respond_resp _ _ _ _)⟩

/-! ## The transfers -/

/-- Which statuses an I2C transaction returns (R115, R116). -/
theorem State.i2cXfer_status_cases (s : State) (dc : DevCfg) (w : List Byte) (n : Nat) :
    (s.i2cXfer dc w n).status ∈ ([.ok, .addressNack, .timeout, .unknownError] : List BusStatus) ∨
      ((s.i2cXfer dc w n).status = .dataNack ∧ w ≠ []) := by
  rw [s.i2cXfer_status]
  split
  next =>
    cases s.drawI2c.1.kind with
    | done r => exact .inl (by simp [i2cAdmissible, i2cStatus])
    | addrNack => exact .inl (by simp [i2cAdmissible, i2cStatus])
    | dataNack k => by_cases hw : w = [] <;> simp [i2cAdmissible, i2cStatus, hw]
    | error => exact .inl (by simp [i2cAdmissible, i2cStatus])
  next => exact .inl (by simp)

/-- A UART transfer returns `Ok` or `Timeout` (R138). -/
theorem State.uartXfer_status_cases (s : State) (dc : DevCfg) (w : List Byte) (n : Nat) :
    (s.uartXfer dc w n).status = .ok ∨ (s.uartXfer dc w n).status = .timeout := by
  have hread (u : State) : (u.uartRead dc n).status = .ok ∨ (u.uartRead dc n).status = .timeout := by
    unfold State.uartRead
    dsimp only
    split <;> simp
  unfold State.uartXfer
  dsimp only
  split_ifs
  · exact .inl rfl
  · exact hread s
  · exact .inl rfl
  · exact hread _
  · exact .inr rfl

/-- The command `i` may answer any status its back-end transfer returns. -/
theorem State.xfer_mayAnswer {s : State} {i : Instr} {d : DevId} {wlen rlen : Byte} {dc : DevCfg}
    (hio : i.io? = some (d, wlen, rlen)) (hdev : s.dev? i.dev = some dc) :
    s.mayAnswer i (s.xfer d dc (s.wbufBytes wlen.toNat) rlen.toNat).status := by
  have hsome : i.io?.isSome = true := by rw [hio, Option.isSome_some]
  unfold State.xfer
  split
  next => exact s.mayAnswer_invalidArgument i
  next bc hbus =>
    split
    next hkind =>
      have hi2c : s.busIs dc.bus .i2c = true := by simp [State.busIs, hbus, hkind]
      have hcases := s.i2cXfer_status_cases dc (s.wbufBytes wlen.toNat) rlen.toNat
      exact {
        locked := fun hst => by simp [hst] at hcases
        notOwned := fun hst => by simp [hst] at hcases
        nack := fun _ => ⟨hsome, dc, hdev, hi2c⟩
        dataNack := fun hst => by
          refine ⟨d, wlen, rlen, hio, fun hwlen => ?_⟩
          rw [hst, hwlen] at hcases
          simp [State.wbufBytes, readBytes] at hcases
        timeout := fun _ => ⟨hsome, dc, hdev, .inl hi2c⟩
        unknownError := fun _ => .inr ⟨hsome, dc, hdev, hi2c⟩ }
    next => exact s.mayAnswer_ok i
    next hkind =>
      rcases s.uartXfer_status_cases dc (s.wbufBytes wlen.toNat) rlen.toNat with hst | hst <;> rw [hst]
      · exact s.mayAnswer_ok i
      · exact { timeout := fun _ => ⟨hsome, dc, hdev, .inr (by simp [State.busIs, hbus, hkind])⟩ }

theorem State.ioCommand_answers {s : State} {i : Instr} {d : DevId} {wlen rlen : Byte}
    (hio : i.io? = some (d, wlen, rlen)) : s.answers i (s.ioCommand d wlen rlen) := by
  have hd : i.dev = d := by cases i <;> cases hio <;> rfl
  unfold State.ioCommand
  split
  next => exact s.answers_of_raise_invalidArgument i
  next dc hdev =>
    split_ifs
    · exact s.answers_of_raise_invalidArgument i
    · exact s.answers_of_raise_invalidArgument i
    · exact State.answers_of_status (XferResult.finish_resp _ _) (State.xfer_mayAnswer hio (hd ▸ hdev))
    · exact State.answers_of_status (s.raise_resp _) (s.mayAnswer_notOwned (.inr (by rw [hio, Option.isSome_some])))

/-! ## The UART commands -/

theorem execSetInputHandler_answers (s : State) (d : DevId) (cb : Byte) :
    ∃ t, execSetInputHandler d cb s = .next t ∧ s.answers (.setInputHandler d cb) t := by
  rcases execSetInputHandler_cases d cb s with heq | ⟨dc, -, -, -, heq⟩
  · exact ⟨_, heq, s.answers_of_raise_invalidArgument _⟩
  · exact ⟨_, heq, State.answers_of_ok (State.respond_resp _ _ _ _)⟩

theorem execReadLine_answers (s : State) (d : DevId) (maxlen : Byte) :
    ∃ t, execReadLine d maxlen s = .next t ∧ s.answers (.readLine d maxlen) t := by
  rcases execReadLine_cases d maxlen s with heq | heq
  · exact ⟨_, heq, s.answers_of_raise_invalidArgument _⟩
  · refine ⟨_, heq, ?_⟩
    unfold State.readLine
    dsimp only
    split <;> exact ⟨.ok, _, _, State.respond_resp _ _ _ _, s.mayAnswer_ok _, fun _ => .inl rfl⟩

theorem execReadAll_answers (s : State) (d : DevId) (maxlen : Byte) :
    ∃ t, execReadAll d maxlen s = .next t ∧ s.answers (.readAll d maxlen) t := by
  rcases execReadAll_cases d maxlen s with heq | heq
  · exact ⟨_, heq, s.answers_of_raise_invalidArgument _⟩
  · exact ⟨_, heq, .ok, _, _, State.respond_resp _ _ _ _, s.mayAnswer_ok _, fun _ => .inr rfl⟩

/-! ## Every command -/

theorem exec_answers_status (s : State) (i : Instr) : ∃ t, exec i s = .next t ∧ s.answers i t := by
  cases i with
  | acquire d => exact execAcquire_answers s d
  | release d => exact execRelease_answers s d
  | read d rlen => exact ⟨_, exec_of_io rfl s, State.ioCommand_answers rfl⟩
  | write d wlen => exact ⟨_, exec_of_io rfl s, State.ioCommand_answers rfl⟩
  | transfer d wlen rlen => exact ⟨_, exec_of_io rfl s, State.ioCommand_answers rfl⟩
  | isOwner d => exact execIsOwner_answers s d
  | setInputHandler d cb => exact execSetInputHandler_answers s d cb
  | readLine d maxlen => exact execReadLine_answers s d maxlen
  | readAll d maxlen => exact execReadAll_answers s d maxlen

/-- Settles O49. -/
theorem statusesByCommand : Obligations.StatusesByCommand := by
  intro i s t hexec
  obtain ⟨t', hexec', st, ovf, n, hresp, hmay, hovf⟩ := exec_answers_status s i
  cases hexec'.symm.trans hexec
  exact ⟨st, ovf, n, hresp, hmay.locked, hmay.notOwned, hmay.nack, hmay.dataNack, hmay.timeout, hmay.unknownError, hovf⟩

end Sys2Proof.Machine
end

section
/-! The outcome of an SPI transfer under every environment (R127, R128). -/

namespace Sys2Proof.Machine

/-- Each exchange logs one entry, whatever the slave shifts out and whatever arrives at the yield points. -/
theorem State.spiShift_spilogOf_length (b : BusId) (d : DevId) (n : Nat) : ∀ (s : State) (w : List Byte) (want : Nat),
    ((s.spiShift b d n w want).2.spilogOf b).length = (s.spilogOf b).length + n := by
  induction n with
  | zero => exact fun s w want => rfl
  | succ n ih =>
    intro s w want
    have hfirst : ((s.spiExchange b d w).spilogOf b).length = (s.spilogOf b).length + 1 := by
      rw [s.spiExchange_spilogOf, if_pos rfl, List.length_append, List.length_singleton]
    rw [State.spiShift_succ, ih, hfirst, Nat.add_assoc, Nat.add_comm 1 n]

/-- A transfer of W logs max(wlen, rlen) exchanges on its own bus. -/
theorem State.spiXfer_spilogOf_length (s : State) (d : DevId) (dc : DevCfg) (w : List Byte) (n : Nat) :
    ((s.spiXfer d dc w n).state.spilogOf dc.bus).length = (s.spilogOf dc.bus).length + max w.length n :=
  State.spiShift_spilogOf_length dc.bus d _ s w n

/-- Settles O31. -/
theorem spiTransferAlwaysOk : Obligations.SpiTransferAlwaysOk := by
  intro s i d wlen rlen dc hio hdev hlocked howner hkind hlengths
  let r := s.spiXfer d dc (s.wbufBytes wlen.toNat) rlen.toNat
  have hexec : exec i s = .next (r.finish rlen.toNat) :=
    exec_of_spi hio hdev ((s.owns_iff _ _).2 ⟨hlocked, howner⟩) hkind hlengths
  obtain ⟨-, -, hspilog⟩ := (r.finish_sameTraffic rlen.toNat).logsOf dc.bus
  refine ⟨_, hexec, r.finish_resp _, r.finish_busy _, ?_⟩
  rw [hspilog, s.spiXfer_spilogOf_length, State.wbufBytes, length_readBytes]

end Sys2Proof.Machine
end

section
/-! The receive interrupt (R141 to R144, R178), and the two UART commands that meet it: `SET_INPUT_HANDLER`, which says
whose ring a byte goes to (R140), and `READ_ALL`, whose yield point lets bytes in before its index update (R152). -/

namespace Sys2Proof.Machine

/-! ## When the receive event is enabled (R142) -/

theorem State.rxEnabled_of_no_bus {s : State} {b : BusId} (hbus : s.busCfg? b = none) : s.rxEnabled b = false := by
  have hlisted : s.cfg.buses[b.toNat]? = none := hbus
  simp only [State.rxEnabled, hlisted]

theorem State.rxEnabled_of_bus {s : State} {b : BusId} {bc : BusCfg} (hbus : s.busCfg? b = some bc) :
    s.rxEnabled b = (bc.kind == .uart && bc.uartMode != .txOnly && (s.bus b).up && (s.handler b).isSome) := by
  have hlisted : s.cfg.buses[b.toNat]? = some bc := hbus
  simp only [State.rxEnabled, hlisted]

theorem State.rxEnabled_iff (s : State) (b : BusId) :
    s.rxEnabled b = true ↔
      (∃ bc, s.busCfg? b = some bc ∧ bc.kind = .uart ∧ bc.uartMode ≠ .txOnly) ∧ (s.bus b).up = true ∧
        ∃ h, s.handler b = some h := by
  cases hbus : s.busCfg? b with
  | none => simp [State.rxEnabled_of_no_bus hbus]
  | some bc => simp [State.rxEnabled_of_bus hbus, Option.isSome_iff_exists, and_assoc]

theorem State.rxByte_of_disabled {s : State} {b : BusId} (hdisabled : s.rxEnabled b = false) (x : Byte) :
    s.rxByte b x = s := by
  simp [State.rxByte, hdisabled]

/-- Settles O44. -/
theorem receiveEnabledExactlyWhen : Obligations.ReceiveEnabledExactlyWhen := fun s b x =>
  ⟨s.rxEnabled_iff b, fun hdisabled => State.rxByte_of_disabled hdisabled x⟩

/-! ## What an enabled receive event does, by the room in the ring (R143, R144) -/

theorem Ring.full_iff (cap : Nat) (r : Ring) : r.full cap = true ↔ (r.head + 1) % cap = r.tail := beq_iff_eq

theorem Ring.full_eq_false_iff (cap : Nat) (r : Ring) : r.full cap = false ↔ (r.head + 1) % cap ≠ r.tail := by
  rw [← Bool.not_eq_true, Ring.full_iff]

theorem State.rxByte_of_full {s : State} {b : BusId} {h : Handler} (henabled : s.rxEnabled b = true)
    (hhandler : s.handler b = some h) (hfull : (s.ring h.dev).full s.cfg.ringCap = true) (x : Byte) :
    s.rxByte b x = s.setRing h.dev { s.ring h.dev with ovf := true } := by
  simp only [State.rxByte, henabled, hhandler, hfull, if_true, Ring.receive_of_full hfull]

theorem State.rxByte_of_not_full {s : State} {b : BusId} {h : Handler} (henabled : s.rxEnabled b = true)
    (hhandler : s.handler b = some h) (hroom : (s.ring h.dev).full s.cfg.ringCap = false) (x : Byte) :
    s.rxByte b x = (s.setRing h.dev ((s.ring h.dev).receive s.cfg.ringCap x)).emitNotify
      { dev := h.dev, cb := h.cb, byte := x } := by
  simp [State.rxByte, henabled, hhandler, hroom]

/-- Settles O46. -/
theorem receiveOverflowDropsNewest : Obligations.ReceiveOverflowDropsNewest := by
  intro s b x h henabled hhandler hnext
  have hdropped := State.rxByte_of_full henabled hhandler ((Ring.full_iff _ _).2 hnext) x
  dsimp only
  rw [hdropped]
  refine ⟨?_, fun e he => ?_, rfl⟩
  · rw [State.setRing_ring, if_pos rfl]
  · rw [State.setRing_ring, if_neg he]

/-- The byte stored follows the bytes that were unread (R31, R143). -/
theorem Ring.unread_receive_of_not_full {cap : Nat} {r : Ring} (hhead : r.head < cap) (htail : r.tail < cap)
    (hroom : r.full cap = false) (x : Byte) : (r.receive cap x).unread cap = r.unread cap ++ [x] := by
  have hcount : r.count cap < cap := ringDist_lt (by omega) _ _
  have hbyte : ∀ i, i < cap → (r.receive cap x).byteAt cap i = if i = r.count cap then x else r.byteAt cap i :=
    fun _ => Ring.byteAt_receive_of_not_full hhead htail hroom x
  have holder : ∀ i ∈ List.range (r.count cap), (r.receive cap x).byteAt cap i = r.byteAt cap i := by
    intro i hi
    have hlt := List.mem_range.1 hi
    rw [hbyte i (by omega), if_neg (by omega)]
  rw [Ring.unread, Ring.bytes, Ring.count_receive_of_not_full hhead htail hroom, List.range_succ, List.map_append,
    List.map_congr_left holder, List.map_singleton, hbyte _ hcount, if_pos rfl, Ring.unread, Ring.bytes]

/-- Settles O45. -/
theorem receiveStoresByte : Obligations.ReceiveStoresByte := by
  intro s b x h henabled hhandler hok hnext
  obtain ⟨hhead, htail, -⟩ := hok
  have hroom := (Ring.full_eq_false_iff _ _).2 hnext
  have hstored := Ring.receive_of_not_full hroom x
  have hring : (s.rxByte b x).ring h.dev = (s.ring h.dev).receive s.cfg.ringCap x := by
    rw [State.rxByte_of_not_full henabled hhandler hroom, State.emitNotify_ring, State.setRing_ring, if_pos rfl]
  dsimp only
  rw [hring]
  refine ⟨Ring.unread_receive_of_not_full hhead htail hroom x, ?_⟩
  rw [hstored]
  refine ⟨rfl, rfl, rfl, rfl, fun a => memRead_write _ _ _ _, ?_, fun e he => ?_⟩
  · rw [State.rxByte_of_not_full henabled hhandler hroom]; rfl
  · rw [State.rxByte_of_not_full henabled hhandler hroom, State.emitNotify_ring, State.setRing_ring, if_neg he]

/-! ## What receive events may write (R178) -/

/-- Every register but the rings and `NOTIFY` is the same in both states. -/
def State.sameButReception (s t : State) : Prop := { t with rings := s.rings, notify := s.notify } = s

theorem State.sameButReception.rxByte {s t : State} (same : s.sameButReception t) (b : BusId) (x : Byte) :
    s.sameButReception (t.rxByte b x) := by
  rcases t.rxByte_cases b x with ⟨-, heq⟩ | ⟨h, -, -, ⟨-, heq⟩ | ⟨-, heq⟩⟩ <;> rw [heq] <;> exact same

theorem State.rxBytes_sameButReception (s : State) (es : List (BusId × Byte)) : s.sameButReception (s.rxBytes es) :=
  State.rxBytes_keeps (fun _ b x same => same.rxByte b x) es s rfl

/-- Settles O47. -/
theorem receiveStepRights : Obligations.ReceiveStepRights := fun s es =>
  ⟨fun d => State.rxBytes_tail es d s, fun d hd => State.rxBytes_ring_other es d s hd, State.rxBytes_notify es s,
    s.rxBytes_sameButReception es⟩

/-! ## `SET_INPUT_HANDLER` (R140) -/

theorem execSetInputHandler_of_uart {s : State} {d : DevId} {dc : DevCfg} (hdev : s.dev? d = some dc)
    (hkind : s.busIs dc.bus .uart = true) {cb : Byte} (hmode : cb ≠ 0 → s.busTxOnly dc.bus = false) :
    execSetInputHandler d cb s = .next ((s.register dc.bus d cb).respond .ok false 0) := by
  have huart : ¬ s.busIs dc.bus .uart = false := by simp [hkind]
  have hallowed : ¬ (cb ≠ 0 ∧ s.busTxOnly dc.bus = true) := fun ⟨hcb, htx⟩ => by simp [hmode hcb] at htx
  simp only [execSetInputHandler, hdev, if_neg huart, if_neg hallowed]

theorem State.register_of_registered {s : State} {b : BusId} {d : DevId} (hreg : s.isHandler b d = true) {cb : Byte}
    (hcb : cb ≠ 0) : s.register b d cb = s.setHandler b (some { dev := d, cb := cb }) := by
  rw [State.register, if_neg hcb, if_pos hreg]

theorem State.register_of_not_registered {s : State} {b : BusId} {d : DevId} (hreg : s.isHandler b d = false)
    {cb : Byte} (hcb : cb ≠ 0) :
    s.register b d cb = (s.setRing d (s.ring d).restart).setHandler b (some { dev := d, cb := cb }) := by
  rw [State.register, if_neg hcb, if_neg (by simp [hreg])]

theorem State.unregister_of_registered {s : State} {b : BusId} {d : DevId} (hreg : s.isHandler b d = true) :
    s.register b d 0 = s.setHandler b none := by
  rw [State.register, if_pos rfl, if_pos hreg]

theorem State.unregister_of_not_registered {s : State} {b : BusId} {d : DevId} (hreg : s.isHandler b d = false) :
    s.register b d 0 = s := by
  rw [State.register, if_pos rfl, if_neg (by simp [hreg])]

/-- Settles O36, by whether the device is the handler device already. -/
theorem registerInputHandler : Obligations.RegisterInputHandler := by
  intro s d cb dc hdev hkind hmode hcb
  refine ⟨_, execSetInputHandler_of_uart hdev hkind fun _ => hmode, State.respond_resp _ _ _ _,
    State.respond_busy _ _ _ _, ?_⟩
  cases hreg : s.isHandler dc.bus d with
  | true =>
    rw [State.register_of_registered hreg hcb]
    refine ⟨?_, fun c hc => ?_, fun _ => rfl, nofun, fun e _ => rfl, rfl⟩
    · rw [State.respond_handler, State.setHandler_handler, if_pos rfl]
    · rw [State.respond_handler, State.setHandler_handler, if_neg hc]
  | false =>
    rw [State.register_of_not_registered hreg hcb]
    refine ⟨?_, fun c hc => ?_, nofun, fun _ => ?_, fun e he => ?_, rfl⟩
    · rw [State.respond_handler, State.setHandler_handler, if_pos rfl]
    · rw [State.respond_handler, State.setHandler_handler, if_neg hc, State.setRing_handler]
    · rw [State.respond_ring, State.setHandler_ring, State.setRing_ring, if_pos rfl, Ring.restart]
    · rw [State.respond_ring, State.setHandler_ring, State.setRing_ring, if_neg he]

/-- Settles O37, by whether the device is the handler device. -/
theorem unregisterInputHandler : Obligations.UnregisterInputHandler := by
  intro s d dc hdev hkind
  refine ⟨_, execSetInputHandler_of_uart hdev hkind fun hcb => absurd rfl hcb, State.respond_resp _ _ _ _,
    State.respond_busy _ _ _ _, ?_⟩
  cases hreg : s.isHandler dc.bus d with
  | true =>
    rw [State.unregister_of_registered hreg]
    refine ⟨fun _ => ?_, nofun, fun c hc => ?_, rfl⟩
    · rw [State.respond_handler, State.setHandler_handler, if_pos rfl]
    · rw [State.respond_handler, State.setHandler_handler, if_neg hc]
  | false =>
    rw [State.unregister_of_not_registered hreg]
    exact ⟨nofun, fun _ => rfl, fun c _ => rfl, rfl⟩

/-! ## The index update of `READ_ALL` (R152 to R154) -/

theorem execReadAll_of_readable {s : State} {d : DevId} {dc : DevCfg} (hdev : s.dev? d = some dc)
    (hkind : s.busIs dc.bus .uart = true) (hreg : s.isHandler dc.bus d = true) (maxlen : Byte) :
    execReadAll d maxlen s = .next (s.readAll d maxlen.toNat) := by
  have hreadable : s.ringReadable dc.bus d = true := by rw [State.ringReadable, hkind, hreg]; rfl
  simp only [execReadAll, hdev, if_pos hreadable]

theorem State.sameReception.ring {s t : State} (same : s.sameReception t) (d : DevId) : t.ring d = s.ring d := by
  obtain ⟨hrings, -⟩ := same.rings_notify
  simp only [State.ring, hrings]

/-- The receive events of the yield point see the rings as they were when the command began: the copy into `RBUF` before
them writes no ring (R152). -/
theorem State.readAllYielded_sameReception {s : State} {y : Yield} {ys : List Yield} (hyields : s.env.yields = y :: ys)
    (d : DevId) (maxlen : Nat) : (s.rxBytes y.rx).sameReception (s.readAllYielded d maxlen) := by
  unfold State.readAllYielded State.yieldPoint
  rw [State.drawYield_cons _ y ys (by simpa using hyields)]
  exact State.pass_sameReception (by simp [State.sameReception]) y.rx y.ms

theorem State.readAll_resp (s : State) (d : DevId) (maxlen : Nat) :
    (s.readAll d maxlen).resp =
      respWord .ok ((s.readAllYielded d maxlen).ring d).ovf (min ((s.ring d).count s.cfg.ringCap) maxlen) := rfl

theorem State.readAll_ring (s : State) (d e : DevId) (maxlen : Nat) :
    (s.readAll d maxlen).ring e =
      if e = d then ((s.readAllYielded d maxlen).ring d).consume s.cfg.ringCap
        (min ((s.ring d).count s.cfg.ringCap) maxlen)
      else (s.readAllYielded d maxlen).ring e := by
  rw [(s.readAll_sameTraffic d maxlen).ring, State.setRing_ring]

theorem State.readAll_notify (s : State) (d : DevId) (maxlen : Nat) :
    (s.readAll d maxlen).notify = (s.readAllYielded d maxlen).notify := rfl

theorem Ring.consume_eq (cap n : Nat) (r : Ring) :
    r.consume cap n = { r with
      tail := (r.tail + n) % cap
      ovf := false
      mark := r.mark.bind fun m => if (m + (cap - r.tail % cap)) % cap ≤ n then none else some m } := by
  unfold Ring.consume
  cases r.mark <;> rfl

/-- Settles O42. -/
theorem readAllUpdatesAfterYield : Obligations.ReadAllUpdatesAfterYield := by
  intro s d maxlen dc y ys hdev hkind hreg hyields
  have same := State.readAllYielded_sameReception hyields d maxlen.toNat
  obtain ⟨-, hnotify⟩ := same.rings_notify
  refine ⟨_, execReadAll_of_readable hdev hkind hreg maxlen, ⟨?_, ?_⟩, fun e he => ?_, ?_⟩
  · rw [State.readAll_resp, same.ring]
  · rw [State.readAll_ring, if_pos rfl, same.ring, Ring.consume_eq, State.rxBytes_tail]
  · rw [State.readAll_ring, if_neg he, same.ring]
  · rw [State.readAll_notify, hnotify]

end Sys2Proof.Machine
end

section
/-! The two ring consumers (R147 to R155): the first line of the unread bytes and what a consumer leaves unread, what
`READ_LINE` and `READ_ALL` return, and the frame of both. -/

namespace Sys2Proof.Machine

/-! ## The unread bytes and their first line (R148) -/

/-- The first line ends with the first terminator. -/
theorem lineLength_eq_idxOf_add_one {v : List Byte} (hmem : Config.lineTerminator ∈ v) :
    lineLength v = v.idxOf Config.lineTerminator + 1 := by
  induction v with
  | nil => cases hmem
  | cons x v ih =>
    rw [lineLength]
    split
    next hx => rw [List.idxOf_cons_eq v hx]
    next hx => rw [List.idxOf_cons_ne v hx, ih (List.mem_of_ne_of_mem (Ne.symm hx) hmem)]

@[simp] theorem Ring.length_bytes (cap : Nat) (r : Ring) (n : Nat) : (r.bytes cap n).length = n := by
  simp [Ring.bytes]

@[simp] theorem Ring.length_unread (cap : Nat) (r : Ring) : (r.unread cap).length = r.count cap :=
  r.length_bytes cap _

@[simp] theorem Ring.getElem_unread {cap : Nat} {r : Ring} {i : Nat} (hi : i < (r.unread cap).length) :
    (r.unread cap)[i] = r.byteAt cap i := by
  simp [Ring.unread, Ring.bytes]

/-- A consumer that takes no more than is unread takes the oldest of it (R149, R152). -/
theorem Ring.bytes_eq_take_unread {cap n : Nat} {r : Ring} (hn : n ≤ r.count cap) :
    r.bytes cap n = (r.unread cap).take n := by
  rw [Ring.unread, Ring.bytes, Ring.bytes, ← List.map_take, List.take_range, Nat.min_eq_left hn]

/-- What stays unread is what was not taken. -/
theorem Ring.unread_consume {cap n : Nat} {r : Ring} (hhead : r.head < cap) (htail : r.tail < cap)
    (hn : n ≤ r.count cap) : (r.consume cap n).unread cap = (r.unread cap).drop n := by
  apply List.ext_getElem
  · simp [Ring.count_consume hhead htail hn]
  · intro i _ _
    simp [Ring.byteAt_consume]

/-- A sound ring with a marker has a terminator among its unread bytes (R31). -/
theorem Ring.ok.terminator_mem_unread {cap m : Nat} {r : Ring} (h : r.ok cap) (hm : r.mark = some m) :
    Config.lineTerminator ∈ r.unread cap := by
  obtain ⟨-, -, hmarkOk⟩ := h
  obtain ⟨-, hpos, hle, hlast, -⟩ := (Ring.markOk_iff_of_some hm).1 hmarkOk
  have hlt : r.markOffset cap m - 1 < (r.unread cap).length := by rw [Ring.length_unread]; omega
  rw [← hlast, ← Ring.getElem_unread hlt]
  exact List.getElem_mem hlt

/-- The last byte of the first line is a terminator, and no other is. -/
theorem Ring.firstLine_spec {cap : Nat} {r : Ring} (hmem : Config.lineTerminator ∈ r.unread cap) :
    1 ≤ r.firstLine cap ∧ r.byteAt cap (r.firstLine cap - 1) = Config.lineTerminator ∧
      ∀ k, k + 1 < r.firstLine cap → r.byteAt cap k ≠ Config.lineTerminator := by
  have hlt := List.idxOf_lt_length_of_mem hmem
  rw [Ring.firstLine, lineLength_eq_idxOf_add_one hmem, Nat.add_sub_cancel]
  refine ⟨Nat.le_add_left 1 _, ?_, fun k hk => ?_⟩
  · rw [← Ring.getElem_unread hlt]
    exact List.getElem_idxOf hlt
  · have hfirst : k < (r.unread cap).idxOf Config.lineTerminator := Nat.lt_of_succ_lt_succ hk
    rw [← Ring.getElem_unread (hfirst.trans hlt)]
    simpa using List.not_of_lt_findIdx hfirst

theorem Ring.consume_of_mark {cap m : Nat} {r : Ring} (hm : r.mark = some m) (n : Nat) :
    r.consume cap n = { r with
      tail := (r.tail + n) % cap
      mark := if r.markOffset cap m ≤ n then none else some m
      ovf := false } := by
  rw [Ring.consume, hm]
  rfl

/-- The bytes a ring command copies are what `RBUF` then gives. -/
theorem State.storeRbuf_ringBytes (s : State) (cap : Nat) (r : Ring) (n : Nat) :
    (s.storeRbuf (r.bytes cap n)).rbufBytes n = r.bytes cap n := by
  simpa using s.storeRbuf_bytes (r.bytes cap n)

/-! ## `READ_LINE` (R149, R150) -/

theorem execReadLine_of_readable {s : State} {d : DevId} {dc : DevCfg} (hdev : s.dev? d = some dc)
    (hkind : s.busIs dc.bus .uart = true) (hreg : s.isHandler dc.bus d = true) (maxlen : Byte) :
    execReadLine d maxlen s = .next (s.readLine d maxlen.toNat) := by
  have hreadable : s.ringReadable dc.bus d = true := by rw [State.ringReadable, hkind, hreg]; rfl
  simp only [execReadLine, hdev, if_pos hreadable]

theorem State.readLine_of_no_mark {s : State} {d : DevId} (hm : (s.ring d).mark = none) (maxlen : Nat) :
    s.readLine d maxlen =
      ((s.setRing d { s.ring d with ovf := false }).storeRbuf []).respond .ok (s.ring d).ovf 0 := by
  simp only [State.readLine, hm]

theorem State.readLine_of_mark {s : State} {d : DevId} {m : Nat} (hm : (s.ring d).mark = some m) (maxlen : Nat) :
    s.readLine d maxlen =
      ((s.setRing d ((s.ring d).consume s.cfg.ringCap (min ((s.ring d).firstLine s.cfg.ringCap) maxlen))).storeRbuf
        ((s.ring d).bytes s.cfg.ringCap (min ((s.ring d).firstLine s.cfg.ringCap) maxlen))).respond
        .ok (s.ring d).ovf (min ((s.ring d).firstLine s.cfg.ringCap) maxlen) := by
  simp only [State.readLine, hm]

/-- Settles O40. -/
theorem readLineWithoutLine : Obligations.ReadLineWithoutLine := by
  intro s d maxlen dc hdev hkind hreg hm
  refine ⟨_, execReadLine_of_readable hdev hkind hreg maxlen, ?_⟩
  rw [State.readLine_of_no_mark hm]
  exact ⟨rfl, rfl, by simp, fun e he => by simp [he], rfl⟩

/-- Settles O39: the marker says that an unread terminator exists, and the first line ends at the first of them. -/
theorem readLineReturnsFirstLine : Obligations.ReadLineReturnsFirstLine := by
  intro s d maxlen dc m hdev hkind hreg hok hm
  obtain ⟨hpos, hend, hinside⟩ := Ring.firstLine_spec (hok.terminator_mem_unread hm)
  have hcount := (s.ring d).firstLine_le_count s.cfg.ringCap
  obtain ⟨hhead, htail, -⟩ := hok
  refine ⟨_, (s.ring d).firstLine s.cfg.ringCap, execReadLine_of_readable hdev hkind hreg maxlen, ?_⟩
  rw [State.readLine_of_mark hm]
  have htaken := (Nat.min_le_left ((s.ring d).firstLine s.cfg.ringCap) maxlen.toNat).trans hcount
  generalize min ((s.ring d).firstLine s.cfg.ringCap) maxlen.toNat = n at htaken
  refine ⟨rfl, hpos, hcount, hend, hinside, ⟨rfl, ?_, ?_, ?_⟩, fun e he => by simp [he], rfl⟩
  · rw [State.respond_rbufBytes, State.storeRbuf_ringBytes, Ring.bytes_eq_take_unread htaken]
  · simpa using Ring.unread_consume hhead htail htaken
  · simpa using Ring.consume_of_mark hm n

/-! ## `READ_ALL` (R152, R153) -/

/-- What arrives at the yield point writes no byte of `RBUF`. -/
theorem State.readAll_rbufBytes (s : State) (d : DevId) (maxlen n : Nat) :
    (s.readAll d maxlen).rbufBytes n =
      (s.storeRbuf ((s.ring d).bytes s.cfg.ringCap (min ((s.ring d).count s.cfg.ringCap) maxlen))).rbufBytes n :=
  List.map_congr_left fun a _ => by simp [State.readAll]

theorem State.readAllYielded_tail (s : State) (d e : DevId) (maxlen : Nat) :
    ((s.readAllYielded d maxlen).ring e).tail = (s.ring e).tail :=
  (steady_sameTails s).readAllYielded (fun _ => rfl) d maxlen e

/-- Settles O41. -/
theorem readAllReturnsUnreadBytes : Obligations.ReadAllReturnsUnreadBytes := by
  intro s d maxlen dc hdev hkind hreg
  refine ⟨_, _, execReadAll_of_readable hdev hkind hreg maxlen, rfl, ⟨State.readAll_resp s d _, ?_, ?_⟩, ?_⟩
  · rw [State.readAll_rbufBytes, State.storeRbuf_ringBytes, Ring.bytes_eq_take_unread (Nat.min_le_left _ _)]
  · rw [State.readAll_ring, if_pos rfl, ← s.readAllYielded_tail d d maxlen.toNat]
    rfl
  · rw [State.readAll_ring, if_pos rfl]
    rfl

/-! ## The frame (R149, R152, R155) -/

/-- What a ring command does to the rings, the handlers and the logs: nothing, a write of its own ring, or such a write
after the yield point of `READ_ALL`. -/
theorem ringCommand_cases {s t : State} {i : Instr} {d : DevId} {maxlen : Byte}
    (hi : i = .readLine d maxlen ∨ i = .readAll d maxlen) (hexec : exec i s = .next t) :
    s.sameTraffic t ∨ (∃ r, (s.setRing d r).sameTraffic t) ∨
      ∃ r, ((s.readAllYielded d maxlen.toNat).setRing d r).sameTraffic t := by
  rcases hi with rfl | rfl
  · rcases execReadLine_cases d maxlen s with heq | heq <;> cases heq.symm.trans hexec
    · exact .inl (s.raise_sameTraffic _)
    · rcases s.readLine_cases d maxlen.toNat with same | ⟨n, -, same⟩ <;> exact .inr (.inl ⟨_, same⟩)
  · rcases execReadAll_cases d maxlen s with heq | heq <;> cases heq.symm.trans hexec
    · exact .inl (s.raise_sameTraffic _)
    · exact .inr (.inr ⟨_, s.readAll_sameTraffic d maxlen.toNat⟩)

/-- The ring of another device is as it was, or as the yield point of `READ_ALL` left it. -/
theorem ringCommand_ring_of_ne {s t : State} {i : Instr} {d e : DevId} {maxlen : Byte}
    (hi : i = .readLine d maxlen ∨ i = .readAll d maxlen) (hexec : exec i s = .next t) (he : e ≠ d) :
    t.ring e = s.ring e ∨ t.ring e = (s.readAllYielded d maxlen.toNat).ring e := by
  rcases ringCommand_cases hi hexec with same | ⟨r, same⟩ | ⟨r, same⟩
  · exact .inl (same.ring e)
  · exact .inl (by rw [same.ring, State.setRing_ring, if_neg he])
  · exact .inr (by rw [same.ring, State.setRing_ring, if_neg he])

theorem State.readLine_sameBackdrop (s : State) (d : DevId) (maxlen : Nat) :
    s.sameBackdrop (s.readLine d maxlen) := by
  cases hm : (s.ring d).mark with
  | none => simp [State.readLine_of_no_mark hm, State.sameBackdrop]
  | some m => simp [State.readLine_of_mark hm, State.sameBackdrop]

theorem State.readAll_sameBackdrop (s : State) (d : DevId) (maxlen : Nat) :
    s.sameBackdrop (s.readAll d maxlen) := by
  simp [State.readAll, State.sameBackdrop]

theorem ringCommand_sameBackdrop {s t : State} {i : Instr} {d : DevId} {maxlen : Byte}
    (hi : i = .readLine d maxlen ∨ i = .readAll d maxlen) (hexec : exec i s = .next t) : s.sameBackdrop t := by
  have hraise (st : BusStatus) : s.sameBackdrop (s.raise st) := by simp [State.sameBackdrop]
  rcases hi with rfl | rfl
  · rcases execReadLine_cases d maxlen s with heq | heq <;> cases heq.symm.trans hexec
    · exact hraise _
    · exact s.readLine_sameBackdrop d _
  · rcases execReadAll_cases d maxlen s with heq | heq <;> cases heq.symm.trans hexec
    · exact hraise _
    · exact s.readAll_sameBackdrop d _

/-- Settles O43: its own ring apart, a ring command writes a ring by receive events only, and those move no `TAIL` and
write no ring of an unregistered device. -/
theorem ringCommandFrame : Obligations.RingCommandFrame := by
  intro s t i d maxlen hi hexec
  have hring (e : DevId) (he : e ≠ d) (hnone : s.unregistered e) : t.ring e = s.ring e := by
    obtain ⟨-, hyielded⟩ := (steady_unregistered_ring s e).readAllYielded ⟨hnone, rfl⟩ d maxlen.toNat
    exact (ringCommand_ring_of_ne hi hexec he).elim id (·.trans hyielded)
  have htail (e : DevId) (he : e ≠ d) : (t.ring e).tail = (s.ring e).tail := by
    rcases ringCommand_ring_of_ne hi hexec he with hkept | hyielded
    · rw [hkept]
    · rw [hyielded, State.readAllYielded_tail]
  have harbiter : s.sameArbiter t := by
    have hmnemonic : i.mnemonic ≠ .acquire ∧ i.mnemonic ≠ .release := by
      rcases hi with rfl | rfl <;> exact ⟨nofun, nofun⟩
    obtain ⟨t', heq, same⟩ := exec_sameArbiter i s hmnemonic.left hmnemonic.right
    cases heq.symm.trans hexec
    exact same
  obtain ⟨-, hbuses, hcs⟩ := harbiter
  obtain ⟨hcfg, hcmd, hwbuf, hhandlers, htx, hi2c, hspi, hinputs⟩ := ringCommand_sameBackdrop hi hexec
  exact ⟨hring, htail, fun a => by rw [hwbuf],
    by simp only [hcfg, hcmd, hwbuf, hbuses, hcs, hhandlers, htx, hi2c, hspi, hinputs]⟩

end Sys2Proof.Machine
end
